-- ==== Sys2Proof/Word.lean ====
section
/-!
DEFINITION. The word types of the device (spec/01 R2: all multi-byte data is little-endian, registers are 64-bit).
-/
namespace Sys2Proof

/-- One byte. -/
abbrev Byte := BitVec 8
/-- One halfword of an instruction (spec/04 Table 4.1). -/
abbrev Half := BitVec 16
/-- A 64-bit register value. -/
abbrev Word := BitVec 64
/-- A 512-bit vector register value. -/
abbrev VWord := BitVec 512
/-- The 5-bit number of a g or v register in an a, b or c field. -/
abbrev Reg := BitVec 5
/-- The 3-bit number of a mask register. -/
abbrev KReg := BitVec 3
/-- The 10-bit payload of a prefix halfword (spec/04 Table 4.4). -/
abbrev Payload := BitVec 10

end Sys2Proof
end

