-- ==== Sys2Proof/Syntax.lean ====
section
/-!
DEFINITION. The instructions and hardware events of the device: one constructor of `Instr` per row of
spec/opcode_table.json, in the table's order. Rows 0 to 200 that have an encoding are the instructions of
pages 0 to 6; the other rows are steps of the hardware itself (an arrival, a grant, a timeout).
-/
namespace Sys2Proof

/-- The three kinds of core that execute instructions (spec/04 Table 4.6). -/
inductive CoreKind where
  | worker | memory | control
  deriving DecidableEq, Repr

/-- Element types of page 1 (spec/04 Table 4.6a, codes 0 to 15 in this order). -/
inductive ETy where
  | f32 | bf16 | e4m3 | e5m2 | e2m1 | l6 | s4 | idx3 | n8 | s8 | n16 | s16 | n32 | s32 | i64 | np
  deriving DecidableEq, Repr

/-- Rounding of a floating-point result (spec/04 Table 4.5: `.rn`, `.rz`, `.sr`). -/
inductive Rnd where
  | rn | rz | sr
  deriving DecidableEq, Repr

/-- Reading of a narrow float (spec/13 R230: finite-only, NaN-only, IEEE-like). -/
inductive Reading where
  | finite | nanOnly | ieee
  deriving DecidableEq, Repr

/-- Scopes (spec/04 Table 4.5). -/
inductive Scope where
  | core | clus | dev | sys
  deriving DecidableEq, Repr

/-- Orders of an atomic (spec/06 R119): none, acquire, release, both. -/
inductive AOrd where
  | none | acq | rel | ar
  deriving DecidableEq, Repr

/-- Orders of a fence (spec/06 R124). -/
inductive FOrd where
  | acq | rel | ar | sc
  deriving DecidableEq, Repr

/-- Conditions of `vcmp` (spec/13 R225). -/
inductive VCond where
  | eq | ne | lt | le | un
  deriving DecidableEq, Repr

/-- Operations of `vred` (spec/13 R233). -/
inductive RedOp where
  | add | min | max | amax
  deriving DecidableEq, Repr

/-- Views of `bstat` (spec/09 R186; view 3 is reserved). -/
inductive BView where
  | v0 | v1 | v2
  deriving DecidableEq, Repr

/-- RR operands (spec/04 Table 4.2): without PFX.R a := a op b, with it a := b op c. -/
structure RR where
  a : Reg
  b : Reg
  c : Option Reg := none
  deriving DecidableEq, Repr

/-- RI operands with a 35-bit immediate, already extended (spec/04 R60, Table 4.3). -/
structure RI where
  a : Reg
  c : Option Reg := none
  imm : BitVec 35
  deriving DecidableEq, Repr

/-- Shift by an immediate, 0 to 63 (spec/05 R79). -/
structure ShI where
  a : Reg
  c : Option Reg := none
  sh : BitVec 6
  deriving DecidableEq, Repr

/-- Local load or store operands (spec/06 Table 6.1, R112); `pinc` is the post-increment. -/
structure Mem where
  a : Reg
  b : Reg
  pinc : Bool := false
  deriving DecidableEq, Repr

/-- Bit field operands (spec/05 R85): position `p` and length minus one `l`. -/
structure BF where
  a : Reg
  c : Option Reg := none
  p : BitVec 6
  l : BitVec 6
  deriving DecidableEq, Repr

/-- Remote load or store operands (spec/06 R116). `ord` holds the scope of an ordered form; `sz` is the size class. -/
structure Rem where
  a : Reg
  b : Reg
  sz : BitVec 2 := 0
  ord : Option Scope := none
  deriving DecidableEq, Repr

/-- Atomic operands (spec/06 R119). `w32` is size class 1. -/
structure At where
  a : Reg
  b : Reg
  c : Reg
  w32 : Bool := false
  ord : AOrd := .none
  scope : Scope := .core
  deriving DecidableEq, Repr

/-- Operands of a page-1 instruction (spec/13 Table 13.1): type, rounding, `.sat`, the stagger bits of a, b and c,
the registers, and the mask register `k`. -/
structure VOp where
  ty : ETy := .f32
  rnd : Rnd := .rn
  sat : Bool := false
  sa : Bool := false
  sb : Bool := false
  sc : Bool := false
  a : Reg
  b : Reg
  c : Option Reg := none
  k : KReg := 0
  deriving DecidableEq, Repr

/-- One row of spec/opcode_table.json each, in the table's order. -/
inductive Instr where
  -- page 0 (spec/05, spec/06)
  | nop | brk (n : BitVec 5) | ret | jr (a : Reg) | bbset (a : Reg) | bbflush
  | add (o : RR) | sub (o : RR) | and (o : RR) | or (o : RR) | xor (o : RR) | andn (o : RR)
  | shl (o : RR) | shr (o : RR) | sra (o : RR) | rot (o : RR) | mul (o : RR) | mulh (o : RR) | mulhn (o : RR)
  | div (o : RR) | divn (o : RR) | rem (o : RR) | remn (o : RR)
  | min (o : RR) | max (o : RR) | minn (o : RR) | maxn (o : RR)
  | mov (a b : Reg) | addi (o : RI) | li (a : Reg) (imm : BitVec 35) | andi (o : RI) | ori (o : RI) | xori (o : RI)
  | cmpeq (o : RR) | cmpne (o : RR) | cmplt (o : RR) | cmpltn (o : RR) | cmple (o : RR) | cmplen (o : RR)
  | sel (a b c : Reg) | shli (o : ShI) | shri (o : ShI) | srai (o : ShI)
  | b (off : BitVec 40) | beqz (a : Reg) (off : BitVec 35) | bnez (a : Reg) (off : BitVec 35)
  | bltz (a : Reg) (off : BitVec 35) | loop (a : Reg) (off : BitVec 35) | bgez (a : Reg) (off : BitVec 35)
  | call (off : BitVec 40)
  | ldN8 (o : Mem) | ldS8 (o : Mem) | ldN16 (o : Mem) | ldS16 (o : Mem) | ldN32 (o : Mem) | ldS32 (o : Mem)
  | ld64 (o : Mem) | st8 (o : Mem) | st16 (o : Mem) | st32 (o : Mem) | st64 (o : Mem)
  | popc (a b : Reg) | clz (a b : Reg) | ctz (a b : Reg)
  | bfx (o : BF) | bfxs (o : BF) | bfi (a c : Reg) (p l : BitVec 6) | lea (a b c : Reg) (sh : BitVec 2)
  | bbget (a : Reg) (n : BitVec 6) | bbgets (a : Reg) (n : BitVec 6) | bbpeek (a : Reg) (n : BitVec 6)
  | bbskip (n : BitVec 6) | bbput (a : Reg) (n : BitVec 6)
  -- page 1 (spec/13)
  | vmov (o : VOp) | vmovToMask (a : KReg) (b : Reg) | vmovFromMask (a : Reg) (b : KReg)
  | vadd (o : VOp) | vsub (o : VOp) | vmul (o : VOp) | vfma (o : VOp) | vfms (o : VOp) | vmin (o : VOp)
  | vmax (o : VOp) | vabs (o : VOp) | vneg (o : VOp) | vand (o : VOp) | vor (o : VOp) | vxor (o : VOp)
  | vshl (o : VOp) | vshr (o : VOp) | vsra (o : VOp) | vcmp (o : VOp) (cond : VCond) | vsel (o : VOp)
  | vsplat (o : VOp) | vrcp (o : VOp) | vrsq (o : VOp) | vexp2 (o : VOp) | vlog2 (o : VOp) | vtanh (o : VOp)
  | vcvt (o : VOp) (st : ETy) (p : BitVec 3) | vqnt (o : VOp) (rd : Reading) | vdqt (o : VOp) (rd : Reading)
  | vamax (o : VOp) (rd : Reading) | vred (o : VOp) (op : RedOp) | vperm (o : VOp) | vrot (o : VOp)
  | vext (o : VOp) | vins (o : VOp) | vtrn (o : VOp) | vlut (o : VOp) | vld (o : VOp) (sz : BitVec 2)
  | vldp (o : VOp) (np : BitVec 2) | vgath (o : VOp) | vst (o : VOp) (sz : BitVec 2)
  | vstp (o : VOp) (np : BitVec 2) | vscat (o : VOp) | vpupd (o : VOp) | vdot (o : VOp)
  | bbgetv (ty : ETy) (sa : Bool) (a : Reg) (w : Reg)
  | vrep (a : Reg) (n : BitVec 5) | vend (a : Reg) | vwait
  | sequencerIssue (core rep : Nat)
  -- page 2 (spec/16)
  | mfmt (o : RR) | mldb (o : RR) | mmul (t : BitVec 2) (b c : Reg) (z d : Bool) | mzero (t : BitVec 2)
  | mwr (t : BitVec 2) (b : Reg) | mrd (t : BitVec 2) (b : Reg) (nr : BitVec 5) | mdup (a b : Reg)
  | mvld (b : Reg) | mvldR (b : Reg) | mspec (t : BitVec 2) | mcommit (t : BitVec 2) | mdiscard (t : BitVec 2)
  | mbar | mstat | mslot (a b : Reg) | mwgt (a : Reg) | matrixGrant (cl : Nat) | matrixCommandComplete (cl : Nat)
  -- page 3 (spec/05, spec/06, spec/09, spec/18)
  | ldg (o : Rem) | stg (o : Rem) | aadd (o : At) | aand (o : At) | aor (o : At) | axor (o : At) | amin (o : At)
  | amax (o : At) | aminn (o : At) | amaxn (o : At) | amaxf (o : At) | aswp (o : At) | acas (o : At)
  | aincW (o : At) | afaddB (o : At) | fence (ord : FOrd) (scope : Scope)
  | push (a : Reg) (p : BitVec 4) | pop (a : Reg) (p : BitVec 4) | fstat (a : Reg) (p : BitVec 4)
  | start (a : Reg) (off : BitVec 35) | hwait (a : Reg) | hexit | hstat (a b : Reg)
  | gang (n : BitVec 5) | split | syncH (l : BitVec 3) | syncS (l : BitVec 3) (nos : Bool) | exch (b : Reg)
  | dom (a : Reg) (l : BitVec 3) | bstat (a : Reg) (view : BView) (l : BitVec 3) | evsig (n : BitVec 5)
  | cpy (b : Reg) | cpyq (a b : Reg) | uiret | uien (a : Reg) (n : Bool)
  -- page 4 (spec/06)
  | crd (a : Reg) (n : BitVec 6) | cwr (a : Reg) (n : BitVec 6) | trap (n : BitVec 10) | tret | halt | wfe
  -- page 5 (spec/20, spec/21, spec/23)
  | lgbind (a b : Reg) | lgunbind (a : Reg) | lgnext (a b : Reg) | lgok | lgflag (a : Reg) | lgemit (a b : Reg)
  | lglim (a b : Reg) | contain | xreq (a b : Reg) | xres (a : Reg) | npost (a b : Reg) | npoll (a b : Reg)
  -- page 6 (spec/18)
  | mcld (a b c : Reg) | mcst (a b c : Reg) | mcpush (a b c : Reg) | mcgath (a b c : Reg) (vm : Bool)
  | mcwait | mctlb (a : Reg) | mcsig (a : Reg)
  -- hardware events
  | transferComplete (mc k : Nat) | mcCommandArrival (core : Nat)
  | fifoPushStore (o : Mem) | fifoPopLoad (o : Mem) | fifoFstatLoad (o : Mem) | controlWindowRegStore (o : Mem)
  | waitWordLoad (o : Mem) (sgn : Bool) | fireWordStore (o : Mem) | bindWordStore (o : Mem)
  | eventMessage (k : Nat)
  | lockWordLoad (o : Mem) (sgn : Bool) | lockWordStore (o : Mem) | arriveWordLoad (o : Mem) (sgn : Bool)
  | maskWordStore (o : Mem)
  | syncRelease (core lvl : Nat) | groupRelease | syncBreak (core lvl : Nat)
  | exchangeFlitInject (core : Nat) | exchangeCount (core : Nat) | exchangeCombineEnd (core : Nat)
  | meshArrivalWrite (k : Nat) | remoteLoadServe (k : Nat) | remoteLoadReply (k : Nat) | storeAck (k : Nat)
  | atomicExecute (k : Nat) | atomicReply (k : Nat)
  | userInterruptEntry (core : Nat) | faultEntry (core : Nat)
  | copyAccept (core : Nat) | copyPiece (id lo hi : Nat) | copyDestAck (id home : Nat) | copyComplete (id : Nat)
  | blockHash (cl : Nat) | snapshotDelta (cl : Nat) | fieldPack (cl : Nat) | fieldUnpack (cl : Nat)
  | crc32c (cl : Nat) | transformComplete (cl : Nat)
  | recordCloseTimeout (core : Nat) | recordRingWrite (k : Nat) | recordDispatch (core : Nat)
  | bindMessage (k : Nat) | bindAck (k : Nat) | unbindMessage (k : Nat) | unbindAck (k : Nat)
  | publicationArrival (k : Nat) | flagArrival (k : Nat) | limitMessage (k : Nat)
  | preemptionRequest (task : Nat) | contextSave (task : Nat) | resume (task : Nat)
  | quarantine (core src : Nat) | bandRemap (band : Nat) | powerOn
  | frameReceive (port : Nat) (bytes : List Byte) | miliumData (port : Nat) | miliumAck (port : Nat)
  | miliumConnect (port : Nat) | miliumClose (port : Nat) | miliumReset (port : Nat)
  | retransmitTimeout (port conn : Nat) | ackDelayExpiry (port conn : Nat) | peerWindowAccess (port k : Nat)
  | portMessage (port k : Nat) | allReduce (port k : Nat) | allGather (port k : Nat) | setGroup (port k : Nat)
  | collectiveChunkArrival (port k : Nat) | collectiveStepTimeout (port k : Nat)
  | collectiveResetArrival (port k : Nat) | portCommandComplete (port k : Nat)
  | ptmrExpiry (cc : Nat) | keySlotStore (o : Rem) | measExtend (o : Rem) | sdigWrite (o : Rem)
  | mwgtStore (o : Rem) | mslotStore (o : Rem) | tlbInvalidateStore (o : Rem) | rootWordStore (o : Rem)
  | launch (e x y : Nat) | privilegedWrite (o : Rem)
  | taskSubmit (port k : Nat) | queuePrefetch (q : Nat) | taskAdmit (q : Nat) | versionRetire (vm k : Nat)
  | taskCompletion (e : Nat) | tokenBucketTick | budgetPeriod (pw : Nat) | shareRatioTick | compactionHold (e : Nat)
  | getVersion (port k : Nat) | getCapabilities (port k : Nat) | negotiateAlgorithms (port k : Nat)
  | getDigests (port k : Nat) | getCertificate (port k : Nat) | challenge (port k : Nat)
  | getMeasurements (port k : Nat) | memoryError (addr : Nat) (unc : Bool) | powerLoss
  | linkStateChange (port link : Nat) (up : Bool)
  deriving DecidableEq, Repr

end Sys2Proof
end

