-- ==== Sys2Proof/Config.lean ====
section
/-!
DEFINITION. Free values and what an implementation fixes: constants without a body, so that nothing can be proved of
the value. A statement about them holds for every value.
-/
namespace Sys2Proof.Config

/-- Cycles that pass in step `n` (spec/03: timing outside the contract; log entry 4). -/
opaque elapsed : Nat → Nat

/-- The hardware event that acts after step `n`; `none` lets a context issue. The order of agents is not fixed by the spec
outside the timing contract. -/
opaque eventAt : Nat → Option Instr

/-- The core whose turn it is after step `n`. -/
opaque coreAt : Nat → Nat

/-- At step `n` the next instruction of context `c` (0 control, 1 to 10 the helpers) of that core is not ready: it waits for a latency or an
occupancy of spec/03 Table 3.7, which the model does not time (log entries 4, 5). -/
opaque stalled : Nat → Nat → Bool

/-- At step `n` the operands of the next body instruction of repetition `j` are not ready (spec/13 R247, spec/03 R50), in the same way. -/
opaque bodyStalled : Nat → Nat → Bool

/-- How many halfwords beyond the instruction the fetch buffer takes at step `n` (spec/04 R73: up to 128 bytes ahead). -/
opaque fetchAhead : Nat → Nat

/-- Entry of a full TLB or walk cache that a successful walk replaces (spec/17 R301: chosen by the implementation). -/
opaque victim : Nat → Nat

/-- Split fuse of a port (spec/25 R407): two links of 400 Gbit/s. -/
opaque fuseSplit : Nat → Bool

/-- Port engine that carries an access of window `w`, and the one that takes the commands of core `i` (the spec gives two
engines and one window table shared by both). -/
opaque windowPort : Nat → Bool
opaque commandPort : Nat → Bool

/-- Doubleword `d` of the migration report of page `pg` of VM `vm`, asked for by core `i`: the spec gives it no layout. -/
opaque reportWord : Nat → Nat → Nat → Nat → BitVec 64

/-- The group word of this device (spec/03 Table 3.3): the launch unit writes it into `dm6`, and the spec does not say from where. -/
opaque groupWord : BitVec 64

/-- Port engine of the connection that takes a queue's completion records (spec/25 R414). -/
opaque queuePort : Nat → Bool

/-- Acts of system software on a port that the spec names without giving the means (spec/23 R378, R380, spec/25 R411, R414): the Milium port
number, arming of a UDP port and address, opening a connection with the C-tag of its frames, closing it, resetting it, binding one to a queue, and making one a management connection. -/
inductive PortAct where
  | number (p : Nat) (n : BitVec 16)
  | arm (p : Nat) (udp : BitVec 16) (addr : Nat)
  | disarm (p : Nat) (udp : BitVec 16) (addr : Nat)
  | connect (p c addr : Nat) (ipsn : BitVec 32) (rto : Nat) (tag : Option (BitVec 12 × BitVec 3))
  | close (p c : Nat)
  | abort (p c : Nat)
  | bindQueue (p c q : Nat)
  | manage (p c : Nat)
  deriving DecidableEq, Repr

/-- A call of a policy plug-in (spec/25 R427): control core, VM, address of the candidate list, and the plug-in's address, with log₂ of the sizes of
the two guards' regions. The spec does not say where they lie or how the scheduler and the monitor set them. -/
structure PlugAct where
  cc : Nat
  vm : Nat
  list : BitVec 18
  code : BitVec 18
  lsize : BitVec 6
  csize : BitVec 6
  deriving DecidableEq, Repr

/-- The call that the scheduler makes instead of issuing at step `n`, if any. -/
opaque plugAct : Nat → Option PlugAct

/-- The control core, 1 to 7, that stage 1 starts instead of issuing at step `n`, if any, and its first PC (spec/25 R409: the spec gives no means). -/
opaque startAct : Nat → Option (Fin 8 × BitVec 17)

/-- The move of a partition border that the controller chooses at its `n`-th millisecond, if any: the VM that grows, the VM that gives, and
their new rectangle words. The spec does not say which border moves or how far (spec/25 R422). -/
opaque borderMove : Nat → Option (BitVec 8 × BitVec 64 × BitVec 8 × BitVec 64)

/-- The act that follows step `n`, if any. -/
opaque portAct : Nat → Option PortAct

/-! The boot ROM's inputs (spec/25 R407, R408): fuses, the flash or what the boot server serves, by slot. -/
opaque fuseEkh : List (BitVec 8)
opaque fuseLkh : List (BitVec 8)
opaque fuseSvn : Nat
opaque fuseBsrc : Bool
opaque fuseBport : BitVec 16
/-- Own Ethernet address, boot server's address and VLAN id (spec/25 R407). -/
opaque fuseMac : List (BitVec 8)
opaque fuseBsrv : List (BitVec 8)
opaque fuseBvid : BitVec 12
/-- The fuse values (spec/25 R407). -/
structure Fuses where
  ekh : List (BitVec 8)
  lkh : List (BitVec 8)
  svn : Nat
  bsrc : Bool
  mac : List (BitVec 8)
  bsrv : List (BitVec 8)
  bport : BitVec 16
  bvid : BitVec 12
  split : Bool × Bool
  deriving DecidableEq, Repr
/-- The fuse values in the layout in which the ROM hashes them, which the spec does not give. -/
opaque fuseLayout : Fuses → List (BitVec 8)
def fuses : Fuses := ⟨fuseEkh, fuseLkh, fuseSvn, fuseBsrc, fuseMac, fuseBsrv, fuseBport, fuseBvid, (fuseSplit 0, fuseSplit 1)⟩
def fuseBytes : List (BitVec 8) := fuseLayout fuses
/-- Under network boot: how many solicitations go out before an advertisement answers, if one does; how many connects go out before the boot
server's connect answers, if it does, and what that names: its connection number and first `psn`; and this side's first `psn`. -/
opaque solicits : Option (Fin 8)
opaque bootConnects : Option (Fin 8)
opaque bootPeer : BitVec 32
opaque bootPsn : BitVec 32
opaque bootIpsn : BitVec 32
/-- A byte of the flash. -/
opaque flash : Nat → BitVec 8
/-- Under network boot: the bytes that the boot server answers for a range of a slot, none when the range cannot be read in full. -/
opaque served : Nat → Nat → Nat → Option (List (BitVec 8))

/-! The SPDM responder (spec/25 R411): the alias key's signature of a message, the chain of slot 0, and fields of DSP0274 that the spec
leaves to the responder. -/
opaque sign : List (BitVec 8) → List (BitVec 8)
opaque certChain : List (BitVec 8)
opaque spdmExponent : BitVec 8
opaque measType : Nat → BitVec 8
/-- `meas`j belongs to the summary of type 1. -/
opaque measTcb : Nat → Bool
/-- Cycles that the signing of a response takes, begun at step `n`. -/
opaque signTime : Nat → Nat

/-- Where the DRAM copy of the monitor and scheduler image lies, its bytes, and the local address that it is loaded at (spec/25 R428). -/
opaque schedPa : BitVec 32
opaque schedLen : BitVec 18
opaque schedAt : BitVec 18

/-- Parts of a launch's image that lie in the DRAM window, as address and bytes (spec/19 R334): the launch record has no field for them. -/
opaque dramParts : List (BitVec 8) → List (Nat × List (BitVec 8))

/-- Contents of a message of the Milium transport whose layout on the wire the spec does not give (window accesses, replies,
collective chunks): its kind, its numeric fields and its data. -/
opaque wireKind : List (BitVec 8) → Nat
opaque wireField : List (BitVec 8) → Nat → Nat
opaque wireData : List (BitVec 8) → List (BitVec 8)

/-- Plane `j` of a NaN that the finite-only reading narrows to a plane 0 of +0, written at scale `c`: spec/12 R209 defines no digit of a NaN
residual. -/
opaque nanDigit : Nat → Nat → BitVec 8

/-- A data packet sent at step `n` asks for an ack (spec/23 Table 23.2): the spec does not say when a sender asks. -/
opaque ackAsked : Nat → Bool

/-- Bytes that the layout of a collective packet, which the spec does not give, puts before its elements. -/
opaque chunkHead : BitVec 7

/-- What a port's frames hold besides the fields of spec/23: the Ethernet address of port 1, the ports' own addresses, the Ethernet address of a destination (resolved by firmware), the
hop limit or time to live, and the UDP port that it sends from. -/
opaque portMac : BitVec 48
opaque ownAddr : Nat → Nat
opaque neighbour : Nat → Nat → Nat
opaque hopLimit : BitVec 8
opaque udpSource : Nat → BitVec 16

/-- A value that the spec states no layout or result for, at its `n`-th use. -/
opaque unstated : Nat → BitVec 64

end Sys2Proof.Config
end

