-- ==== Sys2Proof/WellFormed.lean ====
section
/-!
DEFINITION. Well-formed instructions: the limits that the entries of spec/05, spec/06, spec/09, spec/13, spec/16 and
spec/18 set on operand and qualifier fields. An instruction outside them has no words (its encoding fails check 10
or 11 of spec/04 Table 4.7).
-/
namespace Sys2Proof

namespace ETy

/-- Class F of spec/13 R220. -/
def isF : ETy → Bool
  | .f32 | .bf16 => true
  | _ => false

/-- Class I of spec/13 R220: codes 8 to 14. -/
def isI : ETy → Bool
  | .n8 | .s8 | .n16 | .s16 | .n32 | .s32 | .i64 => true
  | _ => false

/-- Class W of spec/13 R220: codes 0 to 3 and 8 to 14. -/
def isW : ETy → Bool
  | .f32 | .bf16 | .e4m3 | .e5m2 => true
  | t => t.isI

/-- Class A of spec/13 R220: every code but 15. -/
def isA : ETy → Bool
  | .np => false
  | _ => true

/-- Class Q of spec/13 R220. -/
def isQ : ETy → Bool
  | .e4m3 | .e5m2 | .e2m1 | .l6 | .s4 | .s8 => true
  | _ => false

/-- The 8-, 16- and 32-bit types of class W (spec/13 Table 13.2, `vtrn` and `vlut`). -/
def isT (t : ETy) : Bool := t.isW && (t != .i64)

/-- The types of `vdot` (spec/13 Table 13.2). -/
def isD : ETy → Bool
  | .s4 | .s8 | .n8 | .s16 | .n16 => true
  | _ => false

/-- The binary floating-point types, wide and narrow (spec/11 R194). -/
def isFloat : ETy → Bool
  | .f32 | .bf16 | .e4m3 | .e5m2 | .e2m1 => true
  | _ => false

/-- The integer types (spec/11 R193). -/
def isInt : ETy → Bool
  | .s4 | .idx3 => true
  | t => t.isI

/-- Elements per register (spec/11 Table 11.1); a plane-aware access handles 16 (spec/13 R241). -/
def lanes : ETy → Nat
  | .f32 | .n32 | .s32 | .np => 16
  | .bf16 | .n16 | .s16 => 32
  | .e4m3 | .e5m2 | .l6 | .n8 | .s8 => 64
  | .e2m1 | .s4 | .idx3 => 128
  | .i64 => 8

/-- Element width in bits (spec/11 Table 11.1). -/
def width : ETy → Nat
  | .f32 | .n32 | .s32 | .np => 32
  | .bf16 | .n16 | .s16 => 16
  | .e4m3 | .e5m2 | .n8 | .s8 => 8
  | .l6 => 6
  | .e2m1 | .s4 => 4
  | .idx3 => 3
  | .i64 => 64

end ETy

/-- How a page-1 instruction uses PFX.R (spec/13 Table 13.2): "Mask", "Opt" or "Req". -/
inductive CUse where
  | mask | opt | req
  deriving DecidableEq, Repr

/-- What a page-1 instruction accepts in its prefixes (spec/13 Table 13.2, R220, R221): types, rounding, `.sat`,
stagger of a, b and c, PFX.R, whether the mask field is used, and the largest size class. -/
structure VRow where
  ty : ETy → Bool
  rnd : ETy → Bool := fun _ => false
  sat : ETy → Bool := fun _ => false
  sa : Bool := true
  sb : Bool := true
  sc : Bool := false
  cuse : CUse := .mask
  mask : Bool := true

namespace VRow
def mov : VRow := ⟨ETy.isA, fun _ => false, fun _ => false, true, true, false, .mask, true⟩
def arith : VRow := ⟨fun t => t.isF || t.isI, ETy.isF, fun _ => true, true, true, true, .opt, true⟩
def fma : VRow := ⟨ETy.isF, fun _ => true, fun _ => true, true, true, true, .req, true⟩
def minmax : VRow := ⟨fun t => t.isF || t.isI, fun _ => false, fun _ => false, true, true, true, .opt, true⟩
def absneg : VRow := ⟨fun t => t.isF || t.isI, fun _ => false, ETy.isI, true, true, false, .mask, true⟩
def logic : VRow := ⟨ETy.isA, fun _ => false, fun _ => false, true, true, true, .opt, true⟩
def shift : VRow := ⟨ETy.isI, fun _ => false, fun _ => false, true, true, true, .opt, true⟩
def cmp : VRow := ⟨ETy.isA, fun _ => false, fun _ => false, false, true, true, .req, true⟩
def sel : VRow := ⟨ETy.isA, fun _ => false, fun _ => false, true, true, true, .req, true⟩
def splat : VRow := ⟨ETy.isA, fun _ => false, fun _ => false, true, false, false, .mask, true⟩
def special : VRow := ⟨ETy.isF, fun _ => true, fun _ => true, true, true, false, .mask, true⟩
def qnt : VRow := ⟨ETy.isQ, fun t => !t.isInt, fun _ => true, true, true, false, .req, true⟩
def dqt : VRow := ⟨ETy.isQ, fun _ => true, fun _ => false, true, true, false, .req, true⟩
def amax : VRow := ⟨ETy.isQ, fun _ => false, fun _ => false, true, true, false, .mask, true⟩
def red : VRow := ⟨ETy.isA, fun _ => false, fun _ => true, true, true, false, .mask, true⟩
def perm : VRow := ⟨ETy.isW, fun _ => false, fun _ => false, true, true, true, .opt, true⟩
def rot : VRow := ⟨ETy.isW, fun _ => false, fun _ => false, true, true, false, .req, true⟩
def ext : VRow := ⟨ETy.isA, fun _ => false, fun _ => false, false, true, false, .opt, false⟩
def ins : VRow := ⟨ETy.isA, fun _ => false, fun _ => false, true, false, false, .opt, false⟩
def trn : VRow := ⟨ETy.isT, fun _ => false, fun _ => false, true, true, false, .mask, true⟩
def lut : VRow := ⟨ETy.isT, fun _ => false, fun _ => false, true, true, true, .opt, true⟩
def ld : VRow := ⟨ETy.isW, fun _ => false, fun _ => false, true, true, false, .mask, true⟩
def gath : VRow := ⟨ETy.isW, fun _ => false, fun _ => false, true, true, true, .req, true⟩
def ldp : VRow := ⟨fun t => t == .np, fun _ => false, fun _ => false, true, false, true, .req, true⟩
def stp : VRow := ⟨fun t => t == .np, fun _ => true, fun _ => true, true, false, true, .req, true⟩
def pupd : VRow := ⟨fun t => t == .np, fun _ => true, fun _ => true, true, false, true, .req, true⟩
def dot : VRow := ⟨ETy.isD, fun _ => false, fun _ => true, true, true, true, .req, true⟩

/-- The qualifier part of check 10 for a page-1 instruction whose row is `r`. -/
def accepts (r : VRow) (o : VOp) : Bool :=
  r.ty o.ty && (o.rnd == .rn || r.rnd o.ty) && (!o.sat || r.sat o.ty)
    && (!o.sa || r.sa) && (!o.sb || r.sb) && (!o.sc || (r.sc && o.c.isSome))

/-- The PFX.R part: the c operand is there exactly as the row says, and no mask stands where none is used. -/
def regs (r : VRow) (o : VOp) : Bool :=
  (match r.cuse with
   | .mask => o.c.isNone
   | .opt => o.c.isSome || o.k == 0
   | .req => o.c.isSome)
  && (r.mask || o.k == 0)

def wf (r : VRow) (o : VOp) : Bool := r.accepts o && r.regs o
end VRow

/-- A source type of `vcvt` (spec/13 R229): not np, and not the destination type. -/
def cvtOk (o : VOp) (st : ETy) : Bool := st.isA && st != o.ty

/-- Parts that a conversion distinguishes (spec/13 R229): q of the two lane counts. -/
def cvtParts (dt st : ETy) : Nat :=
  if st.lanes ≤ dt.lanes then dt.lanes / st.lanes else st.lanes / dt.lanes

/-- The readings that a type admits (spec/13 R230): only finite-only for `.l6`, `.s4` and `.s8`. -/
def readingOk (t : ETy) (rd : Reading) : Bool :=
  rd == .finite || (t == .e4m3 || t == .e5m2 || t == .e2m1)

/-- On an integer result the rounding field must be 0 (spec/13 R220). -/
def cvtRow : VRow := ⟨ETy.isA, fun t => !t.isInt, fun _ => true, true, true, false, .req, true⟩

/-- Control register numbers that some kind of core has (spec/06 Table 6.12; 56 is `ptmr`, spec/25 R399). -/
def ctlNumber (n : BitVec 6) : Bool := n.toNat ≤ 56 && n.toNat ≠ 39

/-- Control registers that `cwr` never writes (spec/06 Table 6.12). -/
def ctlReadOnly (n : BitVec 6) : Bool :=
  n.toNat ≤ 12 || n.toNat == 20 || n.toNat == 24 || (26 ≤ n.toNat && n.toNat ≤ 30)
    || (32 ≤ n.toNat && n.toNat ≤ 34)

/-- A `loop` offset is at least 1 (spec/02 R27). -/
def loopOff (off : BitVec 35) : Bool := 1 ≤ off.toNat && off.toNat < 2 ^ 34

/-- A sync level of 2 to 6 (spec/03 R32). -/
def levelOk (l : BitVec 3) : Bool := 2 ≤ l.toNat && l.toNat ≤ 6

def bbCount (n : BitVec 6) : Bool := 1 ≤ n.toNat && n.toNat ≤ 32

def bfOk (p l : BitVec 6) : Bool := p.toNat + l.toNat + 1 ≤ 64

/-- An ordered remote access names a scope other than `.core` (spec/06 R116). -/
def remOk (o : Rem) : Bool := o.ord != some .core

/-- Operand and qualifier limits of each instruction. The hardware events carry no encoded field. -/
def Instr.wf : Instr → Bool
  | .ldN8 o | .ldS8 o | .ldN16 o | .ldS16 o | .ldN32 o | .ldS32 o | .ld64 o => !(o.pinc && o.a == o.b)
  | .loop _ off => loopOff off
  | .bfx o | .bfxs o => bfOk o.p o.l
  | .bfi _ _ p l => bfOk p l
  | .bbget _ n | .bbgets _ n | .bbpeek _ n | .bbskip n | .bbput _ n => bbCount n
  | .vmov o => VRow.mov.wf o
  | .vmovToMask a _ => a != 0
  | .vadd o | .vsub o | .vmul o => VRow.arith.wf o
  | .vfma o | .vfms o => VRow.fma.wf o
  | .vmin o | .vmax o => VRow.minmax.wf o
  | .vabs o | .vneg o => VRow.absneg.wf o
  | .vand o | .vor o | .vxor o => VRow.logic.wf o
  | .vshl o | .vshr o | .vsra o => VRow.shift.wf o
  | .vcmp o c => VRow.cmp.wf o && 1 ≤ o.a.toNat && o.a.toNat ≤ 7 && (c != .un || o.ty.isFloat)
  | .vsel o => VRow.sel.wf o
  | .vsplat o => VRow.splat.wf o
  | .vrcp o | .vrsq o | .vexp2 o | .vlog2 o | .vtanh o => VRow.special.wf o
  | .vcvt o st p => cvtRow.accepts o && o.c == none && cvtOk o st && p.toNat < cvtParts o.ty st
  | .vqnt o rd => VRow.qnt.wf o && readingOk o.ty rd
  | .vdqt o rd => VRow.dqt.wf o && readingOk o.ty rd
  | .vamax o rd => VRow.amax.wf o && readingOk o.ty rd
  | .vred o _ => VRow.red.wf o
  | .vperm o => VRow.perm.wf o
  | .vrot o => VRow.rot.wf o
  | .vext o => VRow.ext.wf o
  | .vins o => VRow.ins.wf o
  | .vtrn o => VRow.trn.wf o
  | .vlut o => VRow.lut.wf o
  | .vld o _ | .vst o _ => VRow.ld.wf o
  | .vgath o | .vscat o => VRow.gath.wf o
  | .vldp o _ => VRow.ldp.wf o
  | .vstp o _ => VRow.stp.wf o
  | .vpupd o => VRow.pupd.wf o && o.rnd != .rz && o.a.toNat % 2 == 0
  | .vdot o => VRow.dot.wf o
  | .bbgetv ty _ _ w => (ty == .n8 || ty == .s8) && 1 ≤ w.toNat && w.toNat ≤ 6
  | .vrep _ n => 1 ≤ n.toNat && n.toNat ≤ 16
  | .ldg o | .stg o => remOk o
  | .amaxf o => o.w32
  | .gang n => n.toNat == 2 || n.toNat == 4 || n.toNat == 8
  | .syncH l | .syncS l _ | .dom _ l | .bstat _ _ l => levelOk l
  | .crd _ n => ctlNumber n
  | .cwr _ n => ctlNumber n && !ctlReadOnly n
  | .lgnext x y => x != y
  | _ => true

end Sys2Proof
end

