-- ==== Sys2Proof/Decode.lean ====
section
/-!
DEFINITION. The decoder of spec/04 (R59 to R70, Tables 4.1 to 4.14) and the encoder written from the same tables.
Decoding is total: halfwords become an instruction or the number of the first check of Table 4.7 that fails, with
the fields that `trap.val` records (Table 4.8).
-/
namespace Sys2Proof

/-! ## Fields and codes -/

/-- The bits `[lo + w - 1 : lo]` of a payload or halfword. -/
def fld (n lo w : Nat) : Nat := n / 2 ^ lo % 2 ^ w

/-- Base word of spec/04 Table 4.1. -/
def baseWord (op : BitVec 6) (a b : Reg) : Half := BitVec.ofNat 16 (op.toNat * 1024 + a.toNat * 32 + b.toNat)
def opOf (h : Half) : BitVec 6 := BitVec.ofNat 6 (h.toNat / 1024)
def aOf (h : Half) : Reg := BitVec.ofNat 5 (h.toNat / 32)
def bOf (h : Half) : Reg := BitVec.ofNat 5 h.toNat
/-- Payload of a prefix halfword (spec/04 Table 4.4). -/
def payOf (h : Half) : Payload := BitVec.ofNat 10 h.toNat
/-- A prefix halfword: op 60 I, 61 R, 62 P, 63 Q (spec/04 Table 4.4). -/
def pfxWord (op : Nat) (p : Payload) : Half := BitVec.ofNat 16 (op * 1024 + p.toNat)

/-- Type code (spec/04 Table 4.6a). -/
def ETy.code : ETy → Nat
  | .f32 => 0 | .bf16 => 1 | .e4m3 => 2 | .e5m2 => 3 | .e2m1 => 4 | .l6 => 5 | .s4 => 6 | .idx3 => 7
  | .n8 => 8 | .s8 => 9 | .n16 => 10 | .s16 => 11 | .n32 => 12 | .s32 => 13 | .i64 => 14 | .np => 15

def ETy.ofCode : Nat → ETy
  | 0 => .f32 | 1 => .bf16 | 2 => .e4m3 | 3 => .e5m2 | 4 => .e2m1 | 5 => .l6 | 6 => .s4 | 7 => .idx3
  | 8 => .n8 | 9 => .s8 | 10 => .n16 | 11 => .s16 | 12 => .n32 | 13 => .s32 | 14 => .i64 | _ => .np

def Rnd.code : Rnd → Nat
  | .rn => 0 | .rz => 1 | .sr => 2

/-- Rounding field (spec/04 Table 4.5); 3 is reserved. -/
def Rnd.ofCode : Nat → Option Rnd
  | 0 => some .rn | 1 => some .rz | 2 => some .sr | _ => none

def Reading.code : Reading → Nat
  | .finite => 0 | .nanOnly => 1 | .ieee => 2

def Reading.ofCode : Nat → Option Reading
  | 0 => some .finite | 1 => some .nanOnly | 2 => some .ieee | _ => none

def Scope.code : Scope → Nat
  | .core => 0 | .clus => 1 | .dev => 2 | .sys => 3

def Scope.ofCode : Nat → Scope
  | 0 => .core | 1 => .clus | 2 => .dev | _ => .sys

def AOrd.code : AOrd → Nat
  | .none => 0 | .acq => 1 | .rel => 2 | .ar => 3

/-- Orders that an atomic accepts (spec/06 R119). -/
def AOrd.ofCode : Nat → Option AOrd
  | 0 => some .none | 1 => some .acq | 2 => some .rel | 3 => some .ar | _ => Option.none

def FOrd.code : FOrd → Nat
  | .acq => 1 | .rel => 2 | .ar => 3 | .sc => 4

/-- Orders that a fence accepts (spec/06 R124). -/
def FOrd.ofCode : Nat → Option FOrd
  | 1 => some .acq | 2 => some .rel | 3 => some .ar | 4 => some .sc | _ => none

def VCond.code : VCond → Nat
  | .eq => 0 | .ne => 1 | .lt => 2 | .le => 3 | .un => 4

/-- Conditions of `vcmp` (spec/13 R225); 5 to 7 are reserved. -/
def VCond.ofCode : Nat → Option VCond
  | 0 => some .eq | 1 => some .ne | 2 => some .lt | 3 => some .le | 4 => some .un | _ => none

def RedOp.code : RedOp → Nat
  | .add => 0 | .min => 1 | .max => 2 | .amax => 3

def RedOp.ofCode : Nat → RedOp
  | 0 => .add | 1 => .min | 2 => .max | _ => .amax

def BView.code : BView → Nat
  | .v0 => 0 | .v1 => 1 | .v2 => 2

/-- Views of `bstat` (spec/09 R186); 3 is reserved. -/
def BView.ofCode : Nat → Option BView
  | 0 => some .v0 | 1 => some .v1 | 2 => some .v2 | _ => none

/-! ## The parts of an instruction -/

/-- An instruction's halfwords taken apart: the page, the payloads of PFX.Q and PFX.R when they stand, those of the
PFX.I in order, and the base word. -/
structure Enc where
  page : Nat := 0
  q : Option Payload := none
  r : Option Payload := none
  pays : List Payload := []
  op : BitVec 6
  a : Reg
  b : Reg
  deriving DecidableEq, Repr

namespace Enc
/-- Payload of PFX.Q, 0 when absent (spec/04 R64). -/
def qv (e : Enc) : Nat := (e.q.getD 0).toNat
/-- Payload of PFX.R, 0 when absent (spec/04 R64). -/
def rv (e : Enc) : Nat := (e.r.getD 0).toNat
/-- The three fields of PFX.R (spec/04 Table 4.4). -/
def c (e : Enc) : Reg := BitVec.ofNat 5 (e.rv / 32)
def mask (e : Enc) : KReg := BitVec.ofNat 3 (e.rv / 4)
def sz (e : Enc) : Nat := e.rv % 4

/-- The payloads of PFX.I and the low field, most significant first (spec/04 R60). -/
def assemble (pays : List Payload) (lowBits low : Nat) : Nat :=
  pays.foldl (fun acc p => acc * 1024 + p.toNat) 0 * 2 ^ lowBits + low

/-- Width of the assembled immediate. -/
def immWidth (e : Enc) (lowBits : Nat) : Nat := 10 * e.pays.length + lowBits

/-- Unsigned immediate of an RI form. -/
def immU (e : Enc) : Nat := assemble e.pays 5 e.b.toNat

/-- Sign extension of a value of `w` bits to `n` bits, as a number below `2 ^ n`. -/
def sextNat (n w v : Nat) : Nat := if v < 2 ^ (w - 1) then v else v + 2 ^ n - 2 ^ w

/-- Signed immediate or offset of an RI or BC form, as 35 bits. -/
def immS (e : Enc) : BitVec 35 := BitVec.ofNat 35 (sextNat 35 (e.immWidth 5) e.immU)

/-- Offset of a B form, as 40 bits. -/
def offB (e : Enc) : BitVec 40 :=
  BitVec.ofNat 40 (sextNat 40 (e.immWidth 10) (assemble e.pays 10 (e.a.toNat * 32 + e.b.toNat)))
end Enc

/-! ## Registers named, and where an instruction may stand -/

/-- The context that decodes: the kind of core, and whether it is a helper context. -/
structure DecCtx where
  kind : CoreKind := .worker
  helper : Bool := false
  deriving DecidableEq, Repr

/-- The g registers that an a, b or c field of an instruction names (spec/04 R59, the entries). -/
def gregs : Instr → List Reg
  | .jr a | .bbset a | .hwait a | .lgunbind a | .lgflag a | .xres a | .mwgt a | .vend a | .mctlb a | .mcsig a => [a]
  | .add o | .sub o | .and o | .or o | .xor o | .andn o | .shl o | .shr o | .sra o | .rot o | .mul o | .mulh o
  | .mulhn o | .div o | .divn o | .rem o | .remn o | .min o | .max o | .minn o | .maxn o | .cmpeq o | .cmpne o
  | .cmplt o | .cmpltn o | .cmple o | .cmplen o | .mfmt o | .mldb o => o.a :: o.b :: o.c.toList
  | .mov a b | .popc a b | .clz a b | .ctz a b | .hstat a b | .cpyq a b | .lgbind a b | .lgnext a b | .lgemit a b
  | .lglim a b | .xreq a b | .npost a b | .npoll a b | .mdup a b | .mslot a b => [a, b]
  | .addi o | .andi o | .ori o | .xori o => o.a :: o.c.toList
  | .li a _ | .beqz a _ | .bnez a _ | .bltz a _ | .bgez a _ | .loop a _ | .start a _ => [a]
  | .sel a b c | .lea a b c _ | .mcld a b c | .mcst a b c | .mcpush a b c | .mcgath a b c _ => [a, b, c]
  | .shli o | .shri o | .srai o => o.a :: o.c.toList
  | .ldN8 o | .ldS8 o | .ldN16 o | .ldS16 o | .ldN32 o | .ldS32 o | .ld64 o | .st8 o | .st16 o | .st32 o | .st64 o
  | .fifoPushStore o | .fifoPopLoad o | .fifoFstatLoad o | .controlWindowRegStore o | .fireWordStore o
  | .bindWordStore o | .lockWordStore o | .maskWordStore o | .waitWordLoad o _ | .lockWordLoad o _
  | .arriveWordLoad o _ => [o.a, o.b]
  | .bfx o | .bfxs o => o.a :: o.c.toList
  | .bfi a c _ _ => [a, c]
  | .bbget a _ | .bbgets a _ | .bbpeek a _ | .bbput a _ | .push a _ | .pop a _ | .fstat a _ | .dom a _
  | .bstat a _ _ | .uien a _ | .crd a _ | .cwr a _ | .vrep a _ => [a]
  | .vmovToMask _ b | .exch b | .cpy b | .mwr _ b | .mrd _ b _ | .mvld b | .mvldR b => [b]
  | .vmovFromMask a _ => [a]
  | .vsplat o | .vld o _ | .vst o _ | .vgath o | .vscat o => [o.b]
  | .vqnt o _ | .vdqt o _ | .vrot o => o.c.toList
  | .vext o => o.a :: o.c.toList
  | .vins o | .vldp o _ | .vstp o _ | .vpupd o => o.b :: o.c.toList
  | .mmul _ b c _ _ => [b, c]
  | .ldg o | .stg o | .keySlotStore o | .measExtend o | .sdigWrite o | .mwgtStore o | .mslotStore o
  | .tlbInvalidateStore o | .rootWordStore o | .privilegedWrite o => [o.a, o.b]
  | .aadd o | .aand o | .aor o | .axor o | .amin o | .amax o | .aminn o | .amaxn o | .amaxf o | .aswp o | .acas o
  | .aincW o | .afaddB o => [o.a, o.b, o.c]
  | _ => []

/-- The page of an instruction (spec/04 Tables 4.9 to 4.14); 0 for the hardware events. -/
def pageOf : Instr → Nat
  | .vmov _ | .vmovToMask _ _ | .vmovFromMask _ _ | .vadd _ | .vsub _ | .vmul _ | .vfma _ | .vfms _ | .vmin _
  | .vmax _ | .vabs _ | .vneg _ | .vand _ | .vor _ | .vxor _ | .vshl _ | .vshr _ | .vsra _ | .vcmp _ _ | .vsel _
  | .vsplat _ | .vrcp _ | .vrsq _ | .vexp2 _ | .vlog2 _ | .vtanh _ | .vcvt _ _ _ | .vqnt _ _ | .vdqt _ _
  | .vamax _ _ | .vred _ _ | .vperm _ | .vrot _ | .vext _ | .vins _ | .vtrn _ | .vlut _ | .vld _ _ | .vldp _ _
  | .vgath _ | .vst _ _ | .vstp _ _ | .vscat _ | .vpupd _ | .vdot _ | .bbgetv _ _ _ _ | .vrep _ _ | .vend _
  | .vwait => 1
  | .mfmt _ | .mldb _ | .mmul _ _ _ _ _ | .mzero _ | .mwr _ _ | .mrd _ _ _ | .mdup _ _ | .mvld _ | .mvldR _
  | .mspec _ | .mcommit _ | .mdiscard _ | .mbar | .mstat | .mslot _ _ | .mwgt _ => 2
  | .ldg _ | .stg _ | .aadd _ | .aand _ | .aor _ | .axor _ | .amin _ | .amax _ | .aminn _ | .amaxn _ | .amaxf _
  | .aswp _ | .acas _ | .aincW _ | .afaddB _ | .fence _ _ | .push _ _ | .pop _ _ | .fstat _ _ | .start _ _
  | .hwait _ | .hexit | .hstat _ _ | .gang _ | .split | .syncH _ | .syncS _ _ | .exch _ | .dom _ _
  | .bstat _ _ _ | .evsig _ | .cpy _ | .cpyq _ _ | .uiret | .uien _ _ => 3
  | .crd _ _ | .cwr _ _ | .trap _ | .tret | .halt | .wfe => 4
  | .lgbind _ _ | .lgunbind _ | .lgnext _ _ | .lgok | .lgflag _ | .lgemit _ _ | .lglim _ _ | .contain | .xreq _ _
  | .xres _ | .npost _ _ | .npoll _ _ => 5
  | .mcld _ _ _ | .mcst _ _ _ | .mcpush _ _ _ | .mcgath _ _ _ _ | .mcwait | .mctlb _ | .mcsig _ => 6
  | _ => 0

/-- Pages that each kind of core executes (spec/04 Table 4.6). -/
def pageRuns : CoreKind → Nat → Bool
  | .worker, p => p ≤ 5
  | .memory, p => p == 0 || p == 3 || p == 4 || p == 6
  | .control, p => p == 0 || p == 3 || p == 4 || p == 5

/-- The helper rules of check 12 (spec/03 R36, spec/06 R134, spec/08 R153, spec/18 R319 heading, spec/21 R363), and the
rule that only a helper issues `hexit`. -/
def helperOk (helper : Bool) : Instr → Bool
  | .hexit => helper
  | .syncH _ | .syncS _ _ | .exch _ | .gang _ | .split | .start _ _ | .hwait _ | .cwr _ _ | .halt | .tret
  | .cpy _ | .cpyq _ _ | .uiret | .uien _ _ | .lgbind _ _ | .lgunbind _ | .lgnext _ _ | .lgok | .lgflag _
  | .lgemit _ _ | .lglim _ _ | .contain => !helper
  | i => !helper || !(pageOf i == 1 || pageOf i == 2)

/-- Instructions of an executed page that the kind of core leaves out (check 12): spec/18 Table 18.4 for a memory
core, spec/25 R396 for a control core. -/
def kindOk (k : CoreKind) : Instr → Bool
  | .start _ _ | .hwait _ | .hexit | .hstat _ _ | .gang _ | .split | .syncH _ | .syncS _ _ | .exch _ | .dom _ _
  | .bstat _ _ _ | .evsig _ => k == .worker
  | .push _ _ | .cpy _ | .cpyq _ _ | .uiret | .uien _ _ => k != .memory
  | .lgbind _ _ | .lgunbind _ | .lgnext _ _ | .lgok | .lgflag _ | .lgemit _ _ | .lglim _ _ | .contain
  | .xreq _ _ | .xres _ => k != .control
  | _ => true

/-- Control register numbers of each kind of core (spec/06 Table 6.12, spec/18 R324, spec/25 R399). -/
def ctlOk (k : CoreKind) (n : BitVec 6) : Bool :=
  ctlNumber n && match k with
    | .worker => n.toNat ≠ 56
    | .control => true
    | .memory => n.toNat ≤ 12 || (18 ≤ n.toNat && n.toNat ≤ 22) || (31 ≤ n.toNat && n.toNat ≤ 38)

/-- The part of check 11 that depends on the decoding context: g registers of a helper (spec/03 R35), and the control
registers of the kind of core. -/
def ctx11 (x : DecCtx) (i : Instr) : Bool :=
  (!x.helper || (gregs i).all (fun r => r.toNat < 16)) &&
  match i with
  | .crd _ n | .cwr _ n => ctlOk x.kind n
  | _ => true

/-- Where an instruction may be decoded: its page (check 7), and the context parts of checks 11 and 12. -/
def allowed (x : DecCtx) (i : Instr) : Bool :=
  pageRuns x.kind (pageOf i) && ctx11 x i && helperOk x.helper i && kindOk x.kind i

/-! ## Decoding one taken-apart instruction -/

/-- Prefix kinds that an entry accepts. -/
structure Acc where
  q : Bool := false
  r : Bool := false
  i : Bool := false

/-- Checks 9 to 12 in order (spec/04 Table 4.7). -/
def entry (x : DecCtx) (e : Enc) (acc : Acc) (ok10 ok11 ok12 : Bool) (i : Instr) : Except Nat Instr :=
  if (e.q.isSome && !acc.q) || (e.r.isSome && !acc.r) || (!e.pays.isEmpty && !acc.i) then .error 9
  else if !ok10 then .error 10
  else if !(ok11 && ctx11 x i) then .error 11
  else if !(ok12 && helperOk x.helper i && kindOk x.kind i) then .error 12
  else .ok i

/-- Mask field and size class both 0 (spec/05 R76). -/
def plainR (e : Enc) : Bool := e.rv % 32 == 0

def cOpt (e : Enc) : Option Reg := if e.r.isSome then some e.c else none

def rrEntry (x : DecCtx) (e : Enc) (mk : RR → Instr) : Except Nat Instr :=
  entry x e ⟨false, true, false⟩ (plainR e) true true (mk ⟨e.a, e.b, cOpt e⟩)

/-- A register form without prefixes (but PFX.P). -/
def bare (x : DecCtx) (e : Enc) (ok11 : Bool) (i : Instr) : Except Nat Instr :=
  entry x e {} true ok11 true i

def riSEntry (x : DecCtx) (e : Enc) (mk : RI → Instr) : Except Nat Instr :=
  entry x e ⟨false, true, true⟩ (plainR e) true true (mk ⟨e.a, cOpt e, e.immS⟩)

def riUEntry (x : DecCtx) (e : Enc) (mk : RI → Instr) : Except Nat Instr :=
  entry x e ⟨false, true, true⟩ (plainR e) true true (mk ⟨e.a, cOpt e, BitVec.ofNat 35 e.immU⟩)

def shEntry (x : DecCtx) (e : Enc) (mk : ShI → Instr) : Except Nat Instr :=
  entry x e ⟨false, true, true⟩ (plainR e) (e.immU ≤ 63) true (mk ⟨e.a, cOpt e, BitVec.ofNat 6 e.immU⟩)

/-- Local load or store (spec/06 R112, R114). -/
def memEntry (x : DecCtx) (e : Enc) (load : Bool) (mk : Mem → Instr) : Except Nat Instr :=
  entry x e ⟨true, false, false⟩ (e.qv ≤ 1) (!(load && e.qv == 1 && e.a == e.b)) true (mk ⟨e.a, e.b, e.qv == 1⟩)

def bcEntry (x : DecCtx) (e : Enc) (mk : Reg → BitVec 35 → Instr) : Except Nat Instr :=
  entry x e ⟨false, false, true⟩ true true true (mk e.a e.immS)

def bEntry (x : DecCtx) (e : Enc) (mk : BitVec 40 → Instr) : Except Nat Instr :=
  entry x e ⟨false, false, true⟩ true true true (mk e.offB)

/-- Compares (spec/05 R82): PFX.Q [2:0] is the condition, 6 and 7 are reserved. -/
def cmpEntry (x : DecCtx) (e : Enc) : Except Nat Instr :=
  let go (mk : RR → Instr) := entry x e ⟨true, true, false⟩ (e.qv ≤ 7 && plainR e) true true (mk ⟨e.a, e.b, cOpt e⟩)
  match e.qv % 8 with
  | 0 => go .cmpeq | 1 => go .cmpne | 2 => go .cmplt | 3 => go .cmpltn | 4 => go .cmple | 5 => go .cmplen
  | _ => .error 8

/-- Bit counting (spec/05 R84). -/
def cntEntry (x : DecCtx) (e : Enc) : Except Nat Instr :=
  let go (mk : Reg → Reg → Instr) := entry x e ⟨true, false, false⟩ (e.qv ≤ 3) true true (mk e.a e.b)
  match e.qv % 4 with
  | 0 => go .popc | 1 => go .clz | 2 => go .ctz
  | _ => .error 8

/-- Fields of a bit-field immediate (spec/04 R75, spec/05 R85). -/
def bfxEntry (x : DecCtx) (e : Enc) : Except Nat Instr :=
  let p := BitVec.ofNat 6 e.immU
  let l := BitVec.ofNat 6 (e.immU / 64)
  let o : BF := ⟨e.a, cOpt e, p, l⟩
  entry x e ⟨false, true, true⟩ (plainR e) (bfOk p l && e.immU / 8192 == 0) true
    (if e.immU / 4096 % 2 == 1 then .bfxs o else .bfx o)

def bfiEntry (x : DecCtx) (e : Enc) : Except Nat Instr :=
  let p := BitVec.ofNat 6 e.immU
  let l := BitVec.ofNat 6 (e.immU / 64)
  entry x e ⟨false, true, true⟩ (plainR e) (bfOk p l && e.immU / 4096 == 0) e.r.isSome (.bfi e.a e.c p l)

def bbEntry (x : DecCtx) (e : Enc) (mk : BitVec 6 → Instr) (aOk : Bool) : Except Nat Instr :=
  entry x e ⟨false, false, true⟩ true (1 ≤ e.immU && e.immU ≤ 32 && aOk) true (mk (BitVec.ofNat 6 e.immU))

/-- Op 0 of page 0 (spec/04 Table 4.10). -/
def op0Entry (x : DecCtx) (e : Enc) : Except Nat Instr :=
  match e.b.toNat with
  | 0 => bare x e (e.a == 0) .nop
  | 1 => bare x e true (.brk e.a)
  | 2 => bare x e (e.a == 0) .ret
  | 3 => bare x e true (.jr e.a)
  | 4 => bare x e true (.bbset e.a)
  | 5 => bare x e (e.a == 0) .bbflush
  | _ => .error 8

/-- Page 0 (spec/04 Table 4.9). -/
def decode0 (x : DecCtx) (e : Enc) : Except Nat Instr :=
  match e.op.toNat with
  | 0 => op0Entry x e
  | 1 => rrEntry x e .add | 2 => rrEntry x e .sub | 3 => rrEntry x e .and | 4 => rrEntry x e .or
  | 5 => rrEntry x e .xor | 6 => rrEntry x e .andn | 7 => rrEntry x e .shl | 8 => rrEntry x e .shr
  | 9 => rrEntry x e .sra | 10 => rrEntry x e .rot | 11 => rrEntry x e .mul | 12 => rrEntry x e .mulh
  | 13 => rrEntry x e .mulhn | 14 => rrEntry x e .div | 15 => rrEntry x e .divn | 16 => rrEntry x e .rem
  | 17 => rrEntry x e .remn | 18 => rrEntry x e .min | 19 => rrEntry x e .max | 20 => rrEntry x e .minn
  | 21 => rrEntry x e .maxn
  | 22 => bare x e true (.mov e.a e.b)
  | 23 => riSEntry x e .addi
  | 24 => entry x e ⟨false, false, true⟩ true true true (.li e.a e.immS)
  | 25 => riSEntry x e .andi | 26 => riUEntry x e .ori | 27 => riUEntry x e .xori
  | 28 => cmpEntry x e
  | 29 => entry x e ⟨false, true, false⟩ (plainR e) true e.r.isSome (.sel e.a e.b e.c)
  | 30 => shEntry x e .shli | 31 => shEntry x e .shri
  | 32 => bEntry x e .b | 33 => bcEntry x e .beqz | 34 => bcEntry x e .bnez | 35 => bcEntry x e .bltz
  | 36 => entry x e ⟨false, false, true⟩ true (loopOff e.immS) true (.loop e.a e.immS)
  | 37 => bcEntry x e .bgez | 38 => bEntry x e .call | 39 => shEntry x e .srai
  | 40 => memEntry x e true .ldN8 | 41 => memEntry x e true .ldS8 | 42 => memEntry x e true .ldN16
  | 43 => memEntry x e true .ldS16 | 44 => memEntry x e true .ldN32 | 45 => memEntry x e true .ldS32
  | 46 => memEntry x e true .ld64 | 47 => memEntry x e false .st8 | 48 => memEntry x e false .st16
  | 49 => memEntry x e false .st32 | 50 => memEntry x e false .st64
  | 51 => cntEntry x e | 52 => bfxEntry x e | 53 => bfiEntry x e
  | 54 => entry x e ⟨false, true, false⟩ (e.rv / 4 % 8 == 0) true e.r.isSome (.lea e.a e.b e.c (BitVec.ofNat 2 e.rv))
  | 55 => bbEntry x e (.bbget e.a) true | 56 => bbEntry x e (.bbgets e.a) true
  | 57 => bbEntry x e (.bbpeek e.a) true | 58 => bbEntry x e .bbskip (e.a == 0)
  | 59 => bbEntry x e (.bbput e.a) true
  | _ => .error 8

/-! ### Page 1 -/

/-- The c operand of a page-1 instruction under its use of PFX.R (spec/13 Table 13.2). -/
def vC (e : Enc) : CUse → Option Reg
  | .mask => none
  | .opt => cOpt e
  | .req => some e.c

/-- The operands of a page-1 instruction; `useRnd` and `useSat` say that [6:5] and [4] are its rounding and `.sat`. -/
def vOp (e : Enc) (cu : CUse) (useRnd useSat : Bool) : VOp :=
  { ty := ETy.ofCode (fld e.qv 0 4)
    rnd := if useRnd then (Rnd.ofCode (fld e.qv 5 2)).getD .rn else .rn
    sat := useSat && fld e.qv 4 1 == 1
    sa := fld e.qv 9 1 == 1
    sb := fld e.qv 8 1 == 1
    sc := fld e.qv 7 1 == 1
    a := e.a, b := e.b, c := vC e cu, k := e.mask }

/-- PFX.R bits that the row leaves undefined are 0: c of a "Mask" row, the mask of a row without one. -/
def vROk (e : Enc) (row : VRow) (szMax : Nat) : Bool :=
  (row.cuse != .mask || e.c == 0) && (row.mask || e.mask == 0) && e.sz ≤ szMax

/-- An entry of page 1: check 10 by its row, check 11 and the instruction from its operands. -/
def vEntry (x : DecCtx) (e : Enc) (row : VRow) (mk : VOp → Instr) (useRnd : Bool := true) (useSat : Bool := true)
    (szMax : Nat := 0) (ok10 : VOp → Bool := fun _ => true) (ok11 : VOp → Bool := fun _ => true) : Except Nat Instr :=
  let o := vOp e row.cuse useRnd useSat
  let scOk := row.cuse != .req || e.r.isSome || !o.sc
  entry x e ⟨true, true, false⟩
    (row.accepts o && scOk && vROk e row szMax && (!useRnd || fld e.qv 5 2 != 3) && ok10 o) (ok11 o)
    (row.cuse != .req || e.r.isSome) (mk o)

/-- `vmov` by its form in PFX.Q [6:5] (spec/13 R224). -/
def vmovEntry (x : DecCtx) (e : Enc) : Except Nat Instr :=
  match fld e.qv 5 2 with
  | 0 => vEntry x e .mov .vmov
  | 1 => entry x e ⟨true, false, false⟩ (e.qv == 32) (1 ≤ e.a.toNat && e.a.toNat ≤ 7) true
          (.vmovToMask (BitVec.ofNat 3 e.a.toNat) e.b)
  | 2 => entry x e ⟨true, false, false⟩ (e.qv == 64) (e.b.toNat ≤ 7) true
          (.vmovFromMask e.a (BitVec.ofNat 3 e.b.toNat))
  | _ => .error 8

/-- `vcmp` with its condition in PFX.Q [6:4] (spec/13 R225). -/
def vcmpEntry (x : DecCtx) (e : Enc) : Except Nat Instr :=
  match VCond.ofCode (fld e.qv 4 3) with
  | some c => vEntry x e .cmp (fun o => .vcmp o c) (useRnd := false) (useSat := false)
      (ok10 := fun o => c != .un || o.ty.isFloat)
      (ok11 := fun o => 1 ≤ o.a.toNat && o.a.toNat ≤ 7)
  | none => .error 8

/-- `vcvt`: PFX.R [8:5] is the source type and [9] with the size class the part (spec/13 R229). Without a PFX.R it fails check 12, whatever
an absent payload of 0 would say of the source type and the part (DEDUCED, log entry 10). -/
def vcvtEntry (x : DecCtx) (e : Enc) : Except Nat Instr :=
  let o : VOp := { vOp e .req true true with c := none }
  let st := ETy.ofCode (fld e.rv 5 4)
  let p := BitVec.ofNat 3 (fld e.rv 9 1 * 4 + e.sz)
  entry x e ⟨true, true, false⟩
    (cvtRow.accepts o && fld e.qv 5 2 != 3 && (e.r.isNone || cvtOk o st)) (e.r.isNone || p.toNat < cvtParts o.ty st)
    e.r.isSome (.vcvt o st p)

/-- An instruction whose size class is the reading (spec/13 R230 to R232). -/
def vrdEntry (x : DecCtx) (e : Enc) (row : VRow) (mk : VOp → Reading → Instr) : Except Nat Instr :=
  let rd := (Reading.ofCode e.sz).getD .finite
  vEntry x e row (fun o => mk o rd) (szMax := 2) (ok10 := fun o => readingOk o.ty rd)

/-- `vend` and `vwait`: spec/13 Table 13.1 gives page 1 an optional PFX.Q, and Table 13.2 these two the type 0, so a PFX.Q of payload 0 is
accepted and any other fails check 10; R249 shuts it out for `vrep` alone (DEDUCED, log entry 10). -/
def seqEntry (x : DecCtx) (e : Enc) (ok11 : Bool) (i : Instr) : Except Nat Instr :=
  entry x e ⟨true, false, false⟩ (e.qv == 0) ok11 true i

/-- `bbgetv` (spec/13 R245). Without its required PFX.R it fails check 12: a payload read as 0 (spec/04 R64) is not held to the limits of
checks 10 and 11, as R220 gives such an instruction check 12 (DEDUCED, log entry 10). -/
def bbgetvEntry (x : DecCtx) (e : Enc) : Except Nat Instr :=
  let ty := ETy.ofCode (fld e.qv 0 4)
  entry x e ⟨true, true, false⟩ ((ty == .n8 || ty == .s8) && fld e.qv 4 5 == 0 && e.rv % 32 == 0)
    (e.b == 0 && (e.r.isNone || (1 ≤ e.c.toNat && e.c.toNat ≤ 6))) e.r.isSome
    (.bbgetv ty (fld e.qv 9 1 == 1) e.a e.c)

/-- Page 1 (spec/04 Table 4.11, spec/13 Table 13.2). -/
def decode1 (x : DecCtx) (e : Enc) : Except Nat Instr :=
  match e.op.toNat with
  | 0 => vmovEntry x e
  | 1 => vEntry x e .arith .vadd | 2 => vEntry x e .arith .vsub | 3 => vEntry x e .arith .vmul
  | 4 => vEntry x e .fma .vfma | 5 => vEntry x e .fma .vfms
  | 6 => vEntry x e .minmax .vmin | 7 => vEntry x e .minmax .vmax
  | 8 => vEntry x e .absneg .vabs | 9 => vEntry x e .absneg .vneg
  | 10 => vEntry x e .logic .vand | 11 => vEntry x e .logic .vor | 12 => vEntry x e .logic .vxor
  | 13 => vEntry x e .shift .vshl | 14 => vEntry x e .shift .vshr | 15 => vEntry x e .shift .vsra
  | 16 => vcmpEntry x e
  | 17 => vEntry x e .sel .vsel | 18 => vEntry x e .splat .vsplat
  | 20 => vEntry x e .special .vrcp | 21 => vEntry x e .special .vrsq | 22 => vEntry x e .special .vexp2
  | 23 => vEntry x e .special .vlog2 | 24 => vEntry x e .special .vtanh
  | 28 => vcvtEntry x e
  | 29 => vrdEntry x e .qnt .vqnt | 30 => vrdEntry x e .dqt .vdqt | 31 => vrdEntry x e .amax .vamax
  | 32 => vEntry x e .red (fun o => .vred o (RedOp.ofCode (fld e.qv 5 2))) (useRnd := false)
  | 33 => vEntry x e .perm .vperm | 34 => vEntry x e .rot .vrot | 35 => vEntry x e .ext .vext
  | 36 => vEntry x e .ins .vins | 37 => vEntry x e .trn .vtrn | 38 => vEntry x e .lut .vlut
  | 40 => vEntry x e .ld (fun o => .vld o (BitVec.ofNat 2 e.sz)) (szMax := 3)
  | 41 => vEntry x e .ldp (fun o => .vldp o (BitVec.ofNat 2 e.sz)) (szMax := 3)
  | 42 => vEntry x e .gath .vgath
  | 44 => vEntry x e .ld (fun o => .vst o (BitVec.ofNat 2 e.sz)) (szMax := 3)
  | 45 => vEntry x e .stp (fun o => .vstp o (BitVec.ofNat 2 e.sz)) (szMax := 3)
  | 46 => vEntry x e .gath .vscat
  | 48 => vEntry x e .pupd .vpupd (ok10 := fun o => o.rnd != .rz) (ok11 := fun o => o.a.toNat % 2 == 0)
  | 49 => vEntry x e .dot .vdot
  | 50 => bbgetvEntry x e
  | 56 => bare x e (1 ≤ e.b.toNat && e.b.toNat ≤ 16) (.vrep e.a e.b)
  | 57 => seqEntry x e (e.b == 0) (.vend e.a)
  | 58 => seqEntry x e (e.a == 0 && e.b == 0) .vwait
  | _ => .error 8

/-! ### Pages 2 to 6 -/

/-- A command on a tile: the a field is 0 to 3 (spec/16 Table 16.1). -/
def tileEntry (x : DecCtx) (e : Enc) (bOk : Bool) (mk : BitVec 2 → Instr) : Except Nat Instr :=
  bare x e (e.a.toNat ≤ 3 && bOk) (mk (BitVec.ofNat 2 e.a.toNat))

/-- Page 2 (spec/04 Table 4.12, spec/16 Table 16.1). -/
def decode2 (x : DecCtx) (e : Enc) : Except Nat Instr :=
  match e.op.toNat with
  | 0 => rrEntry x e .mfmt
  | 1 => rrEntry x e .mldb
  | 2 => entry x e ⟨true, true, false⟩ (e.qv ≤ 3 && plainR e) (e.a.toNat ≤ 3) e.r.isSome
          (.mmul (BitVec.ofNat 2 e.a.toNat) e.b e.c (e.qv % 2 == 1) (e.qv / 2 % 2 == 1))
  | 3 => tileEntry x e (e.b == 0) .mzero
  | 4 => tileEntry x e true (fun t => .mwr t e.b)
  | 5 => entry x e ⟨true, false, false⟩ (e.qv ≤ 31) (e.a.toNat ≤ 3) true
          (.mrd (BitVec.ofNat 2 e.a.toNat) e.b (BitVec.ofNat 5 e.qv))
  | 6 => bare x e true (.mdup e.a e.b)
  | 7 => entry x e ⟨true, false, false⟩ (e.qv ≤ 1) (e.a == 0) true (if e.qv == 1 then .mvldR e.b else .mvld e.b)
  | 8 => tileEntry x e (e.b == 0) .mspec
  | 9 => tileEntry x e (e.b == 0) .mcommit
  | 10 => tileEntry x e (e.b == 0) .mdiscard
  | 11 => bare x e (e.a == 0 && e.b == 0) .mbar
  | 12 => bare x e (e.a == 0 && e.b == 0) .mstat
  | 48 => bare x e true (.mslot e.a e.b)
  | 49 => bare x e (e.b == 0) (.mwgt e.a)
  | _ => .error 8

/-- `ldg` and `stg` (spec/06 R116): order 0 with scope 0, or the one order with a scope other than `.core`. -/
def remEntry (x : DecCtx) (e : Enc) (order : Nat) (mk : Rem → Instr) : Except Nat Instr :=
  entry x e ⟨true, true, false⟩
    (fld e.qv 5 5 == 0 && (e.qv == 0 || (fld e.qv 2 3 == order && fld e.qv 0 2 != 0)) && e.rv / 4 == 0) true true
    (mk ⟨e.a, e.b, BitVec.ofNat 2 e.rv, if e.qv == 0 then none else some (Scope.ofCode (fld e.qv 0 2))⟩)

/-- Atomics (spec/06 R119). Without a PFX.R they fail check 12, also `amaxf`, whose absent size class is not held to check 10 (DEDUCED, log
entry 10). -/
def atEntry (x : DecCtx) (e : Enc) (mk : At → Instr) (only32 : Bool := false) : Except Nat Instr :=
  let o : At := ⟨e.a, e.b, e.c, e.sz == 1, (AOrd.ofCode (fld e.qv 2 3)).getD .none, Scope.ofCode (fld e.qv 0 2)⟩
  entry x e ⟨true, true, false⟩
    (fld e.qv 5 5 == 0 && fld e.qv 2 3 ≤ 3 && (e.r.isNone || (e.mask == 0 && e.sz ≤ 1 && (!only32 || e.sz == 1))))
    true e.r.isSome (mk o)

def fenceEntry (x : DecCtx) (e : Enc) : Except Nat Instr :=
  entry x e ⟨true, false, false⟩ (fld e.qv 5 5 == 0 && 1 ≤ fld e.qv 2 3 && fld e.qv 2 3 ≤ 4) (e.a == 0 && e.b == 0)
    true (.fence ((FOrd.ofCode (fld e.qv 2 3)).getD .ar) (Scope.ofCode (fld e.qv 0 2)))

/-- FIFO instructions (spec/06 R126): a port above 15 fails check 11. -/
def fifoEntry (x : DecCtx) (e : Enc) (mk : Reg → BitVec 4 → Instr) : Except Nat Instr :=
  bare x e (e.b.toNat ≤ 15) (mk e.a (BitVec.ofNat 4 e.b.toNat))

/-- A sync level in the b field (spec/09, heading Instructions). -/
def lvlEntry (x : DecCtx) (e : Enc) (aOk : Bool) (mk : BitVec 3 → Instr) : Except Nat Instr :=
  bare x e (2 ≤ e.b.toNat && e.b.toNat ≤ 6 && aOk) (mk (BitVec.ofNat 3 e.b.toNat))

def bstatEntry (x : DecCtx) (e : Enc) : Except Nat Instr :=
  match BView.ofCode (e.b.toNat / 8) with
  | some v => bare x e (levelOk (BitVec.ofNat 3 e.b.toNat)) (.bstat e.a v (BitVec.ofNat 3 e.b.toNat))
  | none => .error 8

/-- Page 3 (spec/04 Table 4.13). -/
def decode3 (x : DecCtx) (e : Enc) : Except Nat Instr :=
  match e.op.toNat with
  | 1 => remEntry x e 1 .ldg
  | 2 => remEntry x e 2 .stg
  | 6 => atEntry x e .aadd | 7 => atEntry x e .aand | 8 => atEntry x e .aor | 9 => atEntry x e .axor
  | 10 => atEntry x e .amin | 11 => atEntry x e .amax | 12 => atEntry x e .aminn | 13 => atEntry x e .amaxn
  | 14 => atEntry x e .amaxf true | 15 => atEntry x e .aswp | 16 => atEntry x e .acas | 17 => atEntry x e .aincW
  | 18 => atEntry x e .afaddB
  | 19 => fenceEntry x e
  | 20 => fifoEntry x e .push | 21 => fifoEntry x e .pop | 22 => fifoEntry x e .fstat
  | 32 => bcEntry x e .start
  | 33 => bare x e (e.b == 0) (.hwait e.a)
  | 34 => bare x e (e.a == 0 && e.b == 0) .hexit
  | 35 => bare x e true (.hstat e.a e.b)
  | 36 => bare x e (e.a == 0 && (e.b.toNat == 2 || e.b.toNat == 4 || e.b.toNat == 8)) (.gang e.b)
  | 37 => bare x e (e.a == 0 && e.b == 0) .split
  | 39 => lvlEntry x e (e.a == 0) .syncH
  | 40 => entry x e ⟨true, false, false⟩ (e.qv ≤ 1) (e.a == 0 && 2 ≤ e.b.toNat && e.b.toNat ≤ 6) true
          (.syncS (BitVec.ofNat 3 e.b.toNat) (e.qv == 1))
  | 41 => bare x e (e.a == 0) (.exch e.b)
  | 42 => lvlEntry x e true (.dom e.a)
  | 43 => bstatEntry x e
  | 44 => bare x e (e.a == 0) (.evsig e.b)
  | 48 => bare x e (e.a == 0) (.cpy e.b)
  | 49 => bare x e true (.cpyq e.a e.b)
  | 50 => bare x e (e.a == 0 && e.b == 0) .uiret
  | 51 => bare x e (e.b.toNat ≤ 1) (.uien e.a (e.b.toNat == 1))
  | _ => .error 8

/-- `crd` and `cwr` (spec/06 R130). -/
def ctlEntry (x : DecCtx) (e : Enc) (wr : Bool) (mk : BitVec 6 → Instr) : Except Nat Instr :=
  entry x e ⟨false, false, true⟩ true (e.immU ≤ 63 && !(wr && ctlReadOnly (BitVec.ofNat 6 e.immU))) true
    (mk (BitVec.ofNat 6 e.immU))

/-- Page 4 (spec/04 Table 4.14, spec/06 Table 6.14). -/
def decode4 (x : DecCtx) (e : Enc) : Except Nat Instr :=
  match e.op.toNat with
  | 0 => ctlEntry x e false (.crd e.a)
  | 1 => ctlEntry x e true (.cwr e.a)
  | 2 => entry x e ⟨false, false, true⟩ true (e.a == 0 && e.immU ≤ 1023) true (.trap (BitVec.ofNat 10 e.immU))
  | 3 => bare x e (e.a == 0 && e.b == 0) .tret
  | 4 => bare x e (e.a == 0 && e.b == 0) .halt
  | 5 => bare x e (e.a == 0 && e.b == 0) .wfe
  | _ => .error 8

/-- Page 5 (spec/04 Table 4.14; spec/21 R363, spec/20 R345, R346, spec/23 R390, R391). -/
def decode5 (x : DecCtx) (e : Enc) : Except Nat Instr :=
  match e.op.toNat with
  | 0 => bare x e true (.lgbind e.a e.b)
  | 1 => bare x e (e.b == 0) (.lgunbind e.a)
  | 2 => bare x e (e.a != e.b) (.lgnext e.a e.b)
  | 3 => bare x e (e.a == 0 && e.b == 0) .lgok
  | 4 => bare x e (e.b == 0) (.lgflag e.a)
  | 5 => bare x e true (.lgemit e.a e.b)
  | 6 => bare x e true (.lglim e.a e.b)
  | 7 => bare x e (e.a == 0 && e.b == 0) .contain
  | 16 => bare x e true (.xreq e.a e.b)
  | 17 => bare x e (e.b == 0) (.xres e.a)
  | 32 => bare x e true (.npost e.a e.b)
  | 33 => bare x e true (.npoll e.a e.b)
  | _ => .error 8

def mcEntry (x : DecCtx) (e : Enc) (mk : Reg → Reg → Reg → Instr) : Except Nat Instr :=
  entry x e ⟨false, true, false⟩ (plainR e) true e.r.isSome (mk e.a e.b e.c)

/-- Page 6 (spec/18 Table 18.5). -/
def decode6 (x : DecCtx) (e : Enc) : Except Nat Instr :=
  match e.op.toNat with
  | 0 => mcEntry x e .mcld
  | 1 => mcEntry x e .mcst
  | 2 => mcEntry x e .mcpush
  | 3 => entry x e ⟨true, true, false⟩ (e.qv ≤ 1 && plainR e) true e.r.isSome (.mcgath e.a e.b e.c (e.qv == 1))
  | 4 => bare x e (e.a == 0 && e.b == 0) .mcwait
  | 5 => bare x e (e.b == 0) (.mctlb e.a)
  | 6 => bare x e (e.b == 0) (.mcsig e.a)
  | _ => .error 8

/-- Checks 7 to 12 on a taken-apart instruction. -/
def decodeEnc (x : DecCtx) (e : Enc) : Except Nat Instr :=
  if !pageRuns x.kind e.page then .error 7
  else match e.page with
    | 0 => decode0 x e
    | 1 => decode1 x e
    | 2 => decode2 x e
    | 3 => decode3 x e
    | 4 => decode4 x e
    | 5 => decode5 x e
    | 6 => decode6 x e
    | _ => .error 7

/-! ## Halfwords -/

/-- What the halfwords at the PC give. `short` says that more halfwords are needed than are there. -/
inductive Decoded where
  | ok (i : Instr) (len : Nat) (page npfx : Nat) (hw : Half)
  | illegal (rsn page npfx : Nat) (hw : Half)
  | short
  deriving DecidableEq, Repr

/-- A prefix halfword is one whose op is 60 or more (spec/04 R68). -/
def isPfx (h : Half) : Bool := 60 ≤ h.toNat / 1024

/-- Rank of a prefix kind in the order P, Q, R, I (spec/04 R62). -/
def pfxRank (h : Half) : Nat :=
  match h.toNat / 1024 with
  | 62 => 0 | 63 => 1 | 61 => 2 | _ => 3

/-- The prefix halfwords, up to four, and the halfword after them. -/
def splitPfx : Nat → List Half → Option (List Half × Half)
  | _, [] => none
  | 0, h :: _ => some ([], h)
  | n + 1, h :: t => if isPfx h then (splitPfx n t).map (fun r => (h :: r.1, r.2)) else some ([], h)

def payFirst (rank : Nat) (ps : List Half) : Option Payload := (ps.find? (fun h => pfxRank h == rank)).map payOf

def ranksOrdered : List Nat → Bool
  | a :: b :: t => a ≤ b && ranksOrdered (b :: t)
  | _ => true

/-- Checks 1 to 6 on the prefixes `ps` before the halfword `h`: the number of the first that fails. -/
def pfxCheck (ps : List Half) (h : Half) : Option Nat :=
  let rs := ps.map pfxRank
  let p := payFirst 0 ps
  if isPfx h then some 1
  else if !ranksOrdered rs then some 2
  else if rs.count 0 > 1 || rs.count 1 > 1 || rs.count 2 > 1 then some 3
  else if rs.count 3 > 3 then some 4
  else if p.any (fun v => 7 ≤ v.toNat) then some 5
  else if p == some 0 then some 6
  else none

/-- The parts of prefixes and base word. -/
def encOf (ps : List Half) (h : Half) : Enc :=
  { page := ((payFirst 0 ps).getD 0).toNat, q := payFirst 1 ps, r := payFirst 2 ps,
    pays := (ps.filter (fun h => pfxRank h == 3)).map payOf, op := opOf h, a := aOf h, b := bOf h }

/-- Decode the instruction that starts with the first halfword (spec/04 R68). -/
def decode (x : DecCtx) (hs : List Half) : Decoded :=
  match splitPfx 4 hs with
  | none => .short
  | some (ps, h) =>
    let page := ((payFirst 0 (ps ++ [h])).getD 0).toNat
    match pfxCheck ps h with
    | some rsn => .illegal rsn page ps.length h
    | none =>
      match decodeEnc x (encOf ps h) with
      | .ok i => .ok i (ps.length + 1) page ps.length h
      | .error rsn => .illegal rsn page ps.length h

/-- Little-endian halfwords of bytes (spec/01 R2). -/
def halves : List Byte → List Half
  | b0 :: b1 :: t => BitVec.ofNat 16 (b0.toNat + 256 * b1.toNat) :: halves t
  | _ => []

/-- Decode bytes, the first at the lowest address. -/
def decodeBytes (x : DecCtx) (bs : List Byte) : Decoded := decode x (halves bs)

/-! ## The encoder -/

/-- Payload of PFX.Q of a page-1 instruction (spec/04 Table 4.5); `mid` is the value of [6:4]. -/
def vQ (o : VOp) (mid : Nat) : Nat :=
  o.sa.toNat * 512 + o.sb.toNat * 256 + o.sc.toNat * 128 + mid * 16 + o.ty.code

/-- A prefix payload that is left out when it is 0. -/
def optP (n : Nat) : Option Payload := if n == 0 then none else some (BitVec.ofNat 10 n)

/-- PFX.R with c, mask and size class (spec/04 Table 4.4). -/
def rPay (c : Reg) (k : KReg) (sz : Nat) : Payload := BitVec.ofNat 10 (c.toNat * 32 + k.toNat * 4 + sz)

def rOpt (c : Option Reg) : Option Payload := c.map (fun c => rPay c 0 0)

/-- PFX.R of a page-1 instruction: always when it names c, otherwise only when mask or size class is not 0. -/
def vR (o : VOp) (sz : Nat) : Option Payload :=
  match o.c with
  | some c => some (rPay c o.k sz)
  | none => optP (o.k.toNat * 4 + sz)

/-- Fewest payloads that carry an unsigned immediate with 5 bits in the base word (spec/04 R60). -/
def paysU (v : Nat) : List Payload :=
  if v < 32 then [] else if v < 2 ^ 15 then [BitVec.ofNat 10 (v / 32)]
  else if v < 2 ^ 25 then [BitVec.ofNat 10 (v / 2 ^ 15), BitVec.ofNat 10 (v / 32)]
  else [BitVec.ofNat 10 (v / 2 ^ 25), BitVec.ofNat 10 (v / 2 ^ 15), BitVec.ofNat 10 (v / 32)]

/-- A value of `n` bits that its low `w` bits give by sign extension. -/
def fitsS (n w v : Nat) : Bool := v < 2 ^ (w - 1) || 2 ^ n - 2 ^ (w - 1) ≤ v

/-- Fewest payloads that carry a signed immediate of `n = 30 + low` bits with `low` bits in the base word. -/
def paysS (n low v : Nat) : List Payload :=
  if fitsS n low v then []
  else if fitsS n (low + 10) v then [BitVec.ofNat 10 (v / 2 ^ low)]
  else if fitsS n (low + 20) v then [BitVec.ofNat 10 (v / 2 ^ (low + 10)), BitVec.ofNat 10 (v / 2 ^ low)]
  else [BitVec.ofNat 10 (v / 2 ^ (low + 20)), BitVec.ofNat 10 (v / 2 ^ (low + 10)), BitVec.ofNat 10 (v / 2 ^ low)]

def encRR (page op : Nat) (o : RR) (q : Nat := 0) : Enc :=
  { page, q := optP q, r := rOpt o.c, op := BitVec.ofNat 6 op, a := o.a, b := o.b }
def encAB (page op : Nat) (a b : Reg) (q : Nat := 0) : Enc :=
  { page, q := optP q, op := BitVec.ofNat 6 op, a, b }
def encABC (page op : Nat) (a b c : Reg) (q : Nat := 0) (sz : Nat := 0) : Enc :=
  { page, q := optP q, r := some (rPay c 0 sz), op := BitVec.ofNat 6 op, a, b }
def encRIS (op : Nat) (o : RI) : Enc :=
  { r := rOpt o.c, pays := paysS 35 5 o.imm.toNat, op := BitVec.ofNat 6 op, a := o.a, b := BitVec.ofNat 5 o.imm.toNat }
def encU (page op : Nat) (a : Reg) (v : Nat) (r : Option Payload := none) : Enc :=
  { page, r, pays := paysU v, op := BitVec.ofNat 6 op, a, b := BitVec.ofNat 5 v }
def encBC (page op : Nat) (a : Reg) (off : BitVec 35) : Enc :=
  { page, pays := paysS 35 5 off.toNat, op := BitVec.ofNat 6 op, a, b := BitVec.ofNat 5 off.toNat }
def encB (op : Nat) (off : BitVec 40) : Enc :=
  { pays := paysS 40 10 off.toNat, op := BitVec.ofNat 6 op, a := BitVec.ofNat 5 (off.toNat / 32),
    b := BitVec.ofNat 5 off.toNat }
def encMem (op : Nat) (o : Mem) : Enc := encAB 0 op o.a o.b o.pinc.toNat
def encV (op : Nat) (o : VOp) (sz : Nat := 0) : Enc :=
  { page := 1, q := optP (vQ o (o.rnd.code * 2 + o.sat.toNat)), r := vR o sz, op := BitVec.ofNat 6 op, a := o.a,
    b := o.b }
def encRem (op order : Nat) (o : Rem) : Enc :=
  { page := 3, q := o.ord.map (fun s => BitVec.ofNat 10 (order * 4 + s.code)), r := optP o.sz.toNat,
    op := BitVec.ofNat 6 op, a := o.a, b := o.b }
def encAt (op : Nat) (o : At) : Enc := encABC 3 op o.a o.b o.c (o.ord.code * 4 + o.scope.code) o.w32.toNat
def encTile (op : Nat) (t : BitVec 2) (b : Reg) (q : Nat := 0) : Enc := encAB 2 op (BitVec.ofNat 5 t.toNat) b q
def encBF (op sgn : Nat) (o : BF) : Enc := encU 0 op o.a (sgn * 4096 + o.l.toNat * 64 + o.p.toNat) (rOpt o.c)

/-- The parts of an instruction that has an encoding; `none` for the hardware events. -/
def toEnc : Instr → Option Enc
  | .nop => encAB 0 0 0 0 | .brk n => encAB 0 0 n 1 | .ret => encAB 0 0 0 2 | .jr a => encAB 0 0 a 3
  | .bbset a => encAB 0 0 a 4 | .bbflush => encAB 0 0 0 5
  | .add o => encRR 0 1 o | .sub o => encRR 0 2 o | .and o => encRR 0 3 o | .or o => encRR 0 4 o
  | .xor o => encRR 0 5 o | .andn o => encRR 0 6 o | .shl o => encRR 0 7 o | .shr o => encRR 0 8 o
  | .sra o => encRR 0 9 o | .rot o => encRR 0 10 o | .mul o => encRR 0 11 o | .mulh o => encRR 0 12 o
  | .mulhn o => encRR 0 13 o | .div o => encRR 0 14 o | .divn o => encRR 0 15 o | .rem o => encRR 0 16 o
  | .remn o => encRR 0 17 o | .min o => encRR 0 18 o | .max o => encRR 0 19 o | .minn o => encRR 0 20 o
  | .maxn o => encRR 0 21 o | .mov a b => encAB 0 22 a b
  | .addi o => encRIS 23 o | .li a imm => encBC 0 24 a imm | .andi o => encRIS 25 o
  | .ori o => encU 0 26 o.a o.imm.toNat (rOpt o.c) | .xori o => encU 0 27 o.a o.imm.toNat (rOpt o.c)
  | .cmpeq o => encRR 0 28 o 0 | .cmpne o => encRR 0 28 o 1 | .cmplt o => encRR 0 28 o 2
  | .cmpltn o => encRR 0 28 o 3 | .cmple o => encRR 0 28 o 4 | .cmplen o => encRR 0 28 o 5
  | .sel a b c => encABC 0 29 a b c
  | .shli o => encU 0 30 o.a o.sh.toNat (rOpt o.c) | .shri o => encU 0 31 o.a o.sh.toNat (rOpt o.c)
  | .srai o => encU 0 39 o.a o.sh.toNat (rOpt o.c)
  | .b off => encB 32 off | .beqz a off => encBC 0 33 a off | .bnez a off => encBC 0 34 a off
  | .bltz a off => encBC 0 35 a off | .loop a off => encBC 0 36 a off | .bgez a off => encBC 0 37 a off
  | .call off => encB 38 off
  | .ldN8 o => encMem 40 o | .ldS8 o => encMem 41 o | .ldN16 o => encMem 42 o | .ldS16 o => encMem 43 o
  | .ldN32 o => encMem 44 o | .ldS32 o => encMem 45 o | .ld64 o => encMem 46 o | .st8 o => encMem 47 o
  | .st16 o => encMem 48 o | .st32 o => encMem 49 o | .st64 o => encMem 50 o
  | .popc a b => encAB 0 51 a b 0 | .clz a b => encAB 0 51 a b 1 | .ctz a b => encAB 0 51 a b 2
  | .bfx o => encBF 52 0 o | .bfxs o => encBF 52 1 o | .bfi a c p l => encBF 53 0 ⟨a, some c, p, l⟩
  | .lea a b c sh => encABC 0 54 a b c 0 sh.toNat
  | .bbget a n => encU 0 55 a n.toNat | .bbgets a n => encU 0 56 a n.toNat | .bbpeek a n => encU 0 57 a n.toNat
  | .bbskip n => encU 0 58 0 n.toNat | .bbput a n => encU 0 59 a n.toNat
  | .vmov o => encV 0 o | .vmovToMask a b => encAB 1 0 (BitVec.ofNat 5 a.toNat) b 32
  | .vmovFromMask a b => encAB 1 0 a (BitVec.ofNat 5 b.toNat) 64
  | .vadd o => encV 1 o | .vsub o => encV 2 o | .vmul o => encV 3 o | .vfma o => encV 4 o | .vfms o => encV 5 o
  | .vmin o => encV 6 o | .vmax o => encV 7 o | .vabs o => encV 8 o | .vneg o => encV 9 o | .vand o => encV 10 o
  | .vor o => encV 11 o | .vxor o => encV 12 o | .vshl o => encV 13 o | .vshr o => encV 14 o | .vsra o => encV 15 o
  | .vcmp o c => some { encV 16 o with q := optP (vQ o c.code) }
  | .vsel o => encV 17 o | .vsplat o => encV 18 o | .vrcp o => encV 20 o | .vrsq o => encV 21 o
  | .vexp2 o => encV 22 o | .vlog2 o => encV 23 o | .vtanh o => encV 24 o
  | .vcvt o st p => some { encV 28 o with
      r := some (BitVec.ofNat 10 (p.toNat / 4 * 512 + st.code * 32 + o.k.toNat * 4 + p.toNat % 4)) }
  | .vqnt o rd => encV 29 o rd.code | .vdqt o rd => encV 30 o rd.code | .vamax o rd => encV 31 o rd.code
  | .vred o op => some { encV 32 o with q := optP (vQ o (op.code * 2 + o.sat.toNat)) }
  | .vperm o => encV 33 o | .vrot o => encV 34 o | .vext o => encV 35 o | .vins o => encV 36 o
  | .vtrn o => encV 37 o | .vlut o => encV 38 o | .vld o sz => encV 40 o sz.toNat | .vldp o np => encV 41 o np.toNat
  | .vgath o => encV 42 o | .vst o sz => encV 44 o sz.toNat | .vstp o np => encV 45 o np.toNat
  | .vscat o => encV 46 o | .vpupd o => encV 48 o | .vdot o => encV 49 o
  | .bbgetv ty sa a w => encABC 1 50 a 0 w (sa.toNat * 512 + ty.code)
  | .vrep a n => encAB 1 56 a n | .vend a => encAB 1 57 a 0 | .vwait => encAB 1 58 0 0
  | .mfmt o => encRR 2 0 o | .mldb o => encRR 2 1 o
  | .mmul t b c z d => encABC 2 2 (BitVec.ofNat 5 t.toNat) b c (d.toNat * 2 + z.toNat)
  | .mzero t => encTile 3 t 0 | .mwr t b => encTile 4 t b | .mrd t b nr => encTile 5 t b nr.toNat
  | .mdup a b => encAB 2 6 a b | .mvld b => encAB 2 7 0 b | .mvldR b => encAB 2 7 0 b 1
  | .mspec t => encTile 8 t 0 | .mcommit t => encTile 9 t 0 | .mdiscard t => encTile 10 t 0
  | .mbar => encAB 2 11 0 0 | .mstat => encAB 2 12 0 0 | .mslot a b => encAB 2 48 a b | .mwgt a => encAB 2 49 a 0
  | .ldg o => encRem 1 1 o | .stg o => encRem 2 2 o
  | .aadd o => encAt 6 o | .aand o => encAt 7 o | .aor o => encAt 8 o | .axor o => encAt 9 o | .amin o => encAt 10 o
  | .amax o => encAt 11 o | .aminn o => encAt 12 o | .amaxn o => encAt 13 o | .amaxf o => encAt 14 o
  | .aswp o => encAt 15 o | .acas o => encAt 16 o | .aincW o => encAt 17 o | .afaddB o => encAt 18 o
  | .fence o s => encAB 3 19 0 0 (o.code * 4 + s.code)
  | .push a p => encAB 3 20 a (BitVec.ofNat 5 p.toNat) | .pop a p => encAB 3 21 a (BitVec.ofNat 5 p.toNat)
  | .fstat a p => encAB 3 22 a (BitVec.ofNat 5 p.toNat)
  | .start a off => encBC 3 32 a off | .hwait a => encAB 3 33 a 0 | .hexit => encAB 3 34 0 0
  | .hstat a b => encAB 3 35 a b | .gang n => encAB 3 36 0 n | .split => encAB 3 37 0 0
  | .syncH l => encAB 3 39 0 (BitVec.ofNat 5 l.toNat)
  | .syncS l nos => encAB 3 40 0 (BitVec.ofNat 5 l.toNat) nos.toNat
  | .exch b => encAB 3 41 0 b | .dom a l => encAB 3 42 a (BitVec.ofNat 5 l.toNat)
  | .bstat a v l => encAB 3 43 a (BitVec.ofNat 5 (v.code * 8 + l.toNat)) | .evsig n => encAB 3 44 0 n
  | .cpy b => encAB 3 48 0 b | .cpyq a b => encAB 3 49 a b | .uiret => encAB 3 50 0 0
  | .uien a n => encAB 3 51 a (BitVec.ofNat 5 n.toNat)
  | .crd a n => encU 4 0 a n.toNat | .cwr a n => encU 4 1 a n.toNat | .trap n => encU 4 2 0 n.toNat
  | .tret => encAB 4 3 0 0 | .halt => encAB 4 4 0 0 | .wfe => encAB 4 5 0 0
  | .lgbind a b => encAB 5 0 a b | .lgunbind a => encAB 5 1 a 0 | .lgnext a b => encAB 5 2 a b
  | .lgok => encAB 5 3 0 0 | .lgflag a => encAB 5 4 a 0 | .lgemit a b => encAB 5 5 a b | .lglim a b => encAB 5 6 a b
  | .contain => encAB 5 7 0 0 | .xreq a b => encAB 5 16 a b | .xres a => encAB 5 17 a 0
  | .npost a b => encAB 5 32 a b | .npoll a b => encAB 5 33 a b
  | .mcld a b c => encABC 6 0 a b c | .mcst a b c => encABC 6 1 a b c | .mcpush a b c => encABC 6 2 a b c
  | .mcgath a b c vm => encABC 6 3 a b c vm.toNat | .mcwait => encAB 6 4 0 0 | .mctlb a => encAB 6 5 a 0
  | .mcsig a => encAB 6 6 a 0
  | _ => none

/-- Prefixes in the order P, Q, R, I, then the base word (spec/04 R62). -/
def emit (e : Enc) : List Half :=
  (if e.page == 0 then [] else [pfxWord 62 (BitVec.ofNat 10 e.page)]) ++ (e.q.toList.map (pfxWord 63)) ++
    (e.r.toList.map (pfxWord 61)) ++ e.pays.map (pfxWord 60) ++ [baseWord e.op e.a e.b]

/-- The halfwords of an instruction, with the fewest PFX.I; none for a hardware event. -/
def encode (i : Instr) : List Half := (toEnc i).elim [] emit

/-! ## The opcode table's own numbering -/

/-- The halfwords of a table row of `nbits` bits: a row of one halfword, or of two where the prefix halfword stands
first (spec/04 R62; the table writes it in the high half). Zeros follow, up to five halfwords. -/
def tableHalves (nbits w : Nat) : List Half :=
  let lo := BitVec.ofNat 16 w
  let hi := BitVec.ofNat 16 (w / 65536)
  let z : List Half := [0, 0, 0, 0]
  if nbits ≤ 16 then lo :: z
  else if !isPfx lo && isPfx hi then hi :: lo :: z
  else lo :: hi :: z

/-- Page 6 runs on memory cores only (spec/04 Table 4.6). -/
def tableKind (hs : List Half) : CoreKind := if hs.head? == some (0xF806 : Half) then .memory else .worker

/-- `hexit` runs in a helper context only (spec/05 R101). -/
def tableHelper (hs : List Half) : Bool := hs.take 2 == [(0xF803 : Half), 0x8800]

/-- The instruction that the decoder reads from a table row's bits. -/
def decodeTableWord (nbits w : Nat) : Option Instr :=
  let hs := tableHalves nbits w
  match decode { kind := tableKind hs, helper := tableHelper hs } hs with
  | .ok i _ _ _ _ => some i
  | _ => none

end Sys2Proof
end

