-- ==== Sys2Proof/Machine/State.lean ====
section
/-!
DEFINITION. The whole state of the device as plain data: every register, buffer, queue and engine state that the spec
names, the packets and messages in flight, and the model's own fields (which agent acts next, counters for free
values). Every docstring names the rule of spec/ that gives the field.
-/
namespace Sys2Proof.Machine

/-! ## Contexts -/

/-- One entry of a loop stack: body start, body end, remaining count (spec/05 R90). -/
structure Loop where
  start : Word
  fin : Word
  left : Word
  deriving DecidableEq, Repr

/-- What a lulled event-unit load waits for (spec/02 R31, spec/09 R178, R179). -/
inductive LullOn where
  | line (n : Nat)
  | lock (m : Nat)
  | barrier (c : Nat)
  deriving DecidableEq, Repr

/-- A lulled event-unit load of a context (spec/09 R176 to R180) with what its completion does: the register it writes,
the register a post-increment raises, and the PC after it. -/
structure Lull where
  on : LullOn
  rd : Reg
  inc : Option Reg := none
  next : Word
  /-- What it waits for has come while a freeze of spec/03 R38 lasts: the value with which it completes after it (none). -/
  due : Option Word := none
  deriving DecidableEq, Repr

/-- Operations of an atomic (spec/06 Table 6.6). -/
inductive AOp where
  | add | and | or | xor | min | max | minn | maxn | maxf | swp | cas | incW | faddB
  deriving DecidableEq, Repr

/-- A system-window load or atomic that occupies its context until its reply lands (spec/23 R382): its tag, address,
destination and the PC after it. -/
structure SysWait where
  tag : Nat
  addr : Word
  rd : Reg
  next : Word
  /-- Bytes of the access, and the record that was opened or joined at issue (none: none). -/
  n : Nat
  seq : Option Nat := none
  /-- The operation of an atomic with its values of gA and gC; none for a load. -/
  atom : Option (AOp × Word × Word) := none
  deriving DecidableEq, Repr

/-- State of one context, control or helper (spec/03 R35). -/
structure Ctx where
  /-- `g0` to `g31`; a helper uses the first 16 (spec/03 R35; 32 registers of 64 bits; launch value 0, R420). -/
  g : Vector Word 32 := Vector.replicate 32 0
  /-- Program counter (spec/04 R71; 64 bits; set at launch). -/
  pc : Word := 0
  /-- Loop stack, top first: 4 entries in the control context, 2 in a helper (spec/05 R90; empty). -/
  loops : List Loop := []
  /-- Wake latch of `wfe` (spec/06 R135; 1 bit; clear). -/
  latch : Bool := false
  /-- A `wfe` has issued and clock-gates the context until the latch is set (spec/06 R135; clear). -/
  gated : Bool := false
  /-- Registers that a remote load or atomic in flight will write (spec/03 R50; empty). -/
  pend : List Reg := []
  /-- Lulled event-unit load (spec/09 R176; none). -/
  lull : Option Lull := none
  /-- System-window access holding the context (spec/23 R382; none). -/
  sys : Option SysWait := none
  /-- Pending failure of a system-window `stg`: its first failed address (spec/23 R382; none). -/
  sysFail : Option Word := none
  /-- Causes to be taken at the next boundary: a poisoned reply, a failed connection or a sequencer fault (spec/06 R111,
  spec/23 R382, spec/13 R252, spec/03 R53): code, value, and `trap.pc` when it is not the boundary's; empty. -/
  kept : List (Nat × Word × Option Word) := []
  /-- Fetch buffer: addresses and halfwords taken (spec/04 R73; empty). -/
  fbuf : List (Nat × Half) := []
  /-- Accesses in flight of other contexts of the core that happen before what this context does next: those of the control context at
  `start`, and those of a helper that has ended (spec/07 R147 Table 7.2); packet and window-access numbers; empty. -/
  inh : List Nat := []
  deriving DecidableEq, Repr

/-- One helper context with its status (spec/05 R100 to R103, Table 5.8). -/
structure Helper where
  ctx : Ctx := {}
  /-- 1: the helper is live (reset 0). -/
  live : Bool := false
  /-- 1: its last run ended by a fault (reset 0). -/
  flt : Bool := false
  /-- Cause of that fault (8 bits; reset 0). -/
  cause : BitVec 8 := 0
  /-- Address of the faulting instruction (reset 0). -/
  fpc : Word := 0
  deriving DecidableEq, Repr

/-- The status and trap registers of one level (spec/08 Tables 8.1, 8.2; banked on control cores, spec/25 R397). -/
structure Bank where
  /-- `st.tn` (reset 0). -/
  tn : Bool := false
  /-- `st.plv` (2 bits; reset 0). -/
  plv : BitVec 2 := 0
  /-- `st.ls` (reset 0). -/
  ls : Bool := false
  /-- `st.gf` (reset 0). -/
  gf : Bool := false
  /-- `st.f` (reset 0). -/
  f : Bool := false
  /-- `trap.pc` (64 bits; reset 0). -/
  pc : Word := 0
  /-- `trap.cause` (8 bits; reset 0). -/
  cause : BitVec 8 := 0
  /-- `trap.val` (64 bits; reset 0). -/
  val : Word := 0
  /-- `trap.vec` (18 bits used; reset 0). -/
  vec : Word := 0
  /-- The loop stack held for `tret` (spec/05 R93; empty). -/
  held : List Loop := []
  deriving DecidableEq, Repr

/-- An entry of the pending user-interrupt queue (spec/18 R316, R318). -/
structure UiEntry where
  hnd : Word
  xid : BitVec 32
  status : Word
  deriving DecidableEq, Repr

/-- The bit buffer (spec/05 R94, Tables 5.4 to 5.6; reset 0). -/
structure BitBuf where
  d : BitVec 128 := 0
  cnt : Nat := 0
  ptr : Word := 0
  deriving DecidableEq, Repr

/-! ## Tensor descriptors and engine commands -/

/-- A tensor descriptor as read (spec/01 Tables 1.6, 1.7). -/
structure TD where
  addr : Word
  base : Word
  ctl : Word
  sbase : Word
  pstride : Word
  ext : List Nat
  str : List Word
  deriving DecidableEq, Repr

/-- A command in a core's matrix queue with everything read at issue (spec/16 R275, Table 16.1). -/
inductive MOp where
  | mfmt (ta tb : TD) (ka kb : Nat) (soff : Nat)
  | mldb (td : TD) (off soff i0 row : Nat)
  | mmul (t : Nat) (i0 row boff m K : Nat) (z d : Bool)
  | mzero (t : Nat)
  | mwr (t : Nat) (addr : Nat)
  | mrd (t : Nat) (addr n : Nat)
  | mdup (side : Bool) (pairs : List (Nat × Nat))
  | mvld (mask : BitVec 32)
  | mspec (t : Nat)
  | mcommit (t : Nat)
  | mdiscard (t : Nat)
  | mbar
  | mstat
  | mslot (q : Nat) (w : Word)
  | mwgt (w : BitVec 32)
  deriving DecidableEq, Repr

/-- A queued matrix command: eligible when the stores it releases (`deps`, packet numbers) are performed (spec/15 R263). -/
structure MCmd where
  op : MOp
  deps : List Nat := []
  /-- Cycle of its `push`: it is eligible 2 cycles later. -/
  at_ : Nat := 0
  deriving DecidableEq, Repr

/-- A copy command with the block and both descriptors as read at issue (spec/18 R319, spec/17 Table 17.5). -/
structure CopyCmd where
  blk : Word
  std : TD
  dtd : TD
  hnd : Word
  xid : BitVec 32
  np : Nat
  vm : Bool
  mbase : Word
  deps : List Nat := []
  /-- Number of the command: a newer one has a larger number. -/
  no : Nat := 0
  deriving DecidableEq, Repr

/-- A port command block as read at issue, with its tag (spec/23 Table 23.6, R390). -/
structure PCmd where
  blk : List Byte
  tag : Nat
  deps : List Nat := []
  deriving DecidableEq, Repr

/-- An element of port 4's result FIFO, with the command's `nt` flag (spec/23 Table 23.7, R389). -/
structure PElem where
  val : Word
  nt : Bool
  deriving DecidableEq, Repr

/-- A 64-bit command word of ports 1 and 5 with the stores it releases. -/
structure WCmd where
  val : Word
  deps : List Nat := []
  /-- Cycle of its `push`. -/
  at_ : Nat := 0
  deriving DecidableEq, Repr

/-! ## Slipstream, exchange, sync, sequencer -/

/-- Slipstream state of a core (spec/09 R167 to R172): the checkpoint, the store buffer and the read marks. -/
structure Slip where
  lvl : Nat
  /-- PC of the `sync.s`. -/
  syncPc : Word
  /-- Checkpoint: g, v, k registers, bit buffer, loop stack, `st.f` and the PC after the `sync.s`. -/
  g : Vector Word 32
  v : Vector VWord 32
  k : Vector Word 8
  bb : BitBuf
  loops : List Loop
  f : Bool
  pc : Word
  /-- The wake latch was set when it was entered, or a `wfe` in it has found it set (spec/07 R148). -/
  latch : Bool := false
  /-- Repetitions that the most recent `vrep` before it had started (spec/13 R250). -/
  started : Nat := 0
  /-- Store-buffer lines in use (line numbers), at most 128. -/
  lines : List Nat := []
  /-- Buffered bytes (slice address, byte). -/
  buf : List (Nat × Byte) := []
  /-- Read-marked lines. -/
  marks : List Nat := []
  /-- First record emitted in this slipstream (spec/21 R360). -/
  firstSp : Option Nat := none
  /-- Tags that the buffered stores will set: line and record sequence number (spec/21 R360). -/
  tags : List (Nat × Nat) := []
  deriving DecidableEq, Repr

/-- A core waiting at a released-yet-to-come sync (spec/09 R182, R183). -/
structure SyncWait where
  lvl : Nat
  hard : Bool
  /-- PC of the sync, and of the instruction after it. -/
  pc : Word
  next : Word
  deriving DecidableEq, Repr

/-- Exchange phase of one member (spec/03 R44 to R47). -/
structure Exch where
  lvl : Nat
  pc : Word
  next : Word
  plan : Nat
  n : Nat
  arr : Nat
  span : Nat
  /-- Cycle of plan cycle 0. -/
  t0 : Nat
  /-- Entry and flit to inject next. -/
  ent : Nat := 0
  flit : Nat := 0
  /-- First malformed entry met. -/
  mal : Option Nat := none
  /-- Flits that have arrived so far (spec/03 R47). -/
  cnt : Nat := 0
  /-- Last plan cycle, plus one, that the previous entry uses (spec/03 R46). -/
  prevEnd : Nat := 0
  /-- The count has been taken (plan cycle `span` reached). -/
  counted : Bool := false
  deriving DecidableEq, Repr

/-- A slot of the repetition buffer: the instruction and the g values captured for its b and c fields (spec/13 R248). -/
structure BodyI where
  ins : Instr
  gb : Word
  gc : Word
  /-- Address of the instruction, and the halfword and prefix count for `trap.val`. -/
  pc : Word
  deriving DecidableEq, Repr

/-- The loop sequencer (spec/13 R246 to R252). -/
structure Seqr where
  /-- Slots captured so far. -/
  body : List BodyI := []
  /-- Slots still to capture. -/
  toCap : Nat := 0
  /-- Body length and repetition count of the current `vrep`. -/
  n : Nat := 0
  count : Nat := 0
  /-- Leading repetitions that have ended, and the next slot of each started repetition after them. -/
  base : Nat := 0
  pos : List Nat := []
  /-- `vend` issued or a pre-emption halt holds: no new repetition starts. -/
  stopNew : Bool := false
  /-- `sr.seed` captured (spec/11 R205). -/
  seed : Word := 0
  /-- Repetitions that the most recent `vrep` started (spec/13 R250; 0 since launch). -/
  started : Nat := 0
  deriving DecidableEq, Repr

/-! ## The lifeguard at a core (spec/21) -/

/-- An open record that may still be joined (spec/21 R351). -/
structure OpenRec where
  typ : Nat
  ctx : Nat
  sz : Nat
  /-- Sequence number. -/
  seq : Nat
  sp : Bool
  addr : Word
  /-- Address after the last access. -/
  next : Word
  rep : Nat
  info : Nat
  /-- Cycle of the last access. -/
  cyc : Nat
  /-- The access that opened it has landed, so that its tag is known (spec/22 R374). -/
  tagged : Bool := true
  /-- Address and count after the last load that has issued as its member (spec/22 R374). -/
  inext : Word
  irep : Nat
  deriving DecidableEq, Repr

/-- What a bound worker keeps of its binding (spec/21 R347, R348, R359). -/
structure Bound where
  /-- Core number of the lifeguard. -/
  peer : Nat
  mask : BitVec 16
  ring : Nat
  lring : Nat
  openRec : Option OpenRec := none
  /-- Closed records whose opening load has not landed: they are sent when it lands (spec/22 R374). -/
  late : List OpenRec := []
  /-- Flagged sequence number kept for `trap.val` (spec/21 R359). -/
  flagSeq : Nat := 0
  /-- Sequence number of the CONTAIN record that a context (0 control, 1 to 10 helpers) waits for (spec/21 R358). -/
  waits : List (Nat × Nat) := []
  deriving DecidableEq, Repr

/-- What a lifeguard keeps of its binding and its dispatcher (spec/21 R355). -/
structure Guardian where
  /-- Core number of the worker. -/
  peer : Nat
  ring : Nat
  lring : Nat
  hs : List Word
  /-- Records accepted into the ring. -/
  accepted : Nat := 0
  /-- Records dispatched to port 3. -/
  dispatched : Nat := 0
  /-- The next record is held on its stamp (spec/21 R356). -/
  holding : Bool := false
  /-- Final sequence number once unbound (spec/21 R365). -/
  final : Option Nat := none
  deriving DecidableEq, Repr

/-- An `lgbind` or `lgunbind` that holds after its effect (spec/21 R364, R365): its destination and the PC after it. -/
structure LgWait where
  bind : Bool
  rd : Reg
  next : Word
  deriving DecidableEq, Repr

/-- `lg.peer` fields but the peer itself (spec/21 Tables 21.2 to 21.4; reset 0). -/
structure LgRegs where
  v : Bool := false
  role : Bool := false
  gp : Bool := false
  drn : Bool := false
  py : Nat := 0
  px : Nat := 0
  zone : Bool := false
  lim : Nat := 0
  cons : BitVec 32 := 0
  seq : BitVec 32 := 0
  deriving DecidableEq, Repr

/-! ## Memory core -/

/-- A TLB entry (spec/17 R301): tenant, level of the leaf, virtual page address, leaf word. -/
structure TlbE where
  ten : Nat
  lvl : Nat
  va : Nat
  leaf : Word
  deriving DecidableEq, Repr

/-- A side of a unit of a transfer (spec/18 R326): buffer address, slice byte, DRAM address with its key slot, or zeros. -/
inductive XSide where
  | buf (a : Nat)
  | glob (a : Nat)
  | dram (va pa key : Nat)
  | zero
  deriving DecidableEq, Repr

/-- A 64-byte unit of a transfer: its sides, the aligned 8-byte words that have been read and are still needed, and the words that have
not moved (spec/18 R332: each word of a buffer at its own cycle). -/
structure XMove where
  src : XSide
  dst : XSide
  got : List (Nat × List Byte) := []
  left : List Nat := List.range 8
  deriving DecidableEq, Repr

/-- A transfer of a memory core (spec/18 R326): its number and the units still to be moved. -/
structure Xfer where
  id : Nat
  moves : List XMove
  /-- Mask words to write at the end (destination address, word). -/
  masks : List (XSide × List Byte) := []
  deriving DecidableEq, Repr

/-! ## A core -/

/-- What a core is doing (spec/06 R134, spec/08 R152, R157, R159, spec/25 R398). -/
inductive Run where
  /-- Not launched. -/
  | idle
  | running
  /-- `halt` completed. -/
  | halted
  /-- A fatal stop with its cause, value and PC (spec/08 R152). -/
  | stopped (cause : Nat) (val pc : Word)
  /-- Quarantined (spec/08 R157). -/
  | quarantined
  /-- Halted for pre-emption (spec/08 R159). -/
  | preempted
  deriving DecidableEq, Repr

/-- The latest division of a core, which occupies the divider until its result lands (spec/05 R81): its context, destination, the value that
the destination had, its PC, the loop stack before it, and the cycle of its issue. -/
structure DivRun where
  c : Nat
  rd : Reg
  old : Word
  pc : Word
  loops : List Loop
  at_ : Nat
  deriving DecidableEq, Repr

/-- The latest `gang` that a core issued (spec/03 R41): its size and cycle, its PC, the PC after it, and the loop stack before it. -/
structure GangTry where
  n : Nat
  at_ : Nat
  pc : Word
  next : Word
  loops : List Loop
  deriving DecidableEq, Repr

/-- An operand of the format context at launch: bf16, one plane, finite-only, no scales (spec/15 Table 15.4, codes of spec/01 Tables 1.7,
1.8). No command reads it before an `mfmt` has set it (spec/16 R282). -/
def bf16Td : TD := ⟨0, 0, 0x511, 0, 0, [], []⟩

/-- The issue-side copy of the matrix format context (spec/16 R275). -/
structure MCtx where
  set : Bool := false
  ta : TD := bf16Td
  tb : TD := bf16Td
  ka : Nat := 1
  kb : Nat := 1
  soff : Nat := 0
  deriving DecidableEq, Repr

/-- State of one core: a worker core, a memory core or a control core. -/
structure Core where
  /-- Not launched, running, halted, stopped (with its cause), quarantined or pre-empted (spec/08 R151 to R162, spec/25 R420); reset not launched. -/
  run : Run := .idle
  /-- Control context (spec/03 R35). -/
  ctl : Ctx := {}
  /-- Helper contexts 0 to 9 (spec/03 R35). -/
  helpers : Vector Helper 10 := Vector.replicate 10 {}
  /-- Helper that issued most recently (spec/03 R38; as if 9). -/
  rot : Nat := 9
  /-- `v0` to `v31` (spec/03 R35; 512 bits; launch value 0). -/
  v : Vector VWord 32 := Vector.replicate 32 0
  /-- `k0` to `k7`; `k0` reads all ones (spec/13 R219, spec/25 R420; 64 bits; launch value 0). -/
  k : Vector Word 8 := Vector.replicate 8 0
  /-- Current level (spec/06 `lvl`, control register 33; 2 bits; 2 on worker and memory cores, R131). -/
  lvl : BitVec 2 := 2
  /-- `st`, `trap.pc`, `trap.cause`, `trap.val`, `trap.vec` per level (spec/08 R149, R150; spec/25 R397). -/
  banks : Vector Bank 3 := Vector.replicate 3 {}
  /-- `id.x` to `id.e3`, control registers 0 to 12 (spec/01 Table 1.4; set at launch). -/
  id : Vector Word 13 := Vector.replicate 13 0
  /-- `dm2` to `dm6` (spec/03 Tables 3.2, 3.3; set at launch). -/
  dm : Vector Word 5 := Vector.replicate 5 0
  /-- Watchdog limits W of levels 2 to 6 (spec/09 R166; set at launch). -/
  wd : Vector Nat 5 := Vector.replicate 5 0
  /-- `ui.vec` (spec/18 Table 18.1; reset 0). -/
  uiVec : Word := 0
  /-- `ui.id` (spec/18 Table 18.2; reset 0). -/
  uiId : Word := 0
  /-- `ui.en.en` (spec/18 Table 18.3; reset 0). -/
  uiEn : Bool := false
  /-- `ui.en.act` (reset 0). -/
  uiAct : Bool := false
  /-- `ui.en.ls` (reset 0). -/
  uiLs : Bool := false
  /-- The loop stack held for `uiret` (spec/18 R317; empty). -/
  uiHeld : List Loop := []
  /-- Pending queue of 64 entries (spec/18 R316; empty). -/
  uiq : List UiEntry := []
  /-- `spec.st`: `ncom`, `nrb`, `lv`, `rb` (spec/09 Table 9.3; reset 0; `lines` and `act` follow from `slip`). -/
  ncom : BitVec 16 := 0
  nrb : BitVec 16 := 0
  spLv : BitVec 3 := 0
  spRb : Bool := false
  /-- `spec.rb` (spec/09 Table 9.4; reset 0). -/
  specRb : Word := 0
  /-- `lg.peer`, `lg.lim`, `lg.seq` (spec/21 Tables 21.2 to 21.4; reset 0). -/
  lg : LgRegs := {}
  /-- Worker side of a binding (spec/21 R347; none). -/
  bound : Option Bound := none
  /-- Lifeguard side of a binding (spec/21 R355; none). -/
  guard : Option Guardian := none
  /-- `lgbind` or `lgunbind` in progress (none). -/
  lgWait : Option LgWait := none
  /-- `sr.seed` (spec/11 Table 11.6; reset 0). -/
  seed : Word := 0
  /-- Bit buffer `bb` (spec/05 R94; reset 0). -/
  bb : BitBuf := {}
  /-- `grd0` to `grd15` (spec/06 Table 6.13; reset 0). -/
  grd : Vector Word 16 := Vector.replicate 16 0
  /-- `ptmr` (spec/25 Table 25.3; 32 bits; reset 0). -/
  ptmr : Nat := 0
  /-- `ptmr` reached 0: `syscall` at the next boundary (spec/25 R399). -/
  ptmrDue : Bool := false
  /-- Pending `quarantine` with its value (spec/08 R157; none). -/
  quar : Option Word := none
  /-- Core number of the gang's leader when in a gang, and the gang's size (spec/03 R40; none). -/
  gang : Option (Nat × Nat) := none
  /-- Size of the gang this core waits to form, and the PC after its `gang` (spec/03 R40; none). -/
  gangWait : Option (Nat × Word) := none
  /-- The latest `gang` that this core issued (spec/03 R41; none). -/
  gangTry : Option GangTry := none
  /-- Latest division, which a pre-emption halt cancels while it stands in the divider (spec/05 R81; none). -/
  div : Option DivRun := none
  /-- Exchange-ready state with the level of the released `sync.h` (spec/03 R45; none). -/
  exReady : Option Nat := none
  /-- Exchange phase of this core (spec/03 R44 to R47; none). -/
  exch : Option Exch := none
  /-- Levels of the phases that this member has missed: its mismatch bit stands on their wires (spec/03 R47; none). -/
  exMiss : List Nat := []
  /-- Flits of the coming phase that were written before this member's `exch` has issued (spec/03 R47; 0). -/
  exEarly : Nat := 0
  /-- Waiting at a sync (spec/09 R182; none). -/
  sync : Option SyncWait := none
  /-- Levels at which this member has arrived in the current round (spec/09 R164; none). -/
  arrived : List Nat := []
  /-- Cycles of those arrivals, by level (spec/10 R189; none). -/
  arrAt : List (Nat × Nat) := []
  /-- Slipstream state (spec/09 R167 to R172; none). -/
  slip : Option Slip := none
  /-- PC of the `sync.s` that this core rolled back to: no slipstream again there (spec/03 R58). -/
  noSlip : Option Word := none
  /-- Loop sequencer (spec/13 R246 to R252; empty). -/
  seqr : Seqr := {}
  /-- Issue-side matrix context (spec/16 R275; Table 15.4 at launch). -/
  mctx : MCtx := {}
  /-- Pending matrix-unit `datauc` (spec/15 R272; none). -/
  mErr : Option Word := none
  /-- Command FIFOs of ports 0, 1, 2, 4, 5 and result FIFOs of ports 0, 1, 3, 4, 5 (spec/01 Table 1.2; empty). -/
  q0 : List MCmd := []
  r0 : List Word := []
  q1 : List WCmd := []
  r1 : List Word := []
  q2 : List CopyCmd := []
  r3 : List Word := []
  q4 : List PCmd := []
  r4 : List PElem := []
  q5 : List WCmd := []
  r5 : List Word := []
  /-- `npost` tag counter (spec/23 R390; 0). -/
  ntag : Nat := 0
  /-- Numbers, transfer ids and status words of the last 64 completed copies (spec/18 R320; empty). -/
  cdone : List (Nat × BitVec 32 × Word) := []
  /-- Memory core: port 0's command FIFO of 4 entries (spec/18 R325; empty). -/
  inq : List Word := []
  /-- Memory core: TLB of 64 entries (spec/17 R301; empty). -/
  tlb : List TlbE := []
  /-- Memory core: transfers in flight, at most 8 (spec/18 R326; empty). -/
  xfers : List Xfer := []
  /-- Memory core: VA of the lowest uncorrectable unit that a transfer met (spec/18 R329; none). -/
  xbad : Option Nat := none
  /-- Memory core: root word (spec/25 Table 25.12; reset 0). -/
  root : Word := 0
  /-- Memory core: overlays of renamed ranges: VA, pages, first frame PA (spec/25 R418; empty). -/
  overlays : List (Nat × Nat × Nat) := []
  deriving DecidableEq, Repr

/-! ## Clusters -/

/-- A mutex of the event unit (spec/09 R178): holder and queue of loaders, as core and context. -/
structure Lock where
  holder : Option (Nat × Nat) := none
  queue : List (Nat × Nat) := []
  deriving DecidableEq, Repr

/-- A cluster barrier (spec/09 R179): participants and arrivals, one bit per core row. -/
structure Bar where
  mask : BitVec 8 := 0
  arr : BitVec 8 := 0
  deriving DecidableEq, Repr

/-- One core's format context in the matrix unit (spec/15 Table 15.4). -/
structure FmtCtx where
  mc : MCtx := {}
  /-- Row-validity mask, 32 bits (R269); all ones at launch. -/
  vmask : BitVec 32 := BitVec.allOnes 32
  /-- Side bit of the duplication map (R268). -/
  dside : Bool := false
  /-- Pairs of the duplication map, at most 16 (R268). -/
  dpairs : List (Nat × Nat) := []
  /-- Speculative tiles (spec/15 R267). -/
  specm : BitVec 4 := 0
  deriving DecidableEq, Repr

/-- The command in the array (spec/16 R277): the row of its core, the command, the slice writes that it has still to make
(`mrd`: address in the slice and bytes), and its result element. -/
structure MRun where
  row : Nat
  op : MOp
  writes : List (Nat × List Byte) := []
  elem : Word := 0
  deriving DecidableEq, Repr

/-- The transform request in progress (spec/20 R337): its requester's row and the element that its completion gives. -/
structure XRun where
  row : Nat
  elem : Word
  deriving DecidableEq, Repr

/-- A walk-cache entry (spec/17 R301): tenant, level, virtual index prefix, entry word. -/
structure WalkE where
  ten : Nat
  lvl : Nat
  vpn : Nat
  ent : Word
  deriving DecidableEq, Repr

/-- State of one cluster: event unit, matrix unit, transform coprocessor, walk cache, barrier cuts (spec/01, 09, 15, 20). -/
structure Cluster where
  /-- Fired bits of the 32 event lines (spec/09 R176; 0). -/
  fired : Vector Bool 32 := Vector.replicate 32 false
  /-- Bind words (spec/09 Table 9.6; 32 bits; reset 0). -/
  bind : Vector (BitVec 32) 32 := Vector.replicate 32 0
  /-- The 8 mutexes (spec/09 R178; free). -/
  locks : Vector Lock 8 := Vector.replicate 8 {}
  /-- The 4 cluster barriers (spec/09 R179; no participants). -/
  bars : Vector Bar 4 := Vector.replicate 4 {}
  /-- Slot table (spec/15 Table 15.2; 64 entries of 4 bits; reset 0). -/
  slots : Vector (BitVec 4) 64 := Vector.replicate 64 0
  /-- Weight word (spec/15 Table 15.3; each weight resets to 1). -/
  wgt : BitVec 32 := 0x11111111
  /-- Credits (spec/15 R264; signed 8-bit; 0). -/
  cr : Vector Int 8 := Vector.replicate 8 0
  /-- Last weight-0 winner (spec/15 R264; as if row 7). -/
  w0 : Nat := 7
  /-- Format contexts of its 8 cores in the matrix unit (spec/15 Table 15.4; as at launch). -/
  fctx : Vector FmtCtx 8 := Vector.replicate 8 {}
  /-- Grant counts since launch (spec/16 R278; 0). -/
  seqs : Vector Nat 8 := Vector.replicate 8 0
  /-- Command in the array (spec/16 R277; none). -/
  run : Option MRun := none
  /-- Elements that a command's bad pass wrote, for `mrd`'s `bad` bit: flat addresses of tile words holding a NaN of R272. -/
  badNan : List Nat := []
  /-- Transform in progress (spec/20 R337; none). -/
  xrun : Option XRun := none
  /-- Row that the transform coprocessor served last (spec/20 R337; as if row 7). -/
  xlast : Nat := 7
  /-- Walk cache of 32 entries (spec/17 R301; empty). -/
  wcache : List WalkE := []
  /-- Barrier cuts, 32 words (spec/25 Table 25.2, spec/09 R163; 0). -/
  cuts : Vector Word 32 := Vector.replicate 32 0
  deriving DecidableEq, Repr

/-! ## Rounds of a domain -/

/-- The current round of a sync domain and its last break (spec/09 R164 to R166, R185, R186). -/
structure Round where
  /-- Releases since launch, modulo 2^32 (`ph`). -/
  ph : BitVec 32 := 0
  /-- Cycle of the first and of the last arrival of the current round. -/
  first : Option Nat := none
  last : Nat := 0
  /-- The most recent round ended by a break. -/
  brk : Bool := false
  /-- Missing members frozen by the break. -/
  frozen : List Nat := []
  deriving DecidableEq, Repr

/-! ## Packets in the mesh (spec/03 R49, spec/06 R117, R118) -/

inductive PKind where
  /-- Remote load: destination register, home, offset, bytes; performed at the home. -/
  | load (rd : Reg) (home off n : Nat)
  | loadRep (rd : Reg) (n : Nat) (val : Word) (poison : Option Word)
  | store (home off n : Nat) (val : Word)
  | ack
  | atom (rd : Reg) (home off : Nat) (w32 : Bool) (op : AOp) (e y : Word)
  | atomRep (rd : Reg) (w32 : Bool) (val : Word) (flag : Option Bool) (poison : Option Word)
  /-- A flit of an exchange phase, for the level-`lvl` domain of its sender. -/
  | flit (home off lvl : Nat) (bytes : List Byte)
  /-- Event message (spec/09 R177). -/
  | event (cl line hops : Nat)
  /-- Lifeguard record for a ring (spec/21 R353): lifeguard, sequence number, header, `addr`. -/
  | record (lgd seq : Nat) (hdr addr : Word)
  | bind (w : Nat) (mask : BitVec 16) (ring lring : Nat) (zone : Bool) (lim : Nat)
  /-- Answer to a bind: 0 when it took effect, else the status of `lgbind`. -/
  | bindAck (lgd st : Nat)
  | unbind (w : Nat)
  /-- The final sequence number; none when the worker has stopped: then the last record that the lifeguard has accepted is final (spec/21
  R365). -/
  | unbindAck (lgd : Nat) (final : Option Nat)
  | publish (w : Nat) (cons : BitVec 32)
  | flag (w : Nat) (seq : BitVec 32)
  | limit (dest lim : Nat)
  deriving DecidableEq, Repr

/-- A packet: its number, the core and context that sent it (0 control, 1 to 10 helpers; 100 more once that run of the context has ended),
the address as the instruction named it, the tag to set in the written line (spec/21 R352), and what it is. -/
structure Packet where
  id : Nat
  core : Nat
  ctx : Nat
  addr : Word := 0
  /-- PC of the instruction, for a cause that its reply brings. -/
  pc : Word := 0
  tag : Nat × Nat := (0, 0)
  /-- Sequence number of the LOAD or ATOMIC record that the access opened or joined at issue (none: none). -/
  seq : Option Nat := none
  /-- An acquire: no later access of its context issues before the reply has landed (spec/07 R144). -/
  acq : Bool := false
  /-- Accesses in flight of other contexts of its core that happen before it (spec/07 R147). -/
  after : List Nat := []
  /-- Of a release: loads in flight before it, which read before it is performed (spec/07 R140, spec/22 R372). -/
  loads : List Nat := []
  kind : PKind
  deriving DecidableEq, Repr

/-! ## Copies (spec/17 R306 to R311) -/

/-- What the head's memory core found for a 64 KiB page of the DRAM window, for reading or for writing: the reason of
Table 17.3 (0: none), the PA of its first byte and its key slot (spec/17 R309). -/
structure CPage where
  pg : Nat
  wr : Bool
  rsn : Nat := 0
  pa : Nat := 0
  key : Nat := 0
  deriving DecidableEq, Repr

/-- A unit of a copy's destination that is written at once (spec/17 R311, R312): an aligned 8-byte word, a plane group, or a
mask word. -/
inductive CUnit where
  | word (n : Nat)
  | group (n : Nat)
  | mask (q : Nat)
  deriving DecidableEq, Repr

/-- A fault of a piece: source address, status word, and the slice word (flat address divided by 8) of a `datauc`. -/
structure CFault where
  src : Nat
  status : Word
  word : Option Nat := none
  deriving DecidableEq, Repr

/-- A copy accepted by its head (spec/17 R309): pages as translated, units still to move, pieces that met a fault and move
nothing more, window bytes fetched through a port engine, and homes whose acknowledgement is outstanding. -/
structure Copy where
  id : Nat
  core : Nat
  cmd : CopyCmd
  pages : List CPage := []
  todo : List CUnit := []
  dead : List Nat := []
  faults : List CFault := []
  got : List (Nat × Byte) := []
  acks : List Nat := []
  deriving DecidableEq, Repr

/-! ## Port engines (spec/23) -/

/-- A message handed to its consumer (spec/23 R381 to R394, spec/25 R411, R414). The wire layout of window accesses and
collective chunks is not given by the spec; these are their contents. -/
inductive Msg where
  | ld (addr : Word) (n tag : Nat)
  | st (addr : Word) (n tag : Nat) (val : Word)
  | at (addr : Word) (w32 : Bool) (op : AOp) (e y : Word) (tag : Nat)
  | reply (tag : Nat) (val : Word)
  | refused (tag : Nat)
  | chunk (gid round step : Nat) (data : List Byte)
  | creset (gid round lost : Nat)
  | release (gid : Nat)
  | raw (bytes : List Byte)
  deriving DecidableEq, Repr

/-- A Milium packet as received (spec/23 Table 23.2), with the UDP port and address it came from. -/
structure MPkt where
  typ : Nat
  ackReq : Bool
  cid : Nat
  psn : Nat
  cack : Nat
  sack : BitVec 64
  payload : List Byte
  from_ : Nat := 0
  deriving DecidableEq, Repr

inductive ConnSt where
  | opening | opened | closing | failed
  deriving DecidableEq, Repr

/-- A connection (spec/23 R379, R380). Times are in cycles of `cyc`. -/
structure Conn where
  st : ConnSt := .opening
  /-- Messages that wait for the window of 1,024 packets. -/
  wait : List Msg := []
  /-- The other side's connection number. -/
  peer : Nat := 0
  /-- Next psn to send, and the unacknowledged packets (psn, message). -/
  nxt : Nat := 0
  una : List (Nat × Msg) := []
  /-- Sequence numbers of `una` that the peer has marked received. -/
  sacked : List Nat := []
  /-- `psn` of this side's first data packet, as its connect names it. -/
  ipsn : Nat := 0
  /-- psn expected next, and packets received ahead of it. -/
  exp : Nat := 0
  ahead : List (Nat × List Byte) := []
  /-- Payloads received in order that wait in the receive window for their consumer (spec/24 R394). -/
  held : List (List Byte) := []
  /-- Data packets received since the last ack. -/
  unacked : Nat := 0
  ackDue : Option Nat := none
  /-- Retransmit time in µs: initial, current; expiries without progress; deadline. -/
  rto : Nat := 1000
  cur : Nat := 1000
  expiries : Nat := 0
  deadline : Nat := 0
  mss : Nat := 8192
  addr : Nat := 0
  /-- C-tag of its frames: VID and priority (spec/23 Table 23.1). -/
  vtag : Option (Nat × Nat) := none
  /-- The peer has sent a close that is not answered yet (spec/23 R380). -/
  closeReq : Bool := false
  deriving DecidableEq, Repr

/-- A group entry (spec/23 Table 23.5). -/
structure Group where
  n : Nat
  rank : Nat
  gto : Nat
  peers : List Nat
  deriving DecidableEq, Repr

/-- A port command taken by the engine (spec/23 R388): its core, fields, and progress. -/
structure PRun where
  core : Nat
  cmd : PCmd
  /-- Group entry with which it started, and its round. -/
  group : Option Group := none
  round : Nat := 0
  /-- Step reached, and the cycle at which it started. -/
  step : Nat := 0
  stepAt : Nat := 0
  /-- psn of the last packet of a message. -/
  lastPsn : Nat := 0
  /-- Elements of the step's chunk received so far. -/
  part : List Byte := []
  /-- Status and `val` once finished. -/
  fin : Option (Nat × Nat) := none
  /-- Bytes of `src` as read at the start, and the aligned words of `dst` (by their first offset) into which they have not been
  copied yet (spec/23 R387). -/
  src : List Byte := []
  late : List Nat := []
  deriving DecidableEq, Repr

/-- An access of a context through the system window, until the target's answer (spec/23 R382): its tag, context,
connection (port × 1024 + number), address, and whether it is a `stg`. For an access of a copy: the copy, the piece and the
source address that it serves. -/
structure SysOut where
  tag : Nat
  core : Nat
  ctx : Nat
  conn : Nat
  addr : Word
  store : Bool
  copy : Option (Nat × Nat × Nat) := none
  deriving DecidableEq, Repr

/-- Header of a Milium packet (spec/23 Table 23.2); `ver` is 1. -/
structure MHdr where
  typ : Nat
  flg : Nat := 0
  cid : Nat
  psn : Nat := 0
  cack : Nat := 0
  sack : BitVec 64 := 0
  deriving DecidableEq, Repr

/-- What a packet carries: a message of the transport, or bytes; or it is a neighbour solicitation for an address (spec/25 R408). -/
inductive Body where
  | msg (m : Msg)
  | bytes (bs : List Byte)
  | solicit (target : Nat)
  deriving DecidableEq, Repr

/-- A packet that the device sent: visible outside. Its port, source address where it is not the port's own, destination address, C-tag, Milium header
and payload. -/
structure Out where
  port : Nat
  src : Option Nat := none
  dest : Nat
  vtag : Option (Nat × Nat) := none
  hdr : MHdr
  body : Body := .bytes []
  deriving DecidableEq, Repr

/-- A port engine (spec/23). -/
structure Port where
  /-- Milium port number (spec/23 R378; reset 0: every Milium packet is dropped). -/
  mport : Nat := 0
  /-- Links up (spec/23 R377). -/
  up : List Bool := [false, false]
  /-- Frames dropped and counted (spec/23 R377). -/
  drops : Nat := 0
  /-- Milium packets received and not yet handled. -/
  rxq : List MPkt := []
  /-- Connections (spec/23 R379), by number. -/
  conns : List (Nat × Conn) := []
  /-- Armed UDP ports and addresses (spec/23 R380). -/
  armed : List (Nat × Nat) := []
  /-- Group entries (spec/23 R385), by `gid`. -/
  groups : List (Nat × Group) := []
  /-- Collective commands started on each `gid` by each launch (a task's VM and admission number; none for a control core), the launch that
  started one last first (spec/24 R394). -/
  rounds : List (Nat × Option (Nat × Nat) × Nat) := []
  /-- Port commands in flight. -/
  cmds : List PRun := []
  /-- Messages delivered to their consumers: connection and message. -/
  inbox : List (Nat × Msg) := []
  deriving DecidableEq, Repr

/-! ## Control complex (spec/25) -/

/-- A queue descriptor (spec/25 Table 25.6), as four doublewords. -/
structure QDesc where
  w0 : Word := 0
  w1 : Word := 0
  head : BitVec 32 := 0
  tail : BitVec 32 := 0
  v : Bool := false
  map : Bool := false
  frz : Bool := false
  psn : Bool := false
  /-- Records prefetched, at most 4 (spec/25 R415). -/
  pre : List (List Byte) := []
  deriving DecidableEq, Repr

/-- What a task of the dependence table has come to (spec/25 R417 to R421, spec/08 R159, R162). `preempted`: its domain is halted and
still placed; `saved`: its contexts stand in DRAM and it holds no clusters. -/
inductive TaskSt where
  | admitted | placed | preempted | saved | ended (cst : Nat)
  deriving DecidableEq, Repr

/-- An entry of the dependence table and the placed task's domain (spec/25 R413, R417, R420). -/
structure Task where
  trec : List Byte
  vm : Nat
  qid : Nat
  /-- Admission number within the tenant, and among the tasks of all tenants. -/
  num : Nat
  adm : Nat := 0
  st : TaskSt := .admitted
  /-- Cycle at which the task became eligible, and at which it was placed. -/
  eligAt : Option Nat := none
  placedAt : Nat := 0
  /-- Rectangle in device-logical coordinates. -/
  x0 : Nat := 0
  y0 : Nat := 0
  w : Nat := 0
  h : Nat := 0
  /-- Report of a fatal stop: cause, relative core, value, PC (spec/08 R152). -/
  report : Option (Nat × Nat × Word × Word) := none
  /-- First quarantine in its domain: relative core and value (spec/08 R157, Table 8.4). -/
  quarRep : Option (Nat × Word) := none
  /-- Migration frames per slice and level-3 block of its launch record (spec/25 Table 25.8). -/
  mfr : Nat := 0
  blk : Nat := 0
  /-- Cycle of its pre-emption halt (spec/09 R166: no watchdog counts while it is halted). -/
  haltAt : Nat := 0
  /-- Level-5 releases in the current millisecond (spec/25 R422). -/
  rel5 : Nat := 0
  /-- Write ranges (0 to 7) renamed for this task, and pages that it sees through an overlay: VA, pages, PA (spec/25 R418). -/
  renIdx : List Nat := []
  overlays : List (Nat × Nat × Nat) := []
  deriving DecidableEq, Repr

/-- A token bucket (spec/25 Table 25.7). -/
structure Bucket where
  level : Word := 0
  depth : BitVec 32 := 0
  fill : BitVec 32 := 0
  deriving DecidableEq, Repr

/-- A rename pool (spec/25 Table 25.15) with the control complex's free map, by first PA: frames in use, and frames outside the run that were
returned to the pool (R418). -/
structure Pool where
  w0 : Word := 0
  used : List Nat := []
  extra : List Nat := []
  deriving DecidableEq, Repr

/-- A renamed range that still stands beside its older version (spec/25 R418): its VM, the task that renamed it, its first VA and the
PA of each of its pages. -/
structure Version where
  vm : Nat
  num : Nat
  va : Nat
  frames : List Nat
  deriving DecidableEq, Repr

/-- A key slot (spec/17 R303, spec/25 R401): key words stored so far, loaded bit. -/
structure KeySlot where
  ws : Vector Word 8 := Vector.replicate 8 0
  /-- Next word expected in ascending order. -/
  nextW : Nat := 0
  loaded : Bool := false
  deriving DecidableEq, Repr

/-- A band (spec/01 R11, spec/08 R158): physical cluster columns retired and waiting, logical columns withheld. -/
structure Band where
  /-- Quarantined clusters as logical columns, in order. -/
  quar : List Nat := []
  /-- The remap of the first of them has taken effect. -/
  remapped : Bool := false
  /-- Logical columns withheld. -/
  held : List Nat := []
  whole : Bool := false
  deriving DecidableEq, Repr

/-- State of the SPDM responder on one connection (spec/25 R411, R412). -/
structure Spdm where
  /-- Requests seen: 0 none, 1 version, 2 capabilities, 3 algorithms. -/
  phase : Nat := 0
  /-- Transcripts of VERSION to ALGORITHMS, of the certificate exchange, and of measurements. -/
  va : List Byte := []
  vb : List Byte := []
  vl : List Byte := []
  /-- A response that is still being signed, and the cycle in which it is ready (spec/25 R412). -/
  signing : Option (Nat × List Byte) := none
  deriving DecidableEq, Repr

/-- The saved context of a task (spec/08 Table 8.5, spec/17 R297, spec/21 R361), with the device-logical numbers that its cores had: cores and
memory cores, cluster registers, cells and uncorrectable words of slices, tiles and buffers, line tags, and rounds. -/
structure SavedTask where
  cores : List (Nat × Core) := []
  clusters : List (Nat × Cluster) := []
  cells : List Host.Cell := []
  bad : List Nat := []
  tags : List (Nat × Nat × Nat) := []
  rounds : List (Nat × Round) := []
  deriving DecidableEq, Repr

/-- A migration report (spec/06 R123): the page's VM and number in its window, its home core and slice address, and the core that
issues most of its atomics. -/
structure MigRep where
  vm : Nat
  pg : Nat
  home : Nat
  off : Nat
  core : Nat
  deriving DecidableEq, Repr

/-- A task that was saved without space elsewhere: its record is back at the head of its queue (spec/25 R423). -/
structure Returned where
  task : Task
  ctx : SavedTask
  deriving DecidableEq, Repr

/-- A partition border on its way (spec/25 R422): the VM that grows and the one that gives, with their new rectangle words. -/
structure Border where
  grow : Nat
  growTo : Word
  give : Nat
  giveTo : Word
  deriving DecidableEq, Repr

/-- A policy plug-in that has been called (spec/25 R427): its control core, and the dependence-table entries of its candidates. -/
structure PlugCall where
  cc : Nat
  cands : List Nat
  deriving DecidableEq, Repr

/-! ## The device -/

/-- The instruction being run, as fetched: length in halfwords, page, prefix count and last halfword (spec/04
Table 4.8), and the cause with which its fetch is refused, which only a decode check comes before (R70). Set by `step` before `exec`. -/
structure Fetched where
  len : Nat := 1
  page : Nat := 0
  npfx : Nat := 0
  hw : Half := 0
  refused : Option (Nat × Word) := none
  deriving DecidableEq, Repr

/-- The whole device, with the model's own fields last. -/
structure State where
  /-- Powered, with the boot ROM run (spec/25 R407; reset false: POWER_ON comes first). -/
  powered : Bool := false
  /-- Cores by number: worker y × 64 + x, memory core 4096 + m, control core 8192 + k; one that is not listed is idle. -/
  cores : List (Nat × Core) := []
  /-- Clusters by number x + 64 × (y div 8); one that is not listed is as at power-on. -/
  clusters : List (Nat × Cluster) := []
  /-- All memories in one flat space (see `Machine/Ops.lean`), as sorted cells; a byte not listed is 0. -/
  mem : List Host.Cell := []
  /-- Flat addresses divided by 8 of uncorrectable words (spec/06 R111; none). -/
  bad : List Nat := []
  /-- Words that have given a `datauc` report since reset (spec/08 R157; none). -/
  reported : List Nat := []
  /-- Errors corrected and counted (spec/06 R111; 0). -/
  corrected : Nat := 0
  /-- Line tags (`wid`, `stamp`) by flat line number; (0, 0) when not listed (spec/21 R352). -/
  tags : List (Nat × Nat × Nat) := []
  /-- Rounds of sync domains, by level and rectangle. -/
  rounds : List (Nat × Round) := []
  /-- Packets in the mesh, oldest first. -/
  mesh : List Packet := []
  /-- Copies accepted by their heads and not complete (spec/17 R309; none). -/
  copies : List Copy := []
  /-- Pages counted by the atomic units: home page, atomics in the window, per core counts (spec/06 R123). -/
  pageCnt : List (Nat × Nat × List (Nat × Nat)) := []
  /-- Migration reports, at most 64 (spec/06 R123, spec/25 Table 25.2). -/
  migRep : List MigRep := []
  /-- The two port engines (spec/23 R376). -/
  ports : Vector Port 2 := Vector.replicate 2 {}
  /-- Accesses through the system window that are not answered (spec/23 R382; empty). -/
  sysOut : List SysOut := []
  /-- What the device sent, newest first: the outside's view. -/
  out : List Out := []
  -- control complex
  /-- Partition rectangle of each VM (spec/25 Table 25.13; 0). -/
  rects : List (Nat × Word) := []
  /-- Migration redirects j: two doublewords (spec/25 Table 25.14; 0). -/
  redirs : List (Nat × Word × Word) := []
  /-- System-window table entries: two doublewords (spec/23 Tables 23.3, 23.4; 0). -/
  wtab : List (Nat × Word × Word) := []
  /-- Window grant masks of VMs (spec/25 R404; 256 bits; 0). -/
  grants : List (Nat × BitVec 256) := []
  /-- VM bindings of connections: key port × 1024 + connection (spec/25 R404; 0). -/
  cbind : List (Nat × Word) := []
  /-- Queues bound to connections, and management connections (spec/25 R411, R414). -/
  qbind : List (Nat × Nat) := []
  mgmt : List Nat := []
  /-- Queue descriptors, by queue number (spec/25 Table 25.6; not listed: 0). -/
  queues : List (Nat × QDesc) := []
  /-- Dependence table, by entry (spec/25 R417). -/
  tasks : List (Nat × Task) := []
  /-- Tasks admitted of each VM. -/
  admitted : List (Nat × Nat) := []
  /-- Token buckets, by VM (spec/25 Table 25.7; not listed: 0). -/
  buckets : List (Nat × Bucket) := []
  /-- Rename pools, by VM (spec/25 Table 25.15; not listed: 0). -/
  pools : List (Nat × Pool) := []
  /-- Key slots 0 to 511 (spec/17 R303, spec/25 R401; not listed: not loaded). -/
  keys : List (Nat × KeySlot) := []
  /-- `meas0` to `meas7` (spec/25 R410; 384 bits; power-on 0). -/
  meas : Vector (BitVec 384) 8 := Vector.replicate 8 0
  /-- The last six doublewords stored at each extend port with their places, newest last (spec/25 R410; empty). -/
  ext : Vector (List (Nat × Word)) 8 := Vector.replicate 8 []
  /-- `sdig` (spec/25 R406; 384 bits; power-on 0), doublewords written so far. -/
  sdig : BitVec 384 := 0
  sdigN : Nat := 0
  /-- `plim.lim` in W (spec/25 Table 25.10; reset 2,800). -/
  plim : Nat := 2800
  /-- `pcap.pw` (spec/25 Table 25.11; reset 0). -/
  pw : Nat := 0
  /-- `pcap.cap` (spec/25 Table 25.11; reset 3). -/
  cap : Nat := 3
  /-- Consecutive periods below 0.95 × lim, and periods since the last lowering (spec/25 R425). -/
  lowRun : Nat := 0
  sinceLow : Nat := 3
  /-- Launch requests stored to the launch unit (spec/25 Table 25.2): dependence-table entries. -/
  launchQ : List Nat := []
  /-- Compaction holds: entry, x, y (spec/25 R423). -/
  holds : List (Nat × Nat × Nat) := []
  /-- Share ratio of each VM as numerator and denominator (spec/25 R422). -/
  ratios : List (Nat × Nat × Nat) := []
  /-- Borders that move once their clusters are free, and entries of the tasks that leave them at their next level-5 release (spec/25 R422; none). -/
  borders : List Border := []
  moving : List Nat := []
  /-- Entries of the tasks that such a release has halted and that are still to be saved (spec/25 R422; none). -/
  leaving : List Nat := []
  /-- Saved tasks whose records wait in their queues again (spec/25 R423; none). -/
  returned : List Returned := []
  /-- The plug-in that runs at level 2, and the rejections counted (spec/25 R427; none, 0). -/
  plug : Option PlugCall := none
  plugRej : Nat := 0
  /-- Bands 0 to 7 (spec/01 R11, spec/08 R158; not listed: none retired). -/
  bands : List (Nat × Band) := []
  /-- Contexts saved by pre-emption, by task entry. -/
  saved : List (Nat × SavedTask) := []
  /-- SPDM responder of each management connection (spec/25 R411; none). -/
  spdm : List (Nat × Spdm) := []
  /-- Renamed ranges, oldest first (spec/25 R418). -/
  vers : List Version := []
  /-- Control core that holds the scheduler role, and a pair that counts as stopped (spec/25 R428). -/
  sched : Nat := 0
  pairLost : Bool := false
  /-- Periods of 10 µs, 10 µs and 1 ms that the bucket, budget and share controllers have counted since reset (spec/25 R416, R422,
  R425). -/
  nTok : Nat := 0
  nBud : Nat := 0
  nRat : Nat := 0
  /-- BOOTFAIL pin (spec/25 R409). -/
  bootfail : Bool := false
  /-- Next packet, copy or transfer number. -/
  nextId : Nat := 0
  -- the model's own fields
  /-- Cycle count since reset, `cyc` (spec/06 Table 6.12; reset 0). -/
  cyc : Nat := 0
  /-- The model's own: steps taken; argument of the free values of `Config` on time, turns and firmware. -/
  stepNo : Nat := 0
  /-- The model's own: no step has been taken yet in this cycle. -/
  newCyc : Bool := true
  /-- The model's own: the next step performs this hardware event; none: a context issues. -/
  event : Option Instr := none
  /-- The model's own: core and context (0 control, 1 to 10 helpers) that issue next. -/
  curCore : Nat := 0
  curCtx : Nat := 0
  /-- The instruction being run, as fetched. -/
  cur : Fetched := {}
  /-- The model's own: counter for free values that an instruction takes. -/
  freeNo : Nat := 0
  deriving DecidableEq, Repr

/-- Why a step ends without a next state by a fault of the model. -/
inductive Fault where
  /-- Raised by no instruction of the spec: a hardware event names a core, cluster or port that the device does not
  have. Safe: the hardware has no such event. -/
  | noSuchAgent
  deriving DecidableEq, Repr

/-- Why an instruction has no meaning. -/
inductive Refusal where
  /-- Raised by an arm of `exec` whose instruction has no meaning yet. Safe: the model stops. -/
  | notModelled (mnemonic : String)
  deriving DecidableEq, Repr

abbrev Outcome := Host.Outcome State Fault Refusal

/-- The device right after power is applied (spec/25 R407): nothing launched, every register at the value its docstring
gives, memory with nothing listed, and the boot ROM about to run. -/
def State.reset : State := { event := some .powerOn }

end Sys2Proof.Machine
end

