-- ==== Sys2Proof/Machine/Ops.lean ====
section
/-!
DEFINITION. The named operations over registers, memory and contexts that the meanings share: sparse maps, bytes, the
flat memory and its regions, guards, the partition map, slice accesses in and out of slipstream, line tags and
lifeguard records, packets, taking a trap and returning from one, and the issue of an instruction.
-/
namespace Sys2Proof.Machine

/-! ## Sparse maps -/

/-- The value at a key of a sparse map. -/
def mget {α : Type} : List (Nat × α) → Nat → Option α
  | [], _ => none
  | (k', v) :: t, k => if k' = k then some v else mget t k

/-- Set the value at a key, keeping the keys rising. -/
def mset {α : Type} : List (Nat × α) → Nat → α → List (Nat × α)
  | [], k, v => [(k, v)]
  | (k', v') :: t, k, v =>
    if k < k' then (k, v) :: (k', v') :: t
    else if k' = k then (k, v) :: t
    else (k', v') :: mset t k v

/-- Remove a key. -/
def mdel {α : Type} : List (Nat × α) → Nat → List (Nat × α)
  | [], _ => []
  | (k', v) :: t, k => if k' = k then mdel t k else (k', v) :: mdel t k

/-- Read and write of a vector by a number; out of range a read gives `d` and a write does nothing. -/
def vget {α : Type} {n : Nat} (v : Vector α n) (i : Nat) (d : α) : α := if h : i < n then v[i] else d
def vput {α : Type} {n : Nat} (v : Vector α n) (i : Nat) (x : α) : Vector α n := if h : i < n then v.set i x else v

/-! ## Bytes and bit fields -/

/-- Little-endian value of bytes, the first least significant (spec/01 R2). -/
def leNat : List Byte → Nat
  | [] => 0
  | b :: t => b.toNat + 256 * leNat t

/-- The low `n` bytes of a number, least significant first. -/
def natLE : Nat → Nat → List Byte
  | 0, _ => []
  | n + 1, v => BitVec.ofNat 8 v :: natLE n (v / 256)

/-- Bits `[lo + w - 1 : lo]` of a word as a number. -/
def bits (v : Word) (lo w : Nat) : Nat := v.toNat / 2 ^ lo % 2 ^ w

/-- One bit of a word. -/
def bit (v : Word) (i : Nat) : Bool := v.toNat / 2 ^ i % 2 == 1

/-- A word from a number, wrapping. -/
def w64 (n : Nat) : Word := BitVec.ofNat 64 n

/-- All ones. -/
def ones64 : Word := BitVec.allOnes 64

/-- A Boolean as 0 or 1. -/
def b2n (b : Bool) : Nat := if b then 1 else 0

/-! ## Agents and their regions of the flat memory -/

/-- Numbers of cores in `State.cores`. -/
def mcOf (tile : Nat) : Nat := 4096 + tile
def ccOf (k : Nat) : Nat := 8192 + k
def kindOf (i : Nat) : CoreKind := if i < 4096 then .worker else if i < 8192 then .memory else .control

/-- Column and row of a worker's number, its cluster and its row in the cluster (spec/01 R9). -/
def xOf (i : Nat) : Nat := i % 64
def yOf (i : Nat) : Nat := i / 64
def clusterOf (i : Nat) : Nat := i % 64 + 64 * (i / 512)
def rowOf (i : Nat) : Nat := i / 64 % 8
def coreIn (cl row : Nat) : Nat := cl % 64 + 64 * (8 * (cl / 64) + row)

/-- Flat address of the memory that stands as a core's own slice: slice, buffer (spec/17 R295), local memory (spec/25
R395). -/
def localBase (i : Nat) : Nat :=
  if i < 4096 then i * 0x40000
  else if i < 8192 then 0x100000000 + (i - 4096) * 0x10000
  else 0x200000000 + (i - 8192) * 0x40000

def localSize (i : Nat) : Nat := if 4096 ≤ i && i < 8192 then 0x10000 else 0x40000

/-- Flat addresses of a cluster atomic store, a B-store, a core's accumulator tiles (shadows at +0x10000) and DRAM. -/
def atomBase (cl : Nat) : Nat := 0x300000000 + cl * 0x4000
def bBase (cl : Nat) : Nat := 0x400000000 + cl * 0x100000
def tileBase (i : Nat) : Nat := 0x800000000 + i * 0x20000
def dramBase : Nat := 0x10000000000

/-! ## The flat memory -/

/-- One byte; a byte that is not listed reads 0 (log entry 1). -/
def rdB (m : List Host.Cell) (a : Nat) : Byte := (mget m a).getD 0

/-- Write one byte: 0 removes the entry, so equal memories are equal lists. -/
def wrB (m : List Host.Cell) (a : Nat) (b : Byte) : List Host.Cell := if b = 0 then mdel m a else mset m a b

def rdBs (m : List Host.Cell) (a : Nat) : Nat → List Byte
  | 0 => []
  | n + 1 => rdB m a :: rdBs m (a + 1) n

def wrBs (m : List Host.Cell) (a : Nat) : List Byte → List Host.Cell
  | [] => m
  | b :: t => wrBs (wrB m a b) (a + 1) t

/-- Every key of the list is above `lo` (or at it), the keys rise, and no listed byte is 0. -/
def memWfFrom : Nat → List Host.Cell → Bool
  | _, [] => true
  | lo, (k, b) :: t => decide (lo ≤ k) && b != 0 && memWfFrom (k + 1) t

/-- The canonical form of memory: keys rise strictly, no zero byte is listed. -/
def Memory.wf (m : List Host.Cell) : Bool := memWfFrom 0 m

/-! ## Cores and contexts -/

/-- A core; one that is not listed is as at power-on. -/
def State.coreAt (s : State) (i : Nat) : Core := (mget s.cores i).getD {}
def State.setCore (s : State) (i : Nat) (k : Core) : State := { s with cores := mset s.cores i k }
def State.modCore (s : State) (i : Nat) (f : Core → Core) : State := s.setCore i (f (s.coreAt i))

def State.clusterAt (s : State) (cl : Nat) : Cluster := (mget s.clusters cl).getD {}
def State.setCluster (s : State) (cl : Nat) (k : Cluster) : State := { s with clusters := mset s.clusters cl k }
def State.modCluster (s : State) (cl : Nat) (f : Cluster → Cluster) : State := s.setCluster cl (f (s.clusterAt cl))

/-- Context 0 is the control context, context n + 1 helper n. -/
def Core.ctx (k : Core) (c : Nat) : Ctx := if c = 0 then k.ctl else (vget k.helpers (c - 1) {}).ctx

def Core.setCtx (k : Core) (c : Nat) (x : Ctx) : Core :=
  if c = 0 then { k with ctl := x }
  else { k with helpers := vput k.helpers (c - 1) { vget k.helpers (c - 1) {} with ctx := x } }

/-- Who executes: a core, a context, and the core whose registers decide control flow (itself, or its gang's leader,
spec/03 R42). -/
structure Who where
  i : Nat
  c : Nat
  lead : Nat
  deriving DecidableEq, Repr

def State.ctxAt (s : State) (w : Who) : Ctx := (s.coreAt w.i).ctx w.c
def State.modCtx (s : State) (w : Who) (f : Ctx → Ctx) : State :=
  s.modCore w.i (fun k => k.setCtx w.c (f (k.ctx w.c)))

/-- A g register of a context: `g0` reads 0 (spec/03 R35, spec/05 R76). -/
def Ctx.rd (x : Ctx) (r : Reg) : Word := if r = 0 then 0 else vget x.g r.toNat 0
/-- A write to `g0` is discarded (spec/05 R76). -/
def Ctx.wr (x : Ctx) (r : Reg) (v : Word) : Ctx := if r = 0 then x else { x with g := vput x.g r.toNat v }

def State.rd (s : State) (w : Who) (r : Reg) : Word := (s.ctxAt w).rd r
def State.wr (s : State) (w : Who) (r : Reg) (v : Word) : State := s.modCtx w (fun x => x.wr r v)
/-- The register as the leader holds it (spec/03 R42). -/
def State.rdLead (s : State) (w : Who) (r : Reg) : Word := s.rd { w with i := w.lead } r
def State.pcOf (s : State) (w : Who) : Word := (s.ctxAt w).pc

/-- The link register (spec/05 R88). -/
def linkReg (w : Who) : Reg := if w.c = 0 then 31 else 15

/-- Address of the halfword after the running instruction. -/
def State.fall (s : State) (w : Who) : Word := s.pcOf w + w64 (2 * s.cur.len)

/-- Level of a core as a number; the bank of its current level (spec/25 R397). -/
def Core.level (k : Core) : Nat := k.lvl.toNat
def Core.bank (k : Core) : Bank := vget k.banks k.level {}
def Core.setBank (k : Core) (b : Bank) : Core := { k with banks := vput k.banks k.level b }

/-- Live contexts of a core: the control context and the live helpers. -/
def liveCtxs (k : Core) : List Nat := 0 :: (List.range 10).filterMap (fun h =>
  if (vget k.helpers h {}).live then some (h + 1) else none)

/-- Set the wake latch of every context of a core (spec/06 R135). -/
def wake (s : State) (i : Nat) : State :=
  s.modCore i fun k =>
    { k with ctl := { k.ctl with latch := true },
             helpers := k.helpers.map (fun h => { h with ctx := { h.ctx with latch := true } }) }

/-! ## Region guards (spec/06 R132, Table 6.13) -/

/-- A guard that is valid, with `sz` of 12 or more and a start that is a multiple of its size. -/
def guardMatches (g : Word) : Bool :=
  bit g 5 && decide (12 ≤ bits g 6 6) && bits g 12 52 * 4096 % 2 ^ bits g 6 6 == 0

/-- The guard applies at a level. -/
def guardAt (lvl : Nat) (g : Word) : Bool := if lvl == 1 then bit g 4 else if lvl == 2 then bit g 3 else false

/-- Access kinds as the guard's permission bits. -/
inductive Acc3 where
  | fetch | load | store | atomic
  deriving DecidableEq, Repr

def guardGrants (g : Word) (a : Acc3) (addr n : Nat) : Bool :=
  (match a with
    | .fetch => bit g 2
    | .load => bit g 0
    | .store => bit g 1
    | .atomic => bit g 0 && bit g 1) &&
  decide (bits g 12 52 * 4096 ≤ addr) && decide (addr + n ≤ bits g 12 52 * 4096 + 2 ^ bits g 6 6)

/-- The guards allow the access. -/
def guardOk (k : Core) (a : Acc3) (addr n : Nat) : Bool :=
  if k.level == 0 then true
  else
    let gs := k.grd.toList.filter (fun g => guardMatches g && guardAt k.level g)
    gs.isEmpty || gs.any (fun g => guardGrants g a addr n)

/-! ## The partition map (spec/01 R18, spec/25 R402) -/

structure Rect where
  x0 : Nat
  y0 : Nat
  w : Nat
  h : Nat
  deriving DecidableEq, Repr

/-- Fields of a partition rectangle or a domain register (spec/25 Table 25.13, spec/03 Table 3.2). -/
def rectOfWord (v : Word) : Rect := ⟨bits v 0 6, bits v 8 6, bits v 16 7, bits v 24 7⟩

def Rect.has (r : Rect) (x y : Nat) : Bool :=
  decide (r.x0 ≤ x) && decide (x < r.x0 + r.w) && decide (r.y0 ≤ y) && decide (y < r.y0 + r.h)

/-- Cores of a rectangle, lowest row first and then lowest column. -/
def Rect.cores (r : Rect) : List Nat :=
  (List.range r.h).flatMap (fun dy => (List.range r.w).map (fun dx => (r.y0 + dy) * 64 + r.x0 + dx))

/-- Partition of a VM, when its rectangle word is valid. -/
def partOf (s : State) (vm : Nat) : Option Rect :=
  match mget s.rects vm with
  | some v => if bit v 63 then some (rectOfWord v) else none
  | none => none

/-- The placed task that holds a worker: its entry and the task. -/
def taskOf (s : State) (i : Nat) : Option (Nat × Task) :=
  s.tasks.find? (fun et => (match et.2.st with
    | .placed | .preempted => true
    | _ => false) && Rect.has ⟨et.2.x0, et.2.y0, et.2.w, et.2.h⟩ (xOf i) (yOf i))

/-- The VM of a worker or of a memory core's tile; none for a control core and for a core that no task holds. -/
def vmOf (s : State) (i : Nat) : Option Nat :=
  if i < 8192 then (taskOf s (i % 4096)).map (fun et => et.2.vm) else none

/-- Low corner of the partition of a core; (0, 0) for a core without one, whose coordinates are device-logical. -/
def partCorner (s : State) (i : Nat) : Nat × Nat :=
  match (vmOf s i).bind (partOf s) with
  | some r => (r.x0, r.y0)
  | none => (0, 0)

/-- Partition-logical coordinates of device-logical core `j`, for an observer `i` of the same tenant. -/
def partX (s : State) (i j : Nat) : Nat := xOf j - (partCorner s i).1
def partY (s : State) (i j : Nat) : Nat := yOf j - (partCorner s i).2
/-- Device-logical core at partition-logical (x, y) of the observer `i`. -/
def devCore (s : State) (i x y : Nat) : Nat := (y + (partCorner s i).2) * 64 + x + (partCorner s i).1

/-- The redirect of a page of a VM (spec/25 Table 25.14): new home (partition-logical) and slice address of the frame. -/
def redirect (s : State) (vm pg : Nat) : Option (Nat × Nat × Nat) :=
  (s.redirs.find? (fun e => bit e.2.1 63 && bits e.2.1 0 8 == vm && bits e.2.1 12 18 == pg)).map
    (fun e => (bits e.2.2 0 6, bits e.2.2 8 6, 0x3F000 - 0x1000 * bits e.2.2 16 2))

/-- Home core (device-logical) and slice address of an offset in the global window, for VM `vm` (spec/01 R18, spec/25
R402); none outside the rectangle. Where rectangles overlap, the lower-numbered VM owns the core. -/
def homeVm (s : State) (vm off : Nat) : Option (Nat × Nat) :=
  match partOf s vm with
  | none => none
  | some r =>
    let px := off / 0x40000 % 64
    let py := off / 0x40000 / 64
    if px < r.w ∧ py < r.h then
      if s.rects.any (fun e => decide (e.1 < vm) && bit e.2 63 && (rectOfWord e.2).has (r.x0 + px) (r.y0 + py)) then none
      else match redirect s vm (off / 4096) with
        | some (nx, ny, fr) => some ((r.y0 + ny) * 64 + r.x0 + nx, fr + off % 4096)
        | none => some ((r.y0 + py) * 64 + r.x0 + px, off % 0x40000)
    else none

/-- Home of an address of the global window as core `i` names it; none when it is no address of the window or lies
outside the tenant's rectangle. A control core names device-logical coordinates (spec/25 Table 25.1). -/
def home (s : State) (i addr : Nat) : Option (Nat × Nat) :=
  if 0x100000000 ≤ addr ∧ addr < 0x140000000 then
    if 8192 ≤ i then some ((addr - 0x100000000) / 0x40000, addr % 0x40000)
    else (vmOf s i).bind (fun vm => homeVm s vm (addr - 0x100000000))
  else none

/-- Global address of byte `a` of core `j`'s slice, as core `i` names it. -/
def globalAddr (s : State) (i j a : Nat) : Nat := 0x100000000 + (partY s i j * 64 + partX s i j) * 0x40000 + a

/-- An address of the system window (spec/01 Table 1.3). -/
def isSys (addr : Nat) : Bool := addr / 2 ^ 56 == 1
/-- An address of the DRAM virtual window. -/
def isDramVa (addr : Nat) : Bool := addr / 2 ^ 48 == 1

/-- Entry of the window table that core `i` sees at a system-window address: connection, remote address and permission
bits (spec/23 R381). -/
def sysEntry (s : State) (i addr : Nat) : Option (Nat × Nat × Word) :=
  if isSys addr then
    let wn := addr / 2 ^ 48 % 256
    let o := addr % 2 ^ 48
    match mget s.wtab wn with
    | none => none
    | some (d0, d1) =>
      let granted := decide (8192 ≤ i) ||
        (match vmOf s i with
          | some vm => ((mget s.grants vm).getD 0).getLsbD wn
          | none => false)
      if bit d0 0 && granted && decide (o < 2 ^ bits d0 6 6) then some (bits d1 0 10, bits d0 12 52 * 4096 + o, d0)
      else none
  else none

/-! ## Uncorrectable words and line tags (spec/06 R111, spec/21 R352) -/

/-- A write of `n` bytes at flat address `f` gives a fresh code to every word that it covers whole. -/
def healed (bad : List Nat) (f n : Nat) : List Nat := bad.filter (fun b => !(decide (f ≤ b * 8) && decide (b * 8 + 8 ≤ f + n)))

/-- First byte of `n` at flat address `f`, not among `skip`, that lies in an uncorrectable word: its word's offset. -/
def badAt (bad : List Nat) (f n : Nat) (skip : Nat → Bool) : Option Nat :=
  if bad.isEmpty then none
  else (List.range n).findSome? (fun k => if !skip k && bad.contains ((f + k) / 8) then some k else none)

/-- Tag of the line that holds flat address `f`. -/
def tagAt (s : State) (f : Nat) : Nat × Nat := (mget s.tags (f / 64)).getD (0, 0)

/-- Set the tags of the lines of `n` bytes at flat address `f`; (0, 0) is not listed. -/
def setTags (tags : List (Nat × Nat × Nat)) (f n : Nat) (tag : Nat × Nat) : List (Nat × Nat × Nat) :=
  if n = 0 then tags
  else (List.range ((f + n - 1) / 64 - f / 64 + 1)).foldl
    (fun ts k => if tag = (0, 0) then mdel ts (f / 64 + k) else mset ts (f / 64 + k) tag) tags

/-- A write performed in the flat memory: bytes, fresh codes, line tags of slices. -/
def put (s : State) (f : Nat) (bs : List Byte) (tag : Nat × Nat) : State :=
  { s with
    mem := wrBs s.mem f bs
    bad := healed s.bad f bs.length
    tags := if f < 0x40000000 then setTags s.tags f bs.length tag else s.tags }

/-! ## Packets -/

/-- Send a packet: it takes the next number. -/
def send (s : State) (i c : Nat) (addr : Word) (kind : PKind) (tag : Nat × Nat := (0, 0)) (acq : Bool := false)
    (seq : Option Nat := none) (loads : List Nat := []) : State :=
  { s with
    mesh := s.mesh ++ [{ id := s.nextId, core := i, ctx := c, addr, pc := ((s.coreAt i).ctx c).pc, tag, seq, acq,
                         after := ((s.coreAt i).ctx c).inh, loads, kind }]
    nextId := s.nextId + 1 }

/-- Remove the packet at a position. -/
def dropPkt (s : State) (k : Nat) : State := { s with mesh := s.mesh.eraseIdx k }

/-- A packet that carries an access of a context, until its acknowledgement or reply has landed (spec/06 R118, R125). -/
def PKind.isStore : PKind → Bool
  | .store .. | .ack => true
  | _ => false
def PKind.isLoad : PKind → Bool
  | .load .. | .loadRep .. | .atom .. | .atomRep .. => true
  | _ => false
/-- A load that has not read yet. -/
def PKind.isPlainLoad : PKind → Bool
  | .load .. => true
  | _ => false

/-- A packet or window access that outlives the run of the helper, or the task, that made it: its context is marked so, and its reply writes
nothing. -/
def endedCtx (c : Nat) : Nat := if c < 100 then c + 100 else c
def ctxEnded (c : Nat) : Bool := decide (100 ≤ c)

/-- Unacknowledged stores of a context, and its outstanding loads and atomics. -/
def storesOut (s : State) (w : Who) : List Packet := s.mesh.filter (fun p => p.core == w.i && p.ctx == w.c && p.kind.isStore)
def loadsOut (s : State) (w : Who) : List Packet := s.mesh.filter (fun p => p.core == w.i && p.ctx == w.c && p.kind.isLoad)
/-- Every earlier access of the context over the mesh is performed. -/
def quiet (s : State) (w : Who) : Bool := (storesOut s w).isEmpty && (loadsOut s w).isEmpty

/-- Accesses of a context that leave through the port engines and are not yet acknowledged (spec/23 R382). -/
def sysStoresOut (s : State) (w : Who) : Bool :=
  s.sysOut.any (fun o => o.core == w.i && o.ctx == w.c && o.store)

/-- Packet or window access `d` is still outstanding. -/
def outstanding (s : State) (d : Nat) : Bool := s.mesh.any (fun p => p.id == d) || s.sysOut.any (fun o => o.tag == d)

/-- Accesses in flight that happen before what a context does next: its own, and those that it has inherited at `start` or from helpers
that have ended (spec/07 R147). -/
def inFlight (s : State) (w : Who) : List Nat :=
  ((storesOut s w) ++ (loadsOut s w)).map (·.id) ++ (s.sysOut.filter (fun o => o.core == w.i && o.ctx == w.c)).map (·.tag) ++
    (s.ctxAt w).inh.filter (outstanding s)

/-! ## Records of a bound worker (spec/21) -/

/-- Sequence number of a bound worker as a number. -/
def Core.seqNo (k : Core) : Nat := k.lg.seq.toNat

/-- A record header (spec/21 Table 21.5). -/
def recHdr (typ : Nat) (sp : Bool) (ctx sz rep info : Nat) : Word :=
  w64 (typ * 2 ^ 60 + b2n sp * 2 ^ 59 + ctx * 2 ^ 54 + sz * 2 ^ 51 + rep * 2 ^ 47 + info % 2 ^ 44)

/-- Send a record to the ring of the lifeguard (spec/21 R353). -/
def sendRec (s : State) (i lgd seq : Nat) (hdr addr : Word) : State := send s i 0 0 (.record lgd seq hdr addr)

/-- Close the open record of a bound worker (spec/21 R351): it is sent, or, while the load that opened it has not landed, kept until it does
(spec/22 R374). -/
def closeRec (s : State) (i : Nat) : State :=
  match (s.coreAt i).bound with
  | some b =>
    match b.openRec with
    | some r =>
      if r.tagged then
        (sendRec s i b.peer r.seq (recHdr r.typ r.sp r.ctx r.sz r.rep r.info) r.addr).modCore i
          (fun k => { k with bound := some { b with openRec := none } })
      else s.modCore i (fun k => { k with bound := some { b with openRec := none, late := b.late ++ [r] } })
    | none => s
  | none => s

/-- The access runs in slipstream. -/
def Core.inSlip (k : Core) (c : Nat) : Bool := c == 0 && k.slip.isSome

/-- Take the next sequence number; the first record of a slipstream is kept for COMMIT and SQUASH. -/
def takeSeq (k : Core) (sp : Bool) : Core :=
  let n := k.lg.seq + 1
  { k with lg := { k.lg with seq := n },
           slip := k.slip.map (fun sl => if sp && sl.firstSp.isNone then { sl with firstSp := some n.toNat } else sl) }

/-- The mask lets the type be logged; COMMIT, SQUASH and CONTAIN always are (spec/21 R350). -/
def logsType (b : Bound) (typ : Nat) : Bool := b.mask.getLsbD typ || typ == 7 || typ == 8 || typ == 11

/-- A record other than LOAD and STORE: it closes the open record and is sent at once. -/
def logRec (s : State) (w : Who) (typ : Nat) (addr : Word) (info : Nat) (sz : Nat := 0) : State :=
  match (s.coreAt w.i).bound with
  | some b =>
    if logsType b typ then
      let s := closeRec s w.i
      let sp := (s.coreAt w.i).inSlip w.c
      let s := s.modCore w.i (fun k => takeSeq k sp)
      sendRec s w.i b.peer (s.coreAt w.i).seqNo (recHdr typ sp w.c sz 0 info) addr
    else s
  | none => s

/-- The access starts where the open record ended, in its line, with its type, context and size (spec/21 R351). -/
def joinsAddr (r : OpenRec) (typ ctx sz : Nat) (addr : Word) : Bool :=
  r.typ == typ && r.ctx == ctx && r.sz == sz && sz != 7 && r.next == addr &&
    decide (r.addr.toNat / 64 = addr.toNat / 64) && decide (r.rep < 15)

/-- The access joins the open record as it lands: it carries the same `info`, and the record has not run out (spec/21 R351, spec/22 R374, R375). -/
def joinsRec (r : OpenRec) (typ ctx sz : Nat) (addr : Word) (info cyc : Nat) : Bool :=
  r.tagged && joinsAddr r typ ctx sz addr && r.info == info && decide (cyc < r.cyc + 8)

/-- A load may issue as a member of the open record (spec/22 R374): it starts where the record's last issued member ended. -/
def mayJoin (r : OpenRec) (ctx sz : Nat) (addr : Word) (cyc : Nat) : Bool :=
  r.typ == 0 && r.ctx == ctx && r.sz == sz && sz != 7 && r.inext == addr &&
    decide (r.addr.toNat / 64 = addr.toNat / 64) && decide (r.irep < 15) && (!r.tagged || decide (cyc < r.cyc + 8))

/-- Open a LOAD or STORE record with its first access of `n` bytes, `landed` or issued only. -/
def openRecord (s : State) (w : Who) (typ sz : Nat) (addr : Word) (n info : Nat) (landed : Bool := true) : State :=
  let sp := (s.coreAt w.i).inSlip w.c
  s.modCore w.i fun k =>
    let k := takeSeq k sp
    let r : OpenRec := {
      typ, ctx := w.c, sz, seq := k.seqNo, sp, addr, next := if landed then addr + w64 n else addr, rep := 0, info, cyc := s.cyc
      tagged := landed, inext := addr + w64 n, irep := 0 }
    { k with bound := k.bound.map (fun b => { b with openRec := some r }) }

/-- Put another open record in its place. -/
def setOpen (s : State) (i : Nat) (r : OpenRec) : State :=
  s.modCore i (fun k => { k with bound := k.bound.map (fun b => { b with openRec := some r }) })

/-- A LOAD or STORE access of `n` bytes that lands as it issues: it joins the open record or opens one (spec/21 R350, R351); an access of a
type that is not logged only closes it. -/
def logAccess (s : State) (w : Who) (typ sz : Nat) (addr : Word) (n info : Nat) : State :=
  match (s.coreAt w.i).bound with
  | some b =>
    if logsType b typ then
      match b.openRec with
      | some r =>
        if joinsRec r typ w.c sz addr info s.cyc then
          setOpen s w.i { r with rep := r.rep + 1, next := addr + w64 n, cyc := s.cyc, inext := addr + w64 n, irep := r.irep + 1 }
        else openRecord (closeRec s w.i) w typ sz addr n info
      | none => openRecord s w typ sz addr n info
    else closeRec s w.i
  | none => s

/-- A load of `n` bytes issues whose result lands later (spec/22 R374): it is a member of the open record or opens one. The second
component is that record's number. -/
def openLoad (s : State) (w : Who) (sz : Nat) (addr : Word) (n : Nat) : State × Option Nat :=
  match (s.coreAt w.i).bound with
  | some b =>
    if logsType b 0 then
      match b.openRec with
      | some r =>
        if mayJoin r w.c sz addr s.cyc then (setOpen s w.i { r with inext := addr + w64 n, irep := r.irep + 1 }, some r.seq)
        else
          let s := openRecord (closeRec s w.i) w 0 sz addr n 0 false
          (s, some (s.coreAt w.i).seqNo)
      | none =>
        let s := openRecord s w 0 sz addr n 0 false
        (s, some (s.coreAt w.i).seqNo)
    else (closeRec s w.i, none)
  | none => (s, none)

/-- The result of a load with record `seq` lands (spec/22 R374): the opener gives its record the tag; a member joins, or forms a record of its
own, which never waits for the lag. `gone`: no result reaches a register (a poisoned or failed access, or one of a helper that has ended). -/
def landLoad (s : State) (w : Who) (seq : Option Nat) (sz : Nat) (addr : Word) (n info : Nat) (gone : Bool := false) : State :=
  match (s.coreAt w.i).bound with
  | some b =>
    if seq.isNone then s
    else
      let opener (r : OpenRec) : Bool := seq == some r.seq && !r.tagged && r.addr == addr
      match b.openRec.filter opener, b.late.find? opener with
      | some r, _ => setOpen s w.i { r with tagged := true, info, next := addr + w64 n, cyc := s.cyc }
      | none, some r =>
        (sendRec s w.i b.peer r.seq (recHdr r.typ r.sp r.ctx r.sz r.rep info) r.addr).modCore w.i
          (fun k => { k with bound := some { b with late := b.late.filter (fun r => !opener r) } })
      | none, none =>
        if gone then s
        else match b.openRec.filter (fun r => joinsRec r 0 w.c sz addr info s.cyc) with
          | some r => setOpen s w.i { r with rep := r.rep + 1, next := addr + w64 n, cyc := s.cyc }
          | none => openRecord (closeRec s w.i) w 0 sz addr n info
  | none => s

/-- Tag that a logged store of this core sets in its line: the core's number and the record (spec/21 R352). -/
def storeTag (s : State) (i typ : Nat) : Nat × Nat :=
  match (s.coreAt i).bound with
  | some b => if logsType b typ then (i, (s.coreAt i).seqNo) else (0, 0)
  | none => (0, 0)

/-- `info` of a LOAD or ATOMIC record from a tag, with the writer's partition-logical index (spec/21 Table 21.5). -/
def tagInfo (s : State) (i : Nat) (tag : Nat × Nat) : Nat :=
  if tag = (0, 0) then 0 else (partY s i tag.1 * 64 + partX s i tag.1) * 2 ^ 32 + tag.2 % 2 ^ 32

/-- A bound worker opens the record of an atomic at issue: the worker, and its number. Logged or not, an atomic joins no open
record and closes it (spec/21 R351). -/
def openAtomic (s : State) (w : Who) : State × Option Nat :=
  match (s.coreAt w.i).bound with
  | some b =>
    if logsType b 2 then
      let s := (closeRec s w.i).modCore w.i (fun k => takeSeq k false)
      (s, some (s.coreAt w.i).seqNo)
    else (closeRec s w.i, none)
  | none => (s, none)

/-- The record of an atomic is sent when its result lands (spec/21 R350, spec/22 R374). -/
def sendAtomic (s : State) (w : Who) (seq : Option Nat) (sz : Nat) (a : Word) (tag : Nat × Nat) : State :=
  match (s.coreAt w.i).bound, seq with
  | some b, some n => sendRec s w.i b.peer n (recHdr 2 false w.c sz 0 (tagInfo s w.i tag)) a
  | _, _ => s

/-- Lag at or above the effective limit (spec/21 R354). -/
def lagFull (k : Core) : Bool :=
  match k.bound with
  | some b => decide (min k.lg.lim (2 ^ b.lring / 16 - 2) ≤ (k.lg.seq - k.lg.cons).toNat)
  | none => false

/-- An effect that opened a record while the lag was full must not issue. A LOAD that met the address conditions of
the open record may (spec/22 R374). -/
def lagBlocks (k0 k1 : Core) : Bool :=
  lagFull k0 && k0.lg.seq != k1.lg.seq &&
  !(match k0.bound.bind (·.openRec), k1.bound.bind (·.openRec) with
    | some r, some r' => r'.typ == 0 && mayJoin r r'.ctx r'.sz r'.addr r'.cyc
    | _, _ => false)

/-! ## Own-slice accesses, in and out of slipstream (spec/09 R169 to R173) -/

/-- Slipstream of the control context. -/
def slipOf (k : Core) (c : Nat) : Option Slip := if c = 0 then k.slip else none

/-- The byte is in the slipstream buffer. -/
def inBuf (k : Core) (c a : Nat) : Bool := (slipOf k c).any (fun sl => (mget sl.buf a).isSome)

/-- Bytes that a context reads at its own slice (or buffer or local memory). -/
def sliceRd (s : State) (w : Who) (a n : Nat) : List Byte :=
  match slipOf (s.coreAt w.i) w.c with
  | none => rdBs s.mem (localBase w.i + a) n
  | some sl => (List.range n).map (fun k => (mget sl.buf (a + k)).getD (rdB s.mem (localBase w.i + a + k)))

/-- The address of the first uncorrectable word that the read takes a byte of. -/
def sliceBad (s : State) (w : Who) (a n : Nat) : Option Word :=
  (badAt s.bad (localBase w.i + a) n (fun k => inBuf (s.coreAt w.i) w.c (a + k))).map (fun k => w64 ((a + k) / 8 * 8))

/-- Marks that a slipstream read leaves: each line of which it takes a byte from the slice (spec/09 R169). -/
def sliceMark (s : State) (w : Who) (a n : Nat) : State :=
  match slipOf (s.coreAt w.i) w.c with
  | none => s
  | some sl =>
    let ls := (List.range n).filterMap (fun k => if (mget sl.buf (a + k)).isSome then none else some ((a + k) / 64))
    s.modCore w.i (fun k => { k with slip := some { sl with marks := ls.foldl (fun m l => if m.contains l then m else m ++ [l]) sl.marks } })

/-- Tag that an own-slice read returns: in slipstream, bytes of the buffer give the core's own index with stamp 0, which
stands for no dependence. -/
def sliceTag (s : State) (w : Who) (a n : Nat) : Nat × Nat :=
  if (List.range n).any (fun k => inBuf (s.coreAt w.i) w.c (a + k)) then (w.i, 0) else tagAt s (localBase w.i + a)

/-- Store to the own slice: into the buffer in slipstream, `none` when it needs a line beyond the 128 (spec/09 R168,
R169); otherwise at once, with its tag. -/
def sliceWr (s : State) (w : Who) (a : Nat) (bs : List Byte) (tag : Nat × Nat) : Option State :=
  match slipOf (s.coreAt w.i) w.c with
  | none => some (put s (localBase w.i + a) bs tag)
  | some sl =>
    let ls := (List.range bs.length).map (fun k => (a + k) / 64)
    let lines := ls.foldl (fun m l => if m.contains l then m else m ++ [l]) sl.lines
    if 128 < lines.length then none
    else
      let buf := (bs.zipIdx).foldl (fun m e => mset m (a + e.2) e.1) sl.buf
      let tags := if tag = (0, 0) then sl.tags else lines.foldl (fun m l => if ls.contains l then mset m l tag.2 else m) sl.tags
      some (s.modCore w.i (fun k => { k with slip := some { sl with lines, buf, tags } }))

/-! ## Rollback and commit (spec/09 R171, R172, spec/21 R360) -/

/-- The sequencer gives up its body and every repetition that has not ended. -/
def Seqr.dropped (q : Seqr) : Seqr :=
  { q with body := [], toCap := 0, n := 0, count := 0, base := 0, pos := [], stopNew := false }

/-- The sequencer captures, or has body instructions still to issue (spec/13 R248). -/
def Seqr.busy (q : Seqr) : Bool :=
  q.toCap != 0 || q.pos.any (fun p => decide (p < q.n)) || (!q.stopNew && decide (q.base + q.pos.length < q.count))

/-- A context waits at no containment point any more (spec/21 R358). -/
def Bound.dropWaits (b : Bound) (c : Nat) : Bound := { b with waits := mdel b.waits c }

/-- Roll one core back to its `sync.s`: `why` and `agt` as Table 9.4. A wake latch that was set when slipstream was entered, or has been set
since, is set (spec/07 R148). A division that was issued in it is squashed. -/
def rollbackOne (s : State) (i why agt line : Nat) : State :=
  match (s.coreAt i).slip with
  | none => s
  | some sl =>
    let s := s.modCore i fun k =>
      { k with
        slip := none
        ctl := { k.ctl with g := sl.g, loops := sl.loops, pc := sl.syncPc, fbuf := [], latch := k.ctl.latch || sl.latch }
        bound := k.bound.map (·.dropWaits 0)
        v := sl.v
        k := sl.k
        bb := sl.bb
        banks := vput k.banks k.level { k.bank with f := sl.f }
        sync := some { lvl := sl.lvl, hard := false, pc := sl.syncPc, next := sl.pc }
        noSlip := some sl.syncPc
        exReady := none
        seqr := { k.seqr.dropped with started := sl.started }
        div := if k.div.any (·.c == 0) then none else k.div
        nrb := k.nrb + 1
        spRb := true
        specRb := w64 (why * 2 ^ 62 + (if why = 0 then agt * 2 ^ 60 + line * 64 else 0)) }
    logRec s ⟨i, 0, i⟩ 8 0 (sl.firstSp.getD 0)

/-- Members of a core's gang, or the core itself. -/
def gangOf (s : State) (i : Nat) : List Nat :=
  match (s.coreAt i).gang with
  | some (l, n) => (List.range n).map (fun r => l + 64 * r)
  | none => [i]

/-- Roll a core and the rest of its gang back (spec/09 R173). -/
def rollback (s : State) (i why agt line : Nat) : State :=
  (gangOf s i).foldl (fun s j => rollbackOne s j why (if j = i || why != 0 then agt else 2) line) s

/-- Write the buffer of one core into its slice at the release (spec/09 R172). -/
def commitOne (s : State) (i : Nat) : State :=
  match (s.coreAt i).slip with
  | none => s
  | some sl =>
    let s := sl.buf.foldl (fun s e => put s (localBase i + e.1) [e.2] (match mget sl.tags (e.1 / 64) with
      | some n => (i, n)
      | none => (0, 0))) s
    let s := { s with bad := s.bad.filter (fun b => !((List.range 8).all (fun k =>
      decide (localBase i ≤ b * 8) && (mget sl.buf (b * 8 + k - localBase i)).isSome))) }
    let s := s.modCore i fun k => { k with slip := none, ncom := k.ncom + 1, spRb := false }
    logRec s ⟨i, 0, i⟩ 7 0 (sl.firstSp.getD 0)

/-! ## Writes by other agents -/

/-- A write into core `i`'s slice (buffer, local memory) by an agent other than its contexts: `agt` 0 through the
mesh-arrival port or an exchange flit, 1 a service write. It is performed as usual; in slipstream a touched mark is a
violation (spec/09 R170). A mesh arrival, which a memory core's write into another slice is too (spec/17 R296), sets
the wake latches (spec/06 R135). -/
def extWrite (s : State) (i a : Nat) (bs : List Byte) (agt : Nat) (tag : Nat × Nat := (0, 0)) (arrival : Bool := agt == 0) :
    State :=
  let s := put s (localBase i + a) bs tag
  let s := if arrival then wake s i else s
  match (s.coreAt i).slip with
  | none => s
  | some sl =>
    match (List.range ((a + bs.length - 1) / 64 - a / 64 + 1)).find? (fun k => sl.marks.contains (a / 64 + k)) with
    | some k => rollback s i 0 agt (a / 64 + k)
    | none => s

/-! ## Traps (spec/08 R149 to R156, spec/25 R397) -/

/-- Mark that a member misses the phase of level `l`: its mismatch bit stands on the domain's wires (spec/03 R47). -/
def Core.missed (k : Core) (l : Nat) : List Nat := if k.exMiss.contains l then k.exMiss else l :: k.exMiss

/-- The exchange-ready state ends without an `exch` (spec/03 R45): the member misses the phase. -/
def Core.dropReady (k : Core) : Core :=
  match k.exReady with
  | none => k
  | some l => { k with exReady := none, exMiss := k.missed l, exEarly := 0 }

/-- A fatal stop (spec/08 R152): the core issues nothing more and its task's entry keeps the first report. -/
def fatalStop (s : State) (i cause : Nat) (val pc : Word) : State :=
  let s := s.modCore i (fun k => { k.dropReady with run := .stopped cause val pc })
  match taskOf s (i % 4096) with
  | some (e, t) =>
    if i < 8192 && t.report.isNone then
      { s with tasks := mset s.tasks e { t with report := some (cause, (yOf (i % 4096) - t.y0) * 64 + (xOf (i % 4096) - t.x0), val, pc) } }
    else s
  | none => s

/-- Dissolve the gang of a core that trapped: every other member goes on by itself with `st.gf` set (spec/03 R42). -/
def dissolve (s : State) (i : Nat) (fault : Bool) : State :=
  match (s.coreAt i).gang with
  | none => s
  | some _ =>
    (gangOf s i).foldl (fun s j => s.modCore j (fun k =>
      { k with gang := none, id := vput k.id 4 0,
               banks := if fault && j != i then vput k.banks 2 { vget k.banks 2 {} with gf := true } else k.banks })) s

/-- Pass a mutex on: to the next loader, which then completes elsewhere, or free (spec/09 R178). -/
def Lock.popped (l : Lock) : Lock :=
  match l.queue with
  | h :: t => { holder := some h, queue := t }
  | [] => { holder := none, queue := [] }

/-- Address of the word that a lulled load names (spec/09 Table 9.5). -/
def LullOn.addr : LullOn → Nat
  | .line n => 0x50000 + 4 * n
  | .lock m => 0x50200 + 4 * m
  | .barrier c => 0x50300 + 4 * c

/-- Reaching the end of loop bodies (spec/05 R91). -/
def loopEnd : List Loop → Word → List Loop × Word
  | [], pc => ([], pc)
  | l :: t, pc =>
    if pc = l.fin then
      if l.left.toNat > 1 then ({ l with left := l.left - 1 } :: t, l.start) else loopEnd t pc
    else (l :: t, pc)

/-- A taken branch out of bodies pops their entries (spec/05 R92). -/
def popOutside : List Loop → Word → List Loop
  | [], _ => []
  | l :: t, pc => if l.start.toNat ≤ pc.toNat ∧ pc.toNat < l.fin.toNat then l :: t else popOutside t pc

/-- Fall through to `next`. -/
def Ctx.fallTo (x : Ctx) (next : Word) : Ctx :=
  { x with loops := (loopEnd x.loops next).1, pc := (loopEnd x.loops next).2 }

/-- The instruction of a context completes and falls through to `next`. -/
def completeAt (s : State) (w : Who) (next : Word) : State := s.modCtx w (fun x => x.fallTo next)

/-- A context is frozen (spec/03 R38): its core is in an exchange phase, or it is a helper of a core in slipstream. -/
def frozen (k : Core) (c : Nat) : Bool := k.exch.isSome || c != 0 && k.slip.isSome

/-- A lulled load can complete now: no freeze holds its context (spec/03 R38), and no lag its record (spec/21 R354). `s1` is the state with its
record. -/
def lullGoes (s s1 : State) (i c : Nat) : Bool := !frozen (s.coreAt i) c && !lagBlocks (s.coreAt i) (s1.coreAt i)

/-- What a lulled load waited for has come (spec/09 R176): it completes with `v`, with its register, its post-increment, its record and its
fall-through; in a freeze (spec/03 R38) or a lag (spec/21 R354) it completes after it. -/
def completeLull (s : State) (i c : Nat) (v : Word) : State :=
  let w : Who := ⟨i, c, i⟩
  match (s.ctxAt w).lull with
  | none => s
  | some l =>
    let s1 := logAccess s w 0 2 (w64 l.on.addr) 4 0
    if !lullGoes s s1 i c then s.modCtx w (fun x => { x with lull := some { l with due := some v } })
    else
      let s := s1.wr w l.rd v
      let s := match l.inc with
        | some b => s.wr w b (s.rd w b + 4)
        | none => s
      completeAt (s.modCtx w (fun x => { x with lull := none })) w l.next

/-- A mutex passes to its next loader, whose load completes with 1, or becomes free (spec/09 R178). -/
def passLock (s : State) (cl m : Nat) : State :=
  let l := (vget (s.clusterAt cl).locks m {}).popped
  let s := s.modCluster cl (fun k => { k with locks := vput k.locks m l })
  match l.holder with
  | some (i, c) => completeLull s i c 1
  | none => s

/-- Abandon the lulled load of a context: it is no waiter any more, and a grant that it has not completed is withdrawn (spec/09 R180). A load
whose line has fired, or whose barrier has released, in a freeze or a lag is complete but for that, and stays. -/
def abandonLull (s : State) (i c : Nat) : State :=
  match ((s.coreAt i).ctx c).lull with
  | none => s
  | some l =>
    let gone := s.modCtx ⟨i, c, i⟩ (fun x => { x with lull := none })
    match l.on with
    | .lock m =>
      if l.due.isSome then passLock gone (clusterOf i) m
      else gone.modCluster (clusterOf i) (fun k =>
        let q := vget k.locks m {}
        { k with locks := vput k.locks m { q with queue := q.queue.filter (fun e => e != (i, c)) } })
    | _ => if l.due.isSome then s else gone

/-- A helper has ended: the replies of its accesses in flight write nothing (spec/03 R37), and those accesses happen before what its control
context does next (spec/07 R147). -/
def orphan (s : State) (i c : Nat) : State :=
  let ids := inFlight s ⟨i, c, i⟩
  { s.modCore i (fun k => { k with ctl := { k.ctl with inh := k.ctl.inh.filter (outstanding s) ++ ids } }) with
    mesh := s.mesh.map (fun p => if p.core == i && p.ctx == c && (p.kind.isStore || p.kind.isLoad) then { p with ctx := endedCtx c } else p)
    sysOut := s.sysOut.map (fun o => if o.core == i && o.ctx == c then { o with ctx := endedCtx c } else o) }

/-- Band of a worker (spec/27 R446) and its logical column in the band. -/
def bandOf (i : Nat) : Nat :=
  8 * (xOf i / 32 + 2 * (yOf i / 32)) + 2 * (yOf i % 32 / 8) + xOf i % 32 / 16
def colOf (i : Nat) : Nat := xOf i % 16

/-- Rectangle of a placed task, device-logical. -/
def Task.rect (t : Task) : Rect := ⟨t.x0, t.y0, t.w, t.h⟩

/-- `trap.val` after `quarantine` of worker `j` (spec/08 Table 8.4). -/
def quarVal (s : State) (j src : Nat) : Word := w64 (src * 2 ^ 14 + partY s j j * 64 + partX s j j)

/-- The remap of the band's first quarantine has not taken effect (spec/08 R158). -/
def Band.waiting (b : Band) : Bool := !b.remapped && !b.quar.isEmpty

/-- With the spare in use, the column of a second quarantined cluster is withheld, and with a third cluster the whole band (spec/01 R11). -/
def Band.withhold (b : Band) : Band :=
  if b.remapped then { b with held := (b.quar.drop 1).take 1, whole := b.whole || decide (3 ≤ b.quar.length) } else b

/-- A quarantine in a logical column; one more in a cluster that waits for its remap or is withheld adds nothing. -/
def Band.add (b : Band) (col : Nat) : Band :=
  if (if b.remapped then b.quar.drop 1 else b.quar).contains col then b else { b with quar := b.quar ++ [col] }.withhold

/-- The task of core `j` keeps its first quarantine for the completion record (spec/25 Table 25.8a). -/
def noteQuar (s : State) (j : Nat) (v : Word) : State :=
  match taskOf s j with
  | some (e, t) => { s with tasks := mset s.tasks e { t with
      quarRep := some (t.quarRep.getD ((yOf j - t.y0) * 64 + (xOf j - t.x0), v)) } }
  | none => s

/-- A core as its quarantine leaves it: it waits at no sync any more, and misses the exchange phase that it stood in, for it injects and counts no
more (spec/08 R157, spec/03 R47). -/
def Core.quarantine (k : Core) : Core :=
  { k.dropReady with
    run := .quarantined, sync := none, exch := none
    exMiss := match k.exch with
      | some x => k.missed x.lvl
      | none => k.dropReady.exMiss }

/-- A worker is quarantined (spec/08 R157): it stops, its cluster waits to be retired in its band (spec/01 R11), and every
other core of its task domain takes `quarantine` at its next boundary. A core that has not yet taken an earlier quarantine of the domain takes
one `quarantine`, with the value of the first (log entry 99: the spec states nothing of two that are pending). -/
def quarantineCore (s : State) (j src : Nat) : State :=
  let v := quarVal s j src
  let others := match taskOf s j with
    | some (_, t) => t.rect.cores.filter (fun i => i != j)
    | none => []
  let s := noteQuar (dissolve s j true) j v
  let s := s.modCore j Core.quarantine
  let s := { s with bands := mset s.bands (bandOf j) (((mget s.bands (bandOf j)).getD {}).add (colOf j)) }
  others.foldl (fun s i => s.modCore i (fun k => { k with quar := some (k.quar.getD v) })) s

/-- A `datauc` report at a word of a slice, given as its flat address divided by 8: the second since reset quarantines the
slice's core (spec/08 R157), once. -/
def noteReport (s : State) (fw : Nat) : State :=
  if 0x40000000 ≤ fw * 8 then s
  else if s.reported.contains fw then
    if (s.coreAt (fw * 8 / 0x40000)).run = .quarantined then s else quarantineCore s (fw * 8 / 0x40000) 1
  else { s with reported := fw :: s.reported }

/-- The word of a slice that a `datauc` with this `trap.val` names, seen from core `i`. -/
def reportWord (s : State) (i : Nat) (val : Word) : Option Nat :=
  if val.toNat < localSize i then some ((localBase i + val.toNat) / 8)
  else (home s i val.toNat).map (fun h => (localBase h.1 + h.2) / 8)

/-- A `datauc` that a context takes as a trap is a report. -/
def report (s : State) (i cause : Nat) (val : Word) : State :=
  if cause = 0x0C then (match reportWord s i val with
    | some fw => noteReport s fw
    | none => s) else s

/-- A fault in a helper ends it, with the cause kept for `hstat` (spec/03 R37, spec/05 Table 5.8). It takes no trap, and a `datauc` of it is
no report (spec/08 R157; log entry 19). -/
def helperFault (s : State) (i c cause : Nat) (pc : Word) : State :=
  let s := orphan (abandonLull s i c) i c
  let h : Helper := { ctx := {}, live := false, flt := true, cause := BitVec.ofNat 8 cause, fpc := pc }
  wake (s.modCore i (fun k => { k with
    helpers := vput k.helpers (c - 1) h, bound := k.bound.map (·.dropWaits c)
    div := if k.div.any (·.c == c) then none else k.div })) i

/-- The control context's trap entry (spec/08 R151), with the banks of spec/25 R397 on a control core; `pc` is what `trap.pc`
becomes. With `st.tn` set or traps disabled it is a fatal stop (R152). -/
def trapEntry (s : State) (i : Nat) (cause : Nat) (val pc : Word) : State :=
  let k := s.coreAt i
  let lvl' := if kindOf i = .control then k.level - 1 else k.level
  let b := vget k.banks lvl' {}
  if b.tn || !bit b.vec 0 then dissolve (fatalStop s i cause val pc) i true
  else
    let b' : Bank := { b with
      pc := pc, cause := BitVec.ofNat 8 cause, val := val, plv := k.lvl, tn := true,
      held := k.ctl.loops, ls := !k.ctl.loops.isEmpty }
    let s := abandonLull s i 0
    let s := s.modCore i (fun k =>
      { k.dropReady with
        lvl := BitVec.ofNat 2 lvl', banks := vput k.banks lvl' b'
        ctl := { k.ctl with pc := w64 (bits b.vec 1 17 * 2), loops := [], fbuf := [], gated := false }
        gangWait := none, bound := k.bound.map (·.dropWaits 0)
        div := if k.div.any (·.c == 0) then none else k.div
        seqr := if k.seqr.toCap = 0 then k.seqr else k.seqr.dropped })
    let s := dissolve s i true
    logRec s ⟨i, 0, i⟩ 14 pc cause

/-- A pending `quarantine` is taken with `trap.pc` := `pc` (spec/08 R157). -/
def takeQuarantine (s : State) (i : Nat) (v pc : Word) : State := trapEntry (s.modCore i (fun k => { k with quar := none })) i 0x0D v pc

/-- Taking an exception: the trap entry of the control context, with the report that a `datauc` makes; a helper ends by its
fault (spec/03 R37). A pending `quarantine` of the core comes first (spec/08 R155): the instruction raises its cause when it issues again. -/
def takeTrap (s : State) (w : Who) (cause : Nat) (val pc : Word) : State :=
  if w.c ≠ 0 then helperFault s w.i w.c cause pc
  else match (s.coreAt w.i).quar with
    | some v => takeQuarantine s w.i v pc
    | none => report (trapEntry s w.i cause val pc) w.i cause val

/-- `trap.val` after `illegal` (spec/04 Table 4.8). -/
def illegalVal (s : State) (rsn : Nat) : Word :=
  w64 (s.cur.page * 2 ^ 24 + rsn * 2 ^ 20 + s.cur.npfx * 2 ^ 16 + s.cur.hw.toNat)

/-! ## Results of a meaning, and completing an instruction -/

/-- How a jump treats the loop stack and what a bound worker logs: a taken branch or `jr`, `ret`, `call`, and moves of
the PC that do neither. -/
inductive JumpKind where
  | branch | ret | call | plain
  deriving DecidableEq, Repr

/-- What an instruction does at one member: go on after it, move the PC, complete with the PC left to another event,
wait (it has not issued), or raise a cause. `after` puts `trap.pc` at the halfword that follows. -/
inductive Res where
  | go (s : State)
  | jump (kind : JumpKind) (s : State) (target : Word)
  | stay (s : State)
  | wait (s : State)
  | trap (cause : Nat) (val : Word) (after : Bool := false)
  /-- A cause whose taking also changes `s`: a pending error that it clears. -/
  | trapIn (s : State) (cause : Nat) (val : Word)
  /-- A trap entry that the meaning has made, as a pending fault entry at `halt`: no lag delays it (spec/21 R354). -/
  | taken (s : State)
  deriving DecidableEq, Repr

def isExch : Instr → Bool
  | .exch _ => true
  | _ => false

/-- Destination of a division (spec/05 R81). -/
def divDest : Instr → Option Reg
  | .div o | .divn o | .rem o | .remn o => some o.a
  | _ => none

/-- The divider holds an instruction of context `w` (spec/05 R81): it is a division and finds an earlier one there, or names the register whose
result has not landed, 20 cycles after that division's issue (spec/03 R50, Table 3.7). -/
def divHolds (s : State) (w : Who) (ins : Instr) (regs : List Reg) : Bool :=
  (s.coreAt w.i).div.any (fun d => decide (s.cyc < d.at_ + 20) && ((divDest ins).isSome || d.c == w.c && regs.contains d.rd))

/-- What the issue of an instruction ends: with the control context, the exchange-ready state, whose member misses the phase unless the
instruction is the `exch` (spec/03 R45, R47); a division takes the divider (spec/05 R81). -/
def clearReady (s0 s : State) (w : Who) (ins : Instr) : State :=
  if (w.c = 0 ∧ (s.coreAt w.i).exReady.isSome) ∨ (divDest ins).isSome then
    s.modCore w.i (fun k => { k with
      exReady := if w.c = 0 then none else k.exReady
      exMiss := if w.c = 0 ∧ !isExch ins then k.dropReady.exMiss else k.exMiss
      exEarly := if w.c = 0 then 0 else k.exEarly
      div := match divDest ins with
        | some rd => some { c := w.c, rd, old := s0.rd w rd, pc := s0.pcOf w, loops := (s0.ctxAt w).loops, at_ := s0.cyc }
        | none => k.div })
  else s

/-- A context of a bound worker that issues waits at no containment point any more (spec/21 R358). -/
def endContain (s0 s : State) (w : Who) : State :=
  match (s0.coreAt w.i).bound with
  | none => s
  | some b => if (mget b.waits w.c).isNone then s else s.modCore w.i (fun k => { k with bound := k.bound.map (·.dropWaits w.c) })

/-- A control core's plug-in timer counts an issue at level 2 (spec/25 R399). -/
def countTimer (s0 s : State) (w : Who) : State :=
  if (s0.coreAt w.i).ptmr = 0 ∨ (s0.coreAt w.i).lvl ≠ 2 then s
  else s.modCore w.i (fun k => { k with ptmr := k.ptmr - 1, ptmrDue := k.ptmrDue || k.ptmr == 1 })

/-- The record of a jump (spec/21 Table 21.6); `s0` is the state at issue. -/
def jumpLog (w : Who) (s0 : State) (kind : JumpKind) (s : State) (t : Word) : State :=
  match kind with
  | .branch => logRec s w 3 t ((s0.pcOf w).toNat % 2 ^ 18)
  | .ret => logRec s w 5 t 0
  | .call => logRec s w 4 t ((s0.fall w).toNat % 2 ^ 18)
  | .plain => s

/-- The instruction has issued: what stood until its issue ends. -/
def issued (w : Who) (ins : Instr) (s0 s : State) : State := countTimer s0 (clearReady s0 (endContain s0 s w) w ins) w

/-- `trap.pc` of a cause that an instruction raises: the halfword after it where `after` says so; a helper's status names its first halfword
(spec/05 Table 5.8). -/
def trapPc (s0 : State) (w : Who) (after : Bool) : Word := if after && w.c == 0 then s0.fall w else s0.pcOf w

/-- Complete an instruction at one member. `s0` is the state at issue. -/
def settle (w : Who) (ins : Instr) (s0 : State) : Res → State
  | .wait s => s
  | .stay s => if lagBlocks (s0.coreAt w.i) (s.coreAt w.i) then s0 else issued w ins s0 s
  | .go s => if lagBlocks (s0.coreAt w.i) (s.coreAt w.i) then s0 else issued w ins s0 (completeAt s w (s0.fall w))
  | .jump kind s t =>
    let s1 := jumpLog w s0 kind s t
    if lagBlocks (s0.coreAt w.i) (s1.coreAt w.i) then s0
    else issued w ins s0 (s1.modCtx w (fun x => { x with
        pc := t, loops := match kind with
          | .branch | .ret => popOutside x.loops t
          | _ => x.loops }))
  | .trap cause val after =>
    if (s0.coreAt w.i).inSlip w.c then s0
    else countTimer s0 (takeTrap s0 w cause val (trapPc s0 w after)) w
  | .trapIn s cause val =>
    if (s0.coreAt w.i).inSlip w.c then s0 else countTimer s0 (takeTrap s w cause val (s0.pcOf w)) w
  | .taken s => countTimer s0 s w

/-! ## Issue -/

/-- A context that may issue: its core runs, it is live, and nothing freezes or holds it (spec/03 R38, R42, R46). -/
def runs (k : Core) (c : Nat) : Bool :=
  k.run == .running && (k.ctx c).lull.isNone && (k.ctx c).sys.isNone &&
  if c = 0 then k.sync.isNone && k.exch.isNone && k.gangWait.isNone && k.lgWait.isNone
  else (vget k.helpers (c - 1) {}).live && k.slip.isNone && k.exch.isNone && k.gang.isNone

/-- First of the context checks 7, 11 and 12 that an instruction fails where it stands (spec/04 Table 4.7). -/
def permit (w : Who) (ins : Instr) : Option Nat :=
  let x : DecCtx := ⟨kindOf w.i, w.c != 0⟩
  if !pageRuns x.kind (pageOf ins) then some 7
  else if !ctx11 x ins then some 11
  else if !(helperOk x.helper ins && kindOk x.kind ins) then some 12
  else none

/-- g registers that the instruction reads or writes, with the link register. -/
def namedRegs (w : Who) : Instr → List Reg
  | .call _ | .ret => [linkReg w]
  | i => gregs i

/-- Instructions that stall in slipstream until the release whatever their operands (spec/09 Table 9.2). The local
accesses to the control and cluster window stall in their own meanings. -/
def slipStalls : Instr → Bool
  | .ldg _ | .stg _ | .aadd _ | .aand _ | .aor _ | .axor _ | .amin _ | .amax _ | .aminn _ | .amaxn _ | .amaxf _
  | .aswp _ | .acas _ | .aincW _ | .afaddB _ | .push _ _ | .pop _ _ | .fstat _ _ | .start _ _ | .hwait _ | .hexit
  | .hstat _ _ | .gang _ | .split | .syncH _ | .syncS _ _ | .exch _ | .dom _ _ | .bstat _ _ _ | .evsig _ | .cpy _
  | .cpyq _ _ | .uiret | .uien _ _ | .trap _ | .tret | .halt | .lgbind _ _ | .lgunbind _ | .lgnext _ _ | .lgok
  | .lgflag _ | .lglim _ _ | .contain | .xreq _ _ | .xres _ | .npost _ _ | .npoll _ _ => true
  | .fence _ sc => sc != .core
  | .cwr _ n => !(decide (35 ≤ n.toNat) && decide (n.toNat ≤ 38))
  | i => pageOf i == 2

/-- A store address of the cluster window, and one at which a 64-bit store is a FIFO port's `push` (spec/21 Table 21.7). -/
def inClusterWin (a : Nat) : Bool := decide (0x50000 ≤ a) && decide (a < 0x58000)
def isPushAddr (a : Nat) : Bool := decide (0x41000 ≤ a) && decide (a < 0x41100) && a % 16 == 0

/-- The instruction is a containment point of a binding with this `zone` (spec/21 Table 21.7). -/
def contains (s : State) (w : Who) (zone : Bool) (ins : Instr) : Bool :=
  let inner := !zone
  match ins with
  | .contain | .halt => true
  | .stg o => inner || isSys (s.rd w o.b).toNat
  | .aadd o | .aand o | .aor o | .axor o | .amin o | .amax o | .aminn o | .amaxn o | .amaxf o | .aswp o | .acas o
  | .aincW o | .afaddB o => o.scope != .core && (inner || isSys (s.rd w o.b).toNat)
  | .st64 o | .fifoPushStore o =>
    let a := (s.rd w o.b).toNat
    (inner && (inClusterWin a || isPushAddr a)) || (zone && a == 0x41040)
  | .st8 o | .st16 o | .st32 o | .controlWindowRegStore o | .fireWordStore o | .bindWordStore o | .lockWordStore o
  | .maskWordStore o => inner && inClusterWin (s.rd w o.b).toNat
  | .push _ p => inner || p == 4
  | .npost _ _ => true
  | .cpy b => inner || (
      let dtd := leNat (rdBs s.mem (localBase w.i + (s.rd w b).toNat % 0x40000 + 8) 8)
      let base := leNat (rdBs s.mem (localBase w.i + dtd % 0x40000) 8)
      isDramVa base || isSys base)
  | .xreq _ _ | .syncH _ | .syncS _ _ | .exch _ | .evsig _ => inner
  | i => inner && pageOf i == 2

/-- Page-1 instructions that wait for the sequencer (spec/13 R248). -/
def seqHolds : Instr → Bool
  | .vend _ | .vwait => false
  | i => pageOf i == 1

/-- What stands between an instruction and its issue: nothing, a wait, a cause, or the capture of a `vrep` body. -/
inductive Gate where
  | go
  | wait (s : State)
  | trap (cause : Nat) (val : Word) (s : State)
  | capture
  deriving DecidableEq, Repr

/-- The result is a failed decode check (spec/04 R70): it comes before a containment point. -/
def Res.illegal : Res → Bool
  | .trap c _ _ => c == 1
  | _ => false

/-- The containment point of a bound worker (spec/21 R358), before an instruction whose result would be `r`. In slipstream it waits for the
release (spec/09 Table 9.2). -/
def containGate (w : Who) (ins : Instr) (r : Res) (s : State) : Gate :=
  let k := s.coreAt w.i
  match k.bound with
  | none => .go
  | some b =>
    if !contains s w k.lg.zone ins || r.illegal then .go
    else if k.inSlip w.c then .wait s
    else match mget b.waits w.c with
      | none =>
        let info := (if ins = .contain then 2 else 0) + (if ins = .halt then 1 else 0)
        let s := logRec s w 11 (s.pcOf w) info
        .wait (s.modCore w.i (fun k => { k with bound := k.bound.map (fun b => { b with waits := mset b.waits w.c k.seqNo }) }))
      | some c =>
        if (k.lg.cons - BitVec.ofNat 32 c).toNat < 2 ^ 31 then
          if k.lg.gp then
            .trap 0x0B (w64 b.flagSeq) (s.modCore w.i (fun k => { k with lg := { k.lg with gp := false } }))
          else .go
        else .wait s

/-- An acquire of the context, or of one that happens before what it does next, has not landed (spec/07 R144, R147). -/
def acquiring (s : State) (w : Who) : Bool :=
  s.mesh.any (fun p => p.acq && p.kind.isLoad && p.core == w.i && (p.ctx == w.c || (s.ctxAt w).inh.contains p.id))

/-- The gang of the core has formed in this cycle, which its `gang` occupies (spec/03 R51). -/
def ganging (s : State) (w : Who) : Bool :=
  w.c == 0 && (s.coreAt w.i).gang.isSome && (s.coreAt w.i).gangTry.any (fun t => t.at_ == s.cyc)

/-- What stands before an instruction at one member, but for a containment point. -/
def gate (w : Who) (ins : Instr) (s : State) : Gate :=
  let k := s.coreAt w.i
  if !runs k w.c then .wait s
  else match permit w ins with
    | some rsn => if k.inSlip w.c then .wait s else .trap 1 (illegalVal s rsn) s
    | none =>
      if (k.ctx w.c).pend.any (fun r => (namedRegs w ins).contains r) || divHolds s w ins (namedRegs w ins) then .wait s
      else if acquiring s w then .wait s
      else if ganging s w then .wait s
      else if w.c = 0 ∧ k.seqr.toCap ≠ 0 then .capture
      else if k.seqr.busy && seqHolds ins then .wait s
      else if k.inSlip w.c && slipStalls ins then .wait s
      else .go

/-- b and c fields of a body instruction that name g registers are read at capture (spec/13 R248). -/
def bodyRegs : Instr → Option Reg × Option Reg
  | .vsplat o | .vld o _ | .vst o _ | .vgath o | .vscat o => (some o.b, o.c)
  | .vldp o _ | .vstp o _ | .vpupd o => (some o.b, o.c)
  | .vqnt o _ | .vdqt o _ => (none, o.c)
  | .vmovToMask _ b => (some b, none)
  | _ => (none, none)

/-- Instructions that a `vrep` body admits (spec/04 R74): ops 0 to 18, 20 to 24, 28 to 31, 38, 40 to 42, 44 to 46, 48
and 49 of page 1. -/
def inBody : Instr → Bool
  | .vmov _ | .vmovToMask _ _ | .vmovFromMask _ _ | .vadd _ | .vsub _ | .vmul _ | .vfma _ | .vfms _ | .vmin _ | .vmax _
  | .vabs _ | .vneg _ | .vand _ | .vor _ | .vxor _ | .vshl _ | .vshr _ | .vsra _ | .vcmp _ _ | .vsel _ | .vsplat _
  | .vrcp _ | .vrsq _ | .vexp2 _ | .vlog2 _ | .vtanh _ | .vcvt _ _ _ | .vqnt _ _ | .vdqt _ _ | .vamax _ _ | .vlut _
  | .vld _ _ | .vldp _ _ | .vgath _ | .vst _ _ | .vstp _ _ | .vscat _ | .vpupd _ | .vdot _ => true
  | _ => false

/-- What stands before an instruction whose effect at one member is `op`. The cause with which its fetch is refused comes after the decode
checks that are made where it stands, and before all else (spec/04 R70). -/
def gateOp (w : Who) (ins : Instr) (op : Who → State → Res) (s : State) : Gate :=
  match gate w ins s with
  | .go =>
    let r := op w s
    match s.cur.refused with
    | some (cause, val) => if r.illegal then .go else .trap cause val s
    | none => containGate w ins r s
  | .capture =>
    match s.cur.refused with
    | some (cause, val) => if inBody ins then .trap cause val s else .capture
    | none => .capture
  | g => g

/-- Capture of one body instruction (spec/13 R246, R248). -/
def capture (w : Who) (ins : Instr) (s : State) : State :=
  if !inBody ins then (if (s.coreAt w.i).inSlip w.c then s else takeTrap s w 1 (illegalVal s 12) (s.pcOf w))
  else
    let g := fun (r : Option Reg) => r.elim 0 (s.rd w)
    let e : BodyI := { ins, gb := g (bodyRegs ins).1, gc := g (bodyRegs ins).2, pc := s.pcOf w }
    let s1 := s.modCore w.i (fun k => { k with seqr := { k.seqr with body := k.seqr.body ++ [e], toCap := k.seqr.toCap - 1 } })
    clearReady s (completeAt s1 w (s.fall w)) w ins

/-- Issue at one member. -/
def one (w : Who) (ins : Instr) (op : Who → State → Res) (s : State) : State :=
  match gateOp w ins op s with
  | .go => settle w ins s (op w s)
  | .wait s' => s'
  | .trap cause val s' => if (s.coreAt w.i).inSlip w.c then s else takeTrap s' w cause val (s.pcOf w)
  | .capture => capture w ins s

/-- A member that would hold the gang: it waits, lags, or would raise a cause in slipstream (spec/03 R42). -/
def holds (w : Who) (ins : Instr) (op : Who → State → Res) (s : State) : Bool :=
  match gateOp w ins op s with
  | .wait _ => true
  | .trap _ _ _ => (s.coreAt w.i).inSlip w.c
  | .capture => !inBody ins && (s.coreAt w.i).inSlip w.c
  | .go =>
    match op w s with
    | .wait _ => true
    | .taken _ => false
    | .trap _ _ _ | .trapIn _ _ _ => (s.coreAt w.i).inSlip w.c
    | .go s' | .stay s' => lagBlocks (s.coreAt w.i) (s'.coreAt w.i)
    | .jump kind s' t => lagBlocks (s.coreAt w.i) ((jumpLog w s kind s' t).coreAt w.i)

/-- A cause that an instruction raises at one member, as a core of a gang takes it: the member, its core with what the cause clears, the cause,
`trap.val` and `trap.pc`. -/
structure Raised where
  w : Who
  core : Core
  cause : Nat
  val : Word
  pc : Word
  deriving DecidableEq, Repr

/-- The cause that the instruction raises at one member, if any. -/
def raises (ins : Instr) (op : Who → State → Res) (s : State) (w : Who) : Option Raised :=
  match gateOp w ins op s with
  | .wait _ => none
  | .trap cause val s' => some ⟨w, s'.coreAt w.i, cause, val, s.pcOf w⟩
  | .capture => if inBody ins then none else some ⟨w, s.coreAt w.i, 1, illegalVal s 12, s.pcOf w⟩
  | .go =>
    match op w s with
    | .trap cause val after => some ⟨w, s.coreAt w.i, cause, val, trapPc s w after⟩
    | .trapIn s' cause val => some ⟨w, s'.coreAt w.i, cause, val, s.pcOf w⟩
    | _ => none

/-- State changes of members that only wait (a CONTAIN record sent). -/
def waitOnly (w : Who) (ins : Instr) (op : Who → State → Res) (s : State) : State :=
  match gateOp w ins op s with
  | .wait s' => s'
  | _ => s

/-- The followers stand where the leader fetches (spec/03 R40). -/
def alignGang (ms : List Who) (s : State) : State :=
  ms.foldl (fun s m => if m.i = m.lead then s else s.modCtx m (fun x => { x with pc := s.pcOf ⟨m.lead, 0, m.lead⟩ })) s

/-- Keep `st.gf` of members that trapped themselves when a gang dissolved under them. -/
def keepGf (s t : State) (ms : List Nat) : State :=
  ms.foldl (fun u j => u.modCore j (fun k => { k with
    banks := vput k.banks 2 { vget k.banks 2 {} with gf := (vget (s.coreAt j).banks 2 {}).gf } })) t

/-- Issue in a gang (spec/03 R42): on every member at once, or on none. Every member sees the gang as it is at the issue: those that raise
no cause execute the instruction, and each of the others then takes its own and keeps its `st.gf`. -/
def gangRun (ms : List Who) (ins : Instr) (op : Who → State → Res) (s : State) : State :=
  let s := alignGang ms s
  if ms.any (fun m => holds m ins op s) then ms.foldl (fun s m => waitOnly m ins op s) s
  else
    let rs := ms.filterMap (raises ins op s)
    let s1 := rs.foldl (fun t r => t.setCore r.w.i r.core) s
    let s2 := (ms.filter (fun m => !rs.any (fun r => r.w == m))).foldl (fun t m => one m ins op t) s1
    keepGf s (rs.foldl (fun t r => takeTrap t r.w r.cause r.val r.pc) s2) (rs.map (·.w.i))

/-- The context whose turn it is. -/
def self (s : State) : Who := ⟨s.curCore, s.curCtx, s.curCore⟩

/-- Issue the instruction at the context whose turn it is. A gang's leader issues for every member; its followers do not
fetch (spec/03 R40). -/
def run (ins : Instr) (op : Who → State → Res) (s : State) : State :=
  match (s.coreAt s.curCore).gang with
  | none => one (self s) ins op s
  | some (l, n) =>
    if s.curCtx = 0 ∧ l = s.curCore then gangRun ((List.range n).map (fun r => ⟨l + 64 * r, 0, l⟩)) ins op s
    else s

/-- The meaning of an instruction whose effect at one member is `op`. -/
def issue (ins : Instr) (op : Who → State → Res) (s : State) : Outcome := .next (run ins op s)

/-! ## Fetch (spec/04 R68, R71, R73) -/

/-- A halfword as the fetch buffer or the slice holds it. -/
def fetchHalf (s : State) (w : Who) (a : Nat) : Half :=
  (mget (s.ctxAt w).fbuf a).getD (BitVec.ofNat 16 (leNat (rdBs s.mem (localBase w.i + a) 2)))

/-- Up to `n` halfwords from address `a`, within the slice. -/
def fetchRun (s : State) (w : Who) : Nat → Nat → List Half
  | 0, _ => []
  | n + 1, a => if a + 2 ≤ localSize w.i then fetchHalf s w a :: fetchRun s w n (a + 2) else []

/-- Length in halfwords of the instruction at `a`, for passing over a body. -/
def lengthAt (s : State) (w : Who) (a : Nat) : Nat :=
  match splitPfx 4 (fetchRun s w 5 a) with
  | some (ps, _) => ps.length + 1
  | none => 1

/-- Address after `n` instructions from `a`. -/
def skipInstrs (s : State) (w : Who) : Nat → Nat → Nat
  | 0, a => a
  | n + 1, a => skipInstrs s w n (a + 2 * lengthAt s w a)

/-- Empty the fetch buffer of a context: spec/04 R73 speaks of the fetch buffer and the PC, and the model gives each context its own (DEDUCED,
log entry 102). -/
def emptyFetch (s : State) (w : Who) : State := s.modCtx w (fun x => { x with fbuf := [] })

/-! ## Return from an exception (spec/08 R153, spec/25 R397, R398) -/

/-- `tret`: the PC and the loop stack come back (bit 0 of the PC is 0, as spec/04 R71 has it always even: log entry 88), `st.tn` and `st.ls` clear, the fetch buffer is emptied. On a control core
the level becomes `st.plv` of the current bank, and levels 0 and 1 may execute it with `st.tn` = 0. -/
def trapReturn (w : Who) (s : State) : Res :=
  let k := s.coreAt w.i
  let ctrl := kindOf w.i == .control
  let b := k.bank
  if !b.tn && !(ctrl && decide (k.level ≤ 1)) then .trap 1 (illegalVal s 12)
  else
    let s1 := s.modCore w.i (fun k =>
      let k := k.setBank { b with tn := false, ls := false, held := [] }
      { k with
        lvl := if ctrl then b.plv else k.lvl
        ctl := { k.ctl with loops := if b.tn then b.held else k.ctl.loops, fbuf := [] } })
    .jump .plain s1 (w64 (b.pc.toNat / 2 * 2))

end Sys2Proof.Machine
end

