-- ==== Sys2Proof/Machine/Operands.lean ====
section
/-!
DEFINITION. Operand forms: the registers and immediates that an instruction's operands name (spec/04 Tables 4.2 and 4.3),
branch targets (spec/02 R25), and checked accesses to the own slice.
-/
namespace Sys2Proof.Machine

/-- x and y of an RR form: gA and gB, or gB and gC with PFX.R (spec/04 Table 4.2). -/
def rrX (s : State) (w : Who) (o : RR) : Word := s.rd w (if o.c.isSome then o.b else o.a)
def rrY (s : State) (w : Who) (o : RR) : Word := s.rd w (o.c.getD o.b)

/-- x of an RI form: gA, or gC with PFX.R. -/
def riX (s : State) (w : Who) (o : RI) : Word := s.rd w (o.c.getD o.a)
def shX (s : State) (w : Who) (o : ShI) : Word := s.rd w (o.c.getD o.a)
def bfX (s : State) (w : Who) (o : BF) : Word := s.rd w (o.c.getD o.a)

/-- A signed and an unsigned immediate (spec/04 Table 4.3). -/
def immS (i : BitVec 35) : Word := i.signExtend 64
def immU (i : BitVec 35) : Word := i.zeroExtend 64

/-- An address as the PC takes it: the PC is always even (spec/04 R71), so bit 0 is dropped (log entry 88). -/
def evenPc (a : Nat) : Word := w64 (a / 2 * 2)

/-- Target of a BC or B form: the halfword after the instruction plus twice the offset (spec/02 R25). -/
def targetBC (s : State) (w : Who) (off : BitVec 35) : Word := s.fall w + 2 * off.signExtend 64
def targetB (s : State) (w : Who) (off : BitVec 40) : Word := s.fall w + 2 * off.signExtend 64

/-- Sign and zero extension of the low `n` bits. -/
def sxt (v n : Nat) : Word := if v % 2 ^ n < 2 ^ (n - 1) then w64 (v % 2 ^ n) else w64 (v % 2 ^ n) - w64 (2 ^ n)
def zxt (v n : Nat) : Word := w64 (v % 2 ^ n)

/-- Why an access does not go on: a cause of spec/08 Table 8.3 with `trap.val`, or a wait. -/
inductive Stop where
  | cause (code : Nat) (val : Word)
  | wait
  deriving DecidableEq, Repr

abbrev Try (α : Type) := Except Stop α

/-- What a checked effect comes to. -/
def Res.ofTry (s : State) (ok : α → Res) : Try α → Res
  | .ok a => ok a
  | .error (.cause c v) => .trap c v
  | .error .wait => .wait s

/-- Codes of spec/08 Table 8.3. -/
def cIllegal : Nat := 0x01
def cPriv : Nat := 0x02
def cAlign : Nat := 0x03
def cWindow : Nat := 0x04
def cScope : Nat := 0x05
def cXlate : Nat := 0x06
def cWedge : Nat := 0x07
def cExover : Nat := 0x08
def cSynctime : Nat := 0x09
def cGuard : Nat := 0x0B
def cDatauc : Nat := 0x0C
def cQuarantine : Nat := 0x0D
def cGang : Nat := 0x0E
def cBrk : Nat := 0x10
def cSyscall : Nat := 0x11
def cPorttime : Nat := 0x13
def cPlanefmt : Nat := 0x14
def cFifoproto : Nat := 0x15

/-- Checks of an own-slice access in the order of spec/06 R113, but the last: `window`, `priv`, `align`. -/
def sliceCheck (s : State) (w : Who) (acc : Acc3) (a : Word) (n al : Nat) : Option Stop :=
  if localSize w.i < a.toNat + n then some (.cause cWindow a)
  else if !guardOk (s.coreAt w.i) acc a.toNat n then some (.cause cPriv a)
  else if a.toNat % al ≠ 0 then some (.cause cAlign a)
  else none

/-- Checked read of `n` bytes at the own slice, read-marked and logged with size code `sz`. -/
def sliceLoad (s : State) (w : Who) (a : Word) (n al sz : Nat) : Try (List Byte × State) :=
  match sliceCheck s w .load a n al with
  | some e => .error e
  | none =>
    match sliceBad s w a.toNat n with
    | some v => .error (.cause cDatauc v)
    | none =>
      .ok (sliceRd s w a.toNat n,
        logAccess (sliceMark s w a.toNat n) w 0 sz a n (tagInfo s w.i (sliceTag s w a.toNat n)))

/-- Store to the own slice with its record and tag; a slipstream store that needs a line beyond the 128 waits. -/
def storeRaw (s : State) (w : Who) (a : Word) (bs : List Byte) (sz : Nat) : Try State :=
  let s1 := logAccess s w 1 sz a bs.length 0
  match sliceWr s1 w a.toNat bs (storeTag s1 w.i 1) with
  | some s' => .ok s'
  | none => .error .wait

/-- Checked store at the own slice. -/
def sliceStore (s : State) (w : Who) (a : Word) (bs : List Byte) (al sz : Nat) : Try State :=
  match sliceCheck s w .store a bs.length al with
  | some e => .error e
  | none => storeRaw s w a bs sz

/-- Log of a power of two. -/
def log2sz : Nat → Nat
  | 1 => 0 | 2 => 1 | 4 => 2 | 8 => 3 | 16 => 4 | 32 => 5 | _ => 6

end Sys2Proof.Machine
end

