-- ==== Sys2Proof/Machine/Flags.lean ====
section
/-!
DEFINITION. The failure flag `st.f` (spec/08 Table 8.1), the only flag that an instruction computes (spec/05 R76: no
page-0 instruction sets one), and the status word.
-/
namespace Sys2Proof.Machine

/-- Set or clear `st.f` of the current bank: set when a conditional atomic failed (spec/06 R120). -/
def setFlag (s : State) (w : Who) (f : Bool) : State := s.modCore w.i (fun k => k.setBank { k.bank with f := f })

/-- `st` as `crd` reads it (spec/08 Table 8.1). -/
def stWord (b : Bank) : Word :=
  w64 (b2n b.tn * 128 + b.plv.toNat * 16 + b2n b.ls * 8 + b2n b.gf * 2 + b2n b.f)

/-- A write to `st` (spec/08 R149, spec/25 R398): `f` is written, a 1 clears `gf`, and `plv` is written when `lvlOk`. -/
def stWrite (b : Bank) (v : Word) (lvlOk : Bool) : Bank :=
  { b with f := bit v 0, gf := b.gf && !bit v 1, plv := if lvlOk then BitVec.ofNat 2 (bits v 4 2) else b.plv }

end Sys2Proof.Machine
end

