-- ==== Sys2Proof/Machine/System.lean ====
section
/-!
DEFINITION. Control registers and the capability list (spec/06 R130, R131, Table 6.12, spec/18 R324, spec/25 R397 to R399,
spec/27 R443 to R446), `crd`, `cwr`, `trap`, `tret`, `halt`, `wfe` (spec/06 R133 to R135) and `fence` (R124, R125).
-/
namespace Sys2Proof.Machine

/-! ## The capability list -/

/-- Byte of band `b` (spec/27 R446). -/
def bandByte (s : State) (b : Nat) : Nat :=
  let d := (mget s.bands b).getD {}
  b2n d.remapped * 128 + b2n (!d.held.isEmpty) * 64 + b2n d.whole * 32 + d.held.headD 0

/-- The 32-bit word of the list at a byte offset (spec/27 Table 27.2); 0 beyond the last record. -/
def capWord (s : State) (off : Nat) : Nat :=
  if 0x14 ≤ off ∧ off < 0x34 then
    let b := off - 0x14
    bandByte s b + bandByte s (b + 1) * 2 ^ 8 + bandByte s (b + 2) * 2 ^ 16 + bandByte s (b + 3) * 2 ^ 24
  else
    match off with
    | 0x00 => 0x00101001 | 0x04 => 0x2800 + 64 * 2 ^ 16 + 64 * 2 ^ 24 | 0x08 => 4352 + 600 * 2 ^ 16
    | 0x0C => 1200 + 8 * 2 ^ 16 + 4 * 2 ^ 24
    | 0x10 => 0x00381002
    | 0x38 => 0x00481003 | 0x3C => 256 + 1024 * 2 ^ 16 | 0x40 => 64 + 16 * 2 ^ 16 | 0x44 => 64 + 512 * 2 ^ 16
    | 0x48 => 0x00501004 | 0x4C => 0xFF + 128 * 2 ^ 16 + 64 * 2 ^ 24
    | 0x50 => 0x00601005 | 0x54 => 10 + 0x0E * 2 ^ 8 + 16 * 2 ^ 16 + 16 * 2 ^ 24 | 0x58 => 4 + 8 * 2 ^ 8 + 4 * 2 ^ 16
    | 0x60 => 0x00701006
    | 0x64 => b2n (Config.fuseSplit 0) + 2 * b2n (Config.fuseSplit 1) + 2 * 2 ^ 8 + 1024 * 2 ^ 16
    | 0x68 => 256 + 64 * 2 ^ 16
    | 0x70 => 0x00801007 | 0x74 => 12 + 16 * 2 ^ 8 + 16 * 2 ^ 16 | 0x78 => 65535
    | 0x80 => 0x00001008 | 0x84 => 2800 + 1400 * 2 ^ 16
    | _ => 0

/-! ## Control registers -/

/-- `spec.st` (spec/09 Table 9.3), `lg.peer`, `lg.lim`, `lg.seq` (spec/21 Tables 21.2 to 21.4), `ui.en` and `ui.id`
(spec/18 Tables 18.2, 18.3). -/
def specSt (k : Core) : Word :=
  w64 (k.ncom.toNat * 2 ^ 48 + k.nrb.toNat * 2 ^ 32 + (k.slip.elim 0 (fun sl => sl.lines.length)) * 2 ^ 16 +
    k.spLv.toNat * 2 ^ 8 + b2n k.spRb * 2 + b2n k.slip.isSome)
def lgPeer (l : LgRegs) : Word :=
  w64 (b2n l.v * 2 ^ 63 + b2n l.role * 2 ^ 62 + b2n l.gp * 2 ^ 61 + b2n l.drn * 2 ^ 60 + l.py * 256 + l.px)
def lgLim (l : LgRegs) : Word := w64 (b2n l.zone * 2 ^ 16 + l.lim)
def lgSeq (l : LgRegs) : Word := w64 (l.cons.toNat * 2 ^ 32 + l.seq.toNat)
def uiEnWord (k : Core) : Word :=
  w64 (k.uiq.length * 2 ^ 16 + b2n k.uiLs * 4 + b2n k.uiAct * 2 + b2n k.uiEn)

/-- Control register `n` of core `i` (spec/06 Table 6.12). A memory core reads registers 0 to 12 of its tile's worker
(spec/18 R324). -/
def ctlRead (s : State) (i n : Nat) : Word :=
  let k := s.coreAt i
  let b := k.bank
  if n ≤ 12 then vget (if kindOf i = .memory then (s.coreAt (i - 4096)).id else k.id) n 0
  else if n ≤ 17 then vget k.dm (n - 13) 0
  else if 40 ≤ n ∧ n ≤ 55 then vget k.grd (n - 40) 0
  else match n with
    | 18 => stWord b | 19 => b.pc | 20 => w64 b.cause.toNat | 21 => b.val | 22 => b.vec
    | 23 => k.uiVec | 24 => k.uiId | 25 => uiEnWord k | 26 => specSt k | 27 => k.specRb
    | 28 => lgPeer k.lg | 29 => lgLim k.lg | 30 => lgSeq k.lg | 31 => k.seed
    | 32 => w64 s.cyc | 33 => w64 k.level | 34 => 0x48000
    | 35 => w64 (k.bb.d.toNat % 2 ^ 64) | 36 => w64 (k.bb.d.toNat / 2 ^ 64) | 37 => w64 k.bb.cnt | 38 => k.bb.ptr
    | 56 => w64 k.ptmr
    | _ => 0

/-- Levels that may read and write a register; none writes a read-only one (spec/06 Table 6.12, spec/25 Table 25.3). -/
def ctlMayRead (n lvl : Nat) : Bool := !(decide (40 ≤ n) && decide (n ≤ 55)) || lvl == 0
def ctlMayWrite (n lvl : Nat) : Bool :=
  if 40 ≤ n ∧ n ≤ 55 then lvl == 0
  else if (13 ≤ n ∧ n ≤ 17) ∨ n = 56 then decide (lvl ≤ 1)
  else !ctlReadOnly (BitVec.ofNat 6 n)

/-- Fields of `dm2` to `dm5` and of `dm6` (spec/03 Tables 3.2, 3.3), of `trap.vec` and of `ui.vec`. -/
def dmMask (n : Nat) : Word := if n = 17 then 0x8000FFFFFFFFFFFF else 0x00000003_7F7F3F3F

/-! ## Boundaries and user interrupts -/

/-- The control context stands at a boundary (spec/08 R155): it runs outside slipstream, an exchange phase, a sync, a capture and a hold after
effect. A stalled or lulled instruction that has not issued counts as one (spec/18 R317). -/
def standsAt (k : Core) : Bool :=
  k.run == .running && k.slip.isNone && k.exch.isNone && k.sync.isNone && k.lgWait.isNone && k.ctl.sys.isNone && k.seqr.toCap == 0

/-- The control context stands at a boundary where an entry can be taken (spec/18 R317): with traps open, and neither in an exchange-ready
state nor in a gang. -/
def uiBoundary (k : Core) : Bool := standsAt k && !k.bank.tn && k.exReady.isNone && k.gang.isNone

/-- A fault entry of the pending queue: a copy that failed without a handler (spec/18 R318). -/
def UiEntry.isFault (e : UiEntry) : Bool := e.hnd == 0

/-- The head entry is deliverable; a fault entry needs neither `en` nor `act` clear (spec/18 R317, R318). -/
def deliverable (k : Core) : Option UiEntry :=
  match k.uiq with
  | e :: _ => if uiBoundary k && (e.isFault || (k.uiEn && !k.uiAct)) then some e else none
  | [] => none

/-- A user interrupt of core `i` that was not deliverable in `s` is in `t`: it sets the wake latches (spec/06 R135). -/
def wakeUi (s : State) (i : Nat) (t : State) : State :=
  if (deliverable (s.coreAt i)).isNone && (deliverable (t.coreAt i)).isSome then wake t i else t

/-- Control register `n` of core `i` is written (spec/06 R130): unwritable bits keep their value. A write of `ui.en` can make a user interrupt
deliverable. -/
def ctlWrite (s : State) (i n : Nat) (v : Word) : State :=
  (if n = 25 then wakeUi s i else id) <| s.modCore i fun k =>
    let b := k.bank
    if 13 ≤ n ∧ n ≤ 17 then { k with dm := vput k.dm (n - 13) (v &&& dmMask n) }
    else if 40 ≤ n ∧ n ≤ 55 then { k with grd := vput k.grd (n - 40) v }
    else match n with
      | 18 => k.setBank (stWrite b v (kindOf i == .control && decide (k.level ≤ 1)))
      | 19 => k.setBank { b with pc := v }
      | 21 => k.setBank { b with val := v }
      | 22 => k.setBank { b with vec := v &&& 0x3FFFF }
      | 23 => { k with uiVec := v &&& 0x3FFFE }
      | 25 => { k with uiEn := bit v 0 }
      | 31 => { k with seed := v }
      | 35 => { k with bb := { k.bb with d := BitVec.ofNat 128 ((k.bb.d.toNat / 2 ^ 64 * 2 ^ 64 + v.toNat) % 2 ^ k.bb.cnt) } }
      | 36 => { k with bb := { k.bb with d := BitVec.ofNat 128 ((v.toNat * 2 ^ 64 + k.bb.d.toNat % 2 ^ 64) % 2 ^ k.bb.cnt) } }
      | 37 => { k with bb := { k.bb with cnt := v.toNat % 128, d := BitVec.ofNat 128 (k.bb.d.toNat % 2 ^ (v.toNat % 128)) } }
      | 38 => { k with bb := { k.bb with ptr := w64 (v.toNat / 4 * 4) } }
      | 56 => { k with ptmr := v.toNat % 2 ^ 32 }
      | _ => k

/-- A write of `st.plv` below the current level on a control core (spec/25 R398). R398 admits values up to 2 and names `priv` for a lower
one; 3, which is no level, is refused in the same way (DESIGN CHOICE, log entry 105). -/
def plvRefused (k : Core) (i n : Nat) (v : Word) : Bool :=
  kindOf i == .control && n == 18 && decide (k.level ≤ 1) &&
    (decide (bits v 4 2 < k.level) || decide (2 < bits v 4 2))

/-- `crd` (spec/06 R130). -/
def crdOp (a : Reg) (n : Nat) (w : Who) (s : State) : Res :=
  if ctlMayRead n (s.coreAt w.i).level then .go (s.wr w a (ctlRead s w.i n)) else .trap cPriv (w64 n)

/-- `cwr` (spec/06 R130). -/
def cwrOp (v : Word) (n : Nat) (w : Who) (s : State) : Res :=
  let k := s.coreAt w.i
  if ctlMayWrite n k.level && !plvRefused k w.i n v then .go (ctlWrite s w.i n v) else .trap cPriv (w64 n)

def execCrd (a : Reg) (n : BitVec 6) : State → Outcome := issue (.crd a n) (crdOp a n.toNat)
def execCwr (a : Reg) (n : BitVec 6) : State → Outcome := issue (.cwr a n) (fun w s => cwrOp (s.rd w a) n.toNat w s)

/-! ## `trap`, `tret`, `halt`, `wfe`, `fence` -/

/-- `trap n` (spec/06 R133): `trap.pc` is the halfword after it. -/
def execTrap (n : BitVec 10) : State → Outcome := issue (.trap n) (fun _ _ => .trap cSyscall (w64 n.toNat) true)

def execTret : State → Outcome := issue .tret trapReturn

/-- Nothing of the context is outstanding over the mesh or in the system window (spec/06 R125), and nothing that happens before it at `start`
or by helpers that have ended (spec/07 R147). -/
def allDone (s : State) (w : Who) : Bool := quiet s w && !sysStoresOut s w && !(s.ctxAt w).inh.any (outstanding s)

/-- The pending failure of a system-window `stg` is taken (spec/23 R382). -/
def sysFailed (s : State) (w : Who) : Option Res :=
  (s.ctxAt w).sysFail.map (fun v => .trapIn (s.modCtx w (fun x => { x with sysFail := none })) cPorttime v)

/-- What the wait of `halt` needs (spec/06 R134, spec/18 R324, spec/25 R398): every access of the core, of helpers that have
ended too, is performed. -/
def haltReady (s : State) (w : Who) : Bool :=
  let k := s.coreAt w.i
  let row := rowOf w.i
  k.helpers.toList.all (fun h => !h.live) && !s.mesh.any (fun p => p.core == w.i && (p.kind.isStore || p.kind.isLoad)) &&
    !s.sysOut.any (fun o => o.core == w.i) && k.q0.isEmpty &&
    !((s.clusterAt (clusterOf w.i)).run.any (fun r => r.row == row && decide (w.i < 4096))) &&
    k.q2.isEmpty && !(s.copies.any (fun c => c.core == w.i)) && k.xfers.isEmpty && !k.seqr.busy

/-- Cause and `trap.val` of a fault entry (spec/18 R318). -/
def faultOf (e : UiEntry) : Nat × Word :=
  match bits e.status 60 4 with
  | 1 => (cXlate, e.status)
  | 2 => (cDatauc, w64 (bits e.status 0 56))
  | 3 => (cWindow, w64 (bits e.status 0 56))
  | _ => (cPorttime, e.status)

/-- `halt` (spec/06 R134). A pending fault entry is taken at once, also with `st.tn` = 1 or in a gang, where spec/18 R317, R318 hold the delivery
at a boundary back: the `halt` could not end with it (DEDUCED, log entry 104). -/
def haltOp (w : Who) (s : State) : Res :=
  let k := s.coreAt w.i
  if kindOf w.i = .control ∧ k.level ≠ 0 then .trap cPriv 0
  else match sysFailed s w with
    | some r => r
    | none =>
      if !haltReady s w then .wait s
      else match k.uiq.find? UiEntry.isFault with
        | some e =>
          let s1 := s.modCore w.i (fun k => { k with uiq := k.uiq.filter (fun e => e.isFault) |>.tail })
          .taken (trapEntry s1 w.i (faultOf e).1 (faultOf e).2 (s.pcOf w))
        | none => .stay (s.modCore w.i (fun k => { k with run := .halted, uiq := [] }))

def execHalt : State → Outcome := issue .halt haltOp

/-- A `wfe` in slipstream has found its latch set, as a run without slipstream would have (spec/07 R148). -/
def latchUsed (s : State) (w : Who) : State :=
  if (s.coreAt w.i).inSlip w.c then s.modCore w.i (fun k => { k with slip := k.slip.map (fun sl => { sl with latch := true }) }) else s

/-- `wfe` (spec/06 R135): it completes when the latch is set, and clears it. -/
def execWfe : State → Outcome :=
  issue .wfe (fun w s =>
    if (s.ctxAt w).latch then .go (latchUsed (s.modCtx w (fun x => { x with latch := false, gated := false })) w)
    else if (s.coreAt w.i).inSlip w.c then .wait s
    else .wait (s.modCtx w (fun x => { x with gated := true })))

/-- `fence` (spec/06 R124, R125): it holds until what it orders is performed, and empties the fetch buffer. -/
def fenceOp (ord : FOrd) (sc : Scope) (w : Who) (s : State) : Res :=
  match (if sc = .sys then sysFailed s w else none) with
  | some r => r
  | none =>
    let ok := match ord with
      | .acq => (loadsOut s w).isEmpty
      | _ => allDone s w
    if ok then .go (emptyFetch s w) else .wait s

def execFence (ord : FOrd) (sc : Scope) : State → Outcome := issue (.fence ord sc) (fenceOp ord sc)

end Sys2Proof.Machine
end

