-- ==== Sys2Proof/Machine/Boundary.lean ====
section
/-!
DEFINITION. What is taken at an instruction boundary of the control context before its next instruction: a pending
quarantine, the head of the pending user-interrupt queue, a kept cause, the plug-in timer (spec/08 R155, spec/18 R317,
R318, spec/25 R399).
-/
namespace Sys2Proof.Machine

/-- `ui.id` from an entry (spec/18 Table 18.2). -/
def uiIdOf (e : UiEntry) : Word :=
  w64 (bits e.status 60 4 * 2 ^ 60 + bits e.status 56 4 * 2 ^ 56 + e.xid.toNat)

/-- The deliverable entry that is taken at this boundary: a `wfe` that has issued completes first (spec/06 R135). -/
def takenEntry (k : Core) : Option UiEntry := if k.ctl.gated then none else deliverable k

/-- Entry into a completion handler (spec/18 R317). A lulled load is abandoned. -/
def enterUi (s : State) (i : Nat) (e : UiEntry) : State :=
  let s := wake (abandonLull s i 0) i
  s.modCore i fun k =>
    { k with
      uiVec := w64 (k.ctl.pc.toNat % 2 ^ 18 / 2 * 2), uiId := uiIdOf e, uiq := k.uiq.tail
      uiHeld := k.ctl.loops, uiLs := !k.ctl.loops.isEmpty, uiAct := true, gangWait := none, bound := k.bound.map (·.dropWaits 0)
      div := if k.div.any (·.c == 0) then none else k.div
      ctl := { k.ctl with loops := [], pc := e.hnd } }

/-- A fault entry traps at the boundary (spec/18 R318). Its report, when it makes one, was given at the copy's completion. -/
def enterFault (s : State) (i : Nat) (e : UiEntry) : State :=
  let s := wake (s.modCore i (fun k => { k with uiq := k.uiq.tail })) i
  trapEntry s i (faultOf e).1 (faultOf e).2 (s.coreAt i).ctl.pc

/-- A cause kept for the boundary: the state after taking it. -/
def takeKept (s : State) (i : Nat) : Option State :=
  let k := s.coreAt i
  match k.ctl.kept with
  | (c, v, pc) :: t =>
    some (takeTrap (s.modCore i (fun k => { k with ctl := { k.ctl with kept := t } })) ⟨i, 0, i⟩ c v (pc.getD k.ctl.pc))
  | [] => none

/-- Something is taken at the boundary of core `i`'s control context instead of its instruction (spec/08 R155). -/
def boundary (s : State) (i : Nat) : Option State :=
  let k := s.coreAt i
  if !standsAt k then none
  else match k.quar with
    | some v => some (takeQuarantine s i v k.ctl.pc)
    | none =>
      match takenEntry k with
      | some e => some (if e.isFault then enterFault s i e else enterUi s i e)
      | none =>
        match takeKept s i with
        | some s' => some s'
        | none =>
          if k.ptmrDue then
            some (takeTrap (s.modCore i (fun k => { k with ptmrDue := false })) ⟨i, 0, i⟩ cSyscall 0x400 k.ctl.pc)
          else none

/-- A helper stands at a boundary: it is live, neither frozen (spec/03 R38) nor held by a system-window access. -/
def helperStands (k : Core) (c : Nat) : Bool :=
  k.run == .running && (vget k.helpers (c - 1) {}).live && !frozen k c && k.gang.isNone && (k.ctx c).sys.isNone

/-- A kept cause ends a helper (spec/03 R37). -/
def helperKept (s : State) (i c : Nat) : Option State :=
  let x := (s.coreAt i).ctx c
  match x.kept with
  | (cause, _, pc) :: _ => if helperStands (s.coreAt i) c then some (helperFault s i c cause (pc.getD x.pc)) else none
  | [] => none

/-- The row USER_INTERRUPT_ENTRY: the head entry of core `i` is taken when it is deliverable and has a handler. -/
def execUserInterruptEntry (i : Nat) (s : State) : Outcome :=
  if 8192 + 8 ≤ i then .fault .noSuchAgent
  else .next (match takenEntry (s.coreAt i) with
    | some e => if e.isFault || (s.coreAt i).quar.isSome then s else enterUi s i e
    | none => s)

/-- The row FAULT_ENTRY: a copy that failed without a handler traps at the boundary. -/
def execFaultEntry (i : Nat) (s : State) : Outcome :=
  if 8192 + 8 ≤ i then .fault .noSuchAgent
  else .next (match takenEntry (s.coreAt i) with
    | some e => if !e.isFault || (s.coreAt i).quar.isSome then s else enterFault s i e
    | none => s)

/-- The row PTMR_EXPIRY: a control core whose timer reached 0 takes `syscall` with 0x400 (spec/25 R399). -/
def execPtmrExpiry (cc : Nat) (s : State) : Outcome :=
  if 8 ≤ cc then .fault .noSuchAgent
  else
    let i := ccOf cc
    let k := s.coreAt i
    .next (if k.ptmrDue && standsAt k && k.quar.isNone && (takenEntry k).isNone && k.ctl.kept.isEmpty then
        takeTrap (s.modCore i (fun k => { k with ptmrDue := false })) ⟨i, 0, i⟩ cSyscall 0x400 k.ctl.pc
      else s)

end Sys2Proof.Machine
end

