-- ==== Sys2Proof/Machine/Control.lean ====
section
/-!
DEFINITION. Control flow of page 0: branches, `call`, `jr`, `ret`, `loop`, `nop`, `brk` (spec/05 R87 to R93, spec/04 R71),
and the bit buffer (spec/05 R94 to R99).
-/
namespace Sys2Proof.Machine

/-- A branch whose condition the leader's register decides (spec/05 R87, Table 5.3). -/
def branchOp (cond : Word → Bool) (a : Reg) (off : BitVec 35) (w : Who) (s : State) : Res :=
  if cond (s.rdLead w a) then .jump .branch s (targetBC s w off) else .go s

def execB (off : BitVec 40) : State → Outcome := issue (.b off) (fun w s => .jump .branch s (targetB s w off))
def execBeqz (a : Reg) (off : BitVec 35) : State → Outcome := issue (.beqz a off) (branchOp (fun x => x == 0) a off)
def execBnez (a : Reg) (off : BitVec 35) : State → Outcome := issue (.bnez a off) (branchOp (fun x => x != 0) a off)
def execBltz (a : Reg) (off : BitVec 35) : State → Outcome :=
  issue (.bltz a off) (branchOp (fun x => decide (x.toInt < 0)) a off)
def execBgez (a : Reg) (off : BitVec 35) : State → Outcome :=
  issue (.bgez a off) (branchOp (fun x => decide (0 ≤ x.toInt)) a off)

/-- `call` writes the link register on every member (spec/05 R88). -/
def execCall (off : BitVec 40) : State → Outcome :=
  issue (.call off) (fun w s => .jump .call (s.wr w (linkReg w) (s.fall w)) (targetB s w off))

/-- A jump to a register's value: an odd target raises `align` (spec/04 R71). -/
def jumpReg (kind : JumpKind) (t : Word) (s : State) : Res := if bit t 0 then .trap cAlign t else .jump kind s t

def execJr (a : Reg) : State → Outcome := issue (.jr a) (fun w s => jumpReg .branch (s.rdLead w a) s)
def execRet : State → Outcome := issue .ret (fun w s => jumpReg .ret (s.rdLead w (linkReg w)) s)

/-- Depth of a loop stack (spec/05 R90). -/
def loopDepth (w : Who) : Nat := if w.c = 0 then 4 else 2

/-- `loop` (spec/02 R27, spec/05 R90): the count is the leader's; a count of 0 continues at the label. -/
def loopOp (a : Reg) (off : BitVec 35) (w : Who) (s : State) : Res :=
  let n := s.rdLead w a
  let t := targetBC s w off
  let ls := (s.ctxAt w).loops
  if n = 0 then .jump .plain s t
  else if loopDepth w ≤ ls.length || (match ls with
      | l :: _ => decide (l.fin.toNat < t.toNat)
      | [] => false) then .trap cIllegal (illegalVal s 12)
  else .jump .plain (s.modCtx w (fun x => { x with loops := ⟨s.fall w, t, n⟩ :: x.loops })) (s.fall w)

def execLoop (a : Reg) (off : BitVec 35) : State → Outcome := issue (.loop a off) (loopOp a off)

def execNop : State → Outcome := issue .nop (fun _ s => .go s)
/-- `brk n` (spec/05 R89). -/
def execBrk (n : BitVec 5) : State → Outcome := issue (.brk n) (fun _ _ => .trap cBrk (w64 n.toNat))

/-! ## The bit buffer -/

def setBb (s : State) (w : Who) (b : BitBuf) : State := s.modCore w.i (fun k => { k with bb := b })
def bbOf (s : State) (w : Who) : BitBuf := (s.coreAt w.i).bb

/-- The low `n` bits of a buffer's data. -/
def lowD (d : BitVec 128) (n : Nat) : BitVec 128 := BitVec.ofNat 128 (d.toNat % 2 ^ n)

/-- Refill (spec/05 R95): one word of the slice at `ptr` after the bits that are there. -/
def bbRefill (w : Who) (s : State) : Try State :=
  let b := bbOf s w
  match sliceLoad s w b.ptr 4 1 2 with
  | .error e => .error e
  | .ok (bs, s) =>
    .ok (setBb s w { d := b.d ||| (BitVec.ofNat 128 (leNat bs) <<< b.cnt), cnt := b.cnt + 32, ptr := b.ptr + 4 })

/-- Write out D[31:0] at `ptr` (spec/05 R95). -/
def bbStore (w : Who) (b : BitBuf) (s : State) : Try State :=
  match sliceStore s w b.ptr (natLE 4 b.d.toNat) 1 2 with
  | .error e => .error e
  | .ok s => .ok (setBb s w { d := b.d >>> 32, cnt := b.cnt - 32, ptr := b.ptr + 4 })

/-- `take(n, sgn, mode)` of spec/05 R98: the field and the state after it. -/
def bbTake (n : Nat) (keep : Bool) (w : Who) (s : State) : Try (Nat × State) :=
  let r := if (bbOf s w).cnt < n then bbRefill w s else .ok s
  match r with
  | .error e => .error e
  | .ok s =>
    let b := bbOf s w
    .ok (b.d.toNat % 2 ^ n, if keep then s else setBb s w { b with d := b.d >>> n, cnt := b.cnt - n })

def bbGetOp (sgn keep : Bool) (a : Reg) (n : BitVec 6) (w : Who) (s : State) : Res :=
  Res.ofTry s (fun r => .go (r.2.wr w a (if sgn then sxt r.1 n.toNat else zxt r.1 n.toNat))) (bbTake n.toNat keep w s)

def execBbget (a : Reg) (n : BitVec 6) : State → Outcome := issue (.bbget a n) (bbGetOp false false a n)
def execBbgets (a : Reg) (n : BitVec 6) : State → Outcome := issue (.bbgets a n) (bbGetOp true false a n)
def execBbpeek (a : Reg) (n : BitVec 6) : State → Outcome := issue (.bbpeek a n) (bbGetOp false true a n)
def execBbskip (n : BitVec 6) : State → Outcome :=
  issue (.bbskip n) (fun w s => Res.ofTry s (fun r => .go r.2) (bbTake n.toNat false w s))

/-- `bbput` (spec/05 Table 5.7): appending past 127 bits fails check 12. -/
def bbPutOp (a : Reg) (n : BitVec 6) (w : Who) (s : State) : Res :=
  let b := bbOf s w
  if 127 < b.cnt + n.toNat then .trap cIllegal (illegalVal s 12)
  else
    let b' : BitBuf := { b with
      d := b.d ||| (BitVec.ofNat 128 ((s.rd w a).toNat % 2 ^ n.toNat) <<< b.cnt), cnt := b.cnt + n.toNat }
    if 32 ≤ b'.cnt then Res.ofTry s .go (bbStore w b' s) else .go (setBb s w b')

def execBbput (a : Reg) (n : BitVec 6) : State → Outcome := issue (.bbput a n) (bbPutOp a n)

/-- `bbset`: an address that is no multiple of 4 raises `align`. -/
def execBbset (a : Reg) : State → Outcome :=
  issue (.bbset a) (fun w s =>
    let v := s.rd w a
    if v.toNat % 4 ≠ 0 then .trap cAlign v else .go (setBb s w { d := 0, cnt := 0, ptr := v }))

def execBbflush : State → Outcome :=
  issue .bbflush (fun w s => if (bbOf s w).cnt > 0 then Res.ofTry s .go (bbStore w (bbOf s w) s) else .go s)

end Sys2Proof.Machine
end

