-- ==== Sys2Proof/Machine/Domain.lean ====
section
/-!
DEFINITION. Sync domains: their rectangles, release times and rounds (spec/03 R32 to R34, R54, spec/09 R163 to R166), and the
migration of pages at a level-5 release (spec/06 R123, spec/25 R402).
-/
namespace Sys2Proof.Machine

/-- The level at which a sync acts: 6 acts as 5 when the device belongs to no group (spec/03 R34). -/
def syncLvl (k : Core) (l : Nat) : Nat := if l = 6 ∧ !bit (vget k.dm 4 0) 63 then 5 else l

/-- Device-logical rectangle of the level-`l` domain of worker `i`; level 6 is this device's part. -/
def domRect (s : State) (i l : Nat) : Rect :=
  let r := rectOfWord (vget (s.coreAt i).dm ((if l = 6 then 5 else l) - 2) 0)
  let c := partCorner s i
  ⟨r.x0 + c.1, r.y0 + c.2, r.w, r.h⟩

/-- Key of a domain's round. -/
def roundKey (l : Nat) (r : Rect) : Nat := l * 2 ^ 32 + r.x0 * 2 ^ 24 + r.y0 * 2 ^ 16 + r.w * 2 ^ 8 + r.h

def State.roundAt (s : State) (key : Nat) : Round := (mget s.rounds key).getD {}
def State.setRound (s : State) (key : Nat) (r : Round) : State := { s with rounds := mset s.rounds key r }

/-- Die boundaries that a rectangle spans (spec/03 R54). -/
def dieBounds (r : Rect) : Nat :=
  b2n (decide (r.x0 < 32) && decide (32 < r.x0 + r.w)) + b2n (decide (r.y0 < 32) && decide (32 < r.y0 + r.h))

/-- Release time T (spec/03 R54). -/
def relTime (r : Rect) : Nat := 4 + (r.w + 15) / 16 + (r.h + 15) / 16 + 4 * dieBounds r

/-- Watchdog limit of a core's level in cycles (spec/09 R166). -/
def wdLimit (k : Core) (l : Nat) : Nat :=
  let w := vget k.wd (l - 2) 0
  1024 * (if w = 0 then 1024 else w)

/-- Members that have not arrived at level `l`, lowest row first and then lowest column. -/
def missing (s : State) (r : Rect) (l : Nat) : List Nat := r.cores.filter (fun j => !(s.coreAt j).arrived.contains l)

/-- A round of level `l` waits for the peers of the device's group as well (spec/03 R34). -/
def withPeers (k : Core) (l : Nat) : Bool := l == 6 && decide (1 < bits (vget k.dm 4 0) 16 16)

/-- Fields `nmiss`, `my`, `mx` of Table 9.1 for core `i`'s tenant. -/
def missWord (s : State) (i : Nat) (ms : List Nat) : Nat :=
  ms.length * 2 ^ 32 + (ms.head?.elim 0 (fun j => partY s i j * 256 + partX s i j))

/-- The domain is halted for pre-emption. -/
def domHalted (s : State) (r : Rect) : Bool := r.cores.any (fun j => (s.coreAt j).run == .preempted)

/-- Tile `dst` belongs to a task whose contexts are saved, and to no other. -/
def awaySlice (s : State) (dst : Nat) : Bool :=
  s.tasks.any (fun et => et.2.st == .saved && et.2.rect.has (xOf (dst % 4096)) (yOf (dst % 4096))) && (taskOf s (dst % 4096)).isNone

/-- Traffic from tile `src` to tile `dst` waits at the edge of a domain in an exchange phase (spec/03 R48), or of a domain that is being saved
(spec/08 R162). Numbers of 8192 and above stand for agents outside the mesh's tiles. -/
def heldAtEdge (s : State) (src dst : Nat) : Bool :=
  awaySlice s dst || s.cores.any (fun e => match e.2.exch with
    | some x =>
      let r := domRect s e.1 x.lvl
      r.has (xOf (dst % 4096)) (yOf (dst % 4096)) && !(decide (src < 8192) && r.has (xOf (src % 4096)) (yOf (src % 4096)))
    | none => false)

/-- A member of a domain in an exchange phase: its streamer and memory core inject nothing (spec/03 R48). -/
def inPhase (s : State) (tile : Nat) : Bool :=
  s.cores.any (fun e => match e.2.exch with
    | some x => (domRect s e.1 x.lvl).has (xOf tile) (yOf tile)
    | none => false)

/-- Traffic from a tile to another may not cross the mesh now: the sender's domain is in a phase, in which its memory core injects nothing
(spec/17 R296), or the receiver's is, and holds it at its edge (spec/03 R48). -/
def farHeld (s : State) (tile t : Nat) : Bool := t != tile && (inPhase s tile || heldAtEdge s tile t)

/-! ## Page migration -/

/-- A frame of a core's slice that no redirect uses, below the `n` frames its task reserves. -/
def freeFrame (s : State) (vm j n : Nat) : Option Nat :=
  let c := (partOf s vm).getD ⟨0, 0, 64, 64⟩
  (List.range n).find? (fun f => !s.redirs.any (fun e => bit e.2.1 63 && bits e.2.1 0 8 == vm &&
    bits e.2.2 0 6 == xOf j - c.x0 && bits e.2.2 8 6 == yOf j - c.y0 && bits e.2.2 16 2 == f))

/-- Entry of the redirect table for a page: the one that redirects it already, or a free one of the 256. -/
def redirSlot (s : State) (vm pg : Nat) : Option Nat :=
  match s.redirs.find? (fun e => bit e.2.1 63 && bits e.2.1 0 8 == vm && bits e.2.1 12 18 == pg) with
  | some e => some e.1
  | none => (List.range 256).find? (fun j => !bit ((mget s.redirs j).getD (0, 0)).1 63)

/-- A packet for bytes of the page at slice address `a` of core `h`, which has moved to `fr` at core `j`. -/
def PKind.moveTo (h a j fr : Nat) (k : PKind) : PKind :=
  let at_ (home off : Nat) : Nat × Nat := if home = h ∧ a ≤ off ∧ off < a + 4096 then (j, fr + (off - a)) else (home, off)
  match k with
  | .load rd home off n => .load rd (at_ home off).1 (at_ home off).2 n
  | .store home off n v => .store (at_ home off).1 (at_ home off).2 n v
  | .atom rd home off w32 op e y => .atom rd (at_ home off).1 (at_ home off).2 w32 op e y
  | k => k

/-- A reported page moves into a free frame of the issuing core (spec/06 R123), or stays. The copy writes fresh codes, also over what an
uncorrectable word of the page holds, and clears the tags of its lines (DESIGN CHOICE, log entry 81); accesses of the page that are still in the mesh are performed in the new frame. -/
def migrateOne (s : State) (m : MigRep) : State :=
  let n := (taskOf s m.core).elim 0 (fun et => et.2.mfr)
  match freeFrame s m.vm m.core n, redirSlot s m.vm m.pg, homeVm s m.vm (m.pg * 4096) with
  | some f, some j, some (h, a) =>
    let fr := 0x3F000 - 0x1000 * f
    let bs := rdBs s.mem (localBase h + a) 4096
    let s := extWrite s m.core fr bs 1
    let c := (partOf s m.vm).getD ⟨0, 0, 64, 64⟩
    { s with
      redirs := mset s.redirs j (w64 (2 ^ 63 + m.pg * 4096 + m.vm), w64 (f * 2 ^ 16 + (yOf m.core - c.y0) * 256 + (xOf m.core - c.x0)))
      pageCnt := mdel s.pageCnt ((localBase h + a) / 4096)
      mesh := s.mesh.map (fun p => { p with kind := p.kind.moveTo h a m.core fr }) }
  | _, _, _ => s

/-! ## The halt of a domain (spec/08 R159 to R161, Table 8.5a) -/

/-- A division that still stands in the divider is cancelled (spec/05 R81): its destination keeps its old value, and its context stands at it
again, with its loop stack, whatever it has issued since (log entry 58). Its result would land 20 cycles after its issue (spec/03 Table 3.7). -/
def undoDiv (s : State) (i : Nat) : State :=
  match (s.coreAt i).div with
  | none => s
  | some d =>
    let s := s.modCore i (fun k => { k with div := none })
    if s.cyc < d.at_ + 20 then
      s.modCtx ⟨i, d.c, i⟩ (fun x => { x.wr d.rd d.old with pc := d.pc, loops := d.loops })
    else s

/-- Waits of the contexts of core `i` are abandoned, to issue again; a hold after its effect, a released `sync.h` and an exchange phase are
kept. -/
def abandonWaits (s : State) (i : Nat) : State :=
  let s := (liveCtxs (s.coreAt i)).foldl (fun s c =>
    (abandonLull s i c).modCtx ⟨i, c, i⟩ (fun x => { x with gated := false })) s
  s.modCore i (fun k => { k with gangWait := none, bound := k.bound.map (fun b => { b with waits := [] }) })

/-- The halt of one running core: slipstream rolls back, an open record closes, waits are abandoned. -/
def haltCore (s : State) (i : Nat) : State :=
  if (s.coreAt i).run = .running then
    let s := undoDiv s i
    let s := if (s.coreAt i).slip.isSome then rollback s i 1 0 0 else s
    (abandonWaits (closeRec s i) i).modCore i (fun k => { k with run := .preempted })
  else s

/-- Workers and memory cores of a domain. -/
def Task.agents (t : Task) : List Nat := t.rect.cores ++ t.rect.cores.map mcOf

/-- The task holds its rectangle. -/
def Task.placed (t : Task) : Bool := t.st == .placed || t.st == .preempted

/-- The task is migratable (spec/25 Table 25.6a). -/
def Task.mig (t : Task) : Bool := leNat ((t.trec.drop 7).take 1) % 2 == 1

/-- The domain of task `e` halts whole, each core at an instruction boundary. -/
def haltTask (s : State) (e : Nat) (t : Task) : State :=
  let s := t.agents.foldl haltCore s
  { s with tasks := mset s.tasks e { t with st := .preempted, haltAt := s.cyc } }

/-- Two rectangles meet. -/
def Rect.meets (a b : Rect) : Bool :=
  decide (a.x0 < b.x0 + b.w) && decide (b.x0 < a.x0 + a.w) && decide (a.y0 < b.y0 + b.h) && decide (b.y0 < a.y0 + a.h)

/-- One rectangle lies within another. -/
def Rect.within (a b : Rect) : Bool :=
  decide (b.x0 ≤ a.x0) && decide (b.y0 ≤ a.y0) && decide (a.x0 + a.w ≤ b.x0 + b.w) && decide (a.y0 + a.h ≤ b.y0 + b.h)

/-- The rectangle meets the region that a compaction hold keeps for another task of the VM (spec/25 R423). -/
def State.heldFor (s : State) (e vm : Nat) (r : Rect) : Bool :=
  s.holds.any (fun h => h.1 != e && (match mget s.tasks h.1 with
    | some n => n.vm == vm && Rect.meets ⟨h.2.1, h.2.2, n.w, n.h⟩ r
    | none => false))

/-- Task `e` is to move out at its next level-5 release: it is migratable, and stands in a held region or in clusters that a border takes (spec/25
R422, R423). -/
def State.mustLeave (s : State) (e : Nat) (t : Task) : Bool := t.mig && (s.heldFor e t.vm t.rect || s.moving.contains e)

/-- A level-5 release of a task: its reported pages are dealt with, and the release is counted (spec/25 R422). A task that is to move out
is halted by it. -/
def level5Release (s : State) (r : Rect) : State :=
  match s.tasks.find? (fun et => et.2.rect == r && et.2.st == .placed) with
  | none => s
  | some (e, t) =>
    let mine := fun (m : MigRep) => r.has (xOf m.home) (yOf m.home)
    let s := (s.migRep.filter mine).foldl migrateOne s
    let t := { t with rel5 := t.rel5 + 1 }
    let s := { s with migRep := s.migRep.filter (fun m => !mine m), tasks := mset s.tasks e t }
    if s.mustLeave e t then { haltTask s e t with leaving := e :: s.leaving } else s

end Sys2Proof.Machine
end

