-- ==== Sys2Proof/Machine/Crypto.lean ====
section
/-!
DEFINITION. The published algorithms that the spec names: SHA-256 and SHA-384 (FIPS 180-4), ECDSA on P-384 (FIPS 186-5), LMS
(NIST SP 800-208, RFC 8554), AES-256-XTS (IEEE 1619), BLAKE2s (RFC 7693) and CRC-32C. Their text stands outside the spec; a log
entry says so.
-/
namespace Sys2Proof.Machine

/-! ## Numbers and bytes -/

/-- Big-endian value of bytes, and the low `n` bytes of a number most significant first. -/
def beNat (bs : List Byte) : Nat := leNat bs.reverse
def natBE (n v : Nat) : List Byte := (natLE n v).reverse

/-- Pieces of `n` elements, at most `fuel` of them. -/
def pieces {α : Type} (n : Nat) : Nat → List α → List (List α)
  | 0, _ => []
  | f + 1, l => if l.isEmpty then [] else l.take n :: pieces n f (l.drop n)

/-- `b ^ e mod m`, by the bits of `e` from the top; `fuel` bits. -/
def powMod (b m : Nat) : Nat → Nat → Nat
  | 0, _ => 1 % m
  | f + 1, e => let r := powMod b m f (e / 2); if e % 2 = 1 then r * r % m * b % m else r * r % m

/-! ## SHA-2 -/

def shaK5120 : List (BitVec 64) := [
  0x428A2F98D728AE22, 0x7137449123EF65CD, 0xB5C0FBCFEC4D3B2F, 0xE9B5DBA58189DBBC,
  0x3956C25BF348B538, 0x59F111F1B605D019, 0x923F82A4AF194F9B, 0xAB1C5ED5DA6D8118,
  0xD807AA98A3030242, 0x12835B0145706FBE, 0x243185BE4EE4B28C, 0x550C7DC3D5FFB4E2,
  0x72BE5D74F27B896F, 0x80DEB1FE3B1696B1, 0x9BDC06A725C71235, 0xC19BF174CF692694]
def shaK5121 : List (BitVec 64) := [
  0xE49B69C19EF14AD2, 0xEFBE4786384F25E3, 0x0FC19DC68B8CD5B5, 0x240CA1CC77AC9C65,
  0x2DE92C6F592B0275, 0x4A7484AA6EA6E483, 0x5CB0A9DCBD41FBD4, 0x76F988DA831153B5,
  0x983E5152EE66DFAB, 0xA831C66D2DB43210, 0xB00327C898FB213F, 0xBF597FC7BEEF0EE4,
  0xC6E00BF33DA88FC2, 0xD5A79147930AA725, 0x06CA6351E003826F, 0x142929670A0E6E70]
def shaK5122 : List (BitVec 64) := [
  0x27B70A8546D22FFC, 0x2E1B21385C26C926, 0x4D2C6DFC5AC42AED, 0x53380D139D95B3DF,
  0x650A73548BAF63DE, 0x766A0ABB3C77B2A8, 0x81C2C92E47EDAEE6, 0x92722C851482353B,
  0xA2BFE8A14CF10364, 0xA81A664BBC423001, 0xC24B8B70D0F89791, 0xC76C51A30654BE30,
  0xD192E819D6EF5218, 0xD69906245565A910, 0xF40E35855771202A, 0x106AA07032BBD1B8]
def shaK5123 : List (BitVec 64) := [
  0x19A4C116B8D2D0C8, 0x1E376C085141AB53, 0x2748774CDF8EEB99, 0x34B0BCB5E19B48A8,
  0x391C0CB3C5C95A63, 0x4ED8AA4AE3418ACB, 0x5B9CCA4F7763E373, 0x682E6FF3D6B2B8A3,
  0x748F82EE5DEFB2FC, 0x78A5636F43172F60, 0x84C87814A1F0AB72, 0x8CC702081A6439EC,
  0x90BEFFFA23631E28, 0xA4506CEBDE82BDE9, 0xBEF9A3F7B2C67915, 0xC67178F2E372532B]
def shaK5124 : List (BitVec 64) := [
  0xCA273ECEEA26619C, 0xD186B8C721C0C207, 0xEADA7DD6CDE0EB1E, 0xF57D4F7FEE6ED178,
  0x06F067AA72176FBA, 0x0A637DC5A2C898A6, 0x113F9804BEF90DAE, 0x1B710B35131C471B,
  0x28DB77F523047D84, 0x32CAAB7B40C72493, 0x3C9EBE0A15C9BEBC, 0x431D67C49C100D4C,
  0x4CC5D4BECB3E42B6, 0x597F299CFC657E2A, 0x5FCB6FAB3AD6FAEC, 0x6C44198C4A475817]
/-- Round constants of SHA-384. -/
def shaK512 : List (BitVec 64) := shaK5120 ++ shaK5121 ++ shaK5122 ++ shaK5123 ++ shaK5124

def shaK2560 : List (BitVec 32) := [
  0x428A2F98, 0x71374491, 0xB5C0FBCF, 0xE9B5DBA5, 0x3956C25B, 0x59F111F1, 0x923F82A4, 0xAB1C5ED5,
  0xD807AA98, 0x12835B01, 0x243185BE, 0x550C7DC3, 0x72BE5D74, 0x80DEB1FE, 0x9BDC06A7, 0xC19BF174,
  0xE49B69C1, 0xEFBE4786, 0x0FC19DC6, 0x240CA1CC, 0x2DE92C6F, 0x4A7484AA, 0x5CB0A9DC, 0x76F988DA,
  0x983E5152, 0xA831C66D, 0xB00327C8, 0xBF597FC7, 0xC6E00BF3, 0xD5A79147, 0x06CA6351, 0x14292967]
def shaK2561 : List (BitVec 32) := [
  0x27B70A85, 0x2E1B2138, 0x4D2C6DFC, 0x53380D13, 0x650A7354, 0x766A0ABB, 0x81C2C92E, 0x92722C85,
  0xA2BFE8A1, 0xA81A664B, 0xC24B8B70, 0xC76C51A3, 0xD192E819, 0xD6990624, 0xF40E3585, 0x106AA070,
  0x19A4C116, 0x1E376C08, 0x2748774C, 0x34B0BCB5, 0x391C0CB3, 0x4ED8AA4A, 0x5B9CCA4F, 0x682E6FF3,
  0x748F82EE, 0x78A5636F, 0x84C87814, 0x8CC70208, 0x90BEFFFA, 0xA4506CEB, 0xBEF9A3F7, 0xC67178F2]
/-- Round constants of SHA-256. -/
def shaK256 : List (BitVec 32) := shaK2560 ++ shaK2561

/-- Rotation and shift amounts of a SHA-2 function. -/
structure ShaRot where
  s0 : Nat × Nat × Nat
  s1 : Nat × Nat × Nat
  b0 : Nat × Nat × Nat
  b1 : Nat × Nat × Nat

def rot512 : ShaRot := ⟨(1, 8, 7), (19, 61, 6), (28, 34, 39), (14, 18, 41)⟩
def rot256 : ShaRot := ⟨(7, 18, 3), (17, 19, 10), (2, 13, 22), (6, 11, 25)⟩

def smallSig {n : Nat} (r : Nat × Nat × Nat) (x : BitVec n) : BitVec n :=
  x.rotateRight r.1 ^^^ x.rotateRight r.2.1 ^^^ (x >>> r.2.2)
def bigSig {n : Nat} (r : Nat × Nat × Nat) (x : BitVec n) : BitVec n :=
  x.rotateRight r.1 ^^^ x.rotateRight r.2.1 ^^^ x.rotateRight r.2.2

/-- One round on the registers `a` to `h`. -/
def shaRound {n : Nat} (r : ShaRot) (k w : BitVec n) : List (BitVec n) → List (BitVec n)
  | [a, b, c, d, e, f, g, h] =>
    let t1 := h + bigSig r.b1 e + ((e &&& f) ^^^ (~~~e &&& g)) + k + w
    let t2 := bigSig r.b0 a + ((a &&& b) ^^^ (a &&& c) ^^^ (b &&& c))
    [t1 + t2, a, b, c, d + t1, e, f, g]
  | l => l

/-- The word that enters the window of 16. -/
def shaNext {n : Nat} (r : ShaRot) (w : List (BitVec n)) : BitVec n :=
  smallSig r.s1 (w.getD 14 0) + w.getD 9 0 + smallSig r.s0 (w.getD 1 0) + w.getD 0 0

/-- Compression of one block into the chaining value. -/
def shaBlock {n : Nat} (r : ShaRot) (ks : List (BitVec n)) (h : List (BitVec n)) (blk : List (BitVec n)) : List (BitVec n) :=
  let e := ks.foldl (fun (st : List (BitVec n) × List (BitVec n)) k =>
    (shaRound r k (st.2.headD 0) st.1, st.2.tail ++ [shaNext r st.2])) (h, blk)
  (h.zip e.1).map (fun p => p.1 + p.2)

/-- Padding to blocks of `blk` bytes with a length field of `lf` bytes. -/
def shaPad (blk lf : Nat) (m : List Byte) : List Byte :=
  let z := (blk - (m.length + 1 + lf) % blk) % blk
  m ++ [0x80] ++ List.replicate z 0 ++ natBE lf (8 * m.length)

def shaRun {n : Nat} (r : ShaRot) (ks h0 : List (BitVec n)) (lf : Nat) (m : List Byte) : List (BitVec n) :=
  let p := shaPad (2 * n) lf m
  (pieces (2 * n) p.length p).foldl (fun h b =>
    shaBlock r ks h ((pieces (n / 8) 16 b).map (fun w => BitVec.ofNat n (beNat w)))) h0

/-- SHA-256 of bytes. -/
def sha256 (m : List Byte) : List Byte :=
  (shaRun rot256 shaK256 [0x6A09E667, 0xBB67AE85, 0x3C6EF372, 0xA54FF53A, 0x510E527F, 0x9B05688C, 0x1F83D9AB, 0x5BE0CD19] 8 m).flatMap
    (fun w => natBE 4 w.toNat)

/-- SHA-384 of bytes. -/
def sha384 (m : List Byte) : List Byte :=
  ((shaRun rot512 shaK512 [0xCBBB9D5DC1059ED8, 0x629A292A367CD507, 0x9159015A3070DD17, 0x152FECD8F70E5939,
    0x67332667FFC00B31, 0x8EB44A8768581511, 0xDB0C2E0D64F98FA7, 0x47B5481DBEFA4FA4] 16 m).flatMap
    (fun w => natBE 8 w.toNat)).take 48

/-! ## ECDSA on P-384 -/

def p384 : Nat := 2 ^ 384 - 2 ^ 128 - 2 ^ 96 + 2 ^ 32 - 1
def n384 : Nat := 0xFFFFFFFFFFFFFFFFFFFFFFFFFFFFFFFFFFFFFFFFFFFFFFFFC7634D81F4372DDF581A0DB248B0A77AECEC196ACCC52973
def b384 : Nat := 0xB3312FA7E23EE7E4988E056BE3F82D19181D9C6EFE8141120314088F5013875AC656398D8A2ED19D2A85C8EDD3EC2AEF
def g384 : Nat × Nat := (0xAA87CA22BE8B05378EB1C71EF320AD746E1D3B628BA79B9859F741E082542A385502F25DBF55296C3A545E3872760AB7,
  0x3617DE4A96262C6F5D9E98BF9292DC29F8F41DBD289A147CE9DA3113B5F0B8C00A60B1CE1D7E819D7A431D7C90EA0E5F)

def inv384 (m a : Nat) : Nat := powMod a m 384 (m - 2)

/-- Addition on the curve; `none` is the point at infinity. -/
def addP : Option (Nat × Nat) → Option (Nat × Nat) → Option (Nat × Nat)
  | none, q => q
  | p, none => p
  | some (x1, y1), some (x2, y2) =>
    if x1 = x2 ∧ (y1 + y2) % p384 = 0 then none
    else
      let l := if x1 = x2 then (3 * x1 * x1 + p384 - 3) * inv384 p384 (2 * y1 % p384) % p384
        else (y2 + p384 - y1) * inv384 p384 ((x2 + p384 - x1) % p384) % p384
      let x3 := (l * l + 2 * p384 - x1 - x2) % p384
      some (x3, (l * (x1 + p384 - x3) + p384 - y1) % p384)

/-- `e` times a point, over `fuel` bits. -/
def mulP (q : Option (Nat × Nat)) : Nat → Nat → Option (Nat × Nat)
  | 0, _ => none
  | f + 1, e => let r := mulP q f (e / 2); let d := addP r r; if e % 2 = 1 then addP d q else d

/-- The public key is a point of the curve. -/
def onCurve (x y : Nat) : Bool :=
  decide (x < p384) && decide (y < p384) && y * y % p384 == (x * x % p384 * x + (p384 - 3) * x + b384) % p384

/-- ECDSA verification (FIPS 186-5): key 0x04, X, Y; signature r, s. -/
def ecdsaVerify (key msg sig : List Byte) : Bool :=
  let x := beNat ((key.drop 1).take 48)
  let y := beNat ((key.drop 49).take 48)
  let r := beNat (sig.take 48)
  let s := beNat ((sig.drop 48).take 48)
  if key.headD 0 ≠ 4 ∨ !onCurve x y ∨ r = 0 ∨ s = 0 ∨ n384 ≤ r ∨ n384 ≤ s then false
  else
    let z := beNat (sha384 msg)
    let w := inv384 n384 s
    match addP (mulP (some g384) 384 (z * w % n384)) (mulP (some (x, y)) 384 (r * w % n384)) with
    | some (px, _) => px % n384 == r
    | none => false

/-! ## LMS: LMS_SHA256_M32_H10 with LMOTS_SHA256_N32_W4 -/

/-- Digit `i` of a string in base 16, most significant first. -/
def digit16 (q : List Byte) (i : Nat) : Nat :=
  let b := (q.getD (i / 2) 0).toNat
  if i % 2 = 0 then b / 16 else b % 16

/-- Hash chain of RFC 8554 from step `j`, `fuel` steps. -/
def lmsChain (pre : List Byte) (i : Nat) : Nat → Nat → List Byte → List Byte
  | 0, _, t => t
  | f + 1, j, t => lmsChain pre i f (j + 1) (sha256 (pre ++ natBE 2 i ++ natBE 1 j ++ t))

/-- Path from a leaf up to the root: node number and value. -/
def lmsPath (ident : List Byte) : List (List Byte) → Nat → List Byte → List Byte
  | [], _, t => t
  | p :: ps, node, t =>
    let up := sha256 (ident ++ natBE 4 (node / 2) ++ [0x83, 0x83] ++ (if node % 2 = 1 then p ++ t else t ++ p))
    lmsPath ident ps (node / 2) up

/-- LMS verification: key type, LMOTS type, I, T[1]; signature q, LMOTS type, C, y, LMS type, path. -/
def lmsVerify (key msg sig : List Byte) : Bool :=
  let ident := (key.drop 8).take 16
  let q := beNat (sig.take 4)
  if beNat (key.take 4) ≠ 6 ∨ beNat ((key.drop 4).take 4) ≠ 3 ∨ beNat ((sig.drop 4).take 4) ≠ 3 ∨
      beNat ((sig.drop 2184).take 4) ≠ 6 ∨ 1024 ≤ q then false
  else
    let pre := ident ++ natBE 4 q
    let h := sha256 (pre ++ [0x81, 0x81] ++ (sig.drop 8).take 32 ++ msg)
    let sum := (List.range 64).foldl (fun a i => a + (15 - digit16 h i)) 0
    let ds := h ++ natBE 2 (sum * 16)
    let ys := pieces 32 67 ((sig.drop 40).take 2144)
    let zs := (ys.zipIdx).flatMap (fun e => let d := digit16 ds e.2; lmsChain pre e.2 (15 - d) d e.1)
    let kc := sha256 (pre ++ [0x80, 0x80] ++ zs)
    let node := 1024 + q
    let leaf := sha256 (ident ++ natBE 4 node ++ [0x82, 0x82] ++ kc)
    lmsPath ident (pieces 32 10 ((sig.drop 2188).take 320)) node leaf == (key.drop 24).take 32

/-! ## AES-256 in XTS mode -/

/-- Rows of the AES S-box and of its inverse (FIPS 197), 16 bytes each, the first byte most significant. -/
def aesRow : Nat → Nat
  | 0 => 0x637C777BF26B6FC53001672BFED7AB76
  | 1 => 0xCA82C97DFA5947F0ADD4A2AF9CA472C0
  | 2 => 0xB7FD9326363FF7CC34A5E5F171D83115
  | 3 => 0x04C723C31896059A071280E2EB27B275
  | 4 => 0x09832C1A1B6E5AA0523BD6B329E32F84
  | 5 => 0x53D100ED20FCB15B6ACBBE394A4C58CF
  | 6 => 0xD0EFAAFB434D338545F9027F503C9FA8
  | 7 => 0x51A3408F929D38F5BCB6DA2110FFF3D2
  | 8 => 0xCD0C13EC5F974417C4A77E3D645D1973
  | 9 => 0x60814FDC222A908846EEB814DE5E0BDB
  | 10 => 0xE0323A0A4906245CC2D3AC629195E479
  | 11 => 0xE7C8376D8DD54EA96C56F4EA657AAE08
  | 12 => 0xBA78252E1CA6B4C6E8DD741F4BBD8B8A
  | 13 => 0x703EB5664803F60E613557B986C11D9E
  | 14 => 0xE1F8981169D98E949B1E87E9CE5528DF
  | _ => 0x8CA1890DBFE6426841992D0FB054BB16
def aesRowInv : Nat → Nat
  | 0 => 0x52096AD53036A538BF40A39E81F3D7FB
  | 1 => 0x7CE339829B2FFF87348E4344C4DEE9CB
  | 2 => 0x547B9432A6C2233DEE4C950B42FAC34E
  | 3 => 0x082EA16628D924B2765BA2496D8BD125
  | 4 => 0x72F8F66486689816D4A45CCC5D65B692
  | 5 => 0x6C704850FDEDB9DA5E154657A78D9D84
  | 6 => 0x90D8AB008CBCD30AF7E45805B8B34506
  | 7 => 0xD02C1E8FCA3F0F02C1AFBD0301138A6B
  | 8 => 0x3A9111414F67DCEA97F2CFCEF0B4E673
  | 9 => 0x96AC7422E7AD3585E2F937E81C75DF6E
  | 10 => 0x47F11A711D29C5896FB7620EAA18BE1B
  | 11 => 0xFC563E4BC6D279209ADBC0FE78CD5AF4
  | 12 => 0x1FDDA8338807C731B11210592780EC5F
  | 13 => 0x60517FA919B54A0D2DE57A9F93C99CEF
  | 14 => 0xA0E03B4DAE2AF5B0C8EBBB3C83539961
  | _ => 0x172B047EBA77D626E169146355210C7D
def aesSub (b : Byte) : Byte := BitVec.ofNat 8 (aesRow (b.toNat / 16) / 256 ^ (15 - b.toNat % 16))
def aesInv (b : Byte) : Byte := BitVec.ofNat 8 (aesRowInv (b.toNat / 16) / 256 ^ (15 - b.toNat % 16))

/-- Multiplication in GF(2^8). -/
def xtime (b : Byte) : Byte := (b <<< 1) ^^^ (if b.getLsbD 7 then 0x1B else 0)
def gmul (a : Byte) : Nat → Byte
  | 1 => a
  | 2 => xtime a
  | 3 => xtime a ^^^ a
  | 9 => xtime (xtime (xtime a)) ^^^ a
  | 11 => xtime (xtime (xtime a)) ^^^ xtime a ^^^ a
  | 13 => xtime (xtime (xtime a)) ^^^ xtime (xtime a) ^^^ a
  | 14 => xtime (xtime (xtime a)) ^^^ xtime (xtime a) ^^^ xtime a
  | _ => 0

def xorBs (a b : List Byte) : List Byte := (a.zip b).map (fun p => p.1 ^^^ p.2)

/-- Key schedule of AES-256: the next word from the words so far, newest first. -/
def aesWord (ws : List (List Byte)) (i : Nat) (rcon : Byte) : List Byte :=
  let t := ws.headD []
  let t' := if i % 8 = 0 then xorBs ((t.drop 1 ++ t.take 1).map aesSub) [rcon, 0, 0, 0]
    else if i % 8 = 4 then t.map aesSub else t
  xorBs (ws.getD 7 []) t'

/-- The 15 round keys of a 32-byte key. -/
def aesKeys (key : List Byte) : List (List Byte) :=
  let w := (List.range 52).foldl (fun (st : List (List Byte) × Byte) k =>
    (aesWord st.1 (k + 8) st.2 :: st.1, if (k + 8) % 8 = 0 then xtime st.2 else st.2)) ((pieces 4 8 key).reverse, 1)
  pieces 16 15 w.1.reverse.flatten

/-- Byte permutation of ShiftRows, and of its inverse. -/
def shiftRows (b : List Byte) : List Byte := (List.range 16).map (fun i => b.getD ((i + 4 * (i % 4)) % 16) 0)
def unshiftRows (b : List Byte) : List Byte := (List.range 16).map (fun i => b.getD ((i + 12 * (i % 4)) % 16) 0)

/-- MixColumns with a row of coefficients. -/
def mixCols (m : List Nat) (b : List Byte) : List Byte :=
  (List.range 16).map (fun i =>
    let c := i / 4 * 4
    (List.range 4).foldl (fun x j => x ^^^ gmul (b.getD (c + j) 0) (m.getD ((j + 4 - i % 4) % 4) 0)) 0)

/-- AES-256 encryption and decryption of one block with its round keys. -/
def aesEnc (ks : List (List Byte)) (b : List Byte) : List Byte :=
  match ks with
  | [] => b
  | k0 :: ks =>
    let mid := (ks.take 13).foldl (fun b k => xorBs (mixCols [2, 3, 1, 1] (shiftRows (b.map aesSub))) k) (xorBs b k0)
    xorBs (shiftRows (mid.map aesSub)) (ks.getD 13 [])

def aesDec (ks : List (List Byte)) (b : List Byte) : List Byte :=
  match ks.reverse with
  | [] => b
  | k0 :: ks =>
    let mid := (ks.take 13).foldl (fun b k => mixCols [14, 11, 13, 9] (xorBs ((unshiftRows b).map aesInv) k)) (xorBs b k0)
    xorBs ((unshiftRows mid).map aesInv) (ks.getD 13 [])

/-- The tweak times alpha (IEEE 1619). -/
def xtsAlpha (t : List Byte) : List Byte :=
  let v := leNat t * 2
  natLE 16 (if 2 ^ 128 ≤ v then Nat.xor (v % 2 ^ 128) 0x87 else v)

/-- XTS over a data unit of whole blocks: `f` is the block cipher under the first key. -/
def xtsBlocks (f : List Byte → List Byte) : List (List Byte) → List Byte → List Byte
  | [], _ => []
  | b :: bs, t => xorBs (f (xorBs b t)) t ++ xtsBlocks f bs (xtsAlpha t)

/-- AES-256-XTS of a 64-byte unit with tweak number `tw`; the key pair is 64 bytes, the data key first. -/
def xtsEnc (key : List Byte) (tw : Nat) (u : List Byte) : List Byte :=
  xtsBlocks (aesEnc (aesKeys (key.take 32))) (pieces 16 4 u) (aesEnc (aesKeys (key.drop 32)) (natLE 16 tw))
def xtsDec (key : List Byte) (tw : Nat) (u : List Byte) : List Byte :=
  xtsBlocks (aesDec (aesKeys (key.take 32))) (pieces 16 4 u) (aesEnc (aesKeys (key.drop 32)) (natLE 16 tw))

/-! ## BLAKE2s -/

def b2Sigma : List (List Nat) := [
  [0, 1, 2, 3, 4, 5, 6, 7, 8, 9, 10, 11, 12, 13, 14, 15],
  [14, 10, 4, 8, 9, 15, 13, 6, 1, 12, 0, 2, 11, 7, 5, 3],
  [11, 8, 12, 0, 5, 2, 15, 13, 10, 14, 3, 6, 7, 1, 9, 4],
  [7, 9, 3, 1, 13, 12, 11, 14, 2, 6, 5, 10, 4, 0, 15, 8],
  [9, 0, 5, 7, 2, 4, 10, 15, 14, 1, 11, 12, 6, 8, 3, 13],
  [2, 12, 6, 10, 0, 11, 8, 3, 4, 13, 7, 5, 15, 14, 1, 9],
  [12, 5, 1, 15, 14, 13, 4, 10, 0, 7, 6, 3, 9, 2, 8, 11],
  [13, 11, 7, 14, 12, 1, 3, 9, 5, 0, 15, 4, 8, 6, 2, 10],
  [6, 15, 14, 9, 11, 3, 0, 8, 12, 2, 13, 7, 1, 4, 10, 5],
  [10, 2, 8, 4, 7, 6, 1, 5, 15, 11, 9, 14, 3, 12, 13, 0]]

def b2Iv : List (BitVec 32) := [0x6A09E667, 0xBB67AE85, 0x3C6EF372, 0xA54FF53A, 0x510E527F, 0x9B05688C, 0x1F83D9AB, 0x5BE0CD19]

/-- The mixing function G on four places of the working vector. -/
def b2G (v : List (BitVec 32)) (a b c d : Nat) (x y : BitVec 32) : List (BitVec 32) :=
  let va := v.getD a 0 + v.getD b 0 + x
  let vd := (v.getD d 0 ^^^ va).rotateRight 16
  let vc := v.getD c 0 + vd
  let vb := (v.getD b 0 ^^^ vc).rotateRight 12
  let va := va + vb + y
  let vd := (vd ^^^ va).rotateRight 8
  let vc := vc + vd
  let vb := (vb ^^^ vc).rotateRight 7
  ((((v.set a va).set d vd).set c vc).set b vb)

def b2Cols : List (Nat × Nat × Nat × Nat) :=
  [(0, 4, 8, 12), (1, 5, 9, 13), (2, 6, 10, 14), (3, 7, 11, 15), (0, 5, 10, 15), (1, 6, 11, 12), (2, 7, 8, 13), (3, 4, 9, 14)]

/-- Compression of one block: bytes counted so far `t`, final flag. -/
def b2Block (h : List (BitVec 32)) (blk : List Byte) (t : Nat) (fin : Bool) : List (BitVec 32) :=
  let m := (pieces 4 16 (blk ++ List.replicate (64 - blk.length) 0)).map (fun w => BitVec.ofNat 32 (leNat w))
  let v0 := h ++ b2Iv
  let v0 := (v0.set 12 (v0.getD 12 0 ^^^ BitVec.ofNat 32 t)).set 13 (v0.getD 13 0 ^^^ BitVec.ofNat 32 (t / 2 ^ 32))
  let v0 := if fin then v0.set 14 (~~~(v0.getD 14 0)) else v0
  let v := b2Sigma.foldl (fun v sg => (b2Cols.zipIdx).foldl (fun v e =>
    b2G v e.1.1 e.1.2.1 e.1.2.2.1 e.1.2.2.2 (m.getD (sg.getD (2 * e.2) 0) 0) (m.getD (sg.getD (2 * e.2 + 1) 0) 0)) v) v0
  (List.range 8).map (fun i => h.getD i 0 ^^^ v.getD i 0 ^^^ v.getD (i + 8) 0)

/-- Blocks in order; the last one is final. -/
def b2Run : List (List Byte) → List (BitVec 32) → Nat → List (BitVec 32)
  | [], h, _ => h
  | [b], h, t => b2Block h b (t + b.length) true
  | b :: bs, h, t => b2Run bs (b2Block h b (t + 64) false) (t + 64)

/-- Unkeyed BLAKE2s with a digest of 16 bytes (RFC 7693, spec/20 R339). -/
def blake2s (m : List Byte) : List Byte :=
  let h0 := (b2Iv.set 0 (b2Iv.headD 0 ^^^ 0x01010010))
  let bs := if m.isEmpty then [[]] else pieces 64 m.length m
  ((b2Run bs h0 0).flatMap (fun w => natLE 4 w.toNat)).take 16

/-! ## CRC-32C -/

def crcBit (c : BitVec 32) : BitVec 32 := (c >>> 1) ^^^ (if c.getLsbD 0 then 0x82F63B78 else 0)
def crcByte (c : BitVec 32) (b : Byte) : BitVec 32 :=
  crcBit (crcBit (crcBit (crcBit (crcBit (crcBit (crcBit (crcBit (c ^^^ b.zeroExtend 32))))))))

end Sys2Proof.Machine
end

