-- ==== Sys2Proof/Machine/Conn.lean ====
section
/-!
DEFINITION. Milium connections as their users see them: posting a message, and what becomes of the system-window accesses of a
connection that fails (spec/23 R379, R380, R382).
-/
namespace Sys2Proof.Machine

/-- Cycles of `cyc` in one microsecond: the arithmetic clock of 600 MHz (spec/00, spec/27 R445). -/
def usCyc : Nat := 600

def State.portAt (s : State) (p : Nat) : Port := vget s.ports p {}
def State.setPort (s : State) (p : Nat) (q : Port) : State := { s with ports := vput s.ports p q }
def State.modPort (s : State) (p : Nat) (f : Port → Port) : State := s.setPort p (f (s.portAt p))

/-- A connection by its number, and the port engine that holds it. -/
def State.connAt (s : State) (p c : Nat) : Option Conn := mget (s.portAt p).conns c
def State.setConn (s : State) (p c : Nat) (k : Conn) : State := s.modPort p (fun q => { q with conns := mset q.conns c k })

/-- Something leaves the device. -/
def emit (s : State) (o : Out) : State := { s with out := o :: s.out }

/-- Sequence numbers are counted modulo 2^32 (spec/23 R379). -/
def psnAdd (a b : Nat) : Nat := (a + b) % 2 ^ 32
def psnSub (a b : Nat) : Nat := (a + 2 ^ 32 - b) % 2 ^ 32

/-- `cack` and `sack` of a connection (spec/23 Table 23.2). -/
def Conn.cack (c : Conn) : Nat := psnSub c.exp 1
def Conn.sack (c : Conn) : BitVec 64 :=
  BitVec.ofNat 64 ((List.range 64).foldl (fun v i =>
    v + b2n (c.ahead.any (fun e => e.1 == psnAdd c.exp (1 + i))) * 2 ^ i) 0)

/-- The connection carries messages. -/
def Conn.live (c : Conn) : Bool := c.st == .opening || c.st == .opened

/-- A data packet of a connection. -/
def Conn.dataOut (k : Conn) (p psn : Nat) (ask : Bool) (m : Msg) : Out :=
  { port := p, dest := k.addr, vtag := k.vtag, hdr := { typ := 0, flg := b2n ask, cid := k.peer, psn, cack := k.cack, sack := k.sack }, body := .msg m }

/-- An ack of a connection. -/
def Conn.ackOut (k : Conn) (p : Nat) : Out :=
  { port := p, dest := k.addr, vtag := k.vtag, hdr := { typ := 1, cid := k.peer, cack := k.cack, sack := k.sack } }

/-- A connect, close or reset of a connection (spec/23 R380). -/
def Conn.ctlOut (k : Conn) (p typ cid : Nat) (bs : List Byte) : Out :=
  { port := p, dest := k.addr, vtag := k.vtag, hdr := { typ, cid }, body := .bytes bs }

/-- Send one data packet (spec/23 R379): numbered, kept until acknowledged, with the retransmit time running. -/
def sendData (s : State) (p c : Nat) (m : Msg) : State :=
  match s.connAt p c with
  | none => s
  | some k =>
    let dl := if k.una.isEmpty then s.cyc + k.cur * usCyc else k.deadline
    let s := emit s (k.dataOut p k.nxt (Config.ackAsked s.stepNo) m)
    s.setConn p c { k with una := k.una ++ [(k.nxt, m)], nxt := psnAdd k.nxt 1, deadline := dl }

/-- Send what waits, while the connection is open and its window of 1,024 packets has room. -/
def pump (s : State) (p c : Nat) : State :=
  match s.connAt p c with
  | none => s
  | some k =>
    if k.st = .opened then
      let n := 1024 - k.una.length
      (k.wait.take n).foldl (fun s m => sendData s p c m) (s.setConn p c { k with wait := k.wait.drop n })
    else s

/-- Largest payload that the connection may send: the other side's `mss`, or, before it is known, the least that one can be (spec/23 R380). -/
def Conn.room (k : Conn) : Nat := if k.st = .opened then k.mss else 256

/-- The packets of a message: bytes, and the elements of a chunk, are cut to the room of a payload. -/
def Conn.cut (k : Conn) : Msg → List Msg
  | .raw bs => if bs.length ≤ k.room then [.raw bs] else (pieces k.room bs.length bs).map .raw
  | .chunk g r t bs =>
    let n := (k.room - Config.chunkHead.toNat) / 4 * 4
    if bs.length ≤ n then [.chunk g r t bs] else (pieces n bs.length bs).map (.chunk g r t)
  | m => [m]

/-- Post a message on a live connection; on another nothing is sent and the answer is `none`. -/
def connPost (s : State) (p c : Nat) (m : Msg) : Option State :=
  match s.connAt p c with
  | some k => if k.live then some (pump (s.setConn p c { k with wait := k.wait ++ k.cut m }) p c) else none
  | none => none

/-- A system-window access failed (spec/23 R382): a store sets the pending failure of its context; a load or an atomic ends
without effect, and the context takes `porttime` at its instruction; the record that it opened is sent with no tag (log entry 95). -/
def failSys (s : State) (o : SysOut) : State :=
  let w : Who := ⟨o.core, o.ctx, o.core⟩
  let s := { s with sysOut := s.sysOut.filter (fun p => p.tag != o.tag) }
  match o.copy with
  | some (id, piece, src) =>
    { s with copies := s.copies.map (fun c => if c.id = id then { c with
        dead := piece :: c.dead
        faults := ⟨src, w64 (4 * 2 ^ 60 + o.addr.toNat % 2 ^ 48), none⟩ :: c.faults } else c) }
  | none =>
  if ctxEnded o.ctx then s
  else if o.store then s.modCtx w (fun x => { x with sysFail := some (x.sysFail.getD o.addr) })
  else
    let s := match (s.ctxAt w).sys with
      | some x => if x.atom.isSome then sendAtomic s w x.seq (log2sz x.n) x.addr (0, 0) else landLoad s w x.seq (log2sz x.n) x.addr x.n 0 true
      | none => s
    s.modCtx w (fun x => { x with sys := none, kept := x.kept ++ [(0x13, o.addr, some x.pc)] })

/-- Every outstanding access of a connection fails. -/
def failAllSys (s : State) (p c : Nat) : State :=
  (s.sysOut.filter (fun o => o.conn == p * 1024 + c)).foldl failSys s

/-- A reset packet of a connection (spec/23 R380). -/
def sendReset (s : State) (p : Nat) (k : Conn) (reason : Nat) : State := emit s (k.ctlOut p 4 k.peer (natLE 4 reason))

/-- The answer to a packet from `dest` that names no open connection: a reset of reason 2 (spec/23 R380). -/
def sendUnknown (s : State) (p dest : Nat) : State := emit s { port := p, dest, hdr := { typ := 4, cid := 0xFFFFFFFF }, body := .bytes (natLE 4 2) }

end Sys2Proof.Machine
end

