-- ==== Sys2Proof/Machine/Privileged.lean ====
section
/-!
DEFINITION. The privileged window of the control cores (spec/25 R401 to R406, R410, Tables 25.2, 25.6, 25.7, 25.10 to 25.15).
-/
namespace Sys2Proof.Machine

/-! ## What the units do -/

/-- `mslot` quarter `q` (spec/16 R291). -/
def setSlots (s : State) (cl q : Nat) (v : Word) : State :=
  s.modCluster cl (fun k => { k with slots := (List.range 16).foldl (fun t e =>
    vput t (16 * q + e) (BitVec.ofNat 4 (bits v (4 * e) 4))) k.slots })

/-- `mwgt` (spec/16 R291): the weight word, and every credit 0. -/
def setWeights (s : State) (cl : Nat) (v : BitVec 32) : State :=
  s.modCluster cl (fun k => { k with wgt := v, cr := Vector.replicate 8 0, w0 := 7 })

/-- Slot-table quarter as a word. -/
def slotWord (k : Cluster) (q : Nat) : Word :=
  w64 ((List.range 16).foldl (fun v e => v + (vget k.slots (16 * q + e) 0).toNat * 2 ^ (4 * e)) 0)

/-- Tenant of a memory core (spec/25 Table 25.12). -/
def tenantOf (s : State) (tile : Nat) : Nat := bits (s.coreAt (mcOf tile)).root 0 9

/-- Invalidate every entry of the running tenant in a memory core's TLB and its cluster's walk cache (spec/18 R330). -/
def flushTlb (s : State) (tile : Nat) : State :=
  let ten := tenantOf s tile
  let s := s.modCore (mcOf tile) (fun k => { k with tlb := k.tlb.filter (fun e => e.ten != ten) })
  s.modCluster (clusterOf tile) (fun k => { k with wcache := k.wcache.filter (fun e => e.ten != ten) })

/-- Store word `n` of key slot `k` (spec/25 R401, spec/17 R303). -/
def storeKey (s : State) (k n : Nat) (v : Word) : State :=
  let q := (mget s.keys k).getD {}
  let ws := vput q.ws n v
  let q' : KeySlot :=
    if n = 0 then { ws, nextW := 1, loaded := false }
    else if n = q.nextW then { ws, nextW := (n + 1) % 8, loaded := q.loaded || n == 7 }
    else { q with ws, nextW := 0 }
  { s with keys := mset s.keys k q' }

/-- The 48 bytes of a measurement register. -/
def measBytes (v : BitVec 384) : List Byte := natLE 48 v.toNat

/-- extend(`meas`j, d) (spec/25 R410). -/
def extendMeas (s : State) (j : Nat) (d : List Byte) : State :=
  { s with meas := vput s.meas j (BitVec.ofNat 384 (leNat (sha384 (measBytes (vget s.meas j 0) ++ d)))) }

/-- A store at the extend port of `meas`j, at doubleword `n`; doubleword 6 performs the extension. -/
def storeExtend (s : State) (j n : Nat) (v : Word) : State :=
  let l := vget s.ext j []
  if n < 6 then
    let l' := l ++ [(n, v)]
    { s with ext := vput s.ext j (l'.drop (l'.length - 6)) }
  else
    let s := { s with ext := vput s.ext j [] }
    if (List.range 6).all (fun i => l.any (fun e => e.1 == i)) then
      extendMeas s j ((List.range 6).flatMap (fun i => natLE 8 ((mget l i).getD 0).toNat))
    else s

/-- A store to `sdig` (spec/25 R406): six doublewords in ascending order, once. -/
def storeSdig (s : State) (n : Nat) (v : Word) : State :=
  if n = s.sdigN ∧ n < 6 then
    { s with sdig := s.sdig ||| BitVec.ofNat 384 (v.toNat * 2 ^ (64 * n)), sdigN := n + 1 }
  else s

/-- A rename pool (spec/25 Table 25.15): first PA and count of its run, and all its frames with those that were returned to it, by first PA; an `n` of
0 disables renaming, and the pool has no frame then. -/
def Pool.base (p : Pool) : Nat := bits p.w0 16 36 * 65536
def Pool.n (p : Pool) : Nat := bits p.w0 0 16
def Pool.frames (p : Pool) : List Nat := if p.n = 0 then [] else (List.range p.n).map (fun k => p.base + 65536 * k) ++ p.extra
def Pool.free (p : Pool) : List Nat := p.frames.filter (fun f => !p.used.contains f)

/-! ## The map -/

/-- Unit and offset in it of a privileged-window offset. -/
def privUnit (f : Nat) : Nat := f / 2 ^ 36
def privIn (f : Nat) : Nat := f % 2 ^ 36

/-- Table 25.2 lists the (8-aligned) offset. -/
def privListed (f : Nat) : Bool :=
  let r := privIn f
  match privUnit f with
  | 0 => decide (r < 2 ^ 28) && decide (r % 2 ^ 16 < 0x200) && ctlOk .worker (BitVec.ofNat 6 (r % 2 ^ 16 / 8))
  | 1 => decide (r < 512 * 0x1000) && (decide (r % 0x1000 ≤ 0x100) || (decide (0x110 ≤ r % 0x1000) && decide (r % 0x1000 < 0x130)))
  | 2 => decide (r < 4096 * 0x1000) && decide (r % 0x1000 < 0x10)
  | 3 => decide (r < 512 * 64) || (decide (0x10000 ≤ r) && decide (r < 0x10040))
  | 4 => decide (r < 4096 * 32)
  | 5 => decide (r < 512 * 64)
  | 6 => decide (r < 0x800) || (decide (0x1000 ≤ r) && decide (r < 0x1400)) || (decide (0x2000 ≤ r) && decide (r < 0x3000))
  | 7 => decide (r < 0x10)
  | 8 => r == 0
  | 9 => (decide (r < 0x200) && decide (r % 64 < 48)) ||
      (decide (0x1000 ≤ r) && decide (r < 0x1200) && decide (r % 64 < 0x38)) || (decide (0x2000 ≤ r) && decide (r < 0x2030))
  | 10 => decide (r < 256 * 16)
  | 11 => decide (r < 256 * 16) || (decide (0x10000 ≤ r) && decide (r < 0x12000)) ||
      (decide (0x20000 ≤ r) && decide (r < 0x24000))
  | 12 => decide (r < 256 * 16)
  | _ => false

/-- The level may make the access (spec/25 Table 25.2). -/
def privMay (store : Bool) (lvl f : Nat) : Bool :=
  let r := privIn f
  if 1 < lvl then false
  else if !store then !(privUnit f == 9 && decide (0x1000 ≤ r) && decide (r < 0x2000))
  else match privUnit f with
    | 0 => ctlMayWrite (r % 2 ^ 16 / 8) lvl
    | 1 => true
    | 2 => if r % 0x1000 = 0 then lvl == 0 else lvl == 1
    | 3 => decide (r < 0x10000) && lvl == 0
    | 4 => lvl == 1
    | 5 => false
    | 6 => lvl == 1
    | 7 => lvl == 0
    | 8 => lvl == 1
    | 9 => decide (0x1000 ≤ r) && lvl == 0
    | 10 => lvl == 0
    | 11 => true
    | _ => lvl == 1

/-- Doubleword `n` of a queue descriptor (spec/25 Table 25.6). -/
def queueWord (q : QDesc) (n : Nat) : Word :=
  match n with
  | 0 => q.w0
  | 1 => q.w1
  | 2 => w64 (q.head.toNat + q.tail.toNat * 2 ^ 32)
  | _ => w64 (b2n q.v + 2 * b2n q.map + 4 * b2n q.frz + 8 * b2n q.psn)

def setQueueWord (q : QDesc) (n : Nat) (v : Word) : QDesc :=
  match n with
  | 0 => { q with w0 := v }
  | 1 => { q with w1 := v &&& 0xFFFFFFFF }
  | 2 => { q with head := BitVec.ofNat 32 v.toNat, tail := BitVec.ofNat 32 (v.toNat / 2 ^ 32) }
  | _ => { q with v := bit v 0, map := bit v 1, frz := bit v 2, psn := bit v 3 }

/-- Store of doubleword `n` of queue `q`'s descriptor. At most 64 queues are mapped at once (spec/25 R415): a store that would map one more leaves
`map` 0 (DESIGN CHOICE, log entry 108). -/
def storeQueue (s : State) (q n : Nat) (v : Word) : State :=
  let d := setQueueWord ((mget s.queues q).getD {}) n v
  let full := decide (64 ≤ (s.queues.filter (fun e => e.1 != q && e.2.map)).length)
  { s with queues := mset s.queues q { d with map := d.map && !full } }

/-- A value that the spec states nothing of. -/
def unstatedRead (s : State) : Word × State := (Config.unstated s.freeNo, { s with freeNo := s.freeNo + 1 })

/-- Doubleword `d` of migration report `j`: the spec gives it no layout. -/
def reportRead (s : State) (j d : Nat) : Word :=
  match s.migRep[j]? with
  | some m => Config.reportWord m.vm m.pg m.core d
  | none => 0

/-- Load of the doubleword at a listed offset. -/
def privRead (s : State) (off : Nat) : Word × State :=
  let f := off / 8 * 8
  let r := privIn f
  match privUnit f with
  | 0 => (ctlRead s (r / 2 ^ 16) (r % 2 ^ 16 / 8), s)
  | 1 =>
    let k := s.clusterAt (r / 0x1000)
    let o := r % 0x1000
    (if o < 0x100 then vget k.cuts (o / 8) 0 else if o = 0x100 then k.wgt.zeroExtend 64 else slotWord k ((o - 0x110) / 8), s)
  | 2 => if r % 0x1000 = 0 then ((s.coreAt (mcOf (r / 0x1000))).root, s) else unstatedRead s
  | 3 =>
    (if r < 0x10000 then 0
     else w64 ((List.range 64).foldl (fun v b =>
       v + b2n ((mget s.keys (64 * ((r - 0x10000) / 8) + b)).any (·.loaded)) * 2 ^ b) 0), s)
  | 4 => (queueWord ((mget s.queues (r / 32)).getD {}) (r / 8 % 4), s)
  | 6 =>
    (if r < 0x800 then (mget s.rects (r / 8)).getD 0
     else if r < 0x2000 then reportRead s ((r - 0x1000) / 16) (r / 8 % 2)
     else
       let e := (mget s.redirs ((r - 0x2000) / 16)).getD (0, 0)
       if r / 8 % 2 = 0 then e.1 else e.2, s)
  | 7 => (if r = 0 then w64 s.plim else w64 (s.pw % 2 ^ 16 * 2 ^ 24 + s.cap), s)
  | 9 =>
    (w64 ((if r < 0x200 then (vget s.meas (r / 64) 0).toNat / 2 ^ (64 * (r % 64 / 8))
      else s.sdig.toNat / 2 ^ (64 * ((r - 0x2000) / 8))) % 2 ^ 64), s)
  | 10 =>
    let b := (mget s.buckets (r / 16)).getD {}
    (if r / 8 % 2 = 0 then b.level else w64 (b.depth.toNat * 2 ^ 32 + b.fill.toNat), s)
  | 11 =>
    (if r < 0x1000 then
      let e := (mget s.wtab (r / 16)).getD (0, 0)
      if r / 8 % 2 = 0 then e.1 else e.2
     else if r < 0x12000 then
      w64 (((mget s.grants ((r - 0x10000) / 32)).getD 0).toNat / 2 ^ (64 * (r / 8 % 4)) % 2 ^ 64)
     else (mget s.cbind ((r - 0x20000) / 0x2000 * 1024 + (r - 0x20000) % 0x2000 / 8)).getD 0, s)
  | 12 =>
    let p := (mget s.pools (r / 16)).getD {}
    (if r / 8 % 2 = 0 then p.w0 else w64 p.free.length, s)
  | _ => unstatedRead s

/-- Replace 64-bit piece `n` of a 256-bit mask. -/
def setPiece (m : BitVec 256) (n : Nat) (v : Word) : BitVec 256 :=
  BitVec.ofNat 256 (m.toNat - m.toNat / 2 ^ (64 * n) % 2 ^ 64 * 2 ^ (64 * n) + v.toNat * 2 ^ (64 * n))

/-- Store of a doubleword at a listed offset, performed in its unit. Bits [63:32] of the weight word's doubleword are dropped (DESIGN CHOICE, log
entry 119). -/
def privWrite (s : State) (off : Nat) (v : Word) : State :=
  let f := off / 8 * 8
  let r := privIn f
  match privUnit f with
  | 0 => ctlWrite s (r / 2 ^ 16) (r % 2 ^ 16 / 8) v
  | 1 =>
    let cl := r / 0x1000
    let o := r % 0x1000
    if o < 0x100 then s.modCluster cl (fun k => { k with cuts := vput k.cuts (o / 8) v })
    else if o = 0x100 then setWeights s cl (BitVec.ofNat 32 v.toNat)
    else setSlots s cl ((o - 0x110) / 8) v
  | 2 =>
    if r % 0x1000 = 0 then s.modCore (mcOf (r / 0x1000)) (fun k => { k with root := v &&& 0x000FFFFFFFFFF1FF })
    else flushTlb s (r / 0x1000)
  | 3 => storeKey s (r / 64) (r / 8 % 8) v
  | 4 => storeQueue s (r / 32) (r / 8 % 4) v
  | 6 =>
    if r < 0x800 then { s with rects := mset s.rects (r / 8) (v &&& 0x800000007F7F3F3F) }
    else if r < 0x2000 then s
    else
      let j := (r - 0x2000) / 16
      let e := (mget s.redirs j).getD (0, 0)
      { s with redirs := mset s.redirs j (if r / 8 % 2 = 0 then (v &&& 0x800000003FFFF0FF, e.2) else (e.1, v &&& 0x33F3F)) }
  | 7 => if r = 0 then { s with plim := max 1400 (min 2800 (bits v 0 12)) } else s
  | 8 => { s with launchQ := s.launchQ ++ [v.toNat] }
  | 9 => if r < 0x2000 then storeExtend s ((r - 0x1000) / 64) (r % 64 / 8) v else storeSdig s ((r - 0x2000) / 8) v
  | 10 =>
    let b := (mget s.buckets (r / 16)).getD {}
    let b' : Bucket := if r / 8 % 2 = 0 then { b with level := v }
      else { b with depth := BitVec.ofNat 32 (v.toNat / 2 ^ 32), fill := BitVec.ofNat 32 v.toNat }
    { s with buckets := mset s.buckets (r / 16) b' }
  | 11 =>
    if r < 0x1000 then
      let e := (mget s.wtab (r / 16)).getD (0, 0)
      { s with wtab := mset s.wtab (r / 16) (if r / 8 % 2 = 0 then (v &&& ~~~(6 : Word), e.2) else (e.1, v &&& 0x3FF)) }
    else if r < 0x12000 then
      let n := (r - 0x10000) / 32
      { s with grants := mset s.grants n (setPiece ((mget s.grants n).getD 0) (r / 8 % 4) v) }
    else
      { s with cbind := mset s.cbind ((r - 0x20000) / 0x2000 * 1024 + (r - 0x20000) % 0x2000 / 8) (v &&& 0x80000000000000FF) }
  | 12 =>
    if r / 8 % 2 = 0 then
      let p := (mget s.pools (r / 16)).getD {}
      { s with pools := mset s.pools (r / 16) { p with w0 := v &&& 0x000FFFFFFFFFFFFF, extra := [] } }
    else s
  | _ => s

end Sys2Proof.Machine
end

