-- ==== Sys2Proof/Machine/Dram.lean ====
section
/-!
DEFINITION. DRAM behind the memory cores: ciphertext units, key slots, the walk of the page tables, TLB and walk cache (spec/17
R293, R294, R298 to R303, spec/25 R403, R418).
-/
namespace Sys2Proof.Machine

/-! ## Units (spec/17 R294, R302, R303) -/

/-- The key pair of a loaded slot, its words little-endian in ascending order. -/
def keyOf (s : State) (slot : Nat) : Option (List Byte) :=
  match mget s.keys slot with
  | some q => if q.loaded then some (q.ws.toList.flatMap (fun v => natLE 8 v.toNat)) else none
  | none => none

/-- The 64-byte unit that holds a PA is readable. -/
def unitOk (s : State) (pa : Nat) : Bool :=
  let f := dramBase + pa / 64 * 64
  (List.range 8).all (fun k => !s.bad.contains (f / 8 + k))

/-- Plaintext of the unit that holds `pa` under a key pair. -/
def unitRead (s : State) (key : List Byte) (pa : Nat) : List Byte :=
  xtsDec key (pa / 64) (rdBs s.mem (dramBase + pa / 64 * 64) 64)

/-- Write a whole unit: 64 bytes of plaintext. -/
def unitWrite (s : State) (key : List Byte) (pa : Nat) (bs : List Byte) : State :=
  put s (dramBase + pa / 64 * 64) (xtsEnc key (pa / 64) bs) (0, 0)

/-- Bytes `a` to `a + bs.length − 1` of a unit replaced. -/
def patch (unit : List Byte) (a : Nat) (bs : List Byte) : List Byte := unit.take a ++ bs ++ unit.drop (a + bs.length)

/-- Write of less than a unit: read, merged and encrypted again (spec/17 R302). A unit that cannot be read stays as it is (log
entry on merges). -/
def unitMerge (s : State) (key : List Byte) (pa : Nat) (bs : List Byte) : State :=
  if bs.length = 64 then unitWrite s key pa bs
  else if unitOk s pa then unitWrite s key pa (patch (unitRead s key pa) (pa % 64) bs)
  else s

/-! ## Page-table entries (spec/17 Table 17.2) -/

def pteKey (e : Word) : Nat := bits e 55 9
def ptePa (e : Word) : Nat := bits e 12 40 * 4096
def pteLeaf (e : Word) : Bool := bit e 4
def pteW (e : Word) : Bool := bit e 2
def pteR (e : Word) : Bool := bit e 1
def pteV (e : Word) : Bool := bit e 0

/-- log₂ of the bytes that one entry of a level maps, and its index in its table (spec/17 R298). -/
def lvlShift (l : Nat) : Nat := match l with
  | 0 => 39 | 1 => 30 | 2 => 21 | _ => 16
def lvlIndex (l va : Nat) : Nat := if l = 3 then va / 2 ^ 16 % 32 else va / 2 ^ lvlShift l % 512

/-- Check `form` of Table 17.3 at a level. -/
def pteForm (l : Nat) (e : Word) : Bool :=
  bits e 52 3 == 0 && bits e 5 7 == 0 && bits e 3 1 == 0 &&
  (if pteLeaf e then decide (2 ≤ l) && ptePa e % 2 ^ lvlShift l == 0 else l != 3 && pteKey e == 0)

/-- First failing check of Table 17.3 for an entry read at a level; 0: none. Permission and key are checked at the use. -/
def pteReason (l : Nat) (e : Word) : Nat :=
  if !pteV e then 1
  else if !pteForm l e then 3
  else if 2 ^ 38 ≤ ptePa e then 4
  else 0

/-- What an access needs of its leaf. -/
structure Need where
  r : Bool
  w : Bool
  deriving DecidableEq, Repr

/-- Checks 5 and 6 at a leaf; 0: none fails. -/
def leafReason (s : State) (n : Need) (e : Word) : Nat :=
  if (n.r && !pteR e) || (n.w && !pteW e) then 5
  else if (keyOf s (pteKey e)).isNone then 6
  else 0

/-! ## The walk (spec/17 R300, R301) -/

/-- Tag of a virtual address at a level. -/
def vaTag (l va : Nat) : Nat := va / 2 ^ lvlShift l

/-- One entry of a table, read as plaintext under key slot 0. -/
def readPte (s : State) (tbl l va : Nat) : Except Nat Word :=
  let pa := tbl + 8 * lvlIndex l va
  match keyOf s 0 with
  | none => .error 6
  | some key =>
    if !unitOk s pa then .error 2
    else .ok (w64 (leNat (((unitRead s key pa).drop (pa % 64)).take 8)))

/-- The walk from a table at level `l`: the leaf with its level, and the pointer entries that it read from DRAM. -/
def walk (s : State) (ws : List WalkE) (ten va : Nat) : Nat → Nat → Nat → Except Nat (Nat × Word × List WalkE)
  | 0, _, _ => .error 3
  | fuel + 1, l, tbl =>
    match ws.find? (fun e => e.ten == ten && e.lvl == l && e.vpn == vaTag l va) with
    | some c => walk s ws ten va fuel (l + 1) (ptePa c.ent)
    | none =>
      match readPte s tbl l va with
      | .error r => .error r
      | .ok e =>
        if pteReason l e ≠ 0 then .error (pteReason l e)
        else if pteLeaf e then .ok (l, e, [])
        else (walk s ws ten va fuel (l + 1) (ptePa e)).map (fun r => (r.1, r.2.1, ⟨ten, l, vaTag l va, e⟩ :: r.2.2))

/-- PAs of the table entries that a walk from a table at level `l` reads from DRAM. -/
def walkFrom (s : State) (ws : List WalkE) (ten va : Nat) : Nat → Nat → Nat → List Nat
  | 0, _, _ => []
  | fuel + 1, l, tbl =>
    match ws.find? (fun e => e.ten == ten && e.lvl == l && e.vpn == vaTag l va) with
    | some c => walkFrom s ws ten va fuel (l + 1) (ptePa c.ent)
    | none =>
      (tbl + 8 * lvlIndex l va) :: (match readPte s tbl l va with
        | .ok e => if pteReason l e ≠ 0 || pteLeaf e then [] else walkFrom s ws ten va fuel (l + 1) (ptePa e)
        | .error _ => [])

/-- Fill a structure of `n` entries; when it is full, the entry that goes is the implementation's choice. -/
def fillWith {α : Type} (n v : Nat) (l : List α) (x : α) : List α := if l.length < n then l ++ [x] else l.set (v % n) x

/-- Fill the TLB of a tile and its cluster's walk cache after a walk. -/
def fillWalk (s : State) (tile : Nat) (t : TlbE) (ps : List WalkE) : State :=
  let s := s.modCore (mcOf tile) (fun k => { k with tlb := fillWith 64 (Config.victim s.freeNo) k.tlb t })
  let s := { s with freeNo := s.freeNo + 1 }
  ps.foldl (fun s p =>
    let s' := s.modCluster (clusterOf tile) (fun k => { k with wcache := fillWith 32 (Config.victim s.freeNo) k.wcache p })
    { s' with freeNo := s.freeNo + 1 }) s

/-- The leaf for a VA: from the TLB, or by a walk, which fills TLB and walk cache when it succeeds. -/
def leafOf (s : State) (tile : Nat) (n : Need) (va : Nat) : State × Except Nat (Nat × Word) :=
  let k := s.coreAt (mcOf tile)
  let ten := tenantOf s tile
  match k.tlb.find? (fun e => e.ten == ten && e.va == vaTag e.lvl va) with
  | some e => (s, if leafReason s n e.leaf ≠ 0 then .error (leafReason s n e.leaf) else .ok (e.lvl, e.leaf))
  | none =>
    let root := bits k.root 12 40 * 4096
    if 2 ^ 38 ≤ root then (s, .error 4)
    else match walk s (s.clusterAt (clusterOf tile)).wcache ten va 4 0 root with
      | .error r => (s, .error r)
      | .ok (l, e, ps) =>
        if leafReason s n e ≠ 0 then (s, .error (leafReason s n e))
        else (fillWalk s tile ⟨ten, l, vaTag l va, e⟩ ps, .ok (l, e))

/-- PAs of the table entries that a translation at a tile reads from DRAM: none where its TLB holds the leaf. -/
def walkReads (s : State) (tile va : Nat) : List Nat :=
  let k := s.coreAt (mcOf tile)
  let root := bits k.root 12 40 * 4096
  if k.tlb.any (fun e => e.ten == tenantOf s tile && e.va == vaTag e.lvl va) || decide (2 ^ 38 ≤ root) then []
  else walkFrom s (s.clusterAt (clusterOf tile)).wcache (tenantOf s tile) va 4 0 root

/-- A walk for a VA at a tile reads a table entry behind a channel that its memory core may not reach now. -/
def walkHeld (s : State) (tile va : Nat) : Bool := (walkReads s tile va).any (fun pa => farHeld s tile (pa / 2 ^ 26))

/-- Frame of a renamed page (spec/25 R418). -/
def overlayOf (s : State) (tile va : Nat) : Option Nat :=
  (s.coreAt (mcOf tile)).overlays.findSome? (fun o =>
    if o.1 ≤ va ∧ va < o.1 + o.2.1 * 65536 then some (o.2.2 + (va - o.1)) else none)

/-- Translation of a 48-bit VA at a tile: PA and key slot, or the reason of Table 17.3. -/
def translate (s : State) (tile : Nat) (n : Need) (va : Nat) : State × Except Nat (Nat × Nat) :=
  let r := leafOf s tile n va
  (r.1, r.2.map (fun le =>
    ((overlayOf s tile va).getD (ptePa le.2 + va % 2 ^ lvlShift le.1), pteKey le.2)))

/-- Translate 64 KiB pages in order: each page's first PA and key slot, or the first VA that fails with its reason. -/
def translateAll (tile : Nat) (n : Need) : List Nat → State → State × Except (Nat × Nat) (List (Nat × Nat × Nat))
  | [], s => (s, .ok [])
  | va :: t, s =>
    match translate s tile n va with
    | (s, .error r) => (s, .error (va, r))
    | (s, .ok (pa, key)) =>
      let rest := translateAll tile n t s
      (rest.1, rest.2.map (fun l => (va / 65536, pa - va % 65536, key) :: l))

/-- Status word of a translation fault (spec/17 Table 17.6). -/
def xlateWord (rsn va : Nat) : Word := w64 (2 ^ 60 + rsn * 2 ^ 56 + va % 2 ^ 48)

end Sys2Proof.Machine
end

