-- ==== Sys2Proof/Machine/Fifo.lean ====
section
/-!
DEFINITION. FIFO ports: `push`, `pop`, `fstat` and what every push form shares (spec/01 R13 to R15, spec/06 R126 to R129,
spec/18 R325, spec/19 R333, spec/23 R389, spec/25 R396).
-/
namespace Sys2Proof.Machine

/-- Ports with a command FIFO and with a result FIFO on each kind of core (spec/01 Table 1.2). -/
def cmdPort (k : CoreKind) (p : Nat) : Bool :=
  match k with
  | .worker => p == 0 || p == 1 || p == 2 || p == 4 || p == 5
  | .control => p == 2 || p == 4
  | .memory => false

def resPort (k : CoreKind) (p : Nat) : Bool :=
  match k with
  | .worker => p == 0 || p == 1 || p == 3 || p == 4 || p == 5
  | .control => p == 4
  | .memory => p == 0

/-- Ports that `fstat` may name: those with a FIFO of either kind. -/
def anyPort (k : CoreKind) (p : Nat) : Bool := cmdPort k p || resPort k p

/-- `trap.val` after `wedge` (spec/06 Table 6.10). -/
def wedgeVal (pop : Bool) (p : Nat) : Word := w64 (b2n pop * 256 + p)

/-- Elements waiting in the result FIFO of a port; on a memory core port 0 holds its commands. -/
def resCount (i : Nat) (k : Core) (p : Nat) : Nat :=
  match kindOf i with
  | .memory => if p = 0 then k.inq.length else 0
  | _ => match p with
    | 0 => k.r0.length | 1 => k.r1.length | 3 => k.r3.length | 4 => k.r4.length | 5 => k.r5.length | _ => 0

/-- Depths (spec/01 Table 1.2). -/
def resDepth : Nat → Nat
  | 0 => 8 | 3 => 16 | 1 | 4 | 5 => 4 | _ => 0
def cmdDepth : Nat → Nat
  | 0 => 8 | 1 => 2 | 2 | 4 | 5 => 4 | _ => 0

/-- Commands waiting in the command FIFO; at port 5 also those that the memory core has not popped (spec/19 R333). -/
def cmdCount (s : State) (i p : Nat) : Nat :=
  let k := s.coreAt i
  match p with
  | 0 => k.q0.length | 1 => k.q1.length | 2 => k.q2.length | 4 => k.q4.length
  | 5 => k.q5.length + (s.coreAt (mcOf i)).inq.length
  | _ => 0

/-- Commands that the engine of a port has taken and not finished (spec/06 Table 6.11; 0 on port 5, spec/19 R333). -/
def pendCount (s : State) (i p : Nat) : Nat :=
  match p with
  | 0 => ((s.clusterAt (clusterOf i)).run.toList.filter (fun r => r.row == rowOf i)).length
  | 1 => ((s.clusterAt (clusterOf i)).xrun.toList.filter (fun r => r.row == rowOf i)).length
  | 2 => (s.copies.filter (fun c => c.core == i)).length
  | 4 => (s.ports.toList.map (fun p => (p.cmds.filter (fun r => r.core == i)).length)).foldl (· + ·) 0
  | _ => 0

/-- Matrix commands that produce an element (spec/15 R271). -/
def MOp.gives : MOp → Bool
  | .mrd .. | .mbar | .mstat => true
  | _ => false

/-- The engine of a port holds a command of the core that will produce an element; at port 3 records may always come
(spec/06 R128), at port 5 while the tile's memory core runs (spec/19 R333). -/
def willProduce (s : State) (i p : Nat) : Bool :=
  let k := s.coreAt i
  match p with
  | 0 => k.q0.any (fun c => c.op.gives) ||
      (s.clusterAt (clusterOf i)).run.any (fun r => r.row == rowOf i && r.op.gives)
  | 1 | 4 => cmdCount s i p + pendCount s i p != 0
  | 5 => (s.coreAt (mcOf i)).run == .running
  | _ => true

/-- The accesses that a `push` releases and that are not yet performed (spec/01 R14): over the mesh and, which cluster and device scope
count only at system scope, through the system window (spec/06 R125). -/
def releaseDeps (s : State) (w : Who) : List Nat := inFlight s w

/-- Every access released with a command is performed. -/
def depsDone (s : State) (deps : List Nat) : Bool := deps.all (fun d => !outstanding s d)

/-- A pending matrix-unit `datauc` is taken at a `push`, `pop` or `fstat` on port 0 (spec/15 R272). -/
def matErr (s : State) (w : Who) : Option Res :=
  (s.coreAt w.i).mErr.map (fun v => .trapIn (s.modCore w.i (fun k => { k with mErr := none })) cDatauc v)

/-- What every push form does at its port (spec/06 R127): room lets it append with its PUSH record; a full FIFO stalls, and
wedges when the result FIFO of the port is full too. `append` puts the command in. -/
def pushForm (w : Who) (s : State) (p : Nat) (word : Word) (append : State → State) : Res :=
  if p = 5 ∧ (s.coreAt (mcOf w.i)).run ≠ .running then .trap cWedge (wedgeVal false 5)
  else if cmdCount s w.i p < cmdDepth p then .go (logRec (append s) w 9 word p)
  else if resDepth p ≠ 0 ∧ resDepth p ≤ resCount w.i (s.coreAt w.i) p then .trap cWedge (wedgeVal false p)
  else .wait s

/-- `push` (spec/06 R126): only port 5 takes a plain one. -/
def pushOp (v : Word) (p : Nat) (w : Who) (s : State) : Res :=
  if kindOf w.i = .worker ∧ p = 5 then
    pushForm w s 5 v (fun s => s.modCore w.i (fun k => { k with q5 := k.q5 ++ [{ val := v, deps := releaseDeps s w }] }))
  else .trap cFifoproto (w64 p)

/-- Take the oldest element of a result FIFO: the element, the failure that it raises, and the core after it. -/
def takeElem (i : Nat) (k : Core) (p : Nat) : Option (Word × Bool × Core) :=
  match kindOf i with
  | .memory => match k.inq with
    | v :: t => some (v, false, { k with inq := t })
    | [] => none
  | _ => match p with
    | 0 => match k.r0 with
      | v :: t => some (v, false, { k with r0 := t })
      | [] => none
    | 1 => match k.r1 with
      | v :: t => some (v, false, { k with r1 := t })
      | [] => none
    | 3 => match k.r3 with
      | v :: t => some (v, false, { k with r3 := t, lg := { k.lg with seq := k.lg.seq + 1 } })
      | [] => none
    | 4 => match k.r4 with
      | v :: t => some (v.val, !v.nt && (let st := bits v.val 52 4; st == 2 || st == 3 || st == 4), { k with r4 := t })
      | [] => none
    | 5 => match k.r5 with
      | v :: t => some (v, false, { k with r5 := t })
      | [] => none
    | _ => none

/-- A lifeguard that has taken the final record of an unbound worker leaves its binding (spec/21 R365). -/
def endDrain (s : State) (i : Nat) : State :=
  s.modCore i (fun k => match k.guard with
    | some g => if g.final == some k.lg.seq.toNat then { k with guard := none, lg := {} } else k
    | none => k)

/-- `pop` (spec/06 R128): what becomes of the element is `put`. -/
def popWith (p : Nat) (w : Who) (s : State) (put : Word → State → Res) : Res :=
  if !resPort (kindOf w.i) p || (p == 0 && w.c != 0) then .trap cFifoproto (w64 p)
  else match (if p = 0 then matErr s w else none) with
    | some r => r
    | none =>
      match takeElem w.i (s.coreAt w.i) p with
      | some (v, fail, k) =>
        let s1 := s.setCore w.i k
        let s1 := if p = 3 then endDrain s1 w.i else s1
        if fail then .trapIn s1 cPorttime v else put v (logRec s1 w 10 v p)
      | none =>
        if kindOf w.i = .memory ∨ willProduce s w.i p then .wait s else .trap cWedge (wedgeVal true p)

def popOp (a : Reg) (p : Nat) (w : Who) (s : State) : Res := popWith p w s (fun v s => .go (s.wr w a v))

/-- The status word of a port (spec/06 Table 6.11). -/
def fstatWord (s : State) (i p : Nat) : Word :=
  let k := s.coreAt i
  if kindOf i = .memory then w64 (resCount i k 0 * 2 ^ 16)
  else
    let room := if p = 3 then 0 else cmdDepth p - cmdCount s i p
    w64 (pendCount s i p % 256 * 2 ^ 32 + resCount i k p % 256 * 2 ^ 16 + room)

def fstatWith (p : Nat) (w : Who) (s : State) (put : Word → State → Res) : Res :=
  if !anyPort (kindOf w.i) p || (p == 0 && w.c != 0) then .trap cFifoproto (w64 p)
  else match (if p = 0 then matErr s w else none) with
    | some r => r
    | none => put (fstatWord s w.i p) s

def fstatOp (a : Reg) (p : Nat) (w : Who) (s : State) : Res := fstatWith p w s (fun v s => .go (s.wr w a v))

def execPush (a : Reg) (p : BitVec 4) : State → Outcome :=
  issue (.push a p) (fun w s => pushOp (s.rd w a) p.toNat w s)
def execPop (a : Reg) (p : BitVec 4) : State → Outcome := issue (.pop a p) (popOp a p.toNat)
def execFstat (a : Reg) (p : BitVec 4) : State → Outcome := issue (.fstat a p) (fstatOp a p.toNat)

end Sys2Proof.Machine
end

