-- ==== Sys2Proof/Machine/Remote.lean ====
section
/-!
DEFINITION. Remote loads and stores and atomics (spec/06 R116 to R123, spec/23 R381 to R383), and their packets in the mesh
(spec/01 R12, spec/03 R49, R48).
-/
namespace Sys2Proof.Machine

/-! ## Where an access goes -/

inductive RemPlace where
  /-- Home core and slice address. -/
  | mesh (home off : Nat)
  /-- Connection and remote address. -/
  | sys (conn addr : Nat)
  /-- Offset in the privileged window. -/
  | priv (off : Nat)
  deriving DecidableEq, Repr

def RemPlace.isPriv : RemPlace → Bool
  | .priv _ => true
  | _ => false

/-- Permission bits of a window-table entry that an access needs (spec/23 Table 23.3). -/
def sysGrants (acc : Acc3) (d0 : Word) : Bool :=
  match acc with
  | .store => bit d0 4
  | .atomic => bit d0 3 && bit d0 4 && bit d0 5
  | _ => bit d0 3

/-- The address-map check of a remote access, with the level check of a control core (spec/06 R117, spec/25 R395, R401). -/
def remMap (s : State) (w : Who) (acc : Acc3) (a : Word) : Try RemPlace :=
  let k := s.coreAt w.i
  let ctrl := kindOf w.i == .control
  if isSys a.toNat && kindOf w.i != .memory then
    match sysEntry s w.i a.toNat with
    | some (conn, ra, d0) => if sysGrants acc d0 then .ok (.sys conn ra) else .error (.cause cWindow a)
    | none => .error (.cause cWindow a)
  else if ctrl && decide (a.toNat / 2 ^ 40 = 0x20000) then
    let off := a.toNat % 2 ^ 40
    if !privListed (off / 8 * 8) then .error (.cause cWindow a)
    else if !privMay (acc == .store) k.level (off / 8 * 8) then .error (.cause cPriv a)
    else .ok (.priv off)
  else
    match home s w.i a.toNat with
    | some (h, off) => if ctrl && decide (1 < k.level) then .error (.cause cPriv a) else .ok (.mesh h off)
    | none => .error (.cause cWindow a)

/-- The checks of `ldg` and `stg` before `datauc`, in the order of spec/06 R113. -/
def remCheck (s : State) (w : Who) (acc : Acc3) (a : Word) (n : Nat) : Try RemPlace :=
  match remMap s w acc a with
  | .error e => .error e
  | .ok p =>
    if !guardOk (s.coreAt w.i) acc a.toNat n then .error (.cause cPriv a)
    else if a.toNat % n ≠ 0 || p.isPriv && n != 8 then .error (.cause cAlign a)
    else .ok p

def addPend (x : Ctx) (r : Reg) : Ctx := if r = 0 then x else { x with pend := r :: x.pend }

/-- At most 16 loads and atomics and 64 unacknowledged stores of a context are outstanding (spec/06 R118). -/
def loadRoom (s : State) (w : Who) : Bool := decide ((loadsOut s w).length < 16)
def storeRoom (s : State) (w : Who) : Bool :=
  decide ((storesOut s w).length + (s.sysOut.filter (fun o => o.core == w.i && o.ctx == w.c && o.store)).length < 64)

/-- A memory core injects nothing while its domain is in an exchange phase (spec/17 R296). -/
def mayInject (s : State) (i : Nat) : Bool := kindOf i != .memory || !inPhase s (i % 4096)

/-- Word address, as the instruction named it, of the first uncorrectable word among `n` bytes of a slice. -/
def meshBad (s : State) (h off n : Nat) (a : Word) : Option Word :=
  (badAt s.bad (localBase h + off) n (fun _ => false)).map (fun j => w64 ((a.toNat + j) / 8 * 8))

/-- Port engine that carries an access of a window address. -/
def winPort (a : Word) : Nat := b2n (Config.windowPort (a.toNat / 2 ^ 48 % 256))

/-- A system-window access leaves (spec/23 R382); none when its connection has failed. -/
def sysSend (s : State) (w : Who) (a : Word) (conn : Nat) (store : Bool) (msg : Nat → Msg) : Option State :=
  let p := winPort a
  (connPost s p conn (msg s.nextId)).map (fun s =>
    { s with
      nextId := s.nextId + 1
      sysOut := s.sysOut ++ [{ tag := s.nextId, core := w.i, ctx := w.c, conn := p * 1024 + conn, addr := a, store }] })

/-! ## What is on its way -/

def PKind.isAtomic : PKind → Bool
  | .atom .. | .atomRep .. => true
  | _ => false

/-- A load or an atomic that is still to be performed. -/
def PKind.reads : PKind → Bool
  | .load .. | .atom .. => true
  | _ => false

/-- Home, first byte and length of what a packet accesses; whether it only reads. -/
def PKind.region : PKind → Option (Nat × Nat × Nat × Bool)
  | .load _ h off n => some (h, off, n, true)
  | .store h off n _ => some (h, off, n, false)
  | .atom _ h off w32 _ _ _ => some (h, off, if w32 then 4 else 8, false)
  | _ => none

/-- Two accesses overlap, and one of them writes. -/
def clashes (a b : Nat × Nat × Nat × Bool) : Bool :=
  a.1 == b.1 && decide (a.2.1 < b.2.1 + b.2.2.1) && decide (b.2.1 < a.2.1 + a.2.2.1) && !(a.2.2.2 && b.2.2.2)

/-- The loads over the mesh that come before what context `w` does next and have not read yet. -/
def loadsBefore (s : State) (w : Who) : List Nat :=
  (s.mesh.filter (fun p => p.kind.isPlainLoad && (p.core == w.i && p.ctx == w.c || (s.ctxAt w).inh.contains p.id))).map (·.id)

/-- Every store and atomic that comes before what context `w` does next is performed (spec/22 R372). -/
def storesDone (s : State) (w : Who) : Bool :=
  !s.mesh.any (fun p => (p.kind.isStore || p.kind.isAtomic) && (p.core == w.i && p.ctx == w.c || (s.ctxAt w).inh.contains p.id)) &&
    !s.sysOut.any (fun o => o.core == w.i && o.ctx == w.c && o.store || (s.ctxAt w).inh.contains o.tag)

/-- The own home has nothing of an earlier access to the same bytes still to come: one that was on its way to a page's old home when the page
moved here (spec/06 R118, spec/07 R141). -/
def ownClear (s : State) (w : Who) (off n : Nat) (reads : Bool) : Bool :=
  !s.mesh.any (fun p => (p.core == w.i && p.ctx == w.c || (s.ctxAt w).inh.contains p.id) &&
    p.kind.region.any (clashes (w.i, off, n, reads)))

/-! ## `ldg` and `stg` -/

/-- `ldg` (spec/06 R116 to R118). A bound worker opens or joins its LOAD record at issue (spec/22 R374). -/
def ldgOp (o : Rem) (w : Who) (s : State) : Res :=
  let a := s.rd w o.b
  let n := 8 / 2 ^ o.sz.toNat
  let sz := log2sz n
  Res.ofTry s (fun p => match p with
    | .priv off => .go ((privRead s off).2.wr w o.a (privRead s off).1)
    | .sys conn ra =>
      if !loadRoom s w then .wait s
      else
        let (s1, seq) := openLoad s w sz a n
        match sysSend s1 w a conn false (fun t => .ld (w64 ra) n t) with
        | none => .trap cPorttime a
        | some s2 => .stay (s2.modCtx w (fun x => { x with
          sys := some { tag := s1.nextId, addr := a, rd := o.a, next := s.fall w, n := n, seq := seq } }))
    | .mesh h off =>
      if h = w.i then
        if !ownClear s w off n true then .wait s
        else match meshBad s h off n a with
        | some v => .trap cDatauc v
        | none =>
          let v := zxt (leNat (rdBs s.mem (localBase h + off) n)) 64
          .go ((logAccess s w 0 sz a n (tagInfo s w.i (tagAt s (localBase h + off)))).wr w o.a v)
      else if !loadRoom s w || !mayInject s w.i then .wait s
      else
        let (s1, seq) := openLoad s w sz a n
        .go ((send s1 w.i w.c a (.load o.a h off n) (0, 0) o.ord.isSome seq).modCtx w (fun x => addPend x o.a)))
    (remCheck s w .load a n)

/-- `stg` (spec/06 R116 to R118, spec/22 R372). A `stg.rel` is performed after the loads before it have read (spec/07 R140): over the mesh its
packet waits for them, at its own home and through the windows its issue does (DEDUCED, log entry 98). -/
def stgOp (o : Rem) (w : Who) (s : State) : Res :=
  let a := s.rd w o.b
  let n := 8 / 2 ^ o.sz.toNat
  let v := s.rd w o.a
  let sz := log2sz n
  match (if o.ord = some .sys then sysFailed s w else none) with
  | some r => r
  | none =>
    Res.ofTry s (fun p =>
      let before := if o.ord.isSome then loadsBefore s w else []
      if o.ord.isSome && !storesDone s w then .wait s
      else match p with
        | .priv off => if before.isEmpty then .go (privWrite s off v) else .wait s
        | .sys conn ra =>
          if !storeRoom s w || !before.isEmpty then .wait s
          else
            let s1 := logAccess s w 1 sz a n 0
            match sysSend s1 w a conn true (fun t => .st (w64 ra) n t (zxt v.toNat (8 * n))) with
            | some s2 => .go s2
            | none => .go (s1.modCtx w (fun x => { x with sysFail := some (x.sysFail.getD a) }))
        | .mesh h off =>
          if h = w.i then
            if !before.isEmpty || !ownClear s w off n false then .wait s
            else
            let s1 := logAccess s w 1 sz a n 0
            .go (put s1 (localBase h + off) (natLE n v.toNat) (storeTag s1 w.i 1))
          else if !storeRoom s w || !mayInject s w.i then .wait s
          else
            let s1 := logAccess s w 1 sz a n 0
            .go (send s1 w.i w.c a (.store h off n (zxt v.toNat (8 * n))) (storeTag s1 w.i 1) (loads := before)))
      (remCheck s w .store a n)

def execLdg (o : Rem) : State → Outcome := issue (.ldg o) (ldgOp o)
def execStg (o : Rem) : State → Outcome := issue (.stg o) (stgOp o)

/-! ## Rows that name one word of the privileged window

Each is the `stg` when its address is of its kind, and issues as that `stg`; an address of another kind is no such row, and nothing
happens. -/

def privRow (p : Nat → Bool) (o : Rem) (w : Who) (s : State) : Res :=
  match remMap s w .store (s.rd w o.b) with
  | .ok (.priv off) => if p (off / 8 * 8) then stgOp o w s else .wait s
  | _ => .wait s

def execKeySlotStore (o : Rem) : State → Outcome :=
  issue (.stg o) (privRow (fun f => privUnit f == 3) o)
def execMeasExtend (o : Rem) : State → Outcome :=
  issue (.stg o) (privRow (fun f => privUnit f == 9 && decide (privIn f / 0x1000 = 1) && privIn f % 64 == 0x30) o)
def execSdigWrite (o : Rem) : State → Outcome :=
  issue (.stg o) (privRow (fun f => privUnit f == 9 && decide (privIn f / 0x1000 = 2)) o)
def execMwgtStore (o : Rem) : State → Outcome :=
  issue (.stg o) (privRow (fun f => privUnit f == 1 && privIn f % 0x1000 == 0x100) o)
def execMslotStore (o : Rem) : State → Outcome :=
  issue (.stg o) (privRow (fun f => privUnit f == 1 && decide (0x110 ≤ privIn f % 0x1000)) o)
def execTlbInvalidateStore (o : Rem) : State → Outcome :=
  issue (.stg o) (privRow (fun f => privUnit f == 2 && privIn f % 0x1000 == 8) o)
def execRootWordStore (o : Rem) : State → Outcome :=
  issue (.stg o) (privRow (fun f => privUnit f == 2 && privIn f % 0x1000 == 0) o)
def execPrivilegedWrite (o : Rem) : State → Outcome := issue (.stg o) (privRow (fun _ => true) o)

/-! ## Atomics -/

/-- Signed reading of a value of `n` bits. -/
def sgn (n v : Nat) : Int := if v < 2 ^ (n - 1) then (v : Int) else (v : Int) - 2 ^ n

/-- FP32 maximum of spec/06 R121. -/
def fmax32 (old y : Nat) : Nat :=
  let nan (v : Nat) : Bool := decide (0x7F800000 < v % 2 ^ 31)
  let key (v : Nat) : Int := if v < 2 ^ 31 then (v : Int) else -((v % 2 ^ 31 : Nat) : Int) - 1
  if nan old || nan y then 0x7FC00000 else if key old < key y then y else old

/-- The new value (none: unchanged) and the new `st.f` of an atomic at `n` bits (spec/06 Table 6.6, R120). -/
def atomStep (op : AOp) (n old e y : Nat) : Option Nat × Option Bool :=
  match op with
  | .add => (some ((old + y) % 2 ^ n), none)
  | .and => (some (Nat.land old y), none)
  | .or => (some (Nat.lor old y), none)
  | .xor => (some (Nat.xor old y), none)
  | .min => (some (if sgn n old ≤ sgn n y then old else y), none)
  | .max => (some (if sgn n y ≤ sgn n old then old else y), none)
  | .minn => (some (min old y), none)
  | .maxn => (some (max old y), none)
  | .maxf => (some (fmax32 old y), none)
  | .swp => (some y, none)
  | .cas => if old = e then (some y, some false) else (none, some true)
  | .incW => (some (if y ≤ old then 0 else old + 1), none)
  | .faddB => if old + e ≤ y ∧ old + e < 2 ^ n then (some (old + e), some false) else (none, some true)

/-- An address inside some range of a core's address map (spec/01 Table 1.3, spec/17 Table 17.1, spec/25 Table 25.1). Table 1.3 lists the
cluster window for every core; a memory core has none. -/
def inMap (s : State) (w : Who) (a : Nat) : Bool :=
  let k := kindOf w.i
  decide (a < localSize w.i) || (decide (0x40000 ≤ a) && decide (a < 0x50000)) ||
    (k == .worker && decide (0x50000 ≤ a) && decide (a < 0x58000)) ||
    (home s w.i a).isSome || isDramVa a ||
    (k != .memory && isSys a && (sysEntry s w.i a).any (fun e => sysGrants .atomic e.2.2)) ||
    (k == .control && decide (a / 2 ^ 40 = 0x20000) && privListed (a % 2 ^ 40 / 8 * 8))

/-- Execution place of an atomic (spec/06 Table 6.8). -/
inductive AtPlace where
  | own (off : Nat)
  | clus (off : Nat)
  | mesh (home off : Nat)
  | sys (conn addr : Nat)
  deriving DecidableEq, Repr

/-- Checks `window`, `scope`, `priv`, `align` of an atomic (spec/06 R122). On a control core a cluster-scope atomic raises `scope` whatever its
address (spec/25 R396; log entry 107), and the privileged window takes no atomic: `align` (spec/25 R401). -/
def atCheck (s : State) (w : Who) (sc : Scope) (a : Word) (n : Nat) : Try AtPlace :=
  let k := s.coreAt w.i
  let kind := kindOf w.i
  if kind = .control ∧ sc = .clus then .error (.cause cScope a)
  else if !inMap s w a.toNat then .error (.cause cWindow a)
  else if kind = .control ∧ a.toNat / 2 ^ 40 = 0x20000 then
    .error (.cause (if 1 < k.level || !guardOk k .atomic a.toNat n then cPriv else cAlign) a)
  else
    let place : Option AtPlace :=
      match sc with
      | .core => if a.toNat < localSize w.i then some (.own a.toNat) else none
      | .clus => if kind = .worker ∧ 0x54000 ≤ a.toNat ∧ a.toNat < 0x58000 then some (.clus (a.toNat - 0x54000)) else none
      | .dev => (home s w.i a.toNat).map (fun h => .mesh h.1 h.2)
      | .sys => if kind = .memory then none else (sysEntry s w.i a.toNat).map (fun e => .sys e.1 e.2.1)
    match place with
    | none => .error (.cause cScope a)
    | some p =>
      let lvlBad := kind == .control && decide (1 < k.level) && (match p with
        | .mesh _ _ => true
        | _ => false)
      if lvlBad || !guardOk k .atomic a.toNat n then .error (.cause cPriv a)
      else if a.toNat % n ≠ 0 then .error (.cause cAlign a)
      else .ok p

/-- Tag that an atomic sets in the line it writes. -/
def seqTag (i : Nat) (seq : Option Nat) : Nat × Nat := seq.elim (0, 0) (fun n => (i, n))

/-- Stands for a peer of a port engine where a core's number is meant. -/
def peerAgent : Nat := 9000

/-- A device-scope atomic is counted at the home slice's atomic unit, and its page is reported when one other core has made more
than 3,072 of the window's 4,096 (spec/06 R123). -/
def countPage (s : State) (core h off : Nat) : State :=
  let pg := (localBase h + off) / 4096
  let (tot, per) := (mget s.pageCnt pg).getD (0, [])
  let c := (mget per core).getD 0 + 1
  if core ≠ h ∧ core ≠ peerAgent ∧ 3072 < c then
    let vm := (vmOf s h).getD 0
    let r := (partOf s vm).getD ⟨0, 0, 64, 64⟩
    -- the page's number in the VM's window: the redirect that names this frame, or its own home
    let own := ((yOf h - r.y0) * 64 + (xOf h - r.x0)) * 64 + off / 4096
    let pgNo := (s.redirs.find? (fun e => bit e.2.1 63 && bits e.2.1 0 8 == vm &&
      homeVm s vm (bits e.2.1 12 18 * 4096) == some (h, off / 4096 * 4096))).elim own (fun e => bits e.2.1 12 18)
    { s with
      pageCnt := mdel s.pageCnt pg
      migRep := if s.migRep.length < 64 then s.migRep ++ [{ vm, pg := pgNo, home := h, off := off / 4096 * 4096, core }] else s.migRep }
  else if 4096 ≤ tot + 1 then { s with pageCnt := mdel s.pageCnt pg }
  else { s with pageCnt := mset s.pageCnt pg (tot + 1, mset per core c) }

/-- An atomic at bytes of the flat memory: the state, the old value and the flag. `write` performs its write. -/
def atomAt (s : State) (op : AOp) (f n e y : Nat) (write : State → List Byte → State) : State × Nat × Option Bool :=
  let old := leNat (rdBs s.mem f n)
  let r := atomStep op (8 * n) old (e % 2 ^ (8 * n)) (y % 2 ^ (8 * n))
  (match r.1 with
    | some v => write s (natLE n v)
    | none => s, old, r.2)

/-- The result of an atomic lands: gA, and `st.f` when the atomic is conditional. -/
def landAtomic (s : State) (w : Who) (rd : Reg) (old : Nat) (flag : Option Bool) : State :=
  let s := s.wr w rd (w64 old)
  match flag with
  | some f => setFlag s w f
  | none => s

/-- An atomic (spec/06 R119 to R122). -/
def atOp (op : AOp) (o : At) (w : Who) (s : State) : Res :=
  let a := s.rd w o.b
  let n := if o.w32 then 4 else 8
  let e := (s.rd w o.a).toNat
  let y := (s.rd w o.c).toNat
  let rel := o.ord = .rel ∨ o.ord = .ar
  let acq := decide (o.ord = .acq ∨ o.ord = .ar)
  Res.ofTry s (fun p =>
    if rel ∧ !allDone s w then .wait s
    else match p with
      | .own off =>
        let f := localBase w.i + off
        match badAt s.bad f n (fun _ => false) with
        | some j => .trap cDatauc (w64 ((off + j) / 8 * 8))
        | none =>
          let tag := tagAt s f
          let (s1, seq) := openAtomic s w
          let (s2, old, fl) := atomAt s1 op f n e y (fun s bs => put s f bs (seqTag w.i seq))
          .go (landAtomic (sendAtomic s2 w seq (log2sz n) a tag) w o.a old fl)
      | .clus off =>
        let f := atomBase (clusterOf w.i) + off
        match badAt s.bad f n (fun _ => false) with
        | some j => .trap cDatauc (w64 ((a.toNat + j) / 8 * 8))
        | none =>
          let (s1, seq) := openAtomic s w
          let (s2, old, fl) := atomAt s1 op f n e y (fun s bs => put s f bs (0, 0))
          .go (landAtomic (sendAtomic s2 w seq (log2sz n) a (0, 0)) w o.a old fl)
      | .mesh h off =>
        if h = w.i then
          if !ownClear s w off n false then .wait s
          else match meshBad s h off n a with
          | some v => .trap cDatauc v
          | none =>
            let f := localBase h + off
            let tag := tagAt s f
            let (s1, seq) := openAtomic s w
            let (s2, old, fl) := atomAt s1 op f n e y (fun s bs => put s f bs (seqTag w.i seq))
            .go (landAtomic (sendAtomic (countPage s2 w.i h off) w seq (log2sz n) a tag) w o.a old fl)
        else if !loadRoom s w || !mayInject s w.i then .wait s
        else
          let (s1, seq) := openAtomic s w
          .go ((send s1 w.i w.c a (.atom o.a h off o.w32 op (w64 e) (w64 y)) (seqTag w.i seq) acq seq).modCtx w (fun x => addPend x o.a))
      | .sys conn ra =>
        if !loadRoom s w then .wait s
        else
          let (s1, seq) := openAtomic s w
          match sysSend s1 w a conn false (fun t => .at (w64 ra) o.w32 op (w64 e) (w64 y) t) with
          | none => .trap cPorttime a
          | some s2 => .stay (s2.modCtx w (fun x => { x with
            sys := some { tag := s1.nextId, addr := a, rd := o.a, next := s.fall w, n := n, seq := seq, atom := some (op, w64 e, w64 y) } })))
    (atCheck s w o.scope a n)

def execAadd (o : At) : State → Outcome := issue (.aadd o) (atOp .add o)
def execAand (o : At) : State → Outcome := issue (.aand o) (atOp .and o)
def execAor (o : At) : State → Outcome := issue (.aor o) (atOp .or o)
def execAxor (o : At) : State → Outcome := issue (.axor o) (atOp .xor o)
def execAmin (o : At) : State → Outcome := issue (.amin o) (atOp .min o)
def execAmax (o : At) : State → Outcome := issue (.amax o) (atOp .max o)
def execAminn (o : At) : State → Outcome := issue (.aminn o) (atOp .minn o)
def execAmaxn (o : At) : State → Outcome := issue (.amaxn o) (atOp .maxn o)
def execAmaxf (o : At) : State → Outcome := issue (.amaxf o) (atOp .maxf o)
def execAswp (o : At) : State → Outcome := issue (.aswp o) (atOp .swp o)
def execAcas (o : At) : State → Outcome := issue (.acas o) (atOp .cas o)
def execAincW (o : At) : State → Outcome := issue (.aincW o) (atOp .incW o)
def execAfaddB (o : At) : State → Outcome := issue (.afaddB o) (atOp .faddB o)

/-! ## Packets -/

/-- Packet `k` may be performed at its home: no access to the same bytes that is before it in its context, or that happens before it in another
context of its core (spec/06 R118, spec/07 R140, R147), is still on its way, the loads before a release have read, and no exchange phase holds it:
what comes from outside its domain waits at the edge, and none reads the slice of a member (spec/03 R48). -/
def mayPerform (s : State) (k : Nat) (p : Packet) : Bool :=
  match p.kind.region with
  | none => false
  | some g =>
    !heldAtEdge s p.core g.1 && !(p.kind.reads && (s.coreAt g.1).exch.isSome) && !s.mesh.any (fun q => p.loads.contains q.id && q.kind.isPlainLoad) &&
      !(s.mesh.take k).any (fun q => q.core == p.core && (q.ctx == p.ctx || p.after.contains q.id) && q.kind.region.any (clashes g))

/-- Replace packet `k`. -/
def setPkt (s : State) (k : Nat) (p : Packet) : State := { s with mesh := s.mesh.set k p }

/-- The row MESH_ARRIVAL_WRITE: packet `k`, a store or an exchange flit, is retired into its slice, whatever the receiving core is
doing (spec/01 R12). A store becomes its acknowledgement; a flit is counted, also at a member whose `exch` has yet to issue (spec/03 R47). -/
def execMeshArrivalWrite (k : Nat) (s : State) : Outcome :=
  .next (match s.mesh[k]? with
    | none => s
    | some p =>
      match p.kind with
      | .store h off n v =>
        if !mayPerform s k p then s
        else
          let mc := kindOf p.core == .memory
          let s := extWrite s h off (natLE n v.toNat) (if mc then 1 else 0) p.tag (!(mc && p.core % 4096 == h))
          setPkt s k { p with kind := .ack }
      | .flit h off lvl bs =>
        let s := extWrite (dropPkt s k) h off bs 0
        s.modCore h (fun c => { c with
          exch := c.exch.map (fun x => if x.counted || decide (x.t0 + x.span ≤ s.cyc) then x else { x with cnt := x.cnt + 1 })
          exEarly := if c.exReady == some lvl then c.exEarly + 1 else c.exEarly })
      | _ => s)

/-- The row REMOTE_LOAD_SERVE: packet `k` reads its home slice; an uncorrectable word poisons the reply (spec/06 R111). -/
def execRemoteLoadServe (k : Nat) (s : State) : Outcome :=
  .next (match s.mesh[k]? with
    | none => s
    | some p =>
      match p.kind with
      | .load rd h off n =>
        if !mayPerform s k p then s
        else setPkt s k { p with
          tag := tagAt s (localBase h + off)
          kind := .loadRep rd n (w64 (leNat (rdBs s.mem (localBase h + off) n))) (meshBad s h off n p.addr) }
      | _ => s)

/-- A result lands at its context: its register is pending no more (spec/03 R50). -/
def landed (s : State) (w : Who) (rd : Reg) : State := s.modCtx w (fun x => { x with pend := x.pend.erase rd })

/-- A poisoned reply: the requester takes `datauc` with the global address, at the instruction (spec/06 R111, spec/03 R53). -/
def poisoned (s : State) (w : Who) (v pc : Word) : State := s.modCtx w (fun x => { x with kept := x.kept ++ [(0x0C, v, some pc)] })

/-- The row REMOTE_LOAD_REPLY: the result of packet `k` lands. -/
def execRemoteLoadReply (k : Nat) (s : State) : Outcome :=
  .next (match s.mesh[k]? with
    | none => s
    | some p =>
      match p.kind with
      | .loadRep rd n v poison =>
        let s := dropPkt s k
        let w : Who := ⟨p.core, p.ctx % 100, p.core⟩
        let gone := ctxEnded p.ctx || poison.isSome
        let s := landLoad s w p.seq (log2sz n) p.addr n (if poison.isSome then 0 else tagInfo s w.i p.tag) gone
        if ctxEnded p.ctx then s
        else
          let s := landed s w rd
          match poison with
          | some g => poisoned s w g p.pc
          | none => s.wr w rd v
      | _ => s)

/-- The row STORE_ACK: the acknowledgement of packet `k` reaches its issuer (spec/06 R118). -/
def execStoreAck (k : Nat) (s : State) : Outcome :=
  .next (match s.mesh[k]? with
    | none => s
    | some p =>
      match p.kind with
      | .ack => dropPkt s k
      | _ => s)

/-- The row ATOMIC_EXECUTE: packet `k` is performed at its home slice's atomic unit (spec/06 R122, R123). -/
def execAtomicExecute (k : Nat) (s : State) : Outcome :=
  .next (match s.mesh[k]? with
    | none => s
    | some p =>
      match p.kind with
      | .atom rd h off w32 op e y =>
        if !mayPerform s k p then s
        else
          let n := if w32 then 4 else 8
          let f := localBase h + off
          match meshBad s h off n p.addr with
          | some v => setPkt s k { p with kind := .atomRep rd w32 0 none (some v) }
          | none =>
            let tag := tagAt s f
            let (s1, old, fl) := atomAt s op f n e.toNat y.toNat (fun s bs => extWrite s h off bs 1 p.tag)
            setPkt (countPage s1 p.core h off) k { p with tag, kind := .atomRep rd w32 (w64 old) fl none }
      | _ => s)

/-- The row ATOMIC_REPLY: the result of packet `k` lands. -/
def execAtomicReply (k : Nat) (s : State) : Outcome :=
  .next (match s.mesh[k]? with
    | none => s
    | some p =>
      match p.kind with
      | .atomRep rd w32 v fl poison =>
        let s := dropPkt s k
        let w : Who := ⟨p.core, p.ctx % 100, p.core⟩
        let s := sendAtomic s w p.seq (if w32 then 2 else 3) p.addr (if poison.isSome then (0, 0) else p.tag)
        if ctxEnded p.ctx then s
        else
          let s := landed s w rd
          match poison with
          | some g => poisoned s w g p.pc
          | none => landAtomic s w rd v.toNat fl
      | _ => s)

end Sys2Proof.Machine
end

