-- ==== Sys2Proof/Machine/NumFmt.lean ====
section
/-!
DEFINITION. Number formats (spec/11): exact values, the value of every code under its reading, narrowing an exact value
into a format (R201, R202, Table 11.4), the threshold of stochastic rounding (R203, R204), and the special functions of
`vrcp` to `vtanh` (spec/13 R228).
-/
namespace Sys2Proof.Machine

/-! ## Exact values -/

/-- An exact value: a dyadic number with its sign (so that −0 is kept), an infinity, or a NaN. -/
inductive Val where
  | fin (neg : Bool) (m : Nat) (e : Int)
  | inf (neg : Bool)
  | nan
  deriving DecidableEq, Repr

/-- A magnitude in units of `2 ^ lo`, for `lo` at or below its exponent. -/
def lift (m : Nat) (e lo : Int) : Nat := m * 2 ^ (e - lo).toNat

def Val.zero : Val := .fin false 0 0
def Val.ofInt (n : Int) : Val := .fin (decide (n < 0)) n.natAbs 0

def Val.isNan : Val → Bool
  | .nan => true
  | _ => false
def Val.isInf : Val → Bool
  | .inf _ => true
  | _ => false
def Val.isZero : Val → Bool
  | .fin _ m _ => m == 0
  | _ => false
def Val.neg? : Val → Bool
  | .fin n _ _ | .inf n => n
  | .nan => false

def Val.scale (k : Int) : Val → Val
  | .fin n m e => .fin n m (e + k)
  | v => v
def Val.negate : Val → Val
  | .fin n m e => .fin (!n) m e
  | .inf n => .inf (!n)
  | .nan => .nan
def Val.abs : Val → Val
  | .fin _ m e => .fin false m e
  | .inf _ => .inf false
  | .nan => .nan

/-- Exact sum. A zero sum is −0 only when both operands are negative zeros (IEEE 754, spec/11 R202). -/
def Val.add : Val → Val → Val
  | .nan, _ | _, .nan => .nan
  | .inf a, .inf b => if a = b then .inf a else .nan
  | .inf a, _ | _, .inf a => .inf a
  | .fin a m e, .fin b n f =>
    let lo := min e f
    let x := lift m e lo
    let y := lift n f lo
    if a = b then .fin a (x + y) lo
    else if y < x then .fin a (x - y) lo
    else if x < y then .fin b (y - x) lo
    else .fin false 0 lo

def Val.sub (x y : Val) : Val := x.add y.negate

/-- Exact product; an infinity times zero is a NaN. -/
def Val.mul : Val → Val → Val
  | .nan, _ | _, .nan => .nan
  | .inf a, .inf b => .inf (a != b)
  | .inf a, .fin b n _ | .fin b n _, .inf a => if n = 0 then .nan else .inf (a != b)
  | .fin a m e, .fin b n f => .fin (a != b) (m * n) (e + f)

/-- Order of two values that are no NaN; −0 equals +0. -/
def Val.lt : Val → Val → Bool
  | .nan, _ | _, .nan => false
  | .inf a, .inf b => a && !b
  | .inf a, .fin .. => a
  | .fin .., .inf b => !b
  | .fin a m e, .fin b n f =>
    let lo := min e f
    let x := lift m e lo
    let y := lift n f lo
    if x = 0 ∧ y = 0 then false
    else match a, b with
      | false, false => decide (x < y)
      | true, true => decide (y < x)
      | true, false => true
      | false, true => false

def Val.eqv (x y : Val) : Bool := !x.isNan && !y.isNan && !x.lt y && !y.lt x

/-- Order of `vmin` and `vmax`: as `lt`, with −0 below +0 (spec/13 R223). -/
def Val.below (x y : Val) : Bool := x.lt y || (x.isZero && y.isZero && x.neg? && !y.neg?)

/-! ## Choosing between two adjacent magnitudes (spec/11 R201, R204, spec/12 R209) -/

/-- Ties to even, ties to the larger value, toward zero, or stochastic with a threshold. -/
inductive Pick where
  | even | up | zero | sr (thr : Nat)
  deriving DecidableEq, Repr

/-- Take the larger magnitude when |x| lies `num / den` of the way from a to b, `odd` telling whether a is odd. -/
def Pick.takes (p : Pick) (neg odd : Bool) (num den : Nat) : Bool :=
  if num = 0 then false
  else match p with
    | .even => decide (den < 2 * num) || (decide (den = 2 * num) && odd)
    | .up => decide (den < 2 * num) || (decide (den = 2 * num) && !neg)
    | .zero => false
    | .sr thr => decide (thr < num * 2 ^ 32 / den)

/-- How an instruction rounds: the choice and `.sat` (spec/11 R200). -/
structure How where
  pick : Pick := .even
  sat : Bool := false
  deriving DecidableEq, Repr

/-- The threshold of an element (spec/11 R203). -/
def mixWord (z : Word) : Word :=
  let z := (z ^^^ (z >>> 30)) * 0xBF58476D1CE4E5B9
  let z := (z ^^^ (z >>> 27)) * 0x94D049BB133111EB
  z ^^^ (z >>> 31)

def threshold (seed : Word) (stream idx : Nat) : Nat :=
  (mixWord (seed ^^^ (w64 stream <<< 40) ^^^ w64 idx)).toNat / 2 ^ 32

/-! ## Binary floating-point formats (spec/11 Table 11.2) -/

structure FF where
  eb : Nat
  mb : Nat
  bias : Nat
  deriving DecidableEq, Repr

def ff32 : FF := ⟨8, 23, 127⟩
def ffB16 : FF := ⟨8, 7, 127⟩
def ffE4 : FF := ⟨4, 3, 7⟩
def ffE5 : FF := ⟨5, 2, 15⟩
def ffE2 : FF := ⟨2, 1, 1⟩

def FF.infCode (f : FF) : Nat := (2 ^ f.eb - 1) * 2 ^ f.mb

/-- Magnitude code of the largest finite value (spec/11 Table 11.3). -/
def FF.largest (f : FF) : Reading → Nat
  | .finite => 2 ^ (f.eb + f.mb) - 1
  | .nanOnly => 2 ^ (f.eb + f.mb) - 2
  | .ieee => f.infCode - 1

/-- Code of a NaN result. -/
def FF.nanCode (f : FF) : Reading → Nat
  | .finite => 0
  | .nanOnly => 2 ^ (f.eb + f.mb) - 1
  | .ieee => f.infCode + 2 ^ (f.mb - 1)

/-- Value of a magnitude code that is not special (spec/11 R194). -/
def FF.mag (f : FF) (neg : Bool) (c : Nat) : Val :=
  let e := c / 2 ^ f.mb
  let m := c % 2 ^ f.mb
  if e = 0 then .fin neg m (1 - (f.bias : Int) - f.mb)
  else .fin neg (2 ^ f.mb + m) ((e : Int) - f.bias - f.mb)

/-- Value of a code under its reading (spec/11 R195, R196). -/
def FF.val (f : FF) (r : Reading) (code : Nat) : Val :=
  let neg := code / 2 ^ (f.eb + f.mb) % 2 == 1
  let c := code % 2 ^ (f.eb + f.mb)
  match r with
  | .finite => f.mag neg c
  | .nanOnly => if c = 2 ^ (f.eb + f.mb) - 1 then .nan else f.mag neg c
  | .ieee => if c < f.infCode then f.mag neg c else if c = f.infCode then .inf neg else .nan

/-- Magnitude code nearest to `m * 2 ^ e` by `p`, as if the exponent had no upper limit (spec/11 R201). -/
def FF.round (f : FF) (p : Pick) (neg : Bool) (m : Nat) (e : Int) : Nat :=
  if m = 0 then 0
  else
    let q : Int := max ((Nat.log2 m : Int) + e - f.mb) (1 - (f.bias : Int) - f.mb)
    let a := if q ≤ e then lift m e q else m / 2 ^ (q - e).toNat
    let num := if q ≤ e then 0 else m % 2 ^ (q - e).toNat
    let k := a + b2n (p.takes neg (a % 2 == 1) num (2 ^ (q - e).toNat))
    if k < 2 ^ f.mb then k else (q + f.mb + f.bias - 1).toNat * 2 ^ f.mb + k

/-- What Table 11.4 gives an overflow or an infinity: the largest finite value, a NaN or an infinity. -/
inductive Over where
  | largest | nan | inf
  deriving DecidableEq, Repr

def overOf (r : Reading) (h : How) (infinite : Bool) : Over :=
  if h.sat then .largest
  else match r with
    | .finite => .largest
    | .nanOnly => if !infinite && h.pick == .zero then .largest else .nan
    | .ieee => if !infinite && h.pick == .zero then .largest else .inf

def FF.over (f : FF) (r : Reading) (h : How) (infinite neg : Bool) : Nat :=
  let sgn := b2n neg * 2 ^ (f.eb + f.mb)
  match overOf r h infinite with
  | .largest => sgn + f.largest r
  | .nan => f.nanCode r
  | .inf => sgn + f.infCode

/-- `narrow(x, F, mode, sat)` (spec/11 R201, Table 11.4). -/
def FF.narrow (f : FF) (r : Reading) (h : How) : Val → Nat
  | .nan => f.nanCode r
  | .inf neg => f.over r h true neg
  | .fin neg m e =>
    let c := f.round h.pick neg m e
    if f.largest r < c then f.over r h false neg else b2n neg * 2 ^ (f.eb + f.mb) + c

/-! ## LNS6 (spec/11 R197) -/

/-- Table fractions in 256ths. -/
def lnsT (f : Nat) : Nat := match f with
  | 0 => 0x100
  | 1 => 0x130
  | 2 => 0x16A
  | _ => 0x1AF

/-- Magnitude of the logarithm `k`, in quarters. -/
def lnsMag (neg : Bool) (k : Int) : Val := .fin neg (lnsT (k % 4).toNat) (k / 4 - 8)

/-- Logarithm of a code. -/
def lnsLog (c : Nat) : Int := if c % 32 < 16 then c % 32 else (c % 32 : Int) - 32

def lnsVal (c : Nat) : Val :=
  if c % 32 = 16 then (if c / 32 % 2 = 1 then .nan else .zero) else lnsMag (c / 32 % 2 == 1) (lnsLog c)

/-- Product of two LNS6 codes (spec/11 R198). -/
def lnsMul (a b : Nat) : Val :=
  if (lnsVal a).isNan || (lnsVal b).isNan then .nan
  else if (lnsVal a).isZero || (lnsVal b).isZero then .zero
  else lnsMag ((a / 32 % 2 == 1) != (b / 32 % 2 == 1)) (lnsLog a + lnsLog b)

/-- Logarithm of the largest magnitude of the unlimited set at or below `m * 2 ^ e`; −16 stands for zero. -/
def lnsFloor (m : Nat) (e : Int) : Int :=
  let q := (Nat.log2 m : Int) + e
  let at_ (f : Nat) : Bool := !(Val.fin false m e).lt (.fin false (lnsT f) (q - 8))
  let k := 4 * q + (if at_ 3 then 3 else if at_ 2 then 2 else if at_ 1 then 1 else 0)
  if m = 0 then -16 else max k (-16)

/-- Narrowing to LNS6: the NaN-only column on overflow, zero is code 0x10. -/
def lnsNarrow (h : How) : Val → Nat
  | .nan => 0x30
  | .inf neg => if h.sat then b2n neg * 32 + 15 else 0x30
  | .fin neg m e =>
    let k := lnsFloor m e
    let a : Val := if k = -16 then .zero else lnsMag false k
    let b : Val := lnsMag false (k + 1)
    let up := match (Val.fin false m e).sub a, b.sub a with
      | .fin _ x ex, .fin _ y ey =>
        h.pick.takes neg (k % 2 == 1) (lift x ex (min ex ey)) (lift y ey (min ex ey))
      | _, _ => false
    let k' := if m = 0 then -16 else if up then k + 1 else k
    if k' = -16 then 0x10
    else if 15 < k' then
      (if h.sat || h.pick == .zero then b2n neg * 32 + 15 else 0x30)
    else b2n neg * 32 + (k' % 32).toNat

/-! ## Integers (spec/11 R202) -/

/-- A finite value rounded to an integer. -/
def roundInt (p : Pick) (neg : Bool) (m : Nat) (e : Int) : Int :=
  let a := if 0 ≤ e then lift m e 0 else m / 2 ^ (-e).toNat
  let num := if 0 ≤ e then 0 else m % 2 ^ (-e).toNat
  let k : Nat := a + b2n (p.takes neg (a % 2 == 1) num (2 ^ (-e).toNat))
  if neg then -(k : Int) else k

def intMin (w : Nat) (sgn : Bool) : Int := if sgn then -(2 ^ (w - 1) : Int) else 0
def intMax (w : Nat) (sgn : Bool) : Int := if sgn then 2 ^ (w - 1) - 1 else 2 ^ w - 1
def clampInt (w : Nat) (sgn : Bool) (n : Int) : Int := max (intMin w sgn) (min (intMax w sgn) n)
/-- The low `w` bits of an integer. -/
def intBits (w : Nat) (n : Int) : Nat := (n % (2 ^ w : Int)).toNat
/-- An integer result: clamped with `.sat`, else wrapped (spec/13 R223). -/
def intResult (w : Nat) (sgn sat : Bool) (n : Int) : Nat := intBits w (if sat then clampInt w sgn n else n)
/-- The integer that a code of width `w` stands for. -/
def intOf (w : Nat) (sgn : Bool) (c : Nat) : Int := if sgn && decide (2 ^ (w - 1) ≤ c) then (c : Int) - 2 ^ w else c

/-- Floating-point to integer: rounded, then clamped; a NaN gives 0 (spec/11 R202). -/
def narrowInt (w : Nat) (sgn : Bool) (p : Pick) : Val → Nat
  | .nan => 0
  | .inf neg => intBits w (if neg then intMin w sgn else intMax w sgn)
  | .fin neg m e =>
    if 200 < (Nat.log2 m : Int) + e then intBits w (if neg then intMin w sgn else intMax w sgn)
    else intBits w (clampInt w sgn (roundInt p neg m e))

/-! ## A format of Table 11.1 -/

inductive NFmt where
  | flt (f : FF) (r : Reading)
  | lns
  | int (w : Nat) (sgn : Bool)
  deriving DecidableEq, Repr

def NFmt.width : NFmt → Nat
  | .flt f _ => 1 + f.eb + f.mb
  | .lns => 6
  | .int w _ => w

def NFmt.val : NFmt → Nat → Val
  | .flt f r, c => f.val r c
  | .lns, c => lnsVal c
  | .int w sgn, c => .ofInt (intOf w sgn c)

/-- Narrowing of an exact value by R201 or R202. -/
def NFmt.narrow (h : How) : NFmt → Val → Nat
  | .flt f r, v => f.narrow r h v
  | .lns, v => lnsNarrow h v
  | .int w sgn, v => narrowInt w sgn h.pick v

/-- Largest finite value (spec/11 Table 11.3, spec/13 R232). -/
def NFmt.top : NFmt → Val
  | .flt f r => f.mag false (f.largest r)
  | .lns => lnsMag false 15
  | .int w sgn => .ofInt (intMax w sgn)

def NFmt.isFloat : NFmt → Bool
  | .int .. => false
  | _ => true

/-- Format of a page-1 type under a reading (spec/11 R191). The 64-bit integer is signed: spec/11 R193 leaves its reading to the instruction,
spec/13 R223 names it signed where it stands for an integer result, and R225 (`vcmp`) and R229 (`vcvt`) name none (DEDUCED, log entry 11). -/
def fmtOf (t : ETy) (r : Reading := .finite) : NFmt :=
  match t with
  | .f32 => .flt ff32 .ieee
  | .bf16 => .flt ffB16 .ieee
  | .e4m3 => .flt ffE4 r
  | .e5m2 => .flt ffE5 r
  | .e2m1 => .flt ffE2 r
  | .l6 => .lns
  | .s4 => .int 4 true
  | .idx3 => .int 3 false
  | .n8 => .int 8 false
  | .s8 => .int 8 true
  | .n16 => .int 16 false
  | .s16 => .int 16 true
  | .n32 => .int 32 false
  | .s32 => .int 32 true
  | .i64 => .int 64 true
  | .np => .int 8 false

/-- FP32 code of an exact value, ties to even (`round32` of the spec), and the value of an FP32 code. -/
def round32 (v : Val) : Nat := ff32.narrow .ieee {} v
def val32 (c : Nat) : Val := ff32.val .ieee c

/-! ## Special functions (spec/13 R228, Table 13.4)

A function value that is no dyadic number is taken to 300 bits or more with a last bit that stands for the rest: no such
value of an FP32 or BF16 operand comes that close to a point where the rounding changes. -/

/-- Floor of the square root below `2 ^ n`. -/
def isqrtFrom : Nat → Nat → Nat → Nat
  | 0, _, r => r
  | n + 1, x, r => isqrtFrom n x (if (r + 2 ^ n) * (r + 2 ^ n) ≤ x then r + 2 ^ n else r)

/-- A value with a sticky bit below its last one. -/
def sticky (neg : Bool) (m : Nat) (e : Int) (exact : Bool) : Val := .fin neg (2 * m + b2n (!exact)) (e - 1)

def recip (neg : Bool) (m : Nat) (e : Int) : Val :=
  let k := Nat.log2 m + 300
  sticky neg (2 ^ k / m) (-e - k) (2 ^ k % m == 0)

def rsqrt (m : Nat) (e : Int) : Val :=
  let k := Nat.log2 m + 600
  let k := if (e + k) % 2 = 0 then k else k + 1
  let y := 2 ^ k / m
  let s := isqrtFrom 310 y 0
  sticky false s ((-e - k) / 2) (2 ^ k % m == 0 && s * s == y)

/-- Places of the fixed-point numbers, and ln 2 in them. -/
def fxP : Nat := 320
def fxLn2 : Nat := 0xb17217f7d1cf79abc9e3b39803f2f6af40f343267298b62d8a0d175b8baafa2be7b876206debac98

/-- exp y for 0 ≤ y < 1, by its series. -/
def expTerms (y : Nat) : Nat → Nat → Nat → Nat
  | 0, _, _ => 0
  | n + 1, k, t => t + expTerms y n (k + 1) (t * y / 2 ^ fxP / k)

def expFx (y : Nat) : Nat := expTerms y 90 1 (2 ^ fxP)

/-- ln x for 1 ≤ x < 2, by the series of the inverse hyperbolic tangent. -/
def lnTerms (z2 : Nat) : Nat → Nat → Nat → Nat
  | 0, _, _ => 0
  | n + 1, k, p => p / (2 * k + 1) + lnTerms z2 n (k + 1) (p * z2 / 2 ^ fxP)

def lnFx (x : Nat) : Nat :=
  let z := (x - 2 ^ fxP) * 2 ^ fxP / (x + 2 ^ fxP)
  2 * lnTerms (z * z / 2 ^ fxP) 110 0 z

/-- `2 ^ f` for a fraction in fixed point. -/
def exp2Fx (f : Nat) : Nat := expFx (f * fxLn2 / 2 ^ fxP)

/-- A magnitude in fixed point: its value times `2 ^ fxP`, with what falls below cut off. -/
def fxOf (m : Nat) (e : Int) : Nat := if 0 ≤ e + fxP then m * 2 ^ (e + fxP).toNat else m / 2 ^ (-(e + fxP)).toNat

def exp2Val (neg : Bool) (m : Nat) (e : Int) : Val :=
  if m = 0 then .fin false 1 0
  else if 11 ≤ (Nat.log2 m : Int) + e then .fin false 1 (if neg then -2000 else 2000)
  else
    let x := fxOf m e
    let n := x / 2 ^ fxP
    let f := x % 2 ^ fxP
    if f = 0 then .fin false 1 (if neg then -(n : Int) else n)
    else if neg then sticky false (exp2Fx (2 ^ fxP - f)) (-(n : Int) - 1 - fxP) false
    else sticky false (exp2Fx f) ((n : Int) - fxP) false

def log2Val (m : Nat) (e : Int) : Val :=
  let l := Nat.log2 m
  let ex : Int := e + l
  if m = 2 ^ l then .ofInt ex
  else
    let fr := lnFx (m * 2 ^ (fxP - l)) * 2 ^ fxP / fxLn2
    if 0 ≤ ex then sticky false (ex.toNat * 2 ^ fxP + fr) (-(fxP : Int)) false
    else sticky true ((-ex).toNat * 2 ^ fxP - fr - 1) (-(fxP : Int)) false

def tanhVal (neg : Bool) (m : Nat) (e : Int) : Val :=
  let l := (Nat.log2 m : Int) + e
  if m = 0 then .fin neg 0 0
  else if 6 ≤ l then .fin neg (2 ^ 80 - 1) (-80)
  else if l < -40 then .fin neg (m * 2 ^ 80 - 1) (e - 80)
  else
    let t := fxOf (2 * m) e * 2 ^ fxP / fxLn2
    let ex := exp2Fx (t % 2 ^ fxP) * 2 ^ (t / 2 ^ fxP)
    sticky neg ((ex - 2 ^ fxP) * 2 ^ fxP / (ex + 2 ^ fxP)) (-(fxP : Int)) false

def rcpFn : Val → Val
  | .nan => .nan
  | .inf n => .fin n 0 0
  | .fin n m e => if m = 0 then .inf n else recip n m e

def rsqFn : Val → Val
  | .nan => .nan
  | .inf n => if n then .nan else .zero
  | .fin n m e => if m = 0 then .inf n else if n then .nan else rsqrt m e

def exp2Fn : Val → Val
  | .nan => .nan
  | .inf n => if n then .zero else .inf false
  | .fin n m e => exp2Val n m e

def log2Fn : Val → Val
  | .nan => .nan
  | .inf n => if n then .nan else .inf false
  | .fin n m e => if m = 0 then .inf true else if n then .nan else log2Val m e

def tanhFn : Val → Val
  | .nan => .nan
  | .inf n => .fin n 1 0
  | .fin n m e => tanhVal n m e

end Sys2Proof.Machine
end

