-- ==== Sys2Proof/Machine/Tensor.lean ====
section
/-!
DEFINITION. Tensor descriptors (spec/01 R20, R21), element and scale addresses (spec/11 R192, R199, spec/12 R211), the
value and the encoding of plane-stored elements (spec/12 R208, R209), and reading and writing a plane group (R212 to R216).
-/
namespace Sys2Proof.Machine

/-! ## Descriptors -/

/-- Format of a code of spec/01 Table 1.8. -/
def fmtOfCode : Nat → Option ETy
  | 0x00 => some .n8 | 0x01 => some .s8 | 0x02 => some .n16 | 0x03 => some .s16 | 0x04 => some .n32 | 0x05 => some .s32
  | 0x06 => some .i64 | 0x10 => some .f32 | 0x11 => some .bf16 | 0x12 => some .e4m3 | 0x13 => some .e5m2
  | 0x14 => some .e2m1 | 0x15 => some .l6 | 0x16 => some .s4 | 0x20 => some .np | 0x30 => some .idx3
  | _ => none

/-- Fields of the control word (spec/01 Table 1.7). -/
def TD.ty (t : TD) : ETy := (fmtOfCode (bits t.ctl 0 8)).getD .n8
def TD.pst (t : TD) : Nat := bits t.ctl 8 2
def TD.prd (t : TD) : Nat := bits t.ctl 10 2
def TD.nan (t : TD) : Reading := match bits t.ctl 12 2 with
  | 0 => .finite
  | 1 => .nanOnly
  | _ => .ieee
def TD.rank (t : TD) : Nat := bits t.ctl 16 4
def TD.stream (t : TD) : Nat := bits t.ctl 32 16
def TD.scl (t : TD) : Bool := bit t.ctl 48
def TD.lowok (t : TD) : Bool := bit t.ctl 49
def TD.srnd (t : TD) : Bool := bit t.ctl 50

/-- A descriptor from its 128 bytes (spec/01 Table 1.6). -/
def parseTd (addr : Word) (bs : List Byte) : TD :=
  { addr
    base := w64 (leNat (bs.take 8))
    ctl := w64 (leNat ((bs.drop 8).take 8))
    sbase := w64 (leNat ((bs.drop 16).take 8))
    pstride := w64 (leNat ((bs.drop 24).take 8))
    ext := (List.range 8).map (fun d => leNat ((bs.drop (0x20 + 4 * d)).take 4))
    str := (List.range 8).map (fun d => w64 (leNat ((bs.drop (0x40 + 8 * d)).take 8))) }

def TD.e (t : TD) (d : Nat) : Nat := t.ext.getD d 0
def TD.s (t : TD) (d : Nat) : Int := (t.str.getD d 0).toInt

/-- Formats narrower than a byte, and the narrow floats with np. -/
def subByte : ETy → Bool
  | .e2m1 | .l6 | .s4 | .idx3 => true
  | _ => false
def narrowFloat : ETy → Bool
  | .e4m3 | .e5m2 | .e2m1 => true
  | _ => false

/-- The checks of spec/01 R21; a descriptor that fails one raises `planefmt`. -/
def TD.ok (t : TD) : Bool :=
  match fmtOfCode (bits t.ctl 0 8) with
  | none => false
  | some f =>
    decide (1 ≤ t.rank) && decide (t.rank ≤ 8) && t.pst != 0 && t.prd != 0 && decide (t.prd ≤ t.pst) &&
    (f == .np || (t.pst == 1 && t.prd == 1)) &&
    !(bits t.ctl 12 2 == 3 && (narrowFloat f || f == .np)) &&
    (!subByte f || t.str.getD 0 0 == 1)

/-- Format of an element: plane 0 of np is e4m3 (spec/12 R208). -/
def TD.fmt (t : TD) : NFmt := fmtOf (if t.ty = .np then .e4m3 else t.ty) t.nan
def TD.width (t : TD) : Nat := t.fmt.width

/-- Product of extents `d` to rank − 1. -/
def TD.prod (t : TD) (d : Nat) : Nat := (List.range (t.rank - d)).foldl (fun p k => p * t.e (d + k)) 1

/-- Number of rows, R of spec/13 R240. -/
def TD.rows (t : TD) : Nat := t.prod 1

/-- Contribution of dimensions `d` and above of row index `r` to the element index sum; the last dimension takes all
that is left. -/
def TD.rowSum (t : TD) : Nat → Nat → Nat → Int
  | 0, _, _ => 0
  | n + 1, d, r =>
    if n = 0 then r * t.s d
    else r % max (t.e d) 1 * t.s d + t.rowSum n (d + 1) (r / max (t.e d) 1)

/-- Bit address of element `i0` of row `r` (spec/11 R192, spec/12 R211). -/
def TD.elemBit (t : TD) (i0 r : Nat) : Int :=
  8 * t.base.toNat + t.width * (i0 * t.s 0 + t.rowSum (t.rank - 1) 1 r)

/-- Byte address of plane `j` of an element. -/
def TD.planeAt (t : TD) (i0 r j : Nat) : Int := t.elemBit i0 r / 8 + j * t.pstride.toInt

/-- The format has block scales (spec/11 R199). -/
def TD.scaled (t : TD) : Bool :=
  t.scl && (match t.ty with
    | .e4m3 | .e5m2 | .e2m1 | .l6 | .s4 | .s8 | .np => true
    | _ => false)

/-- Address of the scale byte of an element's block. -/
def TD.scaleAt (t : TD) (i0 r : Nat) : Int := t.sbase.toNat + i0 / 32 + ((t.e 0 + 31) / 32) * r

/-- Linear index for the threshold (spec/11 R203). -/
def TD.lin (t : TD) (i0 r : Nat) : Nat := (i0 + t.e 0 * r) % 2 ^ 64

/-! ## Plane values (spec/12 R208, R209) -/

/-- Exponent of ulp(p0). -/
def ulpExp (p0 : Nat) : Int := if p0 / 8 % 16 = 0 then -9 else (p0 / 8 % 16 : Int) - 10

/-- Value of the leading `k` planes of `p` at scale `c`. -/
def planeVal (p : List Nat) (k c : Nat) (r : Reading) : Val :=
  if c = 0xFF then .nan
  else
    let v := ffE4.val r (p.getD 0 0)
    if v.isNan || v.isInf then v
    else
      let t : Int := (if 2 ≤ k then intOf 8 true (p.getD 1 0) * 256 else 0) + (if k = 3 then intOf 8 true (p.getD 2 0) else 0)
      let v := if t = 0 then v else v.add (.fin (decide (t < 0)) t.natAbs (ulpExp (p.getD 0 0) - 16))
      v.scale ((c : Int) - 127)

/-- Signed integer part (floor) and the fraction, as a numerator and denominator, of a finite value. -/
def floorVal : Val → Int × Nat × Nat
  | .fin neg m e =>
    let n : Int := if neg then -(m : Int) else m
    if 0 ≤ e then (n * 2 ^ e.toNat, 0, 1) else (n / 2 ^ (-e).toNat, (n % 2 ^ (-e).toNat).toNat, 2 ^ (-e).toNat)
  | _ => (0, 0, 1)

/-- A digit by its choice: nearest with ties up, stochastic, or toward zero by the sign of y. -/
def digitOf (p : Pick) (yneg : Bool) (q : Val) : Int :=
  let (f, num, den) := floorVal q
  let d : Int := match p with
    | .sr thr => if thr < num * 2 ^ 32 / den then f + 1 else f
    | .zero => if yneg && num != 0 then f + 1 else f
    | _ => if den ≤ 2 * num then f + 1 else f
  max (-128) (min 127 d)

/-- Digits `j` to k − 1 from the residual; only the last takes `p`. -/
def digits (p : Pick) (yneg : Bool) (ue : Int) : Nat → Nat → Val → List Nat
  | 0, _, _ => []
  | n + 1, j, r =>
    let d := digitOf (if n = 0 then p else .up) yneg (r.scale (8 * j - ue))
    intBits 8 d :: digits p yneg ue n (j + 1) (r.sub ((Val.ofInt d).scale (ue - 8 * j)))

/-- How plane 0 is chosen: nearest with ties up, unless it is the only plane and the mode is another. -/
def firstPick (k : Nat) (p : Pick) : Pick := if k = 1 then (if p = .even then .up else p) else .up

/-- The planes of `x` at scale `c` (spec/12 R209). Where plane 0 comes out finite, the residual of an infinity clamps every digit, and the
digits of a NaN are free (log entry 100). -/
def planeEnc (x : Val) (k c : Nat) (r : Reading) (h : How) : List Nat :=
  let y := x.scale (127 - c)
  -- Table 11.4 reads the mode of the narrowing: a truncated plane 0 overflows to the largest value.
  let p0 := ffE4.narrow r ⟨firstPick k h.pick, h.sat⟩ y
  let v := ffE4.val r p0
  if v.isNan || v.isInf then p0 :: List.replicate (k - 1) 0
  else if y.isInf then p0 :: List.replicate (k - 1) (if y.neg? then 0x80 else 0x7F)
  else if y.isNan then p0 :: (List.range (k - 1)).map (fun j => (Config.nanDigit c (j + 1)).toNat)
  else p0 :: digits h.pick (y.neg? && !y.isZero) (ulpExp p0) (k - 1) 1 (y.sub v)

/-! ## Reading elements -/

/-- How an engine reads bytes at an address that it has checked. -/
abbrev Reader := Int → Nat → List Byte

/-- Code of an element, or of one of its planes. -/
def TD.code (t : TD) (rd : Reader) (i0 r j : Nat) : Nat :=
  let b := t.elemBit i0 r + 8 * j * t.pstride.toInt
  let off := (b % 8).toNat
  leNat (rd (b / 8) ((off + t.width + 7) / 8)) / 2 ^ off % 2 ^ t.width

/-- Scale byte of a block; 127 where there is none. -/
def TD.scale (t : TD) (rd : Reader) (i0 r : Nat) : Nat :=
  if t.scaled then leNat (rd (t.scaleAt i0 r) 1) else 127

/-- Value of an element read with `k` planes (spec/11 R199, spec/12 R208). -/
def TD.value (t : TD) (rd : Reader) (i0 r k : Nat) : Val :=
  let c := t.scale rd i0 r
  if t.ty = .np then planeVal ((List.range k).map (t.code rd i0 r)) k c t.nan
  else if c = 0xFF then .nan
  else (t.fmt.val (t.code rd i0 r 0)).scale ((c : Int) - 127)

/-! ## Plane groups (spec/12 R212 to R216) -/

/-- Dimension-0 indices of the group that holds `i0`. -/
def TD.group (t : TD) (i0 : Nat) : List Nat :=
  (List.range (min (i0 / 32 * 32 + 32) (t.e 0) - i0 / 32 * 32)).map (fun l => i0 / 32 * 32 + l)

/-- Every byte of a group: plane bytes, and the scale byte. -/
def TD.groupBytes (t : TD) (i0 r : Nat) : List Int :=
  (t.group i0).flatMap (fun e => (List.range t.pst).map (t.planeAt e r)) ++ (if t.scl then [t.scaleAt i0 r] else [])

/-- What a plane-aware write stores, in order, and the values that the group then has. -/
structure GroupWrite where
  bytes : List (Int × Byte)
  vals : List Val
  deriving DecidableEq, Repr

/-- Bytes of a group with planes `pl` and scale `c`: plane 0 first, then 1, then 2 (spec/12 R211), and the scale last. R211 gives no order
for a scale byte that lies on a plane byte (DESIGN CHOICE, log entry 101), and none among the elements of a plane: they are stored in ascending
order (DESIGN CHOICE, log entry 118). -/
def TD.groupStore (t : TD) (i0 r : Nat) (pl : Nat → List Nat) (c : Nat) : GroupWrite :=
  { bytes := (List.range t.pst).flatMap (fun j => (t.group i0).map (fun e => (t.planeAt e r j, BitVec.ofNat 8 ((pl e).getD j 0)))) ++
      (if t.scl then [(t.scaleAt i0 r, BitVec.ofNat 8 c)] else [])
    vals := (t.group i0).map (fun e => planeVal (pl e) t.pst c t.nan) }

/-- The planes of an element as stored. -/
def TD.planes (t : TD) (rd : Reader) (r e : Nat) : List Nat := (List.range t.pst).map (t.code rd e r)

/-- Plane-aware write of `k` planes at the group's present scale; elements without a new value keep their planes (R214),
and further stored planes become 0 (R215). -/
def TD.groupPut (t : TD) (rd : Reader) (i0 r k : Nat) (new : Nat → Option Val) (how : Nat → How) : GroupWrite :=
  let c := t.scale rd i0 r
  t.groupStore i0 r (fun e => match new e with
    | some x => planeEnc x k c t.nan (how e) ++ List.replicate (t.pst - k) 0
    | none => t.planes rd r e) c

/-- A finite value encodes at scale `c` without overflow (R216); NaN and infinities take no part. -/
def fitsAt (r : Reading) (k c : Nat) (p : Pick) : Val → Bool
  | .fin neg m e => decide (ffE4.round (firstPick k p) neg m (e + 127 - c) ≤ ffE4.largest r)
  | _ => true

/-- The least of `n` scales from `c` at which every value fits. -/
def fitScale (fits : Nat → Bool) : Nat → Nat → Option Nat
  | 0, _ => none
  | n + 1, c => if fits c then some c else fitScale fits n (c + 1)

/-- The update of `vpupd` (R216): each element of the group becomes `z e` at the new scale. -/
def TD.groupUpd (t : TD) (rd : Reader) (i0 r : Nat) (z : Nat → Val) (how : Nat → How) : GroupWrite :=
  let c := t.scale rd i0 r
  if c = 0xFF then t.groupStore i0 r (t.planes rd r) c
  else
    let fits (c' : Nat) : Bool := (t.group i0).all (fun e => fitsAt t.nan t.pst c' (how e).pick (z e))
    let (c', pin) := if !t.scl then (127, false) else match fitScale fits (0xFF - c) c with
      | some x => (x, false)
      | none => (0xFE, true)
    t.groupStore i0 r (fun e =>
      let fin := !(z e).isNan && !(z e).isInf
      planeEnc (z e) t.pst c' t.nan { how e with sat := (how e).sat || (pin && fin) }) c'

end Sys2Proof.Machine
end

