-- ==== Sys2Proof/Machine/VecOps.lean ====
section
/-!
DEFINITION. The vector instructions on registers (spec/13 R218 to R237, R244): lanes and masks, stagger, elementwise
operations, special functions, conversions, block quantisation, reductions and permutes. Each is one function of the
operands and of where it runs (`VArg`), shared by the control context and the loop sequencer.
-/
namespace Sys2Proof.Machine

/-- Where a vector instruction runs: who, its repetition index (0 outside a `vrep` body), the seed of its stochastic
rounding, and the values of the g registers in its b and c fields (spec/13 R221, R248). -/
structure VArg where
  w : Who
  j : Nat := 0
  seed : Word
  gb : Word
  gc : Word
  deriving DecidableEq, Repr

/-- Effect of a vector instruction: the next state, a cause, or a wait. -/
abbrev VBody := VArg → State → Try State

/-! ## Registers and lanes -/

/-- Width and number of lanes of a type (spec/11 Table 11.1). -/
def laneW (t : ETy) : Nat := (fmtOf t).width
def laneN (t : ETy) : Nat := match t with
  | .f32 | .n32 | .s32 | .np => 16
  | .bf16 | .n16 | .s16 => 32
  | .e4m3 | .e5m2 | .l6 | .n8 | .s8 => 64
  | .e2m1 | .s4 | .idx3 => 128
  | .i64 => 8

def Core.vr (k : Core) (r : Reg) : VWord := vget k.v r.toNat 0
/-- A mask register: `k0` is all ones (spec/13 R219). -/
def Core.kr (k : Core) (r : KReg) : Word := if r = 0 then ones64 else vget k.k r.toNat 0
def State.vr (s : State) (w : Who) (r : Reg) : VWord := (s.coreAt w.i).vr r
def State.setV (s : State) (w : Who) (r : Reg) (v : VWord) : State := s.modCore w.i (fun k => { k with v := vput k.v r.toNat v })
def State.setK (s : State) (w : Who) (r : KReg) (v : Word) : State := s.modCore w.i (fun k => { k with k := vput k.k r.toNat v })

/-- A lane of `wd` bits. -/
def lane (v : VWord) (wd l : Nat) : Nat := v.toNat / 2 ^ (wd * l) % 2 ^ wd

/-- A register from `n` lanes of `wd` bits; what lies above them is 0. -/
def ofLanes (wd n : Nat) (f : Nat → Nat) : VWord :=
  BitVec.ofNat 512 ((List.range n).foldl (fun a l => a + f l % 2 ^ wd * 2 ^ (wd * l)) 0)

/-- Lanes that `m` selects take `f`; the others keep their bits. A type that does not fill the register zeroes the rest
(spec/11 R191). -/
def setLanes (old : VWord) (wd n : Nat) (m : Nat → Bool) (f : Nat → Nat) : VWord :=
  ofLanes wd n (fun l => if m l then f l else lane old wd l)

/-- Mask of lane `l` of a type of `n` lanes: with 128 lanes, bit i governs lanes 2i and 2i + 1 (spec/13 R219). -/
def maskBit (k : Word) (n l : Nat) : Bool := bit k (if n = 128 then l / 2 else l)

/-- A staggered vector register (spec/13 R221). -/
def stag (r : Reg) (st : Bool) (j : Nat) : Reg := if st then r + BitVec.ofNat 5 j else r

end Sys2Proof.Machine
namespace Sys2Proof

/-- Registers of the operands after stagger: a, b, c, and x and y of the two-operand forms (spec/13 R219). -/
def VOp.ra (o : VOp) (e : Machine.VArg) : Reg := Machine.stag o.a o.sa e.j
def VOp.rb (o : VOp) (e : Machine.VArg) : Reg := Machine.stag o.b o.sb e.j
def VOp.rc (o : VOp) (e : Machine.VArg) : Reg := Machine.stag (o.c.getD 0) o.sc e.j
def VOp.rx (o : VOp) (e : Machine.VArg) : Reg := if o.c.isSome then o.rb e else o.ra e
def VOp.ry (o : VOp) (e : Machine.VArg) : Reg := if o.c.isSome then o.rc e else o.rb e

end Sys2Proof
namespace Sys2Proof.Machine

/-- Rounding of an instruction: field 0 with a TD whose `srnd` is 1 is stochastic (spec/11 R200). -/
def vPick (r : Rnd) (srnd : Bool) (seed : Word) (stream idx : Nat) : Pick :=
  match r with
  | .rz => .zero
  | .sr => .sr (threshold seed stream idx)
  | .rn => if srnd then .sr (threshold seed stream idx) else .even

/-- How lane `l` of the destination rounds, with no TD (spec/11 R203). -/
def laneHow (o : VOp) (e : VArg) (l : Nat) : How := ⟨vPick o.rnd false e.seed 0 (l + 128 * e.j), o.sat⟩

/-- Write lanes of register a under the mask. -/
def vWrite (o : VOp) (e : VArg) (t : ETy) (f : Nat → Nat) (s : State) : State :=
  let n := laneN t
  let k := (s.coreAt e.w.i).kr o.k
  s.setV e.w (o.ra e) (setLanes (s.vr e.w (o.ra e)) (laneW t) n (maskBit k n) f)

/-! ## Elementwise (spec/13 R223) -/

/-- A two-operand instruction, lane by lane. -/
def vBin (f : Nat → Nat → Nat → Nat) (o : VOp) : VBody := fun e s =>
  let x := s.vr e.w (o.rx e)
  let y := s.vr e.w (o.ry e)
  let wd := laneW o.ty
  .ok (vWrite o e o.ty (fun l => f l (lane x wd l) (lane y wd l)) s)

/-- A unary instruction: f(vB). -/
def vUn (f : Nat → Nat → Nat) (o : VOp) : VBody := fun e s =>
  let x := s.vr e.w (o.rb e)
  .ok (vWrite o e o.ty (fun l => f l (lane x (laneW o.ty) l)) s)

/-- Arithmetic on F by exact values and on I by exact integers. -/
def arith (o : VOp) (e : VArg) (fv : Val → Val → Val) (fi : Int → Int → Int) (l x y : Nat) : Nat :=
  match fmtOf o.ty with
  | .int w sgn => intResult w sgn o.sat (fi (intOf w sgn x) (intOf w sgn y))
  | f => f.narrow (laneHow o e l) (fv (f.val x) (f.val y))

def bodyVadd (o : VOp) : VBody := fun e s => vBin (arith o e Val.add (· + ·)) o e s
def bodyVsub (o : VOp) : VBody := fun e s => vBin (arith o e Val.sub (· - ·)) o e s
def bodyVmul (o : VOp) : VBody := fun e s => vBin (arith o e Val.mul (· * ·)) o e s

/-- `vfma` and `vfms`: vA ± vB × vC, rounded once. -/
def vFused (o : VOp) (neg : Bool) : VBody := fun e s =>
  let f := fmtOf o.ty
  let wd := laneW o.ty
  let a := s.vr e.w (o.ra e)
  let x := s.vr e.w (o.rb e)
  let y := s.vr e.w (o.rc e)
  .ok (vWrite o e o.ty (fun l =>
    let p := (f.val (lane x wd l)).mul (f.val (lane y wd l))
    f.narrow (laneHow o e l) ((f.val (lane a wd l)).add (if neg then p.negate else p))) s)

def bodyVfma (o : VOp) : VBody := vFused o false
def bodyVfms (o : VOp) : VBody := vFused o true

/-- Lesser or greater of two lanes: a NaN operand gives the canonical NaN, x is returned when they are equal. -/
def minmax (t : ETy) (mx : Bool) (_l x y : Nat) : Nat :=
  let f := fmtOf t
  let vx := f.val x
  let vy := f.val y
  if vx.isNan || vy.isNan then f.narrow {} .nan
  else if mx then (if vx.below vy then y else x) else (if vy.below vx then y else x)

def bodyVmin (o : VOp) : VBody := vBin (minmax o.ty false) o
def bodyVmax (o : VOp) : VBody := vBin (minmax o.ty true) o

/-- `vabs` and `vneg`: sign-bit operations on F, integer results on I. -/
def bodyVabs (o : VOp) : VBody := vUn (fun _ x => match fmtOf o.ty with
  | .int w sgn => intResult w sgn o.sat ((intOf w sgn x).natAbs : Nat)
  | f => x % 2 ^ (f.width - 1)) o
def bodyVneg (o : VOp) : VBody := vUn (fun _ x => match fmtOf o.ty with
  | .int w sgn => intResult w sgn o.sat (-(intOf w sgn x))
  | f => (x + 2 ^ (f.width - 1)) % 2 ^ f.width) o

def bodyVand (o : VOp) : VBody := vBin (fun _ x y => x &&& y) o
def bodyVor (o : VOp) : VBody := vBin (fun _ x y => x ||| y) o
def bodyVxor (o : VOp) : VBody := vBin (fun _ x y => x ^^^ y) o
def bodyVshl (o : VOp) : VBody := vBin (fun _ x c => if laneW o.ty ≤ c then 0 else x * 2 ^ c) o
def bodyVshr (o : VOp) : VBody := vBin (fun _ x c => if laneW o.ty ≤ c then 0 else x / 2 ^ c) o
def bodyVsra (o : VOp) : VBody := vBin (fun _ x c =>
  intBits (laneW o.ty) (intOf (laneW o.ty) true x / 2 ^ min c (laneW o.ty))) o

/-! ## Moves, compare, select, splat (spec/13 R224 to R227) -/

def bodyVmov (o : VOp) : VBody := vUn (fun _ x => x) o
def bodyVmovToMask (a : KReg) : VBody := fun e s => .ok (s.setK e.w a e.gb)
def bodyVmovFromMask (a : Reg) (b : KReg) : VBody := fun e s => .ok (s.wr e.w a ((s.coreAt e.w.i).kr b))

/-- A condition on two lanes (spec/13 R225). -/
def condOf (t : ETy) (c : VCond) (x y : Nat) : Bool :=
  let vx := (fmtOf t).val x
  let vy := (fmtOf t).val y
  match c with
  | .eq => vx.eqv vy
  | .ne => !vx.eqv vy
  | .lt => vx.lt vy
  | .le => vx.lt vy || vx.eqv vy
  | .un => vx.isNan || vy.isNan

def bodyVcmp (o : VOp) (c : VCond) : VBody := fun e s =>
  let x := s.vr e.w (o.rb e)
  let y := s.vr e.w (o.rc e)
  let k := s.coreAt e.w.i
  let n := laneN o.ty
  let hold (l : Nat) : Bool := condOf o.ty c (lane x (laneW o.ty) l) (lane y (laneW o.ty) l)
  let dst : KReg := BitVec.ofNat 3 o.a.toNat
  let new := (List.range (min n 64)).foldl (fun a l =>
    let b := if bit (k.kr o.k) l then (if n = 128 then hold (2 * l) && hold (2 * l + 1) else hold l) else bit (k.kr dst) l
    a + b2n b * 2 ^ l) 0
  .ok (s.setK e.w dst (w64 new))

/-- `vsel`: the mask register selects, and every lane is written. -/
def bodyVsel (o : VOp) : VBody := fun e s =>
  let x := s.vr e.w (o.rb e)
  let y := s.vr e.w (o.rc e)
  let k := (s.coreAt e.w.i).kr o.k
  let n := laneN o.ty
  let wd := laneW o.ty
  .ok (s.setV e.w (o.ra e) (ofLanes wd n (fun l => if maskBit k n l then lane x wd l else lane y wd l)))

def bodyVsplat (o : VOp) : VBody := fun e s => .ok (vWrite o e o.ty (fun _ => e.gb.toNat) s)

/-! ## Special functions (spec/13 R228) -/

def vSpecial (fn : Val → Val) (o : VOp) : VBody := fun e s =>
  vUn (fun l x => (fmtOf o.ty).narrow (laneHow o e l) (fn ((fmtOf o.ty).val x))) o e s

def bodyVrcp (o : VOp) : VBody := vSpecial rcpFn o
def bodyVrsq (o : VOp) : VBody := vSpecial rsqFn o
def bodyVexp2 (o : VOp) : VBody := vSpecial exp2Fn o
def bodyVlog2 (o : VOp) : VBody := vSpecial log2Fn o
def bodyVtanh (o : VOp) : VBody := vSpecial tanhFn o

/-! ## Conversions and block quantisation (spec/13 R229 to R232) -/

/-- One conversion: integer to integer keeps the low bits or clamps, everything else narrows the exact value. -/
def convert (src dst : NFmt) (h : How) (c : Nat) : Nat :=
  match src, dst with
  | .int w sgn, .int w' sgn' => intResult w' sgn' h.sat (intOf w sgn c)
  | _, _ => dst.narrow h (src.val c)

def bodyVcvt (o : VOp) (st : ETy) (p : BitVec 3) : VBody := fun e s =>
  let x := s.vr e.w (o.rb e)
  let nd := laneN o.ty
  let ns := laneN st
  let k := (s.coreAt e.w.i).kr o.k
  let src (l : Nat) : Nat := if ns ≤ nd then l - p.toNat * ns else p.toNat * nd + l
  let hit (l : Nat) : Bool := if ns ≤ nd then l / ns == p.toNat else true
  .ok (s.setV e.w (o.ra e) (setLanes (s.vr e.w (o.ra e)) (laneW o.ty) nd (fun l => hit l && maskBit k nd l)
    (fun l => convert (fmtOf st) (fmtOf o.ty) (laneHow o e l) (lane x (laneW st) (src l)))))

/-- Scale byte and part of `vqnt` and `vdqt`. -/
def qScale (g : Word) : Nat := bits g 0 8
def qPart (g : Word) (t : ETy) : Nat := bits g 8 3 % (laneN t / 16)

def bodyVqnt (o : VOp) (r : Reading) : VBody := fun e s =>
  let x := s.vr e.w (o.rb e)
  let n := laneN o.ty
  let c := qScale e.gc
  let p := qPart e.gc o.ty
  let k := (s.coreAt e.w.i).kr o.k
  .ok (s.setV e.w (o.ra e) (setLanes (s.vr e.w (o.ra e)) (laneW o.ty) n (fun l => l / 16 == p && maskBit k n l)
    (fun l => (fmtOf o.ty r).narrow (laneHow o e l)
      (if c = 0xFF then .nan else (val32 (lane x 32 (l % 16))).scale (127 - (c : Int))))))

def bodyVdqt (o : VOp) (r : Reading) : VBody := fun e s =>
  let x := s.vr e.w (o.rb e)
  let c := qScale e.gc
  let p := qPart e.gc o.ty
  .ok (vWrite o e .f32 (fun l => ff32.narrow .ieee ⟨(laneHow o e l).pick, false⟩
    (if c = 0xFF then .nan else ((fmtOf o.ty r).val (lane x (laneW o.ty) (p * 16 + l))).scale ((c : Int) - 127))) s)

/-- Least c from `c` up with a × 2^(127 − c) ≤ L, or 0xFE. -/
def leastScale (a top : Val) : Nat → Nat → Nat
  | 0, _ => 0xFE
  | n + 1, c => if !top.lt (a.scale (127 - (c : Int))) then c else leastScale a top n (c + 1)

def bodyVamax (o : VOp) (r : Reading) : VBody := fun e s =>
  let x := s.vr e.w (o.rb e)
  let d := s.vr e.w (o.ra e)
  let k := (s.coreAt e.w.i).kr o.k
  let m := (List.range 16).foldl (fun (m : Val) l =>
    if bit k l then
      let v := (val32 (lane x 32 l)).abs
      if m.isNan || v.isNan then .nan else if m.lt v then v else m
    else m) .zero
  let a0 := val32 (lane d 32 0)
  let a : Val := if m.isNan || a0.isNan then .nan else if a0.below m then m else a0
  let c := if a.isNan then 0xFF else leastScale a (fmtOf o.ty r).top 0xFF 0
  .ok (s.setV e.w (o.ra e) (setLanes d 32 16 (fun l => decide (l < 2)) (fun l => if l = 0 then round32 a else c)))

/-! ## Reductions and permutes (spec/11 R207, spec/13 R233 to R237) -/

/-- One level of the pairwise tree: the lower lane is the left operand. -/
def treeLevel (op : Val → Val → Val) : List Val → List Val
  | x :: y :: t => op x y :: treeLevel op t
  | l => l

def treeRed (op : Val → Val → Val) : Nat → List Val → Val
  | 0, l => l.headD .zero
  | n + 1, l => treeRed op n (treeLevel op l)

/-- A step of the tree on FP32 values. -/
def redStep : RedOp → Val → Val → Val
  | .add, x, y => val32 (round32 (x.add y))
  | .min, x, y => if y.below x then y else x
  | .max, x, y | .amax, x, y => if x.below y then y else x

/-- Value that a masked lane enters the tree with. -/
def redIdent : RedOp → Val
  | .add => .fin true 0 0
  | .min => .inf false
  | .max => .inf true
  | .amax => .zero

def redFloat (op : RedOp) (f : NFmt) (n : Nat) (m : Nat → Bool) (x : Nat → Nat) : Nat :=
  let vs := (List.range n).map (fun l => if m l then (let v := f.val (x l); if op = .amax then v.abs else v) else redIdent op)
  if vs.any Val.isNan then 0x7FC00000 else round32 (treeRed (redStep op) 7 vs)

def redInt (op : RedOp) (w : Nat) (sgn sat : Bool) (n : Nat) (m : Nat → Bool) (x : Nat → Nat) : Int :=
  let vs : List Int := (List.range n).filterMap (fun l => if m l then some (intOf w sgn (x l)) else none)
  match op with
  | .add =>
    let t := vs.foldl (· + ·) 0
    if w = 64 ∧ sat then clampInt 64 true t else t
  | .min => vs.foldl min (intMax w sgn)
  | .max => vs.foldl max (intMin w sgn)
  | .amax => vs.foldl (fun a v => max a (v.natAbs : Nat)) 0

def vRed (o : VOp) (op : RedOp) : VBody := fun e s =>
  let x := s.vr e.w (o.rb e)
  let n := laneN o.ty
  let k := (s.coreAt e.w.i).kr o.k
  let m := maskBit k n
  let ln := lane x (laneW o.ty)
  let v := match fmtOf o.ty with
    | .int w sgn => intBits 64 (redInt op w sgn o.sat n m ln)
    | f => redFloat op f n m ln
  .ok (s.setV e.w (o.ra e) (BitVec.ofNat 512 v))

def vPerm (o : VOp) : VBody := fun e s =>
  let x := s.vr e.w (o.rx e)
  let y := s.vr e.w (o.ry e)
  let wd := laneW o.ty
  .ok (vWrite o e o.ty (fun l => lane x wd (lane y wd l % laneN o.ty)) s)

def vRot (o : VOp) : VBody := fun e s =>
  let x := s.vr e.w (o.rb e)
  .ok (vWrite o e o.ty (fun l => lane x (laneW o.ty) ((l + e.gc.toNat) % laneN o.ty)) s)

/-- Value of a lane as a 64-bit word: signed for `.s4`, `.s8`, `.s16` and `.s32`. -/
def extLane (t : ETy) (v : Nat) : Word := match t with
  | .s4 | .s8 | .s16 | .s32 => sxt v (laneW t)
  | _ => w64 v

def vExt (o : VOp) : VBody := fun e s =>
  let x := s.vr e.w (o.rb e)
  .ok (s.wr e.w o.a (extLane o.ty (lane x (laneW o.ty) (if o.c.isSome then e.gc.toNat % laneN o.ty else 0))))

def vIns (o : VOp) : VBody := fun e s =>
  let i := if o.c.isSome then e.gc.toNat % laneN o.ty else 0
  .ok (s.setV e.w (o.ra e) (setLanes (s.vr e.w (o.ra e)) (laneW o.ty) (laneN o.ty) (fun l => l == i) (fun _ => e.gb.toNat)))

/-- Rows and columns of `vtrn`. -/
def trnRows (wd : Nat) : Nat := if wd = 8 then 8 else 4
def trnCols (wd : Nat) : Nat := if wd = 32 then 4 else 8

def vTrn (o : VOp) : VBody := fun e s =>
  let x := s.vr e.w (o.rb e)
  let wd := laneW o.ty
  let r := trnRows wd
  .ok (vWrite o e o.ty (fun l => lane x wd (l % r * trnCols wd + l / r)) s)

def bodyVlut (o : VOp) : VBody := fun e s =>
  let x := s.vr e.w (o.rx e)
  let y := s.vr e.w (o.ry e)
  .ok (vWrite o e o.ty (fun l => lane y (laneW o.ty) (lane x 8 l % laneN o.ty)) s)

/-! ## Integer dot product (spec/13 R244) -/

def bodyVdot (o : VOp) : VBody := fun e s =>
  let acc := s.vr e.w (o.ra e)
  let x := s.vr e.w (o.rb e)
  let y := s.vr e.w (o.rc e)
  let wd := laneW o.ty
  let sgn := match fmtOf o.ty with
    | .int _ b => b
    | _ => true
  let g := 32 / wd
  .ok (vWrite o e .n32 (fun l =>
    let total := (List.range g).foldl (fun t k =>
      t + intOf wd sgn (lane x wd (l * g + k)) * intOf wd sgn (lane y wd (l * g + k))) (intOf 32 sgn (lane acc 32 l))
    intResult 32 sgn o.sat total) s)

end Sys2Proof.Machine
end

