-- ==== Sys2Proof/Machine/VecMem.lean ====
section
/-!
DEFINITION. The vector instructions on the own slice (spec/13 R222, R238 to R243, spec/14 R253): loads and stores, gather and
scatter, the plane-aware instructions, and the bit-stream fields of `bbgetv` (R245).
-/
namespace Sys2Proof.Machine

/-! ## Many bytes at once -/

/-- Lines of a list of bytes, without repeats, after those of `l0`. -/
def linesOf (l0 : List Nat) (as : List Nat) : List Nat := as.foldl (fun m a => if m.contains (a / 64) then m else m ++ [a / 64]) l0

/-- Bytes written at the own slice as one access, the later one remaining where two meet: in slipstream they are buffered,
`none` when a line beyond the 128 is needed. -/
def sliceWrMany (s : State) (w : Who) (bs : List (Nat × Byte)) (tag : Nat × Nat) : Option State :=
  match slipOf (s.coreAt w.i) w.c with
  | none =>
    let base := localBase w.i
    let whole (b : Nat) : Bool := (List.range 8).all (fun k => bs.any (fun e => base + e.1 == b * 8 + k))
    some { s with
      mem := bs.foldl (fun m e => wrB m (base + e.1) e.2) s.mem
      bad := s.bad.filter (fun b => !whole b)
      tags := if base < 0x40000000 then
          (linesOf [] (bs.map (·.1))).foldl (fun ts l => setTags ts (base + 64 * l) 64 tag) s.tags
        else s.tags }
  | some sl =>
    let ls := linesOf [] (bs.map (·.1))
    let lines := linesOf sl.lines (bs.map (·.1))
    if 128 < lines.length then none
    else
      let buf := bs.foldl (fun m e => mset m e.1 e.2) sl.buf
      let tags := if tag = (0, 0) then sl.tags else ls.foldl (fun m l => mset m l tag.2) sl.tags
      some (s.modCore w.i (fun k => { k with slip := some { sl with lines, buf, tags } }))

/-- The first byte of a list that lies in an uncorrectable word. -/
def badMany (s : State) (w : Who) (as : List Nat) : Option Word := as.findSome? (fun a => sliceBad s w a 1)

/-- Read marks of a list of bytes. -/
def markMany (s : State) (w : Who) (as : List Nat) : State :=
  if (slipOf (s.coreAt w.i) w.c).isNone then s else as.foldl (fun s a => sliceMark s w a 1) s

/-! ## Loads and stores (spec/13 R238) -/

/-- Address gB after stagger. -/
def vAddr (o : VOp) (e : VArg) (step : Nat) : Word := if o.sb then e.gb + w64 (step * e.j) else e.gb
/-- Position gC after stagger. -/
def vPos (o : VOp) (e : VArg) (step : Nat) : Word := if o.sc then e.gc + w64 (step * e.j) else e.gc

def bodyVld (o : VOp) (sz : BitVec 2) : VBody := fun e s => do
  let r ← sliceLoad s e.w (vAddr o e (64 * 2 ^ sz.toNat)) 64 64 6
  let x : VWord := BitVec.ofNat 512 (leNat r.1)
  .ok (vWrite o e o.ty (lane x (laneW o.ty)) r.2)

/-- Bytes of the unmasked lanes of a register, placed at `a`. -/
def laneBytes (o : VOp) (k : Word) (x : VWord) (a : Nat) : List (Nat × Byte) :=
  (List.range 64).filterMap (fun b =>
    if maskBit k (laneN o.ty) (8 * b / laneW o.ty) then some (a + b, BitVec.ofNat 8 (lane x 8 b)) else none)

def bodyVst (o : VOp) (sz : BitVec 2) : VBody := fun e s =>
  let a := vAddr o e (64 * 2 ^ sz.toNat)
  match sliceCheck s e.w .store a 64 64 with
  | some c => .error c
  | none =>
    let s1 := logAccess s e.w 1 6 a 64 0
    match sliceWrMany s1 e.w (laneBytes o ((s.coreAt e.w.i).kr o.k) (s.vr e.w (o.ra e)) a.toNat) (storeTag s1 e.w.i 1) with
    | some t => .ok t
    | none => .error .wait

/-! ## Gather and scatter (spec/13 R239) -/

/-- Lanes that act: unmasked and below min(16, n(t)). -/
def gLanes (o : VOp) (k : Word) : List Nat := (List.range (min 16 (laneN o.ty))).filter (maskBit k (laneN o.ty))

/-- Address of a lane: gB + offset. -/
def gAddr (o : VOp) (e : VArg) (offs : VWord) (l : Nat) : Word := vAddr o e 64 + w64 (lane offs 32 l)

/-- Checked loads of the lanes in ascending order: the values, and the state with marks and records. -/
def gathLoads (o : VOp) (e : VArg) (offs : VWord) : List Nat → State → Try (List (Nat × Nat) × State)
  | [], s => .ok ([], s)
  | l :: t, s => do
    let n := laneW o.ty / 8
    let r ← sliceLoad s e.w (gAddr o e offs l) n n (log2sz n)
    let r' ← gathLoads o e offs t r.2
    .ok ((l, leNat r.1) :: r'.1, r'.2)

def bodyVgath (o : VOp) : VBody := fun e s => do
  let r ← gathLoads o e (s.vr e.w (o.rc e)) (gLanes o ((s.coreAt e.w.i).kr o.k)) s
  .ok (r.2.setV e.w (o.ra e) (setLanes (s.vr e.w (o.ra e)) (laneW o.ty) (laneN o.ty) (fun l => (mget r.1 l).isSome)
    (fun l => (mget r.1 l).getD 0)))

/-- The first failing check among the lanes of a scatter. -/
def scatCheck (o : VOp) (e : VArg) (offs : VWord) (s : State) : List Nat → Option Stop
  | [] => none
  | l :: t =>
    match sliceCheck s e.w .store (gAddr o e offs l) (laneW o.ty / 8) (laneW o.ty / 8) with
    | some c => some c
    | none => scatCheck o e offs s t

/-- The stores of the lanes in ascending order. -/
def scatStores (o : VOp) (e : VArg) (offs x : VWord) : List Nat → State → Try State
  | [], s => .ok s
  | l :: t, s => do
    let n := laneW o.ty / 8
    let s ← storeRaw s e.w (gAddr o e offs l) (natLE n (lane x (laneW o.ty) l)) (log2sz n)
    scatStores o e offs x t s

def bodyVscat (o : VOp) : VBody := fun e s =>
  let offs := s.vr e.w (o.rc e)
  let ls := gLanes o ((s.coreAt e.w.i).kr o.k)
  match scatCheck o e offs s ls with
  | some c => .error c
  | none => scatStores o e offs (s.vr e.w (o.ra e)) ls s

/-! ## Plane-aware instructions (spec/13 R222, R240 to R243) -/

/-- Steps 1 to 4: the descriptor, read from the own slice and checked. -/
def tdLoad (s : State) (w : Who) (a : Word) : Try (TD × State) :=
  match sliceCheck s w .load a 128 64 with
  | some c => .error c
  | none =>
    let t := parseTd a (sliceRd s w a.toNat 128)
    if t.ok then .ok (t, sliceMark s w a.toNat 128) else .error (.cause cPlanefmt a)

/-- Word of an address computed from a descriptor. -/
def wAddr (a : Int) : Word := BitVec.ofInt 64 a

/-- The first of the bytes that lies outside the slice, or that a guard refuses. The sum of an address is not wrapped: one beyond 2^64 lies outside
(DESIGN CHOICE, log entry 118). -/
def groupCheck (s : State) (w : Who) (acc : Acc3) (bs : List Int) : Option Stop :=
  match bs.find? (fun b => decide (b < 0) || decide ((localSize w.i : Int) ≤ b)) with
  | some b => some (.cause cWindow (wAddr b))
  | none => (bs.find? (fun b => !guardOk (s.coreAt w.i) acc b.toNat 1)).map (fun b => .cause cPriv (wAddr b))

/-- Reader of the own slice. -/
def sliceReader (s : State) (w : Who) : Reader := fun a n => sliceRd s w a.toNat n

/-- A plane-aware access after steps 1 to 7: its descriptor, position, and the state with the marks of the descriptor. -/
structure PlaneAcc where
  td : TD
  i0 : Nat
  row : Nat
  s : State

/-- Steps 1 to 7 for a position `pos` that must be a multiple of `al`, with plane count `np` (0: `prd`) and the access
that every byte of the group must allow. -/
def planeSetup (s : State) (w : Who) (ta pos : Word) (np al : Nat) (acc : Acc3) : Try PlaneAcc := do
  let (td, s) ← tdLoad s w ta
  if td.ty ≠ .np ∨ td.pst < np then .error (.cause cPlanefmt ta)
  else
    let i0 := bits pos 0 32
    let row := bits pos 32 32
    let at0 := wAddr (td.planeAt i0 row 0)
    if td.e 0 ≤ i0 ∨ td.rows ≤ row then .error (.cause cWindow at0)
    else match groupCheck s w acc (td.groupBytes i0 row) with
      | some c => .error c
      | none => if i0 % al ≠ 0 then .error (.cause cAlign at0) else .ok ⟨td, i0, row, s⟩

/-- Bytes that a read of `k` planes of a group takes, its scale included. -/
def readBytes (td : TD) (i0 row k : Nat) : List Nat :=
  (List.range k).flatMap (fun j => (td.group i0).map (fun e => (td.planeAt e row j).toNat)) ++
    (if td.scl then [(td.scaleAt i0 row).toNat] else [])

/-- Step 8, `datauc`, for the descriptor's words and then for the group's, and the marks of a slipstream read. -/
def planeRead (p : PlaneAcc) (w : Who) (k : Nat) : Try State :=
  match (sliceBad p.s w p.td.addr.toNat 128).orElse (fun _ => badMany p.s w (readBytes p.td p.i0 p.row k)) with
  | some v => .error (.cause cDatauc v)
  | none => .ok (markMany p.s w (readBytes p.td p.i0 p.row k))

/-- A plane-group write with its record: plane 0 of the group's first element, `pst` and the elements covered. -/
def planeStore (s : State) (w : Who) (td : TD) (i0 row covered : Nat) (bs : List (Int × Byte)) : Try State :=
  let a := wAddr (td.planeAt (i0 / 32 * 32) row 0)
  let s1 := logAccess s w 1 7 a 0 (td.pst * 256 + (covered - 1))
  match sliceWrMany s1 w (bs.map (fun e => (e.1.toNat, e.2))) (storeTag s1 w.i 1) with
  | some t => .ok t
  | none => .error .wait

/-- Plane count of `vldp`: the qualifier or `prd`, lowered to the cap when `lowok` is 1 (spec/12 R217). -/
def readPlanes (s : State) (td : TD) (np : Nat) : Nat :=
  let k := if np = 0 then td.prd else np
  if td.lowok then max 1 (min k s.cap) else k

def bodyVldp (o : VOp) (np : BitVec 2) : VBody := fun e s => do
  let p ← planeSetup s e.w (vAddr o e 0) (vPos o e 16) np.toNat 16 .load
  let k := readPlanes s p.td np.toNat
  let s1 ← planeRead p e.w k
  let a := p.td.planeAt p.i0 p.row 0
  let s2 := logAccess s1 e.w 0 7 (wAddr a) 0 (tagInfo s e.w.i (sliceTag s e.w a.toNat 1))
  .ok (vWrite o e .f32 (fun l =>
    if p.i0 + l < p.td.e 0 then round32 (p.td.value (sliceReader s e.w) (p.i0 + l) p.row k) else 0) s2)

/-- How element `i` of row `row` rounds through a descriptor. -/
def tdHow (o : VOp) (e : VArg) (td : TD) (row i : Nat) : How := ⟨vPick o.rnd td.srnd e.seed td.stream (td.lin i row), o.sat⟩

def bodyVstp (o : VOp) (np : BitVec 2) : VBody := fun e s => do
  let p ← planeSetup s e.w (vAddr o e 0) (vPos o e 16) np.toNat 16 .atomic
  let td := p.td
  let k := if np = 0 then td.prd else np.toNat
  let s1 ← planeRead p e.w td.pst
  let x := s.vr e.w (o.ra e)
  let m := (s.coreAt e.w.i).kr o.k
  let new (i : Nat) : Option Val := if p.i0 ≤ i ∧ i < p.i0 + 16 ∧ bit m (i - p.i0) then some (val32 (lane x 32 (i - p.i0))) else none
  let g := td.groupPut (sliceReader s e.w) p.i0 p.row k new (tdHow o e td p.row)
  planeStore s1 e.w td p.i0 p.row (min 16 (td.e 0 - p.i0)) g.bytes

/-- The register pair of `vpupd` after stagger (spec/13 R221). -/
def pairReg (o : VOp) (e : VArg) (hi : Bool) : Reg :=
  (if o.sa then o.a + BitVec.ofNat 5 (2 * e.j) else o.a) + (if hi then 1 else 0)

def bodyVpupd (o : VOp) : VBody := fun e s => do
  let p ← planeSetup s e.w (vAddr o e 0) (vPos o e 32) 0 32 .atomic
  let td := p.td
  let s1 ← planeRead p e.w td.pst
  let lo := s.vr e.w (pairReg o e false)
  let hi := s.vr e.w (pairReg o e true)
  let m := (s.coreAt e.w.i).kr o.k
  let z (i : Nat) : Val :=
    let l := i - p.i0
    let old := td.value (sliceReader s e.w) i p.row td.pst
    if bit m l then old.add (val32 (if l < 16 then lane lo 32 l else lane hi 32 (l - 16))) else old
  let g := td.groupUpd (sliceReader s e.w) p.i0 p.row z (tdHow o e td p.row)
  let s2 ← planeStore s1 e.w td p.i0 p.row (min 32 (td.e 0 - p.i0)) g.bytes
  let out (l : Nat) : Nat := match g.vals[l]? with
    | some v => round32 v
    | none => 0
  let s3 := s2.setV e.w (pairReg o e false) (ofLanes 32 16 out)
  .ok (s3.setV e.w (pairReg o e true) (ofLanes 32 16 (fun l => out (l + 16))))

/-! ## Bit-stream fields (spec/13 R245) -/

/-- Refill while fewer than `need` bits are there. -/
def refillTo (w : Who) (need : Nat) : Nat → State → Try State
  | 0, s => .ok s
  | n + 1, s => if (bbOf s w).cnt < need then do
      let s ← bbRefill w s
      refillTo w need n s
    else .ok s

def bodyBbgetv (t : ETy) (a wr : Reg) : VBody := fun e s => do
  let n := wr.toNat
  let m := if n ≤ 3 then 32 else 16
  let s ← refillTo e.w (m * n) 3 s
  let b := bbOf s e.w
  let f (l : Nat) : Nat :=
    if m ≤ l then 0
    else
      let v := b.d.toNat / 2 ^ (n * l) % 2 ^ n
      if t = .s8 then intBits 8 (intOf n true v) else v
  let s := setBb s e.w { b with d := b.d >>> (m * n), cnt := b.cnt - m * n }
  .ok (s.setV e.w a (ofLanes 8 64 f))

end Sys2Proof.Machine
end

