-- ==== Sys2Proof/Machine/Copies.lean ====
section
/-!
DEFINITION. Copies: `cpy`, `cpyq`, `uiret`, `uien` (spec/18 R316 to R322) and the delivery of a copy by its head, its servers and
its destinations (spec/17 R306 to R312).
-/
namespace Sys2Proof.Machine

/-! ## `cpy` (spec/18 R319) -/

/-- Checked read of `n` bytes of the own slice, 64-byte aligned, that opens no record. -/
def blockRead (s : State) (w : Who) (a : Word) (n : Nat) : Try (List Byte) :=
  match sliceCheck s w .load a n 64 with
  | some c => .error c
  | none =>
    match sliceBad s w a.toNat n with
    | some v => .error (.cause cDatauc v)
    | none => .ok (sliceRd s w a.toNat n)

/-- Fields of a copy parameter block (spec/17 Table 17.5). -/
def blkAt (bs : List Byte) (o n : Nat) : Nat := leNat ((bs.drop o).take n)

/-- Reserved bytes and flag bits that must be 0. -/
def blkReserved (bs : List Byte) : Bool :=
  decide (blkAt bs 0x1D 1 ≤ 1) && blkAt bs 0x1E 2 == 0 && blkAt bs 0x28 24 == 0

/-- Effective plane count of a source TD when a copy with `np` = 0 issues (spec/12 R217). -/
def effPrd (s : State) (t : TD) : Nat := if t.lowok then max 1 (min t.prd s.cap) else t.prd

/-- Step 4 of R319 on the block: format, planes and scales agree (spec/17 R307). -/
def copyFits (s : State) (bs : List Byte) (src dst : TD) : Bool :=
  let np := blkAt bs 0x1C 1
  blkReserved bs && src.ty == dst.ty && decide (np ≤ 3) && decide (np ≤ src.pst) && decide (np ≤ dst.pst) &&
  (np != 0 || src.ty != .np || decide (effPrd s src ≤ dst.pst)) && !(src.scaled && !dst.scaled)

/-- The checks of R319 in order, and the command. -/
def cpyCmd (s : State) (w : Who) (gb : Word) : Try CopyCmd := do
  let bs ← blockRead s w gb 64
  let sa := w64 (blkAt bs 0 8); let da := w64 (blkAt bs 8 8)
  let sb ← blockRead s w sa 128
  let db ← blockRead s w da 128
  let hnd := w64 (blkAt bs 0x10 8); let mbase := w64 (blkAt bs 0x20 8)
  let vm := blkAt bs 0x1D 1 % 2 == 1
  let src := parseTd sa sb; let dst := parseTd da db
  if bit hnd 0 then .error (.cause cAlign hnd)
  else if vm && mbase.toNat % 4 != 0 then .error (.cause cAlign mbase)
  else if !src.ok then .error (.cause cPlanefmt sa)
  else if !dst.ok then .error (.cause cPlanefmt da)
  else if !copyFits s bs src dst then .error (.cause cPlanefmt gb)
  else .ok { blk := gb, std := src, dtd := dst, hnd, xid := BitVec.ofNat 32 (blkAt bs 0x18 4),
             np := if src.ty = .np then (if blkAt bs 0x1C 1 = 0 then effPrd s src else blkAt bs 0x1C 1) else 1, vm, mbase }

/-- Copies of the core with a transfer id: number, and the status word of a completed one. -/
def copiesWith (s : State) (i : Nat) (x : BitVec 32) : List (Nat × Option Word) :=
  ((s.coreAt i).q2.filter (·.xid == x)).map (fun c => (c.no, none)) ++
  (s.copies.filter (fun c => c.core == i && c.cmd.xid == x)).map (fun c => (c.cmd.no, none)) ++
  ((s.coreAt i).cdone.filter (fun e => e.2.1 == x)).map (fun e => (e.1, some e.2.2))

/-- `cpyq` (spec/18 R320): all ones while the newest copy of the core with the transfer id is in flight, its status word once it
has completed. -/
def cpyqWord (s : State) (i : Nat) (x : BitVec 32) : Word :=
  match (copiesWith s i x).foldl (fun (m : Option (Nat × Option Word)) e => match m with
      | some n => if n.1 ≤ e.1 then some e else m
      | none => some e) none with
  | some (_, some st) => st
  | some (_, none) => ones64
  | none => 0xF000000000000000

def execCpyq (a b : Reg) : State → Outcome :=
  issue (.cpyq a b) (fun w s => .go (s.wr w a (cpyqWord s w.i (BitVec.ofNat 32 (s.rd w b).toNat))))

/-- `uiret` (spec/18 R321). -/
def uiretOp (w : Who) (s : State) : Res :=
  let k := s.coreAt w.i
  if !k.uiAct then .trap cIllegal (illegalVal s 12)
  else .jump .plain (s.modCore w.i (fun k => { k with
    uiAct := false, uiLs := false, uiHeld := [], ctl := { k.ctl with loops := k.uiHeld, fbuf := [] } })) (w64 (bits k.uiVec 1 17 * 2))

def execUiret : State → Outcome := issue .uiret uiretOp

/-- `uien` (spec/18 R322). -/
def execUien (a : Reg) (n : Bool) : State → Outcome :=
  issue (.uien a n) (fun w s =>
    let old := uiEnWord (s.coreAt w.i)
    .go ((s.modCore w.i (fun k => { k with uiEn := n })).wr w a old))

/-! ## What a copy moves (spec/17 R307, R308) -/

/-- A move of `w` bits: source bit address, or a constant; and destination bit address. -/
structure Mv where
  src : Option Int
  dst : Int
  w : Nat
  code : Nat

/-- Index along dimension `d` of destination row `r`; the last dimension takes all that is left (spec/13 R240). -/
def TD.rowIdx (t : TD) (r d : Nat) : Nat :=
  if t.rank ≤ d then 0
  else
    let q := r / ((List.range (d - 1)).foldl (fun p k => p * max (t.e (k + 1)) 1) 1)
    if d + 1 = t.rank then q else q % max (t.e d) 1

/-- Row `r` of the destination lies within the source extents (spec/17 R308). -/
def rowValid (c : CopyCmd) (r : Nat) : Bool :=
  (List.range 7).all (fun k => decide (c.dtd.rowIdx r (k + 1) < (if k + 1 < c.std.rank then c.std.e (k + 1) else 1)))

/-- Source row with the same indices. -/
def srcRow (c : CopyCmd) (r : Nat) : Nat :=
  ((List.range (c.std.rank - 1)).foldl (fun (p : Nat × Nat) k =>
    (p.1 + c.dtd.rowIdx r (k + 1) * p.2, p.2 * c.std.e (k + 1))) (0, 1)).1

/-- Code of +0 (spec/17 R307). -/
def zeroCode (t : TD) : Nat := if t.ty = .l6 then 0x10 else 0

/-- Element `i0` of destination row `r` lies within the source extents. -/
def inSource (c : CopyCmd) (r i0 : Nat) : Bool := rowValid c r && decide (i0 < c.std.e 0)

/-- Planes that the destination stores. -/
def dstPlanes (c : CopyCmd) : Nat := if c.dtd.ty = .np then c.dtd.pst else 1

/-- Move of plane `j` of the element `i0` of destination row `r`. -/
def planeMove (c : CopyCmd) (r i0 j : Nat) : Mv :=
  { src := if inSource c r i0 && decide (j < c.np) then some (c.std.elemBit i0 (srcRow c r) + 8 * (j : Int) * c.std.pstride.toInt) else none
    dst := c.dtd.elemBit i0 r + 8 * (j : Int) * c.dtd.pstride.toInt
    w := c.dtd.width
    code := if j = 0 then zeroCode c.dtd else 0 }

/-- Move of the scale byte of a block, with the block's first element. -/
def scaleMove (c : CopyCmd) (r i0 : Nat) : List Mv :=
  if c.dtd.scaled && i0 % 32 == 0 then
    [{ src := if c.std.scaled && inSource c r i0 then some (8 * c.std.scaleAt i0 (srcRow c r)) else none
       dst := 8 * c.dtd.scaleAt i0 r, w := 8, code := 127 }]
  else []

/-- Moves of an element: its planes, and its block's scale byte. -/
def elemMoves (c : CopyCmd) (r i0 : Nat) : List Mv := (List.range (dstPlanes c)).map (planeMove c r i0) ++ scaleMove c r i0

/-- Validity mask word `q`. -/
def maskMove (c : CopyCmd) (q : Nat) : Mv :=
  { src := none, dst := 8 * (c.mbase.toNat + 4 * q : Nat), w := 32
    code := (List.range 32).foldl (fun v b =>
      v + b2n (decide (32 * q + b < c.dtd.rows) && rowValid c (32 * q + b)) * 2 ^ b) 0 }

/-- Plane groups in a row. -/
def groupsIn (c : CopyCmd) : Nat := (c.dtd.e 0 + 31) / 32

/-- Moves of every element of the copy. -/
def allMoves (c : CopyCmd) : List Mv :=
  (List.range c.dtd.rows).flatMap (fun r => (List.range (c.dtd.e 0)).flatMap (elemMoves c r))

def maskUnits (c : CopyCmd) : List Nat := if c.vm then List.range ((c.dtd.rows + 31) / 32) else []

/-- Byte address, modulo 2^64, of a bit address: the sum of an element's address wraps (DESIGN CHOICE, log entry 118). -/
def byteOf (b : Int) : Nat := ((b / 8) % 2 ^ 64).toNat

/-- Bytes that a move touches at a bit address. -/
def bytesOf (b : Int) (w : Nat) : List Nat :=
  (List.range (((b % 8).toNat + w + 7) / 8)).map (fun (k : Nat) => byteOf (b + 8 * (k : Int)))

/-- Moves of one unit: those that touch the word, those of the group (plane 0 first, then 1, then 2, as spec/12 R211 stores them, and the
scale byte last: log entry 101), or the mask word. -/
def unitMoves (c : CopyCmd) : CUnit → List Mv
  | .word n => (allMoves c).filter (fun m => (bytesOf m.dst m.w).any (fun a => a / 8 == n))
  | .group n =>
    let r := n / groupsIn c; let g := n % groupsIn c
    let es := c.dtd.group (32 * g)
    (List.range (dstPlanes c)).flatMap (fun j => es.map (fun e => planeMove c r e j)) ++ es.flatMap (scaleMove c r)
  | .mask q => [maskMove c q]

/-- Byte `a` belongs to the unit. -/
def CUnit.covers (u : CUnit) (a : Nat) : Bool := match u with
  | .word n => a / 8 == n
  | _ => true

/-- The units of a copy. -/
def copyUnits (c : CopyCmd) : List CUnit :=
  (if c.dtd.ty = .np then (List.range (c.dtd.rows * groupsIn c)).map CUnit.group
   else (((allMoves c).flatMap (fun m => bytesOf m.dst m.w)).foldl (fun l a => mset l (a / 8) ()) []).map (fun e => CUnit.word e.1))
  ++ (maskUnits c).map CUnit.mask

/-! ## Acceptance by the head (spec/17 R309) -/

/-- Pages of the DRAM window among byte addresses. -/
def dramPages (as : List Nat) : List Nat := (as.foldl (fun l a => if isDramVa a then mset l (a % 2 ^ 48 / 65536) () else l) []).map (·.1)

/-- Every move of a copy with its mask words. -/
def movesWithMasks (c : CopyCmd) : List Mv := allMoves c ++ (maskUnits c).map (maskMove c)

/-! ## Issue -/

/-- First byte of a copy, sources before destinations, that lies in a range of spec/25 Table 25.1 that level 2 of a control core may not access:
the global SRAM window or the DRAM window. -/
def copyDenied (s : State) (w : Who) (c : CopyCmd) : Option Nat :=
  if kindOf w.i = .control ∧ 1 < (s.coreAt w.i).level then
    let ms := movesWithMasks c
    (ms.flatMap (fun m => m.src.elim [] (fun b => bytesOf b m.w)) ++ ms.flatMap (fun m => bytesOf m.dst m.w)).find?
      (fun a => a / 2 ^ 30 == 4 || isDramVa a)
  else none

/-- `cpy` (spec/18 R319). The level check of spec/25 R395 follows the checks of R319 (log entry 106). -/
def cpyOp (b : Reg) (w : Who) (s : State) : Res :=
  let gb := s.rd w b
  Res.ofTry s (fun c =>
    match copyDenied s w c with
    | some a => .trap cPriv (w64 a)
    | none =>
      pushForm w s 2 gb (fun s =>
        let s1 := s.modCore w.i (fun k => { k with q2 := k.q2 ++ [{ c with deps := releaseDeps s w, no := s.nextId }] })
        logRec { s1 with nextId := s.nextId + 1 } w 13 gb c.xid.toNat))
    (cpyCmd s w gb)

def execCpy (b : Reg) : State → Outcome := issue (.cpy b) (cpyOp b)

/-- Translate one page for the head of core `i`; a control core's window is that of tenant 0, through key slot 0 (spec/25 Table
25.1; log entry 42). -/
def headPage (s : State) (i : Nat) (wr : Bool) (pg : Nat) : State × CPage :=
  if i < 4096 then
    match translate s i ⟨!wr, wr⟩ (pg * 65536) with
    | (s, .ok (pa, key)) => (s, { pg, wr, pa, key })
    | (s, .error rsn) => (s, { pg, wr, rsn })
  else if 2 ^ 38 ≤ pg * 65536 then (s, { pg, wr, rsn := 4 })
  else if (keyOf s 0).isNone then (s, { pg, wr, rsn := 6 })
  else (s, { pg, wr, pa := pg * 65536, key := 0 })

def headPages (i : Nat) (wr : Bool) : List Nat → State → State × List CPage
  | [], s => (s, [])
  | p :: t, s =>
    let r := headPage s i wr p
    let rest := headPages i wr t r.1
    (rest.1, r.2 :: rest.2)

/-- Copies of a core that its head holds. -/
def copiesOf (s : State) (i : Nat) : List Copy := s.copies.filter (fun c => c.core == i)

/-- The row COPY_ACCEPT: the head of core `i` accepts the oldest command of port 2 once the released stores are performed, unless it
holds 16 copies of the core or is in an exchange phase, and translates its pages. Copies issued before a pre-emption halt are accepted after it,
since the save waits for them (spec/08 R162). -/
def execCopyAccept (i : Nat) (s : State) : Outcome :=
  if 8192 + 8 ≤ i then .fault .noSuchAgent
  else .next (match (s.coreAt i).q2 with
    | [] => s
    | c :: t =>
      let ms := movesWithMasks c
      let rds := dramPages (ms.flatMap (fun m => m.src.elim [] (fun b => bytesOf b m.w)))
      let wrs := dramPages (ms.flatMap (fun m => bytesOf m.dst m.w))
      if !depsDone s c.deps || decide (16 ≤ (copiesOf s i).length) ||
          (decide (i < 4096) && (inPhase s i || (rds ++ wrs).any (fun p => walkHeld s i (p * 65536)))) then s
      else
        let s := s.modCore i (fun k => { k with q2 := t })
        let (s, rp) := headPages i false rds s
        let (s, wp) := headPages i true wrs s
        { s with
          copies := s.copies ++ [{ id := s.nextId, core := i, cmd := c, pages := rp ++ wp, todo := copyUnits c }]
          nextId := s.nextId + 1 })

/-! ## Places of bytes -/

inductive CPlace where
  | slice (core off : Nat)
  | dram (va pa : Nat) (key : List Byte)
  | sys (conn addr : Nat)
  | bad (status : Word)
  deriving DecidableEq, Repr

/-- Status word of a copy (spec/17 Table 17.6). -/
def copyStatus (cst rsn addr : Nat) : Word := w64 (cst * 2 ^ 60 + rsn * 2 ^ 56 + addr % 2 ^ 48)

/-- Where a byte of the copy lies, for reading or for writing (spec/17 R306, R311): the byte's own address decides, whichever window its
descriptor's base names (DESIGN CHOICE, log entry 118). -/
def copyPlace (s : State) (c : Copy) (wr : Bool) (a : Nat) : CPlace :=
  if a < 0x40000 then .slice c.core a
  else match home s c.core a with
    | some (h, off) => .slice h off
    | none =>
      if isDramVa a then
        match c.pages.find? (fun p => p.pg == a % 2 ^ 48 / 65536 && p.wr == wr) with
        | none => .bad (copyStatus 3 0 a)
        | some p =>
          if p.rsn ≠ 0 then .bad (copyStatus 1 p.rsn a)
          else match keyOf s p.key with
            | none => .bad (copyStatus 1 6 a)
            | some key => .dram (a % 2 ^ 48) (p.pa + a % 65536) key
      else if isSys a then
        match sysEntry s c.core a with
        | some (conn, ra, d0) => if sysGrants (if wr then .store else .load) d0 then .sys conn ra else .bad (copyStatus 3 0 a)
        | none => .bad (copyStatus 3 0 a)
      else .bad (copyStatus 3 0 a)

/-- The piece that a place belongs to (spec/17 R309): one per slice, per DRAM channel, one for the port engine. -/
def CPlace.piece : CPlace → Nat
  | .slice h _ => h
  | .dram _ pa _ => 0x10000 + pa / 2 ^ 26
  | .sys _ _ => 0x20000
  | .bad _ => 0x40000

/-- The tile of a piece's server; 9000 for the port engine, which stands outside the tiles. -/
def serverTile (c : Copy) (piece : Nat) : Nat :=
  if piece < 0x10000 then piece else if piece < 0x20000 then piece - 0x10000 else if piece = 0x20000 then 9000 else c.core

/-- Piece of a move that has a source. -/
def mvPiece (s : State) (c : Copy) (m : Mv) : Option Nat := m.src.map (fun b => (copyPlace s c false (byteOf b)).piece)

/-- The moves of a unit with their pieces: a constant goes with the unit's first source, and units of constants alone are a piece of their
own (log entry 43). -/
def unitPieces (s : State) (c : Copy) (u : CUnit) : List (Mv × Nat) :=
  let ms := unitMoves c.cmd u
  let own := (ms.findSome? (mvPiece s c)).getD 0x30000
  ms.map (fun m => (m, (mvPiece s c m).getD own))

/-- Fault of a source byte. -/
def srcFault (s : State) (c : Copy) (src a : Nat) : Option CFault :=
  match copyPlace s c false a with
  | .bad st => some ⟨src, st, none⟩
  | .slice h off =>
    if s.bad.contains ((localBase h + off) / 8) then some ⟨src, copyStatus 2 0 a, some ((localBase h + off) / 8)⟩ else none
  | .dram _ pa _ => if unitOk s pa then none else some ⟨src, copyStatus 2 0 a, none⟩
  | .sys _ _ => none

/-- Fault of a destination byte: where it has no place, or where part of an unreadable DRAM unit would be written, which reads it first
(spec/17 R294, R302); `cov` are the bytes that are written at once. -/
def dstFault (s : State) (c : Copy) (cov : List Nat) (src a : Nat) : Option CFault :=
  match copyPlace s c true a with
  | .bad st => some ⟨src, st, none⟩
  | .dram _ pa _ =>
    if unitOk s pa || (List.range 64).all (fun k => cov.contains (a / 64 * 64 + k)) then none else some ⟨src, copyStatus 2 0 a, none⟩
  | _ => none

/-- Sort key of a move: its source address, or its destination's for a constant. -/
def mvKey (m : Mv) : Nat := byteOf (m.src.getD m.dst)

/-- First fault of a move. -/
def mvFault (s : State) (c : Copy) (cov : List Nat) (m : Mv) : Option CFault :=
  match m.src.elim none (fun b => (bytesOf b m.w).findSome? (srcFault s c (mvKey m))) with
  | some f => some f
  | none => (bytesOf m.dst m.w).findSome? (dstFault s c cov (mvKey m))

/-- Faults of the moves of a unit, with their pieces. -/
def unitFaults (s : State) (c : Copy) (u : CUnit) : List (Nat × CFault) :=
  let ms := unitPieces s c u
  let cov := (ms.flatMap (fun m => bytesOf m.1.dst m.1.w)).filter u.covers
  ms.filterMap (fun m => (mvFault s c cov m.1).map (fun f => (m.2, f)))

/-- The fault of least source address in a list. -/
def firstFault : List CFault → Option CFault
  | [] => none
  | f :: t => match firstFault t with
    | some g => some (if g.src < f.src then g else f)
    | none => some f

/-- A piece that meets a fault: it moves nothing more, and it reports its first fault in ascending source address. -/
def killPiece (s : State) (c : Copy) (p : Nat) : Copy :=
  if c.dead.contains p then c
  else { c with
    dead := p :: c.dead
    faults := (firstFault ((((copyUnits c.cmd).flatMap (unitFaults s c)).filter (fun f => f.1 == p)).map (·.2))).toList ++ c.faults }

/-! ## Moving a unit -/

/-- Byte of a source or of a destination as it stands. -/
def byteAt (s : State) (c : Copy) (wr : Bool) (a : Nat) : Byte :=
  match copyPlace s c wr a with
  | .slice h off => rdB s.mem (localBase h + off)
  | .dram _ pa key => (unitRead s key pa).getD (pa % 64) 0
  | .sys _ _ => (mget c.got a).getD 0
  | .bad _ => 0

/-- Code that a move brings. -/
def mvCode (s : State) (c : Copy) (m : Mv) : Nat :=
  m.src.elim m.code (fun b => leNat ((bytesOf b m.w).map (byteAt s c false)) / 2 ^ (b % 8).toNat % 2 ^ m.w)

/-- Bits written so far to the bytes of a unit: by address, value and mask. The later move remains (spec/12 R211). -/
def overlay (s : State) (c : Copy) (u : CUnit) (acc : List (Nat × Nat × Nat)) (m : Mv) : List (Nat × Nat × Nat) :=
  let sh := (m.dst % 8).toNat
  let v := mvCode s c m * 2 ^ sh
  let k := (2 ^ m.w - 1) * 2 ^ sh
  ((bytesOf m.dst m.w).zipIdx).foldl (fun acc (e : Nat × Nat) =>
    if u.covers e.1 then
      let vb := v / 2 ^ (8 * e.2) % 256; let kb := k / 2 ^ (8 * e.2) % 256
      let (ov, ok) := (mget acc e.1).getD (0, 0)
      mset acc e.1 (Nat.lor (Nat.land ov (255 - kb)) vb, Nat.lor ok kb)
    else acc) acc

/-- Bytes to write: bits that no move brings keep their value. -/
def mergedBytes (s : State) (c : Copy) (acc : List (Nat × Nat × Nat)) : List (Nat × Byte) :=
  acc.map (fun e => (e.1,
    if e.2.2 = 255 then BitVec.ofNat 8 e.2.1
    else BitVec.ofNat 8 (Nat.lor (Nat.land (byteAt s c true e.1).toNat (255 - e.2.2)) e.2.1)))

/-- Runs of consecutive bytes within 64-byte lines: address and bytes. -/
def runsOf : List (Nat × Byte) → List (Nat × List Byte)
  | [] => []
  | (a, b) :: t =>
    match runsOf t with
    | (a', bs) :: r => if a' = a + 1 ∧ a' % 64 ≠ 0 then (a, b :: bs) :: r else (a, [b]) :: (a', bs) :: r
    | [] => [(a, [b])]

/-- A byte lies in the system window, for reading or for writing. -/
def inWindow (s : State) (c : Copy) (wr : Bool) (a : Nat) : Bool := match copyPlace s c wr a with
  | .sys _ _ => true
  | _ => false

/-- Window words, 8-byte aligned, that the moves need and that have not come: source bytes, and destination bytes of which bits
stay. -/
def windowNeeds (s : State) (c : Copy) (ms : List Mv) (acc : List (Nat × Nat × Nat)) : List Nat :=
  let srcs := ms.flatMap (fun m => m.src.elim [] (fun b => bytesOf b m.w))
  let dsts := (acc.filter (fun e => e.2.2 != 255)).map (·.1)
  let isW (wr : Bool) (a : Nat) : Bool := inWindow s c wr a && (mget c.got a).isNone
  (((srcs.filter (isW false)) ++ (dsts.filter (isW true))).foldl (fun l a => mset l (a / 8 * 8) ()) []).map (·.1)

/-- The copy as it now stands in the state. -/
def setCopy (s : State) (c : Copy) : State := { s with copies := s.copies.map (fun d => if d.id = c.id then c else d) }

/-- Send an access of a copy through the port engine; when the connection has failed, the piece fails (spec/17 R311). -/
def copySend (s : State) (c : Copy) (piece src a : Nat) (conn : Nat) (store : Bool) (msg : Nat → Msg) : State :=
  let p := winPort (w64 a)
  let o : SysOut := { tag := s.nextId, core := c.core, ctx := 100, conn := p * 1024 + conn, addr := w64 a, store, copy := some (c.id, piece, src) }
  match connPost s p conn (msg s.nextId) with
  | some s => { s with nextId := s.nextId + 1, sysOut := s.sysOut ++ [o] }
  | none => failSys s o

/-- Ask for a window word, once. -/
def askWindow (c : Copy) (s : State) (a : Nat) : State :=
  if s.sysOut.any (fun o => o.copy.any (fun k => k.1 == c.id) && o.addr.toNat == a && !o.store) then s
  else match copyPlace s c false a with
    | .sys conn ra => copySend s c 0x20000 a a conn false (fun t => .ld (w64 ra) 8 t)
    | _ => s

/-- A run cut, from its start, into the longest window accesses: 8, 4, 2 or 1 bytes, aligned. They write its own bytes and no others
(spec/12 R213, spec/17 R312; log entry 45). -/
def accessesOf : Nat → Nat → List Byte → List (Nat × List Byte)
  | 0, _, _ => []
  | fuel + 1, a, bs =>
    match [8, 4, 2, 1].find? (fun n => decide (n ≤ bs.length) && a % n == 0) with
    | some n => (a, bs.take n) :: accessesOf fuel (a + n) (bs.drop n)
    | none => []

/-- A piece that a memory core serves. -/
def fromChannel (piece : Nat) : Bool := decide (0x10000 ≤ piece) && decide (piece < 0x20000)

/-- Write a run at its place: into a slice through its mesh-arrival port, but a memory core's piece as a service write that reaches its own
tile's slice directly (spec/17 R296, R309), by the memory core that owns the channel, or through the port engine. -/
def writeRun (c : Copy) (piece src : Nat) (s : State) (r : Nat × List Byte) : State :=
  match copyPlace s c true r.1 with
  | .slice h off =>
    if fromChannel piece then extWrite s h off r.2 1 (0, 0) (h != serverTile c piece) else extWrite s h off r.2 0
  | .dram _ pa key => unitMerge s key pa r.2
  | .sys _ _ =>
    (accessesOf r.2.length r.1 r.2).foldl (fun s e => match copyPlace s c true e.1 with
      | .sys conn ra => copySend s c piece src e.1 conn true (fun t => .st (w64 ra) e.2.length t (w64 (leNat e.2)))
      | _ => s) s
  | .bad _ => s

/-- A move of a piece is held: its server's tile, or the edge of its destination's domain, is in an exchange phase (spec/03 R48),
also while a domain stands halted in one: the save then waits (DEDUCED, log entry 63). -/
def mvHeld (s : State) (c : Copy) (piece : Nat) (m : Mv) : Bool :=
  let sv := serverTile c piece
  (decide (sv < 4096) && inPhase s sv) || (bytesOf m.dst m.w).any (fun a => match copyPlace s c true a with
    | .slice h _ => decide (h < 8192) && heldAtEdge s sv h
    | .dram _ pa _ => heldAtEdge s sv (pa / 2 ^ 26)
    | _ => false)

/-- Home whose acknowledgement a run needs. -/
def runHome (s : State) (c : Copy) (r : Nat × List Byte) : List Nat :=
  match copyPlace s c true r.1 with
  | .slice h _ => [h]
  | .dram _ pa _ => [0x10000 + pa / 2 ^ 26]
  | _ => []

/-- The copy without unit `u`, which has moved, or never will. -/
def Copy.without (c : Copy) (u : CUnit) : Copy := { c with todo := c.todo.filter (· != u) }

/-- Bits that the moves of a unit bring. -/
def unitBits (s : State) (c : Copy) (u : CUnit) : List (Nat × Nat × Nat) := (unitMoves c.cmd u).foldl (overlay s c u) []

/-- Write the bytes of a unit at once. -/
def writeUnit (s : State) (c : Copy) (u : CUnit) : State :=
  let runs := runsOf (mergedBytes s c (unitBits s c u))
  let acks := (runs.flatMap (runHome s c)).foldl (fun l h => if l.contains h then l else l ++ [h]) c.acks
  let m := (unitPieces s c u).head?
  runs.foldl (writeRun c (m.elim 0x30000 (·.2)) (m.elim 0 (fun m => mvKey m.1))) (setCopy s { c.without u with acks })

/-- Move one unit of copy `id`: it is read, and written at once. Where a piece of it has stopped, or meets a fault now and stops, none of its
bytes is written (spec/17 R311, spec/12 R213, R215). It stays to be moved while it is held or waits for window bytes. -/
def moveCopy (id : Nat) (s : State) (u : CUnit) : State :=
  match s.copies.find? (fun c => c.id == id) with
  | none => s
  | some c0 =>
    if !c0.todo.contains u then s
    else
      let ms := unitPieces s c0 u
      if ms.any (fun m => c0.dead.contains m.2) then setCopy s (c0.without u)
      else if ms.any (fun m => mvHeld s c0 m.2 m.1) then s
      else match unitFaults s c0 u with
        | [] =>
          let needs := windowNeeds s c0 (ms.map (·.1)) (unitBits s c0 u)
          if needs.isEmpty then writeUnit s c0 u
          else match needs.find? (fun a => !inWindow s c0 false a) with
            -- bits of a byte stay, and the entry grants no load
            | some a => setCopy s { c0.without u with
                dead := (ms.map (·.2)) ++ c0.dead, faults := ⟨(ms.head?.map (fun m => mvKey m.1)).getD 0, copyStatus 3 0 a, none⟩ :: c0.faults }
            | none => needs.foldl (askWindow c0) s
        | fs => setCopy s ((fs.foldl (fun c f => killPiece s c f.1) c0).without u)

/-- The row COPY_PIECE: units at positions `lo` to `hi − 1` of copy `id`'s list move. The order of a copy's units is free (spec/17
R312). -/
def execCopyPiece (id lo hi : Nat) (s : State) : Outcome :=
  .next (match s.copies.find? (fun c => c.id == id) with
    | none => s
    | some c => ((c.todo.drop lo).take (hi - lo)).foldl (moveCopy id) s)

/-- The acknowledgement of home `h`, a slice or a DRAM channel, may not cross the mesh to the head now: a memory core injects nothing in a
phase of its domain (spec/17 R296), and traffic into a domain in a phase is held at its edge (spec/03 R48). -/
def ackHeld (s : State) (head h : Nat) : Bool :=
  let t := if fromChannel h then h - 0x10000 else h
  t != head && ((fromChannel h && inPhase s t) || heldAtEdge s t head)

/-- The row COPY_DEST_ACK: a home that has performed writes of the copy acknowledges them to the head. -/
def execCopyDestAck (id h : Nat) (s : State) : Outcome :=
  .next { s with copies := s.copies.map (fun c =>
    if c.id = id && !ackHeld s c.core h then { c with acks := c.acks.filter (· != h) } else c) }

/-- Everything of a copy has moved and is acknowledged. -/
def copyReady (s : State) (c : Copy) : Bool :=
  c.todo.isEmpty && c.acks.isEmpty && !s.sysOut.any (fun o => o.copy.any (fun k => k.1 == c.id))

/-- The row COPY_COMPLETE (spec/17 R310, R311, spec/18 R316, R318): the status word is recorded, a `datauc` is reported (spec/08 R157),
and an entry joins the pending queue when the copy has a handler or failed. A full queue keeps the copy at its head. -/
def execCopyComplete (id : Nat) (s : State) : Outcome :=
  .next (match s.copies.find? (fun c => c.id == id) with
    | none => s
    | some c =>
      let f := firstFault c.faults
      let st := f.elim 0 (·.status)
      let entry := c.cmd.hnd != 0 || st != 0
      if !copyReady s c || (entry && decide (64 ≤ (s.coreAt c.core).uiq.length)) then s
      else
        let s := { s with copies := s.copies.filter (fun d => d.id != id) }
        let s := s.modCore c.core (fun k => { k with
          cdone := ((c.cmd.no, c.cmd.xid, st) :: k.cdone).take 64
          uiq := if entry then k.uiq ++ [{ hnd := c.cmd.hnd, xid := c.cmd.xid, status := st }] else k.uiq })
        let s := if entry && (deliverable (s.coreAt c.core)).isSome then wake s c.core else s
        match f.bind (·.word) with
        | some fw => noteReport s fw
        | none => s)

end Sys2Proof.Machine
end

