-- ==== Sys2Proof/Machine/EventUnit.lean ====
section
/-!
DEFINITION. The event unit of a cluster: event lines, mutexes and cluster barriers (spec/09 R175 to R181, R187, spec/02 R31).
-/
namespace Sys2Proof.Machine

/-- Contexts of a cluster, by core row and then by context (spec/09 R176). -/
def clusterCtxs (s : State) (cl : Nat) : List (Nat × Nat) :=
  (List.range 8).flatMap (fun r => (liveCtxs (s.coreAt (coreIn cl r))).map (fun c => (coreIn cl r, c)))

/-- First context lulled on something that has not come. -/
def lulledOn (s : State) (cl : Nat) (on : LullOn) : Option (Nat × Nat) :=
  (clusterCtxs s cl).find? (fun e => (s.ctxAt ⟨e.1, e.2, e.1⟩).lull.any (fun l => l.on == on && l.due.isNone))

/-- Line `n` of a cluster fires for itself: the lowest waiter consumes the firing, or the fired bit is set. -/
def fireOwn (s : State) (cl n : Nat) : State :=
  match lulledOn s cl (.line n) with
  | some (i, c) => completeLull s i c 1
  | none => s.modCluster cl (fun k => { k with fired := vput k.fired n true })

/-- A bind word's target cluster, partition-logical, as a device-logical cluster for core `i`'s tenant. -/
def bindTarget (s : State) (i : Nat) (bw : BitVec 32) : Nat :=
  let cx := bw.toNat / 2 ^ 16 % 64
  let cy := bw.toNat / 2 ^ 22 % 8
  clusterOf (devCore s i cx (cy * 8))

/-- Line `n` of a cluster fires; `hops` forwards have brought the firing here (spec/09 R177). -/
def fire (s : State) (cl n hops : Nat) : State :=
  let bw := vget (s.clusterAt cl).bind n 0
  let en := bw.getLsbD 31
  let s1 := if en && decide (hops < 7) then
      send s (coreIn cl 0) 0 0 (.event (bindTarget s (coreIn cl 0) bw) (bw.toNat % 32) (hops + 1))
    else s
  if !en || bw.getLsbD 30 then fireOwn s1 cl n else s1

/-- Every context lulled on barrier `c` completes with 1, and the round ends (spec/09 R179). -/
def releaseBar (s : State) (cl c : Nat) : State :=
  let s := s.modCluster cl (fun k => { k with bars := vput k.bars c { vget k.bars c {} with arr := 0 } })
  (clusterCtxs s cl).foldl (fun s e =>
    if (s.ctxAt ⟨e.1, e.2, e.1⟩).lull.any (fun l => l.on == .barrier c && l.due.isNone) then completeLull s e.1 e.2 1 else s) s

/-- Words of the event unit (spec/09 Table 9.5). -/
inductive EvWord where
  | wait (n : Nat)
  | fire (n : Nat)
  | bind (n : Nat)
  | lock (m : Nat)
  | arrive (c : Nat)
  | mask (c : Nat)
  | other
  deriving DecidableEq, Repr

def evWord (a : Nat) : EvWord :=
  let o := a - 0x50000
  if o < 0x80 then .wait (o / 4) else if o < 0x100 then .fire (o / 4 % 32)
  else if o < 0x180 then .bind (o / 4 % 32)
  else if 0x200 ≤ o ∧ o < 0x220 then .lock (o / 4 % 8)
  else if 0x300 ≤ o ∧ o < 0x310 then .arrive (o / 4 % 4)
  else if 0x380 ≤ o ∧ o < 0x390 then .mask (o / 4 % 4)
  else .other

/-- What a 32-bit load of the event unit does: a value at once, or a lull. -/
def evLoad (w : Who) (a : Nat) (s : State) : State × (Nat ⊕ LullOn) :=
  let cl := clusterOf w.i
  let k := s.clusterAt cl
  match evWord a with
  | .wait n =>
    if vget k.fired n false then (s.modCluster cl (fun k => { k with fired := vput k.fired n false }), .inl 1)
    else (s, .inr (.line n))
  | .fire n => (s, .inl (b2n (vget k.fired n false)))
  | .bind n => (s, .inl (vget k.bind n 0).toNat)
  | .lock m =>
    let l := vget k.locks m {}
    match l.holder with
    | none => (s.modCluster cl (fun k => { k with locks := vput k.locks m { l with holder := some (w.i, w.c) } }), .inl 1)
    | some h =>
      if h = (w.i, w.c) then (s, .inl 0)
      else (s.modCluster cl (fun k => { k with locks := vput k.locks m { l with queue := l.queue ++ [(w.i, w.c)] } }), .inr (.lock m))
  | .arrive c =>
    let b := vget k.bars c {}
    if !b.mask.getLsbD (rowOf w.i) then (s, .inl 0)
    else (s.modCluster cl (fun k => { k with bars := vput k.bars c { b with arr := b.arr ||| BitVec.ofNat 8 (2 ^ rowOf w.i) } }), .inr (.barrier c))
  | .mask c => (s, .inl (vget k.bars c {}).mask.toNat)
  | .other => (s, .inl 0)

/-- A firing, a holder's release of a mutex and an arrival at a cluster barrier happen after everything before them of their context is
performed (spec/09 R181, R187, Table 9.7). -/
def fireReady (s : State) (w : Who) : Bool := allDone s w

/-- What a 32-bit store of the event unit does. -/
def evStore (w : Who) (a : Nat) (v : Word) (s : State) : Try State :=
  let cl := clusterOf w.i
  match evWord a with
  | .fire n => if fireReady s w then .ok (fire s cl n 0) else .error .wait
  | .bind n =>
    let bw := BitVec.ofNat 32 (v.toNat &&& 0xC1FF001F)
    let r := ((vmOf s w.i).bind (partOf s)).getD ⟨0, 0, 64, 64⟩
    if bw.getLsbD 31 && (decide (r.w ≤ bw.toNat / 2 ^ 16 % 64) || decide (r.h ≤ bw.toNat / 2 ^ 22 % 8 * 8)) then
      .error (.cause cWindow (w64 a))
    else .ok (s.modCluster cl (fun k => { k with bind := vput k.bind n bw }))
  | .lock m =>
    if (vget (s.clusterAt cl).locks m {}).holder = some (w.i, w.c) then
      if fireReady s w then .ok (passLock s cl m) else .error .wait
    else .ok s
  | .mask c =>
    let b := vget (s.clusterAt cl).bars c {}
    if b.arr ≠ 0 then .ok s
    else .ok (s.modCluster cl (fun k => { k with bars := vput k.bars c { b with mask := BitVec.ofNat 8 v.toNat } }))
  | _ => .ok s

/-- The load arrives at a cluster barrier for its core. -/
def arrives (w : Who) (a : Nat) (s : State) : Bool :=
  match evWord a with
  | .arrive c => (vget (s.clusterAt (clusterOf w.i)).bars c {}).mask.getLsbD (rowOf w.i)
  | _ => false

/-- A LOAD record of the access would open, and the lag is full (spec/21 R354, spec/22 R374). -/
def loadLags (s : State) (w : Who) (sz : Nat) (a : Word) : Bool :=
  let k := s.coreAt w.i
  lagFull k && k.bound.any (fun b => logsType b 0 && !(b.openRec.any (fun r => mayJoin r w.c sz a s.cyc)))

/-- A load of the event unit by an instruction: it writes `rd` with `ext` of the value, or lulls its context. -/
def evLoadRes (w : Who) (a : Nat) (rd : Reg) (inc : Option Reg) (ext : Nat → Word) (s : State) : Res :=
  if arrives w a s && !fireReady s w then .wait s
  else match evLoad w a s with
  | (s1, .inl v) =>
    let s2 := (logAccess s1 w 0 2 (w64 a) 4 0).wr w rd (ext v)
    .go (inc.elim s2 (fun b => s2.wr w b (s.rd w b + 4)))
  | (s1, .inr on) =>
    if loadLags s w 2 (w64 a) then .wait s
    else
      let s2 := s1.modCtx w (fun x => { x with lull := some { on, rd, inc, next := s.fall w } })
      match on with
      | .barrier c =>
        let b := vget (s2.clusterAt (clusterOf w.i)).bars c {}
        .stay (if b.arr = b.mask then releaseBar s2 (clusterOf w.i) c else s2)
      | _ => .stay s2

/-- `evsig n` (spec/09 R187). -/
def evsigOp (n : Nat) (w : Who) (s : State) : Res :=
  if fireReady s w then .go (fire s (clusterOf w.i) n 0) else .wait s

def execEvsig (n : BitVec 5) : State → Outcome := issue (.evsig n) (evsigOp n.toNat)

/-- A forwarded event message fires its target line (spec/09 R177): packet `k` of the mesh. -/
def execEventMessage (k : Nat) (s : State) : Outcome :=
  .next (match s.mesh[k]? with
    | some { kind := .event cl line hops, core := i, .. } =>
      if heldAtEdge s i (coreIn cl 0) then s else fire (dropPkt s k) cl line hops
    | _ => s)

end Sys2Proof.Machine
end

