-- ==== Sys2Proof/Machine/Gang.lean ====
section
/-!
DEFINITION. Helper contexts and gangs (spec/03 R35 to R42, spec/05 R100 to R106).
-/
namespace Sys2Proof.Machine

/-- The lowest-numbered helper that is not live. -/
def freeHelper (k : Core) : Option Nat := (List.range 10).find? (fun h => !(vget k.helpers h {}).live)

/-- `start gA, label` (spec/05 R100). What the control context has in flight happens before the new helper's first instruction (spec/07 R147). -/
def startOp (a : Reg) (off : BitVec 35) (w : Who) (s : State) : Res :=
  let k := s.coreAt w.i
  if k.gang.isSome then .trap cIllegal (illegalVal s 12)
  else match freeHelper k with
    | none => .go (s.wr w a ones64)
    | some h =>
      let x : Ctx := { pc := targetBC s w off, g := vput (Vector.replicate 32 0) 1 (s.rd w a), inh := inFlight s w }
      let s1 := s.modCore w.i (fun k => { k with helpers := vput k.helpers h { ctx := x, live := true } })
      .go (s1.wr w a (w64 h))

/-- `hwait gA` (spec/05 R102). -/
def hwaitOp (a : Reg) (w : Who) (s : State) : Res :=
  let n := (s.rd w a).toNat
  if n ≤ 9 ∧ (vget (s.coreAt w.i).helpers n {}).live then .wait s else .go s

/-- `hexit` (spec/05 R101): it waits until everything the helper issued has landed, and ends the helper. Its stores that are still in flight
happen before what the control context does next (spec/07 R147). -/
def hexitOp (w : Who) (s : State) : Res :=
  if !(loadsOut s w).isEmpty then .wait s
  else .stay (wake ((orphan s w.i w.c).modCore w.i (fun k =>
    { k with helpers := vput k.helpers (w.c - 1) {} })) w.i)

/-- `hstat` (spec/05 R103, Tables 5.8, 5.9). -/
def hstatWord (k : Core) (n : Nat) : Word :=
  if n ≤ 9 then
    let h := vget k.helpers n {}
    w64 (b2n h.live * 2 ^ 63 + b2n h.flt * 2 ^ 62 + h.cause.toNat * 2 ^ 48 + h.fpc.toNat % 2 ^ 18)
  else w64 ((List.range 10).foldl (fun v i =>
    let h := vget k.helpers i {}
    v + b2n h.flt * 2 ^ (16 + i) + b2n h.live * 2 ^ i) 0)

/-- Aligned group of `n` rows that holds row `r`: its first row (spec/03 R40). -/
def gangRow (r n : Nat) : Nat := r / n * n

/-- Two waits conflict: their sizes differ and their groups share a core (spec/03 R41). -/
def gangConflict (r n r' n' : Nat) : Bool :=
  n != n' && (decide (gangRow r n < gangRow r' n' + n') && decide (gangRow r' n' < gangRow r n + n))

/-- The gang forms: every member goes on, and the leader fetches; the followers' fetch stops, so that it starts anew from their slices after
the gang (spec/03 R40, R42). -/
def formGang (s : State) (lead n : Nat) : State :=
  let lpc := ((s.coreAt lead).gangWait.getD (n, 0)).2
  let s := (List.range n).foldl (fun s r =>
    let j := lead + 64 * r
    let next := ((s.coreAt j).gangWait.getD (n, lpc)).2
    let s := s.modCore j (fun k => { k with gangWait := none, gang := some (lead, n), id := vput k.id 4 (w64 r) })
    completeAt (if r = 0 then s else emptyFetch s ⟨j, 0, lead⟩) ⟨j, 0, lead⟩ next) s
  alignGang ((List.range n).map (fun r => ⟨lead + 64 * r, 0, lead⟩)) s

/-- Rows of the cluster of core `i` whose cores issued a conflicting `gang` in this cycle (spec/03 R41). -/
def gangNow (s : State) (i n : Nat) : List Nat :=
  (List.range 8).filter (fun r => (s.coreAt (coreIn (clusterOf i) r)).gangTry.any (fun t => t.at_ == s.cyc && gangConflict (rowOf i) n r t.n))

/-- A member of a gang that has formed in this cycle stands at its `gang` again, where it waits. -/
def Core.ungang (k : Core) : Core :=
  match k.gang, k.gangTry with
  | some _, some t =>
    { k with gang := none, id := vput k.id 4 0, gangWait := some (t.n, t.next), ctl := { k.ctl with pc := t.pc, loops := t.loops } }
  | _, _ => k

/-- The gang that core `j` formed by its `gang` of this cycle has not formed, since that `gang` conflicts: its members wait as before. -/
def unformGang (s : State) (j : Nat) : State := (gangOf s j).foldl (fun t m => t.modCore m Core.ungang) s

/-- A core of the cluster of core `i` waits with a conflicting `gang`. -/
def gangHeld (s : State) (i n : Nat) : Bool :=
  (List.range 8).any (fun r => match (s.coreAt (coreIn (clusterOf i) r)).gangWait with
    | some (n', _) => gangConflict (rowOf i) n r n'
    | none => false)

/-- A `gang n` as it issues at `w`. -/
def tryOf (n : Nat) (w : Who) (s : State) : GangTry := { n, at_ := s.cyc, pc := s.pcOf w, next := s.fall w, loops := (s.ctxAt w).loops }

/-- `gang n` (spec/03 R40, R41, spec/05 R105). Of cores that issue conflicting ones in one cycle, each takes `gang`, also where its group was
complete; one that waited before that cycle waits on. -/
def gangOp (n : Nat) (w : Who) (s : State) : Res :=
  let k := s.coreAt w.i
  let row := rowOf w.i
  if k.helpers.toList.any (·.live) then .trap cIllegal (illegalVal s 12)
  else if k.gang.isSome then .trap cGang 0
  else if gangHeld s w.i n || !(gangNow s w.i n).isEmpty then
    let rows := gangNow s w.i n
    let t := rows.foldl (fun t r => unformGang t (coreIn (clusterOf w.i) r)) (s.modCore w.i (fun k => { k with gangTry := some (tryOf n w s) }))
    .trapIn (rows.foldl (fun t r =>
      let j := coreIn (clusterOf w.i) r
      if (t.coreAt j).gangWait.isSome then takeTrap t ⟨j, 0, j⟩ cGang 0 (t.coreAt j).ctl.pc else t) t) cGang 0
  else
    let s := s.modCore w.i (fun k => { k with gangWait := some (n, s.fall w), gangTry := some (tryOf n w s) })
    let lead := coreIn (clusterOf w.i) (gangRow row n)
    if (List.range n).all (fun r => ((s.coreAt (lead + 64 * r)).gangWait.map (·.1)) == some n) then .stay (formGang s lead n)
    else .stay s

/-- `split` (spec/05 R106). -/
def splitOp (w : Who) (s : State) : Res :=
  match (s.coreAt w.i).gang with
  | none => .go s
  | some _ => .go (s.modCore w.i (fun k => { k with gang := none, id := vput k.id 4 0 }))

def execStart (a : Reg) (off : BitVec 35) : State → Outcome := issue (.start a off) (startOp a off)
def execHwait (a : Reg) : State → Outcome := issue (.hwait a) (hwaitOp a)
def execHexit : State → Outcome := issue .hexit hexitOp
def execHstat (a b : Reg) : State → Outcome :=
  issue (.hstat a b) (fun w s => .go (s.wr w a (hstatWord (s.coreAt w.i) (s.rd w b).toNat)))
def execGang (n : BitVec 5) : State → Outcome := issue (.gang n) (gangOp n.toNat)
def execSplit : State → Outcome := issue .split splitOp

end Sys2Proof.Machine
end

