-- ==== Sys2Proof/Machine/Matrix.lean ====
section
/-!
DEFINITION. Page 2: the matrix commands at issue (spec/16 R274 to R291), with the checks of each against the issue-side
format context.
-/
namespace Sys2Proof.Machine

/-! ## Operand classes (spec/15 R257, Table 15.1) -/

/-- Kind of an operand: float, integer or LNS6. -/
inductive MKind where
  | flt | int | lns
  deriving DecidableEq, Repr

/-- k-width and kind of a format read with `k` planes. -/
def mclass (t : ETy) (k : Nat) : Option (Nat × MKind) :=
  match t with
  | .bf16 => some (128, .flt)
  | .s16 | .n16 => some (128, .int)
  | .e4m3 | .e5m2 => some (256, .flt)
  | .s8 | .n8 => some (256, .int)
  | .e2m1 => some (512, .flt)
  | .s4 => some (512, .int)
  | .l6 => some (512, .lns)
  | .np => some (if k = 2 then 128 else 256, .flt)
  | _ => none

/-- Class of a command: the wider one of two operands that pair. -/
def mpair (ta : ETy) (ka : Nat) (tb : ETy) (kb : Nat) : Option (Nat × MKind) :=
  match mclass ta ka, mclass tb kb with
  | some (x, p), some (y, q) => if p = q then some (min x y, p) else none
  | _, _ => none

/-- k-values of one `mldb` (spec/16 Table 16.4). -/
def kmax : ETy → Option Nat
  | .bf16 | .s16 | .n16 | .np => some 128
  | .e4m3 | .e5m2 | .s8 | .n8 | .l6 => some 256
  | .e2m1 | .s4 => some 512
  | _ => none

/-- Effective plane count of a descriptor: `prd`, lowered to the cap when `lowok` is 1 (spec/12 R217). -/
def TD.planesRead (t : TD) (cap : Nat) : Nat :=
  if t.ty = .np then (if t.lowok then max 1 (min t.prd cap) else t.prd) else 1

/-! ## Pushing a command (spec/16 R274 to R276) -/

/-- Append a command to the queue; the spec gives the word of its PUSH record no layout, so it is a free value. -/
def mpush (w : Who) (s : State) (op : MOp) (upd : Core → Core := id) : Res :=
  pushForm w { s with freeNo := s.freeNo + 1 } 0 (Config.unstated s.freeNo) (fun s => s.modCore w.i (fun k =>
    upd { k with q0 := k.q0 ++ [{ op, deps := releaseDeps s w, at_ := s.cyc }] }))

/-- Check 11 on register values, then a pending matrix-unit `datauc` (R276 step 1), then the entry's own checks. -/
def mcheck (w : Who) (s : State) (ok : Bool) (go : Res) : Res :=
  if !ok then .trap cIllegal (illegalVal s 11) else (matErr s w).getD go

/-- A slice read at issue: `window`, `priv`, `align`, `datauc` (R276 step 2). -/
def issueRead (s : State) (w : Who) (a : Word) (n al : Nat) : Try (List Byte) :=
  match sliceCheck s w .load a n al with
  | some c => .error c
  | none =>
    match sliceBad s w a.toNat n with
    | some v => .error (.cause cDatauc v)
    | none => .ok (sliceRd s w a.toNat n)

/-- The first failing step as a result. -/
def tryRes (s : State) (r : Try Res) : Res := Res.ofTry s id r

/-- A descriptor that fails a check of spec/01 R21. -/
def tdFault (t : TD) : Try Unit := if t.ok then .ok () else .error (.cause cPlanefmt t.addr)

/-! ## `mfmt` (spec/16 R279) -/

/-- `mfmt`. The read of descriptor A comes, with all its causes, before that of B (DESIGN CHOICE, log entry 119). -/
def mfmtOp (o : RR) (w : Who) (s : State) : Res :=
  let c := s.rd w (o.c.getD 0)
  mcheck w s (decide (c.toNat < 2 ^ 13)) (tryRes s (do
    let ba ← issueRead s w (s.rd w o.a) 128 64
    let bb ← issueRead s w (s.rd w o.b) 128 64
    let ta := parseTd (s.rd w o.a) ba
    let tb := parseTd (s.rd w o.b) bb
    tdFault ta
    tdFault tb
    let ka := ta.planesRead s.cap
    let kb := tb.planesRead s.cap
    if ka = 3 then .error (.cause cPlanefmt ta.addr)
    else if kb = 3 then .error (.cause cPlanefmt tb.addr)
    else if (mpair ta.ty ka tb.ty kb).isNone then .error (.cause cPlanefmt ta.addr)
    else .ok (mpush w s (.mfmt ta tb ka kb c.toNat) (fun k => { k with mctx := ⟨true, ta, tb, ka, kb, c.toNat⟩ }))))

def execMfmt (o : RR) : State → Outcome := issue (.mfmt o) (mfmtOp o)

/-! ## `mldb` and `mmul` (spec/16 R280 to R282) -/

/-- Bytes of element `e` of row `r`, read with `k` planes, with its scale byte when `scl`. -/
def elemBytes (t : TD) (k : Nat) (scl : Bool) (r e : Nat) : List Int :=
  (List.range k).flatMap (fun (j : Nat) =>
    let b : Int := t.elemBit e r + 8 * (j : Int) * t.pstride.toInt
    (List.range (((b % 8).toNat + t.width + 7) / 8)).map (fun (x : Nat) => b / 8 + (x : Int))) ++
  (if scl then [t.scaleAt e r] else [])

/-- Rows and then k-values, in ascending order. -/
def elemGrid (rows n r i0 : Nat) : List (Nat × Nat) :=
  (List.range rows).flatMap (fun i => (List.range n).map (fun k => (r + i, i0 + k)))

/-- `window` of the first byte outside the slice, then `priv` of the first refused one. -/
def elemCheck (s : State) (w : Who) (t : TD) (k : Nat) (scl : Bool) (es : List (Nat × Nat)) : Option Stop :=
  let out (e : Nat × Nat) : Option Stop := ((elemBytes t k scl e.1 e.2).find?
    (fun b => decide (b < 0) || decide ((localSize w.i : Int) ≤ b))).map (fun b => .cause cWindow (wAddr b))
  let bar (e : Nat × Nat) : Option Stop := ((elemBytes t k scl e.1 e.2).find?
    (fun b => !guardOk (s.coreAt w.i) .load b.toNat 1)).map (fun b => .cause cPriv (wAddr b))
  match es.findSome? out with
  | some c => some c
  | none => es.findSome? bar

/-- Planes of a B operand that a load moves. -/
def ldPlanes (t : TD) : Nat := if t.ty = .np ∧ 2 ≤ t.pst then 2 else 1

/-- The load lies within the B-store: R280 states the limit on the scale offset without regard to `scl`. -/
def ldFits (t : TD) (off soff kn : Nat) : Bool :=
  (if t.ty = .np then decide (off + kn ≤ 4096) else decide (8 * off + kn * t.width ≤ 65536)) &&
  decide (soff + (kn + 31) / 32 ≤ 8192)

def mldbOp (o : RR) (w : Who) (s : State) : Res :=
  let ga := s.rd w o.a
  let off := bits ga 0 13
  let soff := bits ga 16 13
  mcheck w s (ga.toNat == off + soff * 2 ^ 16 && off % 64 == 0) (tryRes s (do
    let bs ← issueRead s w (s.rd w o.b) 128 64
    let t := parseTd (s.rd w o.b) bs
    tdFault t
    match kmax t.ty with
    | none => .error (.cause cPlanefmt t.addr)
    | some km =>
      let gc := s.rd w (o.c.getD 0)
      let i0 := bits gc 0 32
      let r := bits gc 32 32
      let p0 := wAddr (t.planeAt i0 r 0)
      if t.e 0 ≤ i0 ∨ t.rows ≤ r then .error (.cause cWindow p0)
      else
        let kn := min (t.e 0 - i0) km
        match elemCheck s w t (ldPlanes t) t.scaled (elemGrid (min 128 (t.rows - r)) kn r i0) with
        | some c => .error c
        | none =>
          if i0 % 32 ≠ 0 then .error (.cause cAlign p0)
          else if !ldFits t off soff kn then .error (.cause cIllegal (illegalVal s 11))
          else .ok (mpush w s (.mldb t off soff i0 r))))

def execMldb (o : RR) : State → Outcome := issue (.mldb o) (mldbOp o)

/-- The limits of `mmul` that need the class and formats of the context. -/
def mulFits (c : MCtx) (m K boff : Nat) : Bool :=
  match mpair c.ta.ty c.ka c.tb.ty c.kb with
  | none => false
  | some (kc, _) =>
    decide (m * ((K + kc - 1) / kc) ≤ 128) &&
    (if c.tb.ty = .np then decide (boff + K ≤ 4096) else decide (8 * boff + K * c.tb.width ≤ 65536)) &&
    (!c.tb.scaled || decide (c.soff + (K + 31) / 32 ≤ 8192))

def mmulOp (t : BitVec 2) (b c : Reg) (z d : Bool) (w : Who) (s : State) : Res :=
  let g := s.rd w c
  let K := bits g 0 15
  let m := bits g 16 5 + 1
  let boff := bits g 32 13
  let x := (s.coreAt w.i).mctx
  let pos := s.rd w b
  let i0 := bits pos 0 32
  let r := bits pos 32 32
  if g.toNat ≠ K + bits g 16 5 * 2 ^ 16 + boff * 2 ^ 32 ∨ boff % 64 ≠ 0 ∨ K = 0 ∨ 16384 < K then
    .trap cIllegal (illegalVal s 11)
  else if !x.set then .trap cIllegal (illegalVal s 12)
  else mcheck w s (mulFits x m K boff)
    (match elemCheck s w x.ta x.ka x.ta.scaled (elemGrid (min m (x.ta.rows - r)) (min K (x.ta.e 0 - i0)) r i0) with
      | some e => tryRes s (.error e)
      | none => mpush w s (.mmul t.toNat i0 r boff m K z d))

def execMmul (t : BitVec 2) (b c : Reg) (z d : Bool) : State → Outcome := issue (.mmul t b c z d) (mmulOp t b c z d)

/-! ## Tiles, map and mask (spec/16 R284 to R291) -/

/-- A command without operands to check. -/
def mplain (op : MOp) (w : Who) (s : State) : Res := mcheck w s true (mpush w s op)

def execMzero (t : BitVec 2) : State → Outcome := issue (.mzero t) (mplain (.mzero t.toNat))
def execMspec (t : BitVec 2) : State → Outcome := issue (.mspec t) (mplain (.mspec t.toNat))
def execMcommit (t : BitVec 2) : State → Outcome := issue (.mcommit t) (mplain (.mcommit t.toNat))
def execMdiscard (t : BitVec 2) : State → Outcome := issue (.mdiscard t) (mplain (.mdiscard t.toNat))
def execMbar : State → Outcome := issue .mbar (mplain .mbar)
def execMstat : State → Outcome := issue .mstat (mplain .mstat)

def mwrOp (t : BitVec 2) (b : Reg) (w : Who) (s : State) : Res :=
  let a := s.rd w b
  mcheck w s true (tryRes s (do
    let _ ← issueRead s w a 16384 64
    .ok (mpush w s (.mwr t.toNat a.toNat))))

def execMwr (t : BitVec 2) (b : Reg) : State → Outcome := issue (.mwr t b) (mwrOp t b)

/-- Rows of `mrd`: `nr` = 0 means 32. -/
def mrdRows (nr : BitVec 5) : Nat := if nr = 0 then 32 else nr.toNat

/-- `mrd`. The causes of its range are those of a checked write, in the order of spec/06 R113: `window`, `priv` where a guard refuses a write, `align`
(DEDUCED, log entry 119). -/
def mrdOp (t : BitVec 2) (b : Reg) (nr : BitVec 5) (w : Who) (s : State) : Res :=
  let a := s.rd w b
  let n := mrdRows nr
  mcheck w s true (match sliceCheck s w .store a (512 * n) 128 with
    | some c => tryRes s (.error c)
    | none => mpush w s (.mrd t.toNat a.toNat n))

def execMrd (t : BitVec 2) (b : Reg) (nr : BitVec 5) : State → Outcome := issue (.mrd t b nr) (mrdOp t b nr)

/-- Pairs (d, s) of `mdup` from the words read. -/
def dupPairs (bs : List Byte) (n : Nat) : List (Nat × Nat) :=
  (List.range n).map (fun p => (leNat ((bs.drop (4 * p)).take 2), leNat ((bs.drop (4 * p + 2)).take 2)))

def mdupOp (a b : Reg) (w : Who) (s : State) : Res :=
  let ga := s.rd w a
  let n := bits ga 0 5
  let side := bit ga 8
  mcheck w s (ga.toNat == n + b2n side * 256 && decide (n ≤ 16))
    (if n = 0 then mpush w s (.mdup side [])
     else tryRes s (do
       let bs ← issueRead s w (s.rd w b) (4 * n) 64
       .ok (mpush w s (.mdup side (dupPairs bs n)))))

def execMdup (a b : Reg) : State → Outcome := issue (.mdup a b) (mdupOp a b)

def mvldOp (b : Reg) (w : Who) (s : State) : Res :=
  mcheck w s true (tryRes s (do
    let bs ← issueRead s w (s.rd w b) 4 4
    .ok (mpush w s (.mvld (BitVec.ofNat 32 (leNat bs))))))

def execMvld (b : Reg) : State → Outcome := issue (.mvld b) (mvldOp b)
def execMvldR (b : Reg) : State → Outcome :=
  issue (.mvldR b) (fun w s => mplain (.mvld (BitVec.ofNat 32 (s.rd w b).toNat)) w s)

/-- `mslot` and `mwgt` run only at levels 0 and 1: on a worker, at level 2, they raise `priv` with 0, before a pending `datauc` (DESIGN CHOICE,
log entry 119). -/
def levelled (w : Who) (s : State) (ok : Bool) (op : MOp) : Res :=
  if !ok then .trap cIllegal (illegalVal s 11)
  else if 1 < (s.coreAt w.i).level then .trap cPriv 0
  else mcheck w s true (mpush w s op)

def execMslot (a b : Reg) : State → Outcome :=
  issue (.mslot a b) (fun w s => levelled w s (decide ((s.rd w a).toNat < 4)) (.mslot (s.rd w a).toNat (s.rd w b)))
def execMwgt (a : Reg) : State → Outcome :=
  issue (.mwgt a) (fun w s => levelled w s (decide ((s.rd w a).toNat < 2 ^ 32)) (.mwgt (BitVec.ofNat 32 (s.rd w a).toNat)))

end Sys2Proof.Machine
end

