-- ==== Sys2Proof/Machine/MatrixUnit.lean ====
section
/-!
DEFINITION. The matrix unit of a cluster (spec/15): arbitration (R263, R264), what each command does when it is granted
(R258 to R262, R265 to R269, spec/16 R280 to R291), data errors (R272, R273), and the completion of a command (R277).
-/
namespace Sys2Proof.Machine

/-! ## Uncorrectable words (spec/15 R272, R273, Table 15.5) -/

/-- A byte that an uncorrectable word gives where the spec states no value. -/
def freeByte (s : State) (f : Nat) : Byte := BitVec.ofNat 8 (Config.unstated (s.freeNo + f)).toNat

/-- `trap.val` of an error at flat word `fw` that a command of core `i` met. -/
def unitVal (i fw : Nat) : Word :=
  let f := fw * 8
  let tag := 0xFF * 2 ^ 56
  if f < 0x400000000 then w64 (f - localBase i)
  else if f < 0x800000000 then w64 (tag + (f - bBase (clusterOf i)) / 8)
  else
    let o := f - tileBase i
    w64 (tag + (if o < 0x10000 then 1 else 2) * 2 ^ 18 + o % 0x10000 / 8)

/-- All eight cores of the cluster of core `i` are quarantined, `i` being named. -/
def quarantineCluster (s : State) (i : Nat) : State :=
  let cl := clusterOf i
  let v := quarVal s i 1
  let mine := (List.range 8).map (coreIn cl)
  let others := (mine.flatMap (fun j => match taskOf s j with
    | some (_, t) => t.rect.cores
    | none => [])).filter (fun j => !mine.contains j)
  let s := noteQuar s i v
  let s := mine.foldl (fun s j => (dissolve s j true).modCore j (fun k => { k.dropReady with run := .quarantined })) s
  let s := { s with bands := mset s.bands (bandOf i) (((mget s.bands (bandOf i)).getD {}).add (colOf i)) }
  others.foldl (fun s j => s.modCore j (fun k => { k with quar := some (k.quar.getD v) })) s

/-- A command of core `i` met the uncorrectable words `fws`: an error becomes pending for the core, and a unit word that
has given one since reset quarantines the cluster. -/
def unitErrors (s : State) (i : Nat) : List Nat → State
  | [] => s
  | fw :: t =>
    let s := s.modCore i (fun k => { k with mErr := some (k.mErr.getD (unitVal i fw)) })
    let s := if fw * 8 < 0x400000000 then s
      else if s.reported.contains fw then quarantineCluster s i
      else { s with reported := fw :: s.reported }
    unitErrors s i t

/-- The uncorrectable words among `n` bytes at flat address `f`. -/
def badWords (s : State) (f n : Nat) : List Nat :=
  if s.bad.isEmpty ∨ n = 0 then []
  else ((List.range ((f + n - 1) / 8 - f / 8 + 1)).map (fun k => f / 8 + k)).filter s.bad.contains

/-! ## Tiles (spec/15 R266, R267) -/

/-- Flat address of element (row, column) of a tile, in its live copy or shadow. -/
def tileAt (i t : Nat) (shadow : Bool) (row col : Nat) : Nat :=
  tileBase i + (if shadow then 0x10000 else 0) + t * 16384 + row * 512 + col * 4

/-- Commands act on the shadow of a speculative tile. -/
def isSpec (s : State) (i t : Nat) : Bool := ((vget (s.clusterAt (clusterOf i)).fctx (rowOf i) {}).specm).getLsbD t

def nan32 : Nat := 0x7FC00000

/-- One row of tile elements from `f`: an element in an uncorrectable word is the NaN of R272. -/
def tileRow (s : State) (f n : Nat) : List Nat :=
  (List.range n).map (fun j => if (badWords s (f + 4 * j) 4).isEmpty then leNat (rdBs s.mem (f + 4 * j) 4) else nan32)

/-- Write elements at `f`, remembering which hold a NaN of R272. -/
def tilePut (s : State) (cl f : Nat) (vals : List (Nat × Bool)) : State :=
  let s := put s f (vals.flatMap (fun v => natLE 4 v.1)) (0, 0)
  s.modCluster cl (fun k =>
    let keep := k.badNan.filter (fun a => !(decide (f ≤ a) && decide (a < f + 4 * vals.length)))
    { k with badNan := keep ++ (vals.zipIdx.filter (fun e => e.1.2)).map (fun e => f + 4 * e.2) })

/-- An element that a read of `f` gives is a NaN of R272. -/
def isBadNan (s : State) (cl f : Nat) : Bool := (s.clusterAt cl).badNan.contains f || !(badWords s f 4).isEmpty

/-- Copy `rows` rows of elements from flat address `src` to `dst` within core `i`'s tiles. -/
def tileCopy (s : State) (i src dst : Nat) : State :=
  let cl := clusterOf i
  let fws := badWords s src 16384
  let vals := (tileRow s src 4096).zipIdx.map (fun e => (e.1, isBadNan s cl (src + 4 * e.2)))
  unitErrors (tilePut s cl dst vals) i fws

/-! ## Operands and passes (spec/15 R261, R262, spec/16 R283) -/

/-- An operand value: its value with scale, and for LNS6 its code and the exponent of its scale. -/
structure Opd where
  v : Val
  code : Nat := 0x10
  c : Int := 0
  deriving DecidableEq, Repr

def opdOf (f : NFmt) (code c : Nat) : Opd :=
  { v := if c = 0xFF then .nan else (f.val code).scale ((c : Int) - 127), code, c := (c : Int) - 127 }

def prodOf (kind : MKind) (x y : Opd) : Val :=
  if kind = .lns then (if x.v.isNan || y.v.isNan then .nan else (lnsMul x.code y.code).scale (x.c + y.c))
  else x.v.mul y.v

/-- Reader of a core's slice as it stands. -/
def coreReader (s : State) (i : Nat) : Reader := fun a n => rdBs s.mem (localBase i + a.toNat) n

/-- A(i, k): element `e` of row `r`; +0 outside the tensor. -/
def opdA (s : State) (i : Nat) (c : MCtx) (r e : Nat) : Opd :=
  let t := c.ta
  let rd := coreReader s i
  if t.e 0 ≤ e ∨ t.rows ≤ r then { v := .zero }
  else
    let sc := t.scale rd e r
    if t.ty = .np then { v := t.value rd e r c.ka } else opdOf t.fmt (t.code rd e r 0) sc

/-- Flat address of byte `b` of column slice `j`. -/
def colAt (cl j b : Nat) : Nat := bBase cl + j * 8192 + b

/-- B(k, j): the code at `boff` of column `j` under the context's format. -/
def opdB (s : State) (cl : Nat) (c : MCtx) (boff j k : Nat) : Opd :=
  let t := c.tb
  let byte (b : Nat) : Nat := (rdB s.mem (colAt cl j b)).toNat
  let sc := if t.scaled then byte (c.soff + k / 32) else 127
  if t.ty = .np then { v := planeVal [byte (boff + k), byte (boff + 4096 + k)] c.kb sc t.nan }
  else
    let bit0 := 8 * boff + k * t.width
    opdOf t.fmt (leNat (rdBs s.mem (colAt cl j (bit0 / 8)) ((bit0 % 8 + t.width + 7) / 8)) / 2 ^ (bit0 % 8) % 2 ^ t.width) sc

/-- The special result of a set of terms (R262). -/
def specialOf (ts : List Val) : Option Nat :=
  if ts.any Val.isNan then some nan32
  else if ts.any Val.isInf then
    (if ts.any (· == .inf false) && ts.any (· == .inf true) then some nan32
     else if ts.any (· == .inf true) then some 0xFF800000 else some 0x7F800000)
  else none

/-- Exponent of the leading bit; none for zero. -/
def leadExp : Val → Option Int
  | .fin _ m e => if m = 0 then none else some ((Nat.log2 m : Int) + e)
  | _ => none

def maxLead (ts : List Val) : Option Int :=
  ts.foldl (fun a t => match a, leadExp t with
    | some x, some y => some (max x y)
    | none, b => b
    | a, none => a) none

/-- |t| cut down to a multiple of `2 ^ q`. -/
def cutAt (q : Int) : Val → Val
  | .fin n m e => if q ≤ e then .fin n m e else .fin n (m / 2 ^ (q - e).toNat) q
  | v => v

/-- One pass over its terms: the new accumulator code (R261). -/
def passOf (exact : Bool) (ts : List Val) : Nat :=
  match specialOf ts with
  | some c => c
  | none =>
    match maxLead ts with
    | none => 0
    | some l => round32 ((if exact then ts else ts.map (cutAt (l - 40))).foldl Val.add .zero)

/-- Groups of 128 terms. -/
def chunks128 : Nat → List Val → List (List Val)
  | 0, _ => []
  | n + 1, l => l.take 128 :: chunks128 n (l.drop 128)

/-- An accumulator element after every pass of a command. -/
def accumulate (exact : Bool) (acc : Nat) (prods : List Val) : Nat :=
  (chunks128 ((prods.length + 127) / 128) prods).foldl (fun a ts => passOf exact (val32 a :: ts)) acc

/-- The k-value that a fetch of `k` takes (R268, R283). -/
def dmapOf (pairs : List (Nat × Nat)) (K k : Nat) : Nat :=
  (pairs.foldl (fun r p => if p.1 = k ∧ p.1 < K ∧ p.2 < K then some p.2 else r) none).getD k

/-- Uncorrectable words that the A values of row `r` and the B values of column `j` lie in. -/
def badA (s : State) (i : Nat) (c : MCtx) (r : Nat) (es : List Nat) : List Nat :=
  if s.bad.isEmpty then []
  else es.flatMap (fun e => if c.ta.e 0 ≤ e ∨ c.ta.rows ≤ r then [] else
    (elemBytes c.ta c.ka c.ta.scaled r e).flatMap (fun b => badWords s (localBase i + b.toNat) 1))

def badB (s : State) (cl : Nat) (c : MCtx) (boff j : Nat) (ks : List Nat) : List Nat :=
  if s.bad.isEmpty then []
  else ks.flatMap (fun k =>
    (if c.tb.scaled then badWords s (colAt cl j (c.soff + k / 32)) 1 else []) ++
    (if c.tb.ty = .np then badWords s (colAt cl j (boff + k)) 1 ++ (if c.kb = 2 then badWords s (colAt cl j (boff + 4096 + k)) 1 else [])
     else badWords s (colAt cl j ((8 * boff + k * c.tb.width) / 8)) (((8 * boff + k * c.tb.width) % 8 + c.tb.width + 7) / 8)))

/-- `mmul` at its grant (spec/16 R283). -/
def runMmul (s : State) (i t i0 r boff m K : Nat) (z d : Bool) : State :=
  let cl := clusterOf i
  let f := vget (s.clusterAt cl).fctx (rowOf i) {}
  let c := f.mc
  let kind := ((mpair c.ta.ty c.ka c.tb.ty c.kb).getD (128, .flt)).2
  let sh := isSpec s i t
  let mapA := if d && !f.dside then f.dpairs else []
  let mapB := if d && f.dside then f.dpairs else []
  let ka := (List.range K).map (fun k => i0 + dmapOf mapA K k)
  let kb := (List.range K).map (dmapOf mapB K)
  let cols := (List.range 128).map (fun j => kb.map (opdB s cl c boff j))
  let badCols := (List.range 128).map (fun j => badB s cl c boff j kb)
  let rows := (List.range m).filter (fun i' => f.vmask.getLsbD i')
  -- One command reports a word once, in however many rows it meets it (spec/08 R157).
  let r := rows.foldl (fun (u : State × List Nat) i' =>
    let fr := tileAt i t sh i' 0
    let as := ka.map (opdA s i c (r + i'))
    let ba := badA s i c (r + i') ka
    let bt := if z then [] else badWords s fr 512
    let old := if z then List.replicate 128 0 else tileRow s fr 128
    let vals := (old.zip (cols.zip badCols)).zipIdx.map (fun e =>
      let acc := e.1.1
      let bad := !ba.isEmpty || !e.1.2.2.isEmpty || (!z && isBadNan s cl (fr + 4 * e.2))
      if bad then (nan32, true)
      else (accumulate (kind != .flt) acc ((as.zip e.1.2.1).map (fun p => prodOf kind p.1 p.2)), false))
    (tilePut u.1 cl fr vals, u.2 ++ ba ++ bt ++ badCols.flatten)) (s, [])
  unitErrors r.1 i r.2.eraseDups

/-- One column of a load: codes packed from bit 8b, the bits beyond them kept. -/
def packBits (old : List Byte) (wd : Nat) (codes : List Nat) : List Byte :=
  let n := codes.length * wd
  let v := codes.zipIdx.foldl (fun a e => a + e.1 % 2 ^ wd * 2 ^ (wd * e.2)) 0
  natLE ((n + 7) / 8) (v + leNat old / 2 ^ n * 2 ^ n)

/-- `mldb` at its grant (spec/16 R280): the slice is read as it stands; an uncorrectable word gives free bytes. -/
def runMldb (s : State) (i : Nat) (td : TD) (off soff i0 row : Nat) : State :=
  let cl := clusterOf i
  let kn := min (td.e 0 - i0) ((kmax td.ty).getD 0)
  let rd : Reader := fun a n => (List.range n).map (fun k =>
    let f := localBase i + a.toNat + k
    if (badWords s f 1).isEmpty then rdB s.mem f else freeByte s f)
  let wd := td.width
  let nq := (kn + 31) / 32
  let fws := if s.bad.isEmpty then [] else
    ((elemGrid (min 128 (td.rows - row)) kn row i0).flatMap (fun e => (elemBytes td (ldPlanes td) td.scaled e.1 e.2).flatMap
      (fun b => badWords s (localBase i + b.toNat) 1))).eraseDups
  let u := (List.range 128).foldl (fun u j =>
    let inn := decide (row + j < td.rows)
    let codes (p : Nat) : List Nat := (List.range kn).map (fun k => if inn then td.code rd (i0 + k) (row + j) p else 0)
    let f := colAt cl j off
    let u := put u f (packBits (rdBs u.mem f ((kn * wd + 7) / 8)) wd (codes 0)) (0, 0)
    let u := if td.ty = .np then
        put u (f + 4096) ((if td.pst < 2 then List.replicate kn 0 else codes 1).map (BitVec.ofNat 8)) (0, 0) else u
    if td.scaled then
      put u (colAt cl j soff) ((List.range nq).map (fun q =>
        if inn then BitVec.ofNat 8 (leNat (rd (td.scaleAt (i0 + 32 * q) (row + j)) 1)) else 0)) (0, 0)
    else u) s
  unitErrors (if fws.isEmpty then u else { u with freeNo := u.freeNo + 1 }) i fws

/-- `mwr` at its grant (spec/16 R285). -/
def runMwr (s : State) (i t a : Nat) : State :=
  let f := localBase i + a
  let fws := badWords s f 16384
  let vals := (tileRow s f 4096).zipIdx.map (fun e => (e.1, !(badWords s (f + 4 * e.2) 4).isEmpty))
  unitErrors (tilePut s (clusterOf i) (tileAt i t (isSpec s i t) 0 0) vals) i fws

/-- Change the format context of core `i`'s row. -/
def modFctx (s : State) (i : Nat) (g : FmtCtx → FmtCtx) : State :=
  s.modCluster (clusterOf i) (fun k => { k with fctx := vput k.fctx (rowOf i) (g (vget k.fctx (rowOf i) {})) })

/-- Set bit `t` of the speculative set. -/
def specBit (m : BitVec 4) (t : Nat) (b : Bool) : BitVec 4 :=
  if b then m ||| BitVec.twoPow 4 t else m &&& ~~~(BitVec.twoPow 4 t)

/-- The slice writes of `mrd`, in pairs of lines. -/
def mrdWrites (s : State) (i t a n : Nat) : List (Nat × List Byte) :=
  let f := tileAt i t (isSpec s i t) 0 0
  (List.range (4 * n)).map (fun p => (a + 128 * p, (tileRow s (f + 128 * p) 32).flatMap (natLE 4)))

/-- What a command does at its grant, apart from the slice writes of `mrd`. -/
def runOp (s : State) (i : Nat) : MOp → State
  | .mfmt ta tb ka kb soff => modFctx s i (fun f => { f with mc := ⟨true, ta, tb, ka, kb, soff⟩ })
  | .mldb td off soff i0 row => runMldb s i td off soff i0 row
  | .mmul t i0 row boff m K z d => runMmul s i t i0 row boff m K z d
  | .mzero t => tilePut s (clusterOf i) (tileAt i t (isSpec s i t) 0 0) (List.replicate 4096 (0, false))
  | .mwr t a => runMwr s i t a
  | .mrd t _ n => unitErrors s i (badWords s (tileAt i t (isSpec s i t) 0 0) (512 * n))
  | .mdup side pairs => modFctx s i (fun f => { f with dside := side, dpairs := pairs })
  | .mvld m => modFctx s i (fun f => { f with vmask := m })
  | .mspec t => modFctx (tileCopy s i (tileAt i t false 0 0) (tileAt i t true 0 0)) i (fun f =>
      { f with specm := specBit f.specm t true })
  | .mcommit t =>
    if isSpec s i t then
      modFctx (tileCopy s i (tileAt i t true 0 0) (tileAt i t false 0 0)) i (fun f => { f with specm := specBit f.specm t false })
    else s
  | .mdiscard t => modFctx s i (fun f => { f with specm := specBit f.specm t false })
  | .mbar | .mstat => s
  | .mslot q v => s.modCluster (clusterOf i) (fun k =>
      { k with slots := (List.range 16).foldl (fun t e => vput t (16 * q + e) (BitVec.ofNat 4 (bits v (4 * e) 4))) k.slots })
  | .mwgt v => s.modCluster (clusterOf i) (fun k => { k with wgt := v, cr := Vector.replicate 8 0, w0 := 7 })

/-- Result element (spec/16 Tables 16.2, 16.3), from the state in which the command was granted. -/
def elemOf (s : State) (i : Nat) (op : MOp) : Word :=
  let k := s.clusterAt (clusterOf i)
  let seq := vget k.seqs (rowOf i) 0 % 2 ^ 32
  let f := vget k.fctx (rowOf i) {}
  match op with
  | .mrd t _ n =>
    let a := tileAt i t (isSpec s i t) 0 0
    let bad := !(s.bad.isEmpty && k.badNan.isEmpty) && (List.range (128 * n)).any (fun e => isBadNan s (clusterOf i) (a + 4 * e))
    w64 (1 * 2 ^ 56 + b2n (isSpec s i t) * 2 ^ 41 + b2n bad * 2 ^ 40 + t * 2 ^ 32 + seq)
  | .mbar => w64 (2 * 2 ^ 56 + seq)
  | .mstat =>
    w64 (3 * 2 ^ 56 + f.specm.toNat * 2 ^ 52 + intBits 8 (vget k.cr (rowOf i) 0) * 2 ^ 40 + b2n f.dside * 2 ^ 37 +
      f.dpairs.length * 2 ^ 32 + f.vmask.toNat)
  | _ => 0

/-! ## Arbitration (spec/15 R263, R264) -/

/-- The head command of a row is eligible: 2 cycles after its `push`, its released stores performed, its core not halted
for pre-emption (its commands are frozen, spec/08 R162) and in no exchange phase. Commands of a core that has stopped fatally or is quarantined are
never granted (DESIGN CHOICE, log entry 119). -/
def eligCmd (s : State) (cl row : Nat) : Option MCmd :=
  let k := s.coreAt (coreIn cl row)
  match k.q0 with
  | c :: _ =>
    let live := match k.run with
      | .running | .halted => true
      | _ => false
    if live && k.exch.isNone && decide (c.at_ + 2 ≤ s.cyc) && depsDone s c.deps then some c else none
  | [] => none

/-- Winner and cluster after one arbitration among the eligible rows. -/
def arbitrate (k : Cluster) (cyc : Nat) (elig : List Nat) : Option (Nat × Cluster) :=
  let slot := vget k.slots (cyc / 16 % 64) 0
  let owner := slot.toNat % 8
  if elig.isEmpty then none
  else if slot.getLsbD 3 && elig.contains owner then some (owner, k)
  else
    let wt (i : Nat) : Int := (k.wgt.toNat / 2 ^ (4 * i) % 16 : Nat)
    let es := elig.filter (fun i => decide (0 < wt i))
    if es.isEmpty then
      match ((List.range 8).map (fun d => (k.w0 + 1 + d) % 8)).find? elig.contains with
      | some win => some (win, { k with w0 := win })
      | none => none
    else
      let cr := es.foldl (fun c i => vput c i (clampInt 8 true (vget c i 0 + wt i))) k.cr
      let win := es.foldl (fun (b : Nat) i => if vget cr b 0 < vget cr i 0 then i else b) (es.headD 0)
      let tot := es.foldl (fun (a : Int) i => a + wt i) 0
      some (win, { k with cr := vput cr win (clampInt 8 true (vget cr win 0 - tot)) })

/-- Start the granted command of a row. -/
def startCmd (s : State) (cl row : Nat) (c : MCmd) : State :=
  let i := coreIn cl row
  let s := s.modCore i (fun k => { k with q0 := k.q0.tail })
  let s := s.modCluster cl (fun k => { k with seqs := vput k.seqs row ((vget k.seqs row 0 + 1) % 2 ^ 32) })
  let run : MRun := { row, op := c.op, elem := elemOf s i c.op, writes := match c.op with
    | .mrd t a n => mrdWrites s i t a n
    | _ => [] }
  (runOp s i c.op).modCluster cl (fun k => { k with run := some run })

/-- The row MATRIX_GRANT: a free unit grants one eligible command. What it samples, the credits of `mstat` among it, is the state after the
arbitration (DESIGN CHOICE, log entry 119). -/
def execMatrixGrant (cl : Nat) (s : State) : Outcome :=
  if 512 ≤ cl then .fault .noSuchAgent
  else
    let k := s.clusterAt cl
    .next (if k.run.isSome then s
      else match arbitrate k s.cyc ((List.range 8).filter (fun r => (eligCmd s cl r).isSome)) with
        | none => s
        | some (win, k') =>
          match eligCmd s cl win with
          | some c => startCmd (s.setCluster cl k') cl win c
          | none => s)

/-- An element enters a result FIFO: the wake latches of the core are set (spec/06 R135). -/
def enterResult (s : State) (i : Nat) (f : Core → Core) : State := wake (s.modCore i f) i

/-- The row MATRIX_COMMAND_COMPLETE: the command in the array makes its next slice write, or completes; an element waits for room
in the result FIFO (spec/16 R277, R286). -/
def execMatrixCommandComplete (cl : Nat) (s : State) : Outcome :=
  if 512 ≤ cl then .fault .noSuchAgent
  else match (s.clusterAt cl).run with
    | none => .next s
    | some r =>
      let i := coreIn cl r.row
      match r.writes with
      | (a, bs) :: t =>
        .next ((extWrite s i a bs 1).modCluster cl (fun k => { k with run := some { r with writes := t } }))
      | [] =>
        if r.op.gives then
          if 8 ≤ (s.coreAt i).r0.length then .next s
          else .next (enterResult (s.modCluster cl (fun k => { k with run := none })) i (fun k => { k with r0 := k.r0 ++ [r.elem] }))
        else .next (s.modCluster cl (fun k => { k with run := none }))

end Sys2Proof.Machine
end

