-- ==== Sys2Proof/Machine/Lifeguard.lean ====
section
/-!
DEFINITION. The lifeguard: its eight instructions (spec/21 R363 to R371), the messages of a binding (R348, R359, R364, R365, R367,
R370), the ring and the dispatcher (R353 to R356).
-/
namespace Sys2Proof.Machine

/-- The core belongs to a binding, or is making one (spec/21 R347). -/
def Core.belongs (k : Core) : Bool := k.lg.v || k.bound.isSome || k.guard.isSome

/-- A lifeguard in a binding. -/
def Core.guards (k : Core) : Bool := k.lg.v && k.lg.role

/-! ## `lgbind`, `lgunbind` (spec/21 R364, R365) -/

/-- A field of the binding block (spec/21 Table 21.1). -/
def lgbAt (bs : List Byte) (o n : Nat) : Nat := leNat ((bs.drop o).take n)

/-- The block's own checks: status 1 when one fails. -/
def lgBlockOk (bs : List Byte) : Bool :=
  let lring := lgbAt bs 2 1; let ring := lgbAt bs 8 8
  lgbAt bs 0x10 48 == 0 && decide (12 ≤ lring) && decide (lring ≤ 16) && ring % 2 ^ lring == 0 &&
  decide (ring + 2 ^ lring ≤ 0x40000) && decide (lgbAt bs 3 1 ≤ 1) && decide (16 ≤ lgbAt bs 6 2) &&
  (List.range 16).all (fun t => lgbAt bs (0x40 + 4 * t) 4 % 2 == 0 && decide (lgbAt bs (0x40 + 4 * t) 4 < 0x40000))

/-- The worker that a block names lies in the task domain of core `i` and is not `i`. -/
def lgTarget (s : State) (i : Nat) (bs : List Byte) : Option Nat :=
  let j := devCore s i (lgbAt bs 0 1) (lgbAt bs 1 1)
  match taskOf s i with
  | some (_, t) =>
    if j ≠ i ∧ lgbAt bs 0 1 + (partCorner s i).1 < 64 ∧ t.rect.has (lgbAt bs 0 1 + (partCorner s i).1) (lgbAt bs 1 1 + (partCorner s i).2) then some j
    else none
  | none => none

def lgbindOp (a b : Reg) (w : Who) (s : State) : Res :=
  Res.ofTry s (fun bs =>
    if !lgBlockOk bs then .go (s.wr w a 1)
    else match lgTarget s w.i bs with
      | none => .go (s.wr w a 2)
      | some j =>
        if (s.coreAt j).belongs then .go (s.wr w a 3)
        else if (s.coreAt w.i).belongs then .go (s.wr w a 4)
        else
          let g : Guardian := { peer := j, ring := lgbAt bs 8 8, lring := lgbAt bs 2 1,
                                hs := (List.range 16).map (fun t => w64 (lgbAt bs (0x40 + 4 * t) 4)) }
          let s1 := s.modCore w.i (fun k => { k with guard := some g, lgWait := some ⟨true, a, s.fall w⟩ })
          .stay (send s1 w.i 0 0 (.bind j (BitVec.ofNat 16 (lgbAt bs 4 2)) g.ring g.lring (lgbAt bs 3 1 == 1) (lgbAt bs 6 2))))
    (blockRead s w (s.rd w b) 128)

def execLgbind (a b : Reg) : State → Outcome := issue (.lgbind a b) (lgbindOp a b)

def lgunbindOp (a : Reg) (w : Who) (s : State) : Res :=
  let k := s.coreAt w.i
  match k.guard with
  | some g =>
    if !k.guards then .go (s.wr w a ones64)
    else match g.final with
      | some n => .go (s.wr w a (w64 n))
      | none => .stay (send (s.modCore w.i (fun k => { k with lgWait := some ⟨false, a, s.fall w⟩ })) w.i 0 0 (.unbind g.peer))
  | none => .go (s.wr w a ones64)

def execLgunbind (a : Reg) : State → Outcome := issue (.lgunbind a) (lgunbindOp a)

/-! ## The other instructions -/

/-- `lgnext` (spec/21 R366). -/
def lgnextOp (a b : Reg) (w : Who) (s : State) : Res :=
  let k := s.coreAt w.i
  match k.guard with
  | some g =>
    if !k.guards then .go ((s.wr w a ones64).wr w b 0)
    else match takeElem w.i k 3 with
      | none => .wait s
      | some (v, _, k') =>
        let at_ := g.ring + 16 * (k'.lg.seq.toNat % (2 ^ g.lring / 16)) + 8
        match badAt s.bad (localBase w.i + at_) 8 (fun _ => false) with
        | some _ => .trap cDatauc (w64 at_)
        | none =>
          let s1 := endDrain (s.setCore w.i k') w.i
          let s2 := (s1.wr w a v).wr w b (w64 (leNat (rdBs s.mem (localBase w.i + at_) 8)))
          let h := g.hs.getD (bits v 60 4) 0
          if h = 0 then .go s2 else .jump .plain s2 h
  | none => .go ((s.wr w a ones64).wr w b 0)

def execLgnext (a b : Reg) : State → Outcome := issue (.lgnext a b) (lgnextOp a b)

/-- The peer that a lifeguard's message goes to, once its earlier stores, atomics and pushes are performed (spec/21 R362). -/
def lgSend (w : Who) (s : State) (f : Nat → State → State) : Res :=
  let k := s.coreAt w.i
  match k.guard with
  | some g => if !k.guards then .go s else if !allDone s w then .wait s else .go (f g.peer s)
  | none => .go s

/-- `lgok` (spec/21 R367). -/
def execLgok : State → Outcome :=
  issue .lgok (fun w s => lgSend w s (fun p s =>
    let n := (s.coreAt w.i).lg.seq
    send (s.modCore w.i (fun k => { k with lg := { k.lg with cons := n } })) w.i 0 0 (.publish p n)))

/-- `lgflag` (spec/21 R368). -/
def execLgflag (a : Reg) : State → Outcome :=
  issue (.lgflag a) (fun w s => lgSend w s (fun p s => send s w.i 0 0 (.flag p (BitVec.ofNat 32 (s.rd w a).toNat))))

/-- `lgemit` (spec/21 R369). -/
def execLgemit (a b : Reg) : State → Outcome :=
  issue (.lgemit a b) (fun w s => .go (logRec s w 12 (s.rd w a) (bits (s.rd w b) 0 44)))

/-- The other core of a binding. -/
def Core.lgPeer? (k : Core) : Option Nat :=
  match k.bound, k.guard with
  | some b, _ => some b.peer
  | none, some g => if k.guards then some g.peer else none
  | none, none => none

/-- `lglim` (spec/21 R370). -/
def lglimOp (a b : Reg) (w : Who) (s : State) : Res :=
  let k := s.coreAt w.i
  match k.lgPeer? with
  | some p =>
    let n := min (max (s.rd w b).toNat 16) 65535
    let s1 := s.modCore w.i (fun k => { k with lg := { k.lg with lim := n } })
    .go ((send s1 w.i 0 0 (.limit p n)).wr w a (w64 k.lg.lim))
  | none => .go (s.wr w a 0)

def execLglim (a b : Reg) : State → Outcome := issue (.lglim a b) (lglimOp a b)

/-- `contain` (spec/21 R371): its containment point, when the core is a bound worker, is met before it. -/
def execContain : State → Outcome := issue .contain (fun _ s => .go s)

/-! ## Messages -/

/-- A message between the two cores of a binding, and the core that it goes to. -/
def PKind.lgTo : PKind → Option Nat
  | .bind w _ _ _ _ _ | .unbind w | .publish w _ | .flag w _ | .limit w _ | .bindAck w _ | .unbindAck w _ => some w
  | _ => none

/-- Messages from one core to another arrive in order (spec/21 R359). -/
def lgFirst (s : State) (k : Nat) (p : Packet) : Bool :=
  !(s.mesh.take k).any (fun q => q.core == p.core && q.kind.lgTo.isSome && q.kind.lgTo == p.kind.lgTo)

/-- The core has stopped: by a fatal stop or a quarantine. -/
def Core.dead (k : Core) : Bool := match k.run with
  | .stopped _ _ _ | .quarantined => true
  | _ => false

/-- Lifeguard registers of a core in a binding with core `j`. -/
def lgJoin (s : State) (i j : Nat) (role zone : Bool) (lim : Nat) : LgRegs :=
  { v := true, role, py := partY s i j, px := partX s i j, zone, lim }

/-- Handle packet `k` when `f` takes it; a domain in an exchange phase holds it at its edge (spec/03 R48). -/
def onPacket (k : Nat) (s : State) (f : Packet → Option State) : Outcome :=
  .next (match s.mesh[k]? with
    | none => s
    | some p => if lgFirst s k p && !(p.kind.lgTo.any (heldAtEdge s p.core)) then (f p).getD s else s)

/-- The row BIND_MESSAGE: a bind takes effect at its worker, or is turned away (spec/21 R348, R364). -/
def execBindMessage (k : Nat) (s : State) : Outcome :=
  onPacket k s (fun p => match p.kind with
    | .bind j mask ring lring zone lim =>
      let c := s.coreAt j
      let s := dropPkt s k
      some (if c.dead then send s j 0 0 (.bindAck p.core 5)
        else if c.belongs then send s j 0 0 (.bindAck p.core 3)
        else send (s.modCore j (fun c => { c with
          bound := some { peer := p.core, mask, ring, lring }, lg := lgJoin s j p.core false zone lim })) j 0 0 (.bindAck p.core 0))
    | _ => none)

/-- A held `lgbind` or `lgunbind` of core `i` completes with a value. -/
def lgDone (s : State) (i : Nat) (v : Word) : State :=
  match (s.coreAt i).lgWait with
  | none => s
  | some x =>
    let w : Who := ⟨i, 0, i⟩
    completeAt ((s.modCore i (fun c => { c with lgWait := none })).wr w x.rd v) w x.next

/-- The row BIND_ACK: the worker's answer completes `lgbind`. -/
def execBindAck (k : Nat) (s : State) : Outcome :=
  onPacket k s (fun p => match p.kind with
    | .bindAck i st =>
      let s := dropPkt s k
      if st = 0 then
        let b := (s.coreAt p.core).bound
        let zl := (s.coreAt p.core).lg
        some (lgDone (s.modCore i (fun c => { c with
          lg := if b.isSome then lgJoin s i p.core true zl.zone zl.lim else c.lg })) i 0)
      else some (lgDone (s.modCore i (fun c => { c with guard := none })) i (w64 st))
    | _ => none)

/-- Clear the tags that name a worker (spec/21 R352): those of lines, and those that its stores and atomics in flight, or in its slipstream
buffer, would set. -/
def clearTags (s : State) (j : Nat) : State :=
  { s.modCore j (fun k => { k with slip := k.slip.map (fun sl => { sl with tags := [] }) }) with
    tags := s.tags.filter (fun t => t.2.1 != j || t.2 == (0, 0))
    mesh := s.mesh.map (fun p => if p.core == j && p.tag.1 == j then { p with tag := (0, 0) } else p) }

/-- Records of a worker that are open but not sent: the result of a load or an atomic has not landed. -/
def recsOut (s : State) (j : Nat) : Bool :=
  s.mesh.any (fun p => p.core == j && p.seq.isSome) ||
    (liveCtxs (s.coreAt j)).any (fun c => ((s.coreAt j).ctx c).sys.any (fun x => x.seq.isSome))

/-- A flagged violation is taken as at a containment point when the worker is unbound (spec/21 R359): at once where the control
context stands at a boundary, otherwise at its next one. -/
def takeFlag (s : State) (j : Nat) (b : Bound) : State :=
  let c := s.coreAt j
  if !c.lg.gp then s
  else if standsAt c && c.quar.isNone then
    takeTrap s ⟨j, 0, j⟩ cGuard (w64 b.flagSeq) c.ctl.pc
  else s.modCore j (fun c => { c with ctl := { c.ctl with kept := c.ctl.kept ++ [(cGuard, w64 b.flagSeq, none)] } })

/-- The row UNBIND_MESSAGE: the worker closes its record, takes a flagged violation and stops logging (spec/21 R365). -/
def execUnbindMessage (k : Nat) (s : State) : Outcome :=
  onPacket k s (fun p => match p.kind with
    | .unbind j =>
      let c := s.coreAt j
      match c.bound with
      | some b =>
        if c.dead then
          some (send (clearTags ((dropPkt s k).modCore j (fun c => { c with bound := none, lg := {} })) j) j 0 0 (.unbindAck p.core none))
        else if recsOut s j then none
        else
          let s := takeFlag (closeRec (dropPkt s k) j) j b
          let fin := (s.coreAt j).seqNo
          some (send (clearTags (s.modCore j (fun c => { c with bound := none, lg := {} })) j) j 0 0 (.unbindAck p.core (some fin)))
      | none => some (send (dropPkt s k) j 0 0 (.unbindAck p.core none))
    | _ => none)

/-- The row UNBIND_ACK: the acknowledgement completes `lgunbind`; the lifeguard drains what is left. -/
def execUnbindAck (k : Nat) (s : State) : Outcome :=
  onPacket k s (fun p => match p.kind with
    | .unbindAck i fin =>
      let n := fin.getD ((s.coreAt i).guard.elim 0 (·.accepted))
      let s := (dropPkt s k).modCore i (fun c => { c with
        lg := { c.lg with drn := true }, guard := c.guard.map (fun g => { g with final := some n }) })
      some (endDrain (lgDone s i (w64 n)) i)
    | _ => none)

/-- A change of the worker's registers that its own lifeguard sends. -/
def fromGuard (s : State) (k : Nat) (p : Packet) (j : Nat) (f : Core → Core) : State :=
  (dropPkt s k).modCore j (fun c => if c.bound.any (fun b => b.peer == p.core) then f c else c)

/-- The row PUBLICATION_ARRIVAL (spec/21 R367). -/
def execPublicationArrival (k : Nat) (s : State) : Outcome :=
  onPacket k s (fun p => match p.kind with
    | .publish j n => some (fromGuard s k p j (fun c => { c with lg := { c.lg with cons := n } }))
    | _ => none)

/-- The row FLAG_ARRIVAL (spec/21 R359): a flag that arrives while one waits is ignored. -/
def execFlagArrival (k : Nat) (s : State) : Outcome :=
  onPacket k s (fun p => match p.kind with
    | .flag j n => some (fromGuard s k p j (fun c => if c.lg.gp then c else { c with
        lg := { c.lg with gp := true }, bound := c.bound.map (fun b => { b with flagSeq := n.toNat }) }))
    | _ => none)

/-- The row LIMIT_MESSAGE (spec/21 R370). -/
def execLimitMessage (k : Nat) (s : State) : Outcome :=
  onPacket k s (fun p => match p.kind with
    | .limit j n => some ((dropPkt s k).modCore j (fun c =>
        if c.lgPeer? == some p.core then { c with lg := { c.lg with lim := n } } else c))
    | _ => none)

/-! ## Records on their way (spec/21 R351, R353, R355, R356) -/

/-- The row RECORD_CLOSE_TIMEOUT: the open record of worker `i` closes on the eighth cycle after its last access. -/
def execRecordCloseTimeout (i : Nat) (s : State) : Outcome :=
  if 4096 ≤ i then .fault .noSuchAgent
  else .next (match (s.coreAt i).bound.bind (·.openRec) with
    | some r => if r.tagged && decide (r.cyc + 8 ≤ s.cyc) then closeRec s i else s
    | none => s)

/-- Ring address of record `n`. -/
def Guardian.slot (g : Guardian) (n : Nat) : Nat := g.ring + 16 * (n % (2 ^ g.lring / 16))

/-- The final record of an unbound worker has been accepted: what comes after it is dropped (spec/21 R365). -/
def Guardian.full (g : Guardian) : Bool := g.final == some g.accepted

/-- The row RECORD_RING_WRITE: record packet `k` is written into its ring, in sequence order, and accepted. -/
def execRecordRingWrite (k : Nat) (s : State) : Outcome :=
  .next (match s.mesh[k]? with
    | none => s
    | some p => match p.kind with
      | .record l n hdr addr =>
        match (s.coreAt l).guard with
        | none => dropPkt s k
        | some g =>
          if heldAtEdge s p.core l then s
          else if g.full && g.peer == p.core then dropPkt s k
          else if (g.accepted + 1) % 2 ^ 32 ≠ n ∨ g.peer ≠ p.core then s
          else
            let s := extWrite (dropPkt s k) l (g.slot n) (natLE 8 hdr.toNat ++ natLE 8 addr.toNat) 0
            s.modCore l (fun c => { c with guard := c.guard.map (fun g => { g with accepted := n }) })
      | _ => s)

/-- A count has reached a stamp, modulo 2^32 (spec/21 R349). -/
def reached (count stamp : Nat) : Bool := decide ((count + 2 ^ 32 - stamp) % 2 ^ 32 < 2 ^ 31)

/-- What the dispatcher finds for a record header of lifeguard `l` (spec/21 R356): free to go, to be sent with `uo`, or held. -/
inductive Stamp where
  | free
  | unordered (other : Nat)
  | held
  deriving DecidableEq, Repr

def stampOf (s : State) (l : Nat) (g : Guardian) (hdr : Word) : Stamp :=
  let typ := bits hdr 60 4
  let st := bits hdr 0 32
  let j := devCore s l (bits hdr 32 12 % 64) (bits hdr 32 12 / 64)
  if !(typ == 0 || typ == 2) || st == 0 || j == g.peer then .free
  else match (s.coreAt j).bound with
    | none => .free
    | some b =>
      let l' := s.coreAt b.peer
      if reached l'.lg.cons.toNat st then .free
      else match l'.guard with
        | none => .free
        | some g' =>
          let n := (g'.dispatched + 1) % 2 ^ 32
          if g'.holding && !reached n st then .unordered b.peer else .held

/-- The header of the next record, when one is accepted, up to the final one, and port 3 has room. -/
def nextHdr (s : State) (l : Nat) : Option (Guardian × Word) :=
  match (s.coreAt l).guard with
  | none => none
  | some g =>
    if g.dispatched = g.accepted ∨ g.final = some g.dispatched ∨ 16 ≤ (s.coreAt l).r3.length then none
    else some (g, w64 (leNat (rdBs s.mem (localBase l + g.slot ((g.dispatched + 1) % 2 ^ 32)) 8)))

/-- The dispatcher of `l` places a header in port 3. -/
def place (s : State) (l : Nat) (hdr : Word) : State :=
  enterResult s l (fun c => { c with
    r3 := c.r3 ++ [hdr], guard := c.guard.map (fun g => { g with dispatched := (g.dispatched + 1) % 2 ^ 32, holding := false }) })

/-- A header dispatched without its stamp satisfied. -/
def withUo (hdr : Word) : Word := hdr ||| w64 (2 ^ 58)

/-- The dispatcher of `l` holds its record. -/
def hold (s : State) (l : Nat) : State := s.modCore l (fun c => { c with guard := c.guard.map (fun g => { g with holding := true }) })

/-- Dispatchers other than `l` that hold their records and, with all of them holding, dispatch them with `uo` (spec/21 R356): the ring in which
each waits on the next goes on whole. -/
def ringOf (s : State) (l : Nat) : List (Nat × Word) :=
  s.cores.filterMap (fun e => if e.1 = l ∨ inPhase s e.1 then none
    else match nextHdr s e.1 with
      | some (g, hdr) => if g.holding then (match stampOf s e.1 g hdr with
        | .unordered _ => some (e.1, hdr)
        | _ => none) else none
      | none => none)

/-- The row RECORD_DISPATCH: the dispatcher of core `l` considers its next record (spec/21 R355, R356), outside an exchange phase of its domain,
in which it does not read its ring (spec/03 R48). -/
def execRecordDispatch (l : Nat) (s : State) : Outcome :=
  if 4096 ≤ l then .fault .noSuchAgent
  else if inPhase s l then .next s
  else .next (match nextHdr s l with
    | none => s
    | some (g, hdr) =>
      match stampOf s l g hdr with
      | .free => place s l hdr
      | .held => hold s l
      | .unordered _ => (ringOf (hold s l) l).foldl (fun t e => place t e.1 (withUo e.2)) (place s l (withUo hdr)))

end Sys2Proof.Machine
end

