-- ==== Sys2Proof/Machine/Local.lean ====
section
/-!
DEFINITION. Local loads and stores through the own slice, the control window and the cluster window (spec/06 R112 to R115,
Tables 6.2 and 6.3, spec/01 R16, R17), and the rows of the opcode table that are sub-cases of them.
-/
namespace Sys2Proof.Machine

/-! ## Banks of a slice (spec/06 R107) -/

/-- Data bank and group of a slice address. -/
def bankOf (a : Nat) : Nat := a / 64 % 32
def groupOf (a : Nat) : Nat := a / 256 % 8

/-- Slice address of byte `o` of data bank `b`. -/
def bankAddr (b o : Nat) : Nat := o / 64 * 2048 + b * 64 + o % 64

/-- Byte `o` of the parity bank of group `g` of core `i`: the XOR of its four data banks. It is current after every write, being no state of
its own. -/
def parityByte (s : State) (i g o : Nat) : Byte :=
  (List.range 4).foldl (fun v k => v ^^^ rdB s.mem (localBase i + bankAddr (4 * g + k) o)) 0

/-! ## Places -/

/-- Where a local access of `n` bytes goes (spec/01 Table 1.3, spec/17 Table 17.1, spec/25 Table 25.1, spec/06 Table 6.3). -/
inductive Place where
  | slice
  | reg (n : Nat)
  | fifo (p off : Nat)
  | cap (off : Nat)
  | event
  | atomics (off : Nat)
  | none
  deriving DecidableEq, Repr

def placeOf (i : Nat) (a n : Nat) : Place :=
  if a + n ≤ localSize i then .slice
  else if a < localSize i ∧ localSize i = 0x40000 then .slice   -- reaches into the control window: misaligned
  else if 0x40000 ≤ a ∧ a < 0x50000 then
    let o := a - 0x40000
    if o < 0x200 then (if ctlOk (kindOf i) (BitVec.ofNat 6 (o / 8)) then .reg (o / 8) else .none)
    else if 0x1000 ≤ o ∧ o < 0x1100 then .fifo ((o - 0x1000) / 16) (o % 16)
    else if 0x8000 ≤ o then .cap (o - 0x8000)
    else .none
  else if kindOf i = .worker ∧ 0x50000 ≤ a ∧ a < 0x54000 then .event
  else if kindOf i = .worker ∧ 0x54000 ≤ a ∧ a + n ≤ 0x58000 then .atomics (a - 0x54000)
  else .none

/-- Checks of a window access before its own: guard, then alignment and width (spec/01 R17). -/
def winCheck (s : State) (w : Who) (acc : Acc3) (a : Word) (n : Nat) (wide : Bool) : Option Stop :=
  if !guardOk (s.coreAt w.i) acc a.toNat n then some (.cause cPriv a)
  else if a.toNat % n ≠ 0 ∨ n < 4 ∨ (wide ∧ n ≠ 8) then some (.cause cAlign a)
  else none

/-- Post-increment (spec/02 R26). -/
def incB (s : State) (w : Who) (o : Mem) (n : Nat) : State := if o.pinc then s.wr w o.b (s.rd w o.b + w64 n) else s

/-- A causes or a wait as a result. -/
def Stop.res (s : State) : Stop → Res
  | .cause c v => .trap c v
  | .wait => .wait s

/-- A local load of `n` bytes into gA, extended by `ext` (spec/06 R112 to R115). -/
def loadOp (n : Nat) (ext : Nat → Word) (o : Mem) (w : Who) (s : State) : Res :=
  let a := s.rd w o.b
  let k := s.coreAt w.i
  let fin (s1 : State) (v : Word) : Res := .go (incB (s1.wr w o.a v) w o n)
  let log (s : State) : State := logAccess s w 0 (log2sz n) a n 0
  match placeOf w.i a.toNat n with
  | .none => .trap cWindow a
  | .slice =>
    if localSize w.i < a.toNat + n then
      (if !guardOk k .load a.toNat n then .trap cPriv a else .trap cAlign a)
    else Res.ofTry s (fun r => fin r.2 (ext (leNat r.1))) (sliceLoad s w a n n (log2sz n))
  | .reg r =>
    if k.inSlip w.c then .wait s
    else if !guardOk k .load a.toNat n || !ctlMayRead r k.level then .trap cPriv a
    else match winCheck s w .load a n false with
      | some e => e.res s
      | none => fin (log s) (ext ((ctlRead s w.i r).toNat / 2 ^ (8 * (a.toNat % 8)) % 2 ^ (8 * n)))
  | .cap off =>
    if k.inSlip w.c then .wait s
    else match winCheck s w .load a n false with
      | some e => e.res s
      | none => fin (log s) (ext (if n = 8 then capWord s off + capWord s (off + 4) * 2 ^ 32 else capWord s off))
  | .fifo p off =>
    if k.inSlip w.c then .wait s
    else match winCheck s w .load a n true with
      | some e => e.res s
      | none => if off = 0 then fstatWith p w s (fun v s => fin s v) else popWith p w s (fun v s => fin s v)
  | .event =>
    if k.inSlip w.c then .wait s
    else if !guardOk k .load a.toNat n then .trap cPriv a
    else if n ≠ 4 ∨ a.toNat % 4 ≠ 0 then .trap cAlign a
    else evLoadRes w a.toNat o.a (if o.pinc then some o.b else Option.none) ext s
  | .atomics off =>
    if k.inSlip w.c then .wait s
    else match winCheck s w .load a n false with
      | some e => e.res s
      | none =>
        match badAt s.bad (atomBase (clusterOf w.i) + off) n (fun _ => false) with
        | some j => .trap cDatauc (w64 ((a.toNat + j) / 8 * 8))
        | none => fin (log s) (ext (leNat (rdBs s.mem (atomBase (clusterOf w.i) + off) n)))

/-- A local store of the low `n` bytes of gA. A helper's 64-bit store to a control-register word writes the register: spec/03 R36 shuts out
the instruction `cwr`, and spec/06 Table 6.3 asks the level checks alone (DEDUCED, log entry 103). -/
def storeOp (n : Nat) (o : Mem) (w : Who) (s : State) : Res :=
  let a := s.rd w o.b
  let v := s.rd w o.a
  let k := s.coreAt w.i
  let fin (s1 : State) : Res := .go (incB s1 w o n)
  let log (s : State) : State := logAccess s w 1 (log2sz n) a n 0
  match placeOf w.i a.toNat n with
  | .none => .trap cWindow a
  | .slice =>
    if localSize w.i < a.toNat + n then
      (if !guardOk k .store a.toNat n then .trap cPriv a else .trap cAlign a)
    else Res.ofTry s fin (sliceStore s w a (natLE n v.toNat) n (log2sz n))
  | .reg r =>
    if k.inSlip w.c then .wait s
    else if !guardOk k .store a.toNat n || !ctlMayWrite r k.level || plvRefused k w.i r v then .trap cPriv a
    else match winCheck s w .store a n true with
      | some e => e.res s
      | none => fin (ctlWrite (log s) w.i r v)
  | .cap _ => .trap cWindow a
  | .fifo p off =>
    if k.inSlip w.c then .wait s
    else match winCheck s w .store a n true with
      | some e => e.res s
      | none =>
        if off ≠ 0 then .trap cAlign a
        else match pushOp v p w s with
          | .go s1 => fin s1
          | r => r
  | .event =>
    if k.inSlip w.c then .wait s
    else if !guardOk k .store a.toNat n then .trap cPriv a
    else if n ≠ 4 ∨ a.toNat % 4 ≠ 0 then .trap cAlign a
    else Res.ofTry s fin (evStore w a.toNat v (log s))
  | .atomics off =>
    if k.inSlip w.c then .wait s
    else match winCheck s w .store a n false with
      | some e => e.res s
      | none => fin (put (log s) (atomBase (clusterOf w.i) + off) (natLE n v.toNat) (0, 0))

def execLdN8 (o : Mem) : State → Outcome := issue (.ldN8 o) (loadOp 1 (fun v => zxt v 8) o)
def execLdS8 (o : Mem) : State → Outcome := issue (.ldS8 o) (loadOp 1 (fun v => sxt v 8) o)
def execLdN16 (o : Mem) : State → Outcome := issue (.ldN16 o) (loadOp 2 (fun v => zxt v 16) o)
def execLdS16 (o : Mem) : State → Outcome := issue (.ldS16 o) (loadOp 2 (fun v => sxt v 16) o)
def execLdN32 (o : Mem) : State → Outcome := issue (.ldN32 o) (loadOp 4 (fun v => zxt v 32) o)
def execLdS32 (o : Mem) : State → Outcome := issue (.ldS32 o) (loadOp 4 (fun v => sxt v 32) o)
def execLd64 (o : Mem) : State → Outcome := issue (.ld64 o) (loadOp 8 (fun v => zxt v 64) o)
def execSt8 (o : Mem) : State → Outcome := issue (.st8 o) (storeOp 1 o)
def execSt16 (o : Mem) : State → Outcome := issue (.st16 o) (storeOp 2 o)
def execSt32 (o : Mem) : State → Outcome := issue (.st32 o) (storeOp 4 o)
def execSt64 (o : Mem) : State → Outcome := issue (.st64 o) (storeOp 8 o)

/-! ## Rows that name one window word of a local access

Each is the local access of its width when the address is of its kind; an address of another kind is no such row, and
nothing happens. -/

/-- The access when its place is `p`. -/
def placed (p : Place → Bool) (n : Nat) (b : Reg) (op : Who → State → Res) (w : Who) (s : State) : Res :=
  if p (placeOf w.i (s.rd w b).toNat n) then op w s else .wait s

def isEv (p : EvWord → Bool) (b : Reg) (op : Who → State → Res) (w : Who) (s : State) : Res :=
  if placeOf w.i (s.rd w b).toNat 4 = .event ∧ p (evWord (s.rd w b).toNat) then op w s else .wait s

def ext32 (sgn : Bool) (v : Nat) : Word := if sgn then sxt v 32 else zxt v 32

def execFifoPushStore (o : Mem) : State → Outcome :=
  issue (.fifoPushStore o) (placed (fun p => match p with
    | .fifo _ off => off == 0
    | _ => false) 8 o.b (storeOp 8 o))
def execFifoPopLoad (o : Mem) : State → Outcome :=
  issue (.fifoPopLoad o) (placed (fun p => match p with
    | .fifo _ off => off == 8
    | _ => false) 8 o.b (loadOp 8 (fun v => zxt v 64) o))
def execFifoFstatLoad (o : Mem) : State → Outcome :=
  issue (.fifoFstatLoad o) (placed (fun p => match p with
    | .fifo _ off => off == 0
    | _ => false) 8 o.b (loadOp 8 (fun v => zxt v 64) o))
def execControlWindowRegStore (o : Mem) : State → Outcome :=
  issue (.controlWindowRegStore o) (placed (fun p => match p with
    | .reg _ => true
    | _ => false) 8 o.b (storeOp 8 o))
def execWaitWordLoad (o : Mem) (sgn : Bool) : State → Outcome :=
  issue (.waitWordLoad o sgn) (isEv (fun e => match e with
    | .wait _ => true
    | _ => false) o.b (loadOp 4 (ext32 sgn) o))
def execFireWordStore (o : Mem) : State → Outcome :=
  issue (.fireWordStore o) (isEv (fun e => match e with
    | .fire _ => true
    | _ => false) o.b (storeOp 4 o))
def execBindWordStore (o : Mem) : State → Outcome :=
  issue (.bindWordStore o) (isEv (fun e => match e with
    | .bind _ => true
    | _ => false) o.b (storeOp 4 o))
def execLockWordLoad (o : Mem) (sgn : Bool) : State → Outcome :=
  issue (.lockWordLoad o sgn) (isEv (fun e => match e with
    | .lock _ => true
    | _ => false) o.b (loadOp 4 (ext32 sgn) o))
def execLockWordStore (o : Mem) : State → Outcome :=
  issue (.lockWordStore o) (isEv (fun e => match e with
    | .lock _ => true
    | _ => false) o.b (storeOp 4 o))
def execArriveWordLoad (o : Mem) (sgn : Bool) : State → Outcome :=
  issue (.arriveWordLoad o sgn) (isEv (fun e => match e with
    | .arrive _ => true
    | _ => false) o.b (loadOp 4 (ext32 sgn) o))
def execMaskWordStore (o : Mem) : State → Outcome :=
  issue (.maskWordStore o) (isEv (fun e => match e with
    | .mask _ => true
    | _ => false) o.b (storeOp 4 o))

end Sys2Proof.Machine
end

