-- ==== Sys2Proof/Machine/MemCore.lean ====
section
/-!
DEFINITION. The instructions of a memory core: transfers between its buffer, its DRAM windows and the slices, `mcwait`, `mctlb`
and `mcsig` (spec/18 R326 to R332, spec/17 R296, R304, R305), and the arrival of a command from the worker (spec/19 R333).
-/
namespace Sys2Proof.Machine

/-! ## Checks of a transfer (spec/18 R326) -/

/-- A range of the memory core's buffer, of the DRAM window, and of the global window in the tenant's rectangle. -/
def bufIn (a : Word) (n : Nat) : Bool := decide (a.toNat + n ≤ 0x10000)
def dramIn (a : Word) (n : Nat) : Bool := isDramVa a.toNat && decide (a.toNat % 2 ^ 48 + n ≤ 2 ^ 48)
def globIn (s : State) (i : Nat) (a : Word) (n : Nat) : Bool :=
  (home s i a.toNat).isSome && (List.range ((a.toNat + n - 1) / 4096 - a.toNat / 4096)).all (fun k =>
    (home s i ((a.toNat / 4096 + 1 + k) * 4096)).isSome)

/-- Length of `mcld`, `mcst` and `mcpush`. -/
def lenOk (n : Word) : Bool := decide (64 ≤ n.toNat) && decide (n.toNat ≤ 65536) && n.toNat % 64 == 0

/-- Checks 1 to 3 for buffer address `a` and the other side `b`, whose range check is `inB`. -/
def xferCheck (s : State) (a b n : Word) (inB : Bool) : Option Stop :=
  if !lenOk n then some (.cause cIllegal (illegalVal s 11))
  else if !bufIn a n.toNat then some (.cause cWindow a)
  else if !inB then some (.cause cWindow b)
  else if a.toNat % 64 ≠ 0 then some (.cause cAlign a)
  else if b.toNat % 64 ≠ 0 then some (.cause cAlign b)
  else none

/-- First VAs of the 64 KiB pages of a range, the range's own start first. -/
def pagesOf (va n : Nat) : List Nat :=
  va :: ((List.range ((va + n - 1) / 65536 - va / 65536)).map (fun k => (va / 65536 + 1 + k) * 65536))

/-- PA and key slot of a VA from the pages translated. -/
def paAt (ps : List (Nat × Nat × Nat)) (va : Nat) : XSide :=
  match ps.find? (fun p => p.1 == va / 65536) with
  | some (_, pa, key) => .dram va (pa + va % 65536) key
  | none => .zero

/-- A global address as the slice byte that it names. -/
def globAt (s : State) (i a : Nat) : XSide :=
  match home s i a with
  | some (h, off) => .glob (h * 0x40000 + off)
  | none => .zero

/-- Put a transfer in flight. -/
def putXfer (s : State) (i : Nat) (moves : List (XSide × XSide)) (masks : List (XSide × List Byte)) : State :=
  let x : Xfer := { id := s.nextId, moves := moves.map (fun m => { src := m.1, dst := m.2 }), masks }
  { (s.modCore i (fun k => { k with xfers := k.xfers ++ [x] })) with nextId := s.nextId + 1 }

/-- A transfer once checks 1 to 3 hold: it waits while a table that its walk reads may not be reached; the pages are translated, and it is in
flight. -/
def startXfer (w : Who) (s : State) (n : Need) (vas : List Nat)
    (mk : List (Nat × Nat × Nat) → List (XSide × XSide) × List (XSide × List Byte)) : Res :=
  if vas.any (walkHeld s (w.i % 4096)) then .wait s
  else match translateAll (w.i % 4096) n vas s with
  | (s, .error (va, rsn)) => .trapIn s cXlate (xlateWord rsn va)
  | (s, .ok ps) => .go (putXfer s w.i (mk ps).1 (mk ps).2)

/-- `mcld`, `mcst`: between buffer address gA and DRAM-window address gB. -/
def dramXfer (store : Bool) (a b c : Reg) (w : Who) (s : State) : Res :=
  let ga := s.rd w a; let gb := s.rd w b; let n := s.rd w c
  if 8 ≤ (s.coreAt w.i).xfers.length then .wait s
  else match xferCheck s ga gb n (dramIn gb n.toNat) with
    | some (.cause c v) => .trap c v
    | some .wait => .wait s
    | none =>
      let va := gb.toNat % 2 ^ 48
      startXfer w s ⟨!store, store⟩ (pagesOf va n.toNat) (fun ps =>
        ((List.range (n.toNat / 64)).map (fun u =>
          if store then (.buf (ga.toNat + 64 * u), paAt ps (va + 64 * u))
          else (paAt ps (va + 64 * u), .buf (ga.toNat + 64 * u))), []))

def execMcld (a b c : Reg) : State → Outcome := issue (.mcld a b c) (dramXfer false a b c)
def execMcst (a b c : Reg) : State → Outcome := issue (.mcst a b c) (dramXfer true a b c)

/-- `mcpush`: from buffer address gA to global-window address gB. -/
def mcpushOp (a b c : Reg) (w : Who) (s : State) : Res :=
  let ga := s.rd w a; let gb := s.rd w b; let n := s.rd w c
  if 8 ≤ (s.coreAt w.i).xfers.length then .wait s
  else match xferCheck s ga gb n (globIn s w.i gb n.toNat) with
    | some (.cause c v) => .trap c v
    | some .wait => .wait s
    | none => .go (putXfer s w.i ((List.range (n.toNat / 64)).map (fun u =>
        (.buf (ga.toNat + 64 * u), globAt s w.i (gb.toNat + 64 * u)))) [])

def execMcpush (a b c : Reg) : State → Outcome := issue (.mcpush a b c) (mcpushOp a b c)

/-! ## Gather (spec/17 R304, R305, spec/18 R328) -/

/-- A block table's header as read. -/
structure BlockTab where
  at_ : Nat
  base : Nat
  lbs : Nat
  ltpb : Nat
  tb : Nat
  n : Nat
  deriving DecidableEq, Repr

def readTab (s : State) (i a : Nat) : BlockTab :=
  let m := rdBs s.mem (localBase i + a) 16
  ⟨a, leNat (m.take 8), leNat ((m.drop 8).take 1), leNat ((m.drop 9).take 1), leNat ((m.drop 10).take 2), leNat (m.drop 12)⟩

def BlockTab.ok (t : BlockTab) : Bool :=
  decide (12 ≤ t.lbs) && decide (t.lbs ≤ 21) && decide (t.ltpb ≤ 15) && decide (64 ≤ t.tb) && decide (t.tb ≤ 32768) && t.tb % 64 == 0

/-- DRAM-window address of token `k`; none for an invalid row. -/
def BlockTab.token (t : BlockTab) (s : State) (i k : Nat) : Option Word :=
  if t.n * 2 ^ t.ltpb ≤ k then none
  else
    let e := leNat (rdBs s.mem (localBase i + t.at_ + 16 + 4 * (k / 2 ^ t.ltpb)) 4)
    if e = 0xFFFFFFFF then none else some (w64 (t.base + e * 2 ^ t.lbs + k % 2 ^ t.ltpb * t.tb))

/-- Destination side of a gather at an address of the buffer or of the global window. -/
def gathDst (s : State) (i a : Nat) : XSide := if a < 0x10000 then .buf a else globAt s i a

/-- The checks of `mcgath` up to the table, and the table. -/
def gathTab (s : State) (i : Nat) (gb gc : Word) : Except Stop BlockTab :=
  if bits gc 44 20 ≠ 0 then .error (.cause cIllegal (illegalVal s 11))
  else if !bufIn gb 16 then .error (.cause cWindow gb)
  else match badAt s.bad (localBase i + gb.toNat) 16 (fun _ => false) with
    | some j => .error (.cause cDatauc (w64 ((gb.toNat + j) / 8 * 8)))
    | none =>
      let t := readTab s i gb.toNat
      if !t.ok then .error (.cause cIllegal (illegalVal s 11))
      else if !bufIn gb (16 + 4 * t.n) then .error (.cause cWindow gb)
      else match badAt s.bad (localBase i + gb.toNat) (16 + 4 * t.n) (fun _ => false) with
        | some j => .error (.cause cDatauc (w64 ((gb.toNat + j) / 8 * 8)))
        | none => .ok t

/-- `window` of a gather's destination and rows, then `align` of its table, its destination and its rows (spec/18 R326). -/
def gathCheck (s : State) (i : Nat) (ga gb : Word) (size tb : Nat) (rows : List (Option Word)) : Option Stop :=
  if !(bufIn ga size || globIn s i ga size) then some (.cause cWindow ga)
  else match rows.find? (fun r => r.any (fun a => !dramIn a tb)) with
    | some (some a) => some (.cause cWindow a)
    | _ =>
      if gb.toNat % 64 ≠ 0 then some (.cause cAlign gb)
      else if ga.toNat % 64 ≠ 0 then some (.cause cAlign ga)
      else match rows.find? (fun r => r.any (fun a => a.toNat % 64 != 0)) with
        | some (some a) => some (.cause cAlign a)
        | _ => none

/-- Mask word `q` of a list of rows (spec/17 R308). -/
def maskWord (valid : List Bool) (q : Nat) : BitVec 32 :=
  BitVec.ofNat 32 ((List.range 32).foldl (fun v b => v + b2n (valid.getD (32 * q + b) false) * 2 ^ b) 0)

/-- The bytes of aligned 8-byte word `q` of `nm` mask words: two of them, or the last one (spec/18 R332). -/
def maskBytes (valid : List Bool) (nm q : Nat) : List Byte :=
  natLE 4 (maskWord valid (2 * q)).toNat ++ (if 2 * q + 1 < nm then natLE 4 (maskWord valid (2 * q + 1)).toNat else [])

def mcgathOp (a b c : Reg) (vm : Bool) (w : Who) (s : State) : Res :=
  let ga := s.rd w a; let gb := s.rd w b; let gc := s.rd w c
  if 8 ≤ (s.coreAt w.i).xfers.length then .wait s
  else Res.ofTry s (fun t =>
    let cnt := bits gc 32 12 + 1
    let rows := (List.range cnt).map (fun j => t.token s w.i (bits gc 0 32 + j))
    let nm := if vm then (cnt + 31) / 32 else 0
    match gathCheck s w.i ga gb (cnt * t.tb + 4 * nm) t.tb rows with
    | some (.cause c v) => .trap c v
    | some .wait => .wait s
    | none =>
      startXfer w s ⟨true, false⟩ (rows.flatMap (fun r => r.elim [] (fun a => pagesOf (a.toNat % 2 ^ 48) t.tb))) (fun ps =>
        ((rows.zipIdx).flatMap (fun r => (List.range (t.tb / 64)).map (fun u =>
            (r.1.elim XSide.zero (fun a => paAt ps (a.toNat % 2 ^ 48 + 64 * u)),
             gathDst s w.i (ga.toNat + r.2 * t.tb + 64 * u)))),
         (List.range ((nm + 1) / 2)).map (fun q => (gathDst s w.i (ga.toNat + cnt * t.tb + 8 * q), maskBytes (rows.map Option.isSome) nm q)))))
    (gathTab s w.i gb gc)

def execMcgath (a b c : Reg) (vm : Bool) : State → Outcome := issue (.mcgath a b c vm) (mcgathOp a b c vm)

/-! ## Waiting, invalidating, signalling -/

/-- `mcwait` (spec/18 R329). The VA that it reports names no slice word. -/
def mcwaitOp (w : Who) (s : State) : Res :=
  let k := s.coreAt w.i
  if !k.xfers.isEmpty then .wait s
  else match k.xbad with
    | some va => .stay (trapEntry (s.modCore w.i (fun k => { k with xbad := none })) w.i cDatauc (w64 va) (s.pcOf w))
    | none => .go s

def execMcwait : State → Outcome := issue .mcwait mcwaitOp

/-- Invalidate the entries that map a VA, and those on its path, of the running tenant (spec/18 R330). -/
def flushVa (s : State) (tile va : Nat) : State :=
  let ten := tenantOf s tile
  let s := s.modCore (mcOf tile) (fun k => { k with tlb := k.tlb.filter (fun e => !(e.ten == ten && e.va == vaTag e.lvl va)) })
  s.modCluster (clusterOf tile) (fun k => { k with wcache := k.wcache.filter (fun e => !(e.ten == ten && e.vpn == vaTag e.lvl va)) })

def mctlbOp (a : Reg) (w : Who) (s : State) : Res :=
  let v := s.rd w a
  if v = 0 then .go (flushTlb s (w.i % 4096))
  else if isDramVa v.toNat then .go (flushVa s (w.i % 4096) (v.toNat % 2 ^ 48))
  else .trap cIllegal (illegalVal s 11)

def execMctlb (a : Reg) : State → Outcome := issue (.mctlb a) (mctlbOp a)

/-- `mcsig` (spec/18 R331): the element enters port 5's result FIFO of the tile's worker. -/
def mcsigOp (a : Reg) (w : Who) (s : State) : Res :=
  let wk := w.i % 4096
  if !(s.coreAt w.i).xfers.isEmpty || !quiet s w || decide (4 ≤ (s.coreAt wk).r5.length) then .wait s
  else .go (enterResult s wk (fun k => { k with r5 := k.r5 ++ [s.rd w a] }))

def execMcsig (a : Reg) : State → Outcome := issue (.mcsig a) (mcsigOp a)

/-! ## Moves of a transfer -/

/-- DRAM unit that a side names. -/
def XSide.unit : XSide → Option Nat
  | .dram _ pa _ => some (pa / 64)
  | _ => none

/-- DRAM unit that a move has still to read. -/
def XMove.readUnit (m : XMove) : Option Nat := if m.got.isEmpty then m.src.unit else none

/-- A DRAM access of an earlier transfer to the same unit comes first, when one of the two writes (spec/17 R313). -/
def dramFirst (before : List Xfer) (m : XMove) : Bool :=
  before.any (fun x => x.moves.any (fun e =>
    (m.readUnit.isSome && e.dst.unit == m.readUnit) ||
    (m.dst.unit.isSome && (e.dst.unit == m.dst.unit || e.readUnit == m.dst.unit))))

/-- The place `n` bytes further within a unit. -/
def XSide.plus (n : Nat) : XSide → XSide
  | .buf a => .buf (a + n)
  | .glob f => .glob (f + n)
  | d => d

/-- The words of a source that are read with word `q`: that word, or all of a DRAM unit; none when they cannot be read, for a DRAM unit with
the VA to report. -/
def sideRead (s : State) (i : Nat) (q : Nat) : XSide → Except (Option Nat) (List (Nat × List Byte))
  | .buf a =>
    if (badAt s.bad (localBase i + a + 8 * q) 8 (fun _ => false)).isSome then .error none
    else .ok [(q, rdBs s.mem (localBase i + a + 8 * q) 8)]
  | .glob f => .ok [(q, rdBs s.mem (f + 8 * q) 8)]
  | .zero => .ok [(q, List.replicate 8 0)]
  | .dram va pa key =>
    if !unitOk s pa then .error (some va)
    else match keyOf s key with
      | some k => .ok ((List.range 8).map (fun r => (r, ((unitRead s k pa).drop (8 * r)).take 8)))
      | none => .error none

/-- A side lies in a slice, or behind a DRAM channel, of another tile to which the memory core may send nothing now: it injects nothing while
a member of its domain is in an exchange phase (spec/17 R296), and traffic into such a domain is held at its edge (spec/03 R48). -/
def sideHeld (s : State) (i : Nat) (d : XSide) : Bool :=
  match d with
  | .glob f => farHeld s (i % 4096) (f / 0x40000)
  | .dram _ pa _ => farHeld s (i % 4096) (pa / 2 ^ 26)
  | _ => false

/-- Write bytes at a side. -/
def sideWrite (s : State) (i : Nat) (bs : List Byte) : XSide → State
  | .buf a => put s (localBase i + a) bs (0, 0)
  | .glob f => extWrite s (f / 0x40000) (f % 0x40000) bs 1 (0, 0) (f / 0x40000 != i % 4096)
  | .zero => s
  | .dram _ pa key => match keyOf s key with
    | some k => unitWrite s k pa bs
    | none => s

/-- The move without word `q`; none when that was its last. -/
def XMove.rest (m : XMove) (q : Nat) : Option XMove :=
  let l := m.left.filter (· != q)
  if l.isEmpty then none else some { m with left := l }

/-- Move word `q` of a unit, and what is left of the unit (spec/18 R332). A DRAM source is read whole with the first word, and a DRAM
destination written whole with the last; a unit of DRAM, or one for it, that cannot be read leaves its destination as it was (R329). -/
def moveWord (s : State) (i : Nat) (m : XMove) (q : Nat) : State × Option XMove :=
  match (if (mget m.got q).isSome then .ok [] else sideRead s i q m.src) with
  | .error (some va) => (s.modCore i (fun k => { k with xbad := some (min va (k.xbad.getD va)) }), none)
  | .error none => (s, if m.dst.unit.isSome || m.src.unit.isSome then none else m.rest q)
  | .ok ws =>
    let m := { m with got := m.got ++ ws }
    let at_ (r : Nat) : List Byte := (mget m.got r).getD []
    if m.dst.unit.isSome then
      ((if (m.rest q).isNone then sideWrite s i ((List.range 8).flatMap at_) m.dst else s), m.rest q)
    else (sideWrite s i (at_ q) (m.dst.plus (8 * q)), m.rest q)

/-- Transfers with unit `u` of transfer `j` as it is now. -/
def setMove (xs : List Xfer) (j : Nat) (x : Xfer) (u : Nat) (m : Option XMove) : List Xfer :=
  xs.set j { x with moves := match m with
    | some m => x.moves.set u m
    | none => x.moves.eraseIdx u }

/-- A transfer with nothing left has completed. -/
def dropDone (s : State) (i : Nat) : State :=
  s.modCore i (fun k => { k with xfers := k.xfers.filter (fun x => !(x.moves.isEmpty && x.masks.isEmpty)) })

/-- The row TRANSFER_COMPLETE: transfer `k mod 8` of memory core `mc` moves word `k / 8 mod 8` of its unit `k / 64`, or an aligned word of
mask words after the units; with the last one it completes. Words move in any order (spec/18 R332), but for R313. -/
def execTransferComplete (mc k : Nat) (s : State) : Outcome :=
  if 4096 ≤ mc then .fault .noSuchAgent
  else
    let i := mcOf mc
    let xs := (s.coreAt i).xfers
    .next (match xs[k % 8]? with
      | none => s
      | some x =>
        match x.moves[k / 64]? with
        | some m =>
          let q := k / 8 % 8
          if !m.left.contains q || dramFirst (xs.take (k % 8)) m || (m.got.isEmpty && sideHeld s i m.src) || sideHeld s i m.dst then s
          else
            let r := moveWord s i m q
            dropDone (r.1.modCore i (fun c => { c with xfers := setMove c.xfers (k % 8) x (k / 64) r.2 })) i
        | none =>
          match x.masks[k / 64 - x.moves.length]? with
          | some m =>
            if sideHeld s i m.1 then s
            else
              let x' := { x with masks := x.masks.eraseIdx (k / 64 - x.moves.length) }
              let s := s.modCore i (fun c => { c with xfers := c.xfers.set (k % 8) x' })
              dropDone (sideWrite s i m.2 m.1) i
          | none => s)

/-- The row MC_COMMAND_ARRIVAL: the oldest command of worker `core`'s port 5, whose released stores are performed, enters its memory
core's port 0 (spec/18 R324, R325, spec/19 R333). -/
def execMcCommandArrival (core : Nat) (s : State) : Outcome :=
  if 4096 ≤ core then .fault .noSuchAgent
  else .next (match (s.coreAt core).q5 with
    | c :: t =>
      if !depsDone s c.deps || decide (4 ≤ (s.coreAt (mcOf core)).inq.length) then s
      else
        let s := s.modCore core (fun k => { k with q5 := t })
        wake (s.modCore (mcOf core) (fun k => { k with inq := k.inq ++ [c.val] })) (mcOf core)
    | [] => s)

end Sys2Proof.Machine
end

