-- ==== Sys2Proof/Machine/Preempt.lean ====
section
/-!
DEFINITION. Pre-emption of a task domain, the save of its contexts and their restore (spec/08 R159 to R162, spec/17 R297, spec/21 R361),
quarantine and band remap (spec/01 R11, spec/08 R157, R158).
-/
namespace Sys2Proof.Machine

/-! ## The request (spec/08 R159 to R161) -/

/-- The row PREEMPTION_REQUEST: the domain of task `e` halts whole, each core at an instruction boundary. -/
def execPreemptionRequest (e : Nat) (s : State) : Outcome :=
  .next (match mget s.tasks e with
    | some t =>
      if t.st = .placed then haltTask s e t else s
    | none => s)

/-! ## The save (spec/08 R162, Table 8.5) -/

/-- A copy has still to write a byte, of an element, a scale or a mask word, into a slice that `mine` names, or waits for such a slice's
acknowledgement. -/
def copyInto (s : State) (mine : Nat → Bool) (c : Copy) : Bool :=
  c.acks.any mine || c.todo.any (fun u => (unitMoves c.cmd u).any (fun m => (bytesOf m.dst m.w).any (fun a =>
    match copyPlace s c true a with
    | .slice h _ => mine h
    | _ => false)))

/-- Nothing of these agents is in flight: packets, window accesses, copies that they have issued or that go into their slices, transfers, port
commands, the array and the transform coprocessor (spec/08 R162, spec/17 R297, spec/21 R361). -/
def agentsQuiet (s : State) (r : Rect) : Bool :=
  let mine (i : Nat) : Bool := decide (i < 8192) && r.has (xOf (i % 4096)) (yOf (i % 4096))
  !s.mesh.any (fun p => mine p.core) && !s.sysOut.any (fun o => mine o.core) &&
  !s.copies.any (fun c => mine c.core || copyInto s mine c) &&
  s.ports.toList.all (fun p => !p.cmds.any (fun c => mine c.core)) &&
  r.cores.all (fun i => (s.coreAt (mcOf i)).xfers.isEmpty && (s.coreAt i).q2.isEmpty && (s.coreAt i).lgWait.isNone && (s.coreAt i).ctl.sys.isNone &&
    (s.clusterAt (clusterOf i)).run.isNone && (s.clusterAt (clusterOf i)).xrun.isNone)

/-- Clusters of a rectangle. -/
def Rect.clusters (r : Rect) : List Nat := (r.cores.filter (fun i => rowOf i == 0)).map clusterOf

/-- A flat address lies in the slice, the tiles or the memory-core buffer of a core of the rectangle (spec/08 Table 8.5, spec/17 R297). -/
def inSaved (r : Rect) (f : Nat) : Bool :=
  let own (i : Nat) : Bool := r.has (xOf i) (yOf i)
  if f < 0x40000000 then own (f / 0x40000)
  else if 0x100000000 ≤ f ∧ f < 0x110000000 then own ((f - 0x100000000) / 0x10000)
  else if 0x800000000 ≤ f ∧ f < 0x820000000 then own ((f - 0x800000000) / 0x20000)
  else false

/-- The rectangle of a round's key. -/
def keyRect (key : Nat) : Rect := ⟨key / 2 ^ 24 % 256, key / 2 ^ 16 % 256, key / 2 ^ 8 % 256, key % 256⟩

/-- The round's domain lies in the rectangle. -/
def roundIn (r : Rect) (key : Nat) : Bool := r.has (keyRect key).x0 (keyRect key).y0

/-- A core of the domain belongs to a binding: its tags are saved (spec/21 R361). -/
def anyBinding (s : State) (r : Rect) : Bool := r.cores.any (fun i => (s.coreAt i).lg.v)

/-- A quarantined worker's slice and registers are not saved (spec/08 R157). -/
def savedCore (k : Core) : Core := if k.run = .quarantined then { run := .quarantined } else k
def inLost (s : State) (f : Nat) : Bool := decide (f < 0x40000000) && (s.coreAt (f / 0x40000)).run == .quarantined

/-- The saved context of a domain. -/
def saveOf (s : State) (t : Task) : SavedTask :=
  let r := t.rect
  { cores := t.agents.map (fun i => (i, savedCore (s.coreAt i)))
    clusters := r.clusters.map (fun c => (c, s.clusterAt c))
    cells := s.mem.filter (fun e => inSaved r e.1 && !inLost s e.1)
    bad := s.bad.filter (fun b => inSaved r (b * 8))
    tags := if anyBinding s r then s.tags.filter (fun e => inSaved r (e.1 * 64)) else []
    rounds := s.rounds.filter (fun e => roundIn r e.1) }

/-- Translations of a memory core stay with it: they are no part of a context. -/
def keepMmu (old : Core) (k : Core) : Core := { k with root := old.root, tlb := old.tlb }

/-! ## Where a domain may stand (spec/25 R402, R420, R423, spec/08 R158) -/

/-- A cluster of the mesh may take a new task: its band neither waits for a remap nor is withheld, whole or in this column. -/
def clusterFree (s : State) (i : Nat) : Bool :=
  match mget s.bands (bandOf i) with
  | some b => !b.whole && !b.waiting && !b.held.contains (colOf i)
  | none => true

/-- A lower-numbered VM owns the core (spec/25 R402). -/
def ownedBelow (s : State) (vm i : Nat) : Bool :=
  s.rects.any (fun e => decide (e.1 < vm) && bit e.2 63 && (rectOfWord e.2).has (xOf i) (yOf i))

/-- Task `e` of a VM may take the rectangle: whole clusters within the partition, free, and not held for another task. -/
def mayPlace (s : State) (e : Nat) (t : Task) (r : Rect) : Bool :=
  match partOf s t.vm with
  | none => false
  | some p =>
    decide (1 ≤ r.w) && decide (8 ≤ r.h) && r.y0 % 8 == 0 && r.h % 8 == 0 &&
    decide (p.x0 ≤ r.x0) && decide (p.y0 ≤ r.y0) && decide (r.x0 + r.w ≤ p.x0 + p.w) && decide (r.y0 + r.h ≤ p.y0 + p.h) &&
    decide (r.x0 + r.w ≤ 64) && decide (r.y0 + r.h ≤ 64) &&
    !s.tasks.any (fun x => x.1 != e && x.2.placed && x.2.rect.meets r) &&
    !s.heldFor e t.vm r && s.borders.all (fun b => b.give != t.vm || r.within (rectOfWord b.giveTo)) &&
    r.cores.all (fun i => clusterFree s i && !ownedBelow s t.vm i) && agentsQuiet s r

/-! ## Membership registers (spec/03 R33, Tables 3.2, 3.3) -/

/-- Intersection of two rectangles. -/
def Rect.inter (a b : Rect) : Rect :=
  let x := max a.x0 b.x0
  let y := max a.y0 b.y0
  ⟨x, y, min (a.x0 + a.w) (b.x0 + b.w) - x, min (a.y0 + a.h) (b.y0 + b.h) - y⟩

/-- Low corner of the copy that holds `v` of a block tiled in steps of `w` from corner `c`, which may lie above `v`. -/
def tileCorner (c w v : Nat) : Int := (c : Int) + ((v : Int) - (c : Int)) / (w : Int) * (w : Int)

/-- The copy of `blk` that holds relative core (x, y), clipped at 0, in coordinates relative to the domain. -/
def blockAt (blk x y : Nat) : Rect :=
  let w := blk / 2 ^ 16 % 128
  let h := blk / 2 ^ 24 % 128
  let lx := tileCorner (blk % 64) w x
  let ly := tileCorner (blk / 2 ^ 8 % 64) h y
  ⟨lx.toNat, ly.toNat, (lx + (w : Int)).toNat - lx.toNat, (ly + (h : Int)).toNat - ly.toNat⟩

/-- A membership register: the rectangle in partition-logical coordinates, with its wire set. -/
def dmWord (r : Rect) (corner : Nat × Nat) (wset : Nat) : Word :=
  w64 (wset * 2 ^ 32 + r.h * 2 ^ 24 + r.w * 2 ^ 16 + (r.y0 - corner.2) * 2 ^ 8 + (r.x0 - corner.1))

/-- `dm2` to `dm6` of worker `i` of a domain `d` (device-logical). -/
def dmOf (d : Rect) (corner : Nat × Nat) (blk i : Nat) : Vector Word 5 :=
  let x := xOf i
  let y := yOf i
  let d2 : Rect := ⟨x, y / 8 * 8, 1, 8⟩
  let d4 := d.inter ⟨x / 32 * 32, y / 32 * 32, 32, 32⟩
  let b := blockAt blk (x - d.x0) (y - d.y0)
  let d3 := if blk = 0 then d4 else d4.inter ⟨b.x0 + d.x0, b.y0 + d.y0, b.w, b.h⟩
  #v[dmWord d2 corner 0, dmWord d3 corner 1, dmWord d4 corner 2, dmWord d corner 3, Config.groupWord &&& 0x8000FFFFFFFFFFFF]

/-! ## The restore (spec/08 R160 to R162, spec/25 R422) -/

/-- A number moved by a signed distance. -/
def moved (d : Int) (n : Nat) : Nat := ((n : Int) + d).toNat

/-- Numbers of cores that a saved core holds, moved with its domain. -/
def moveCore (d : Int) (k : Core) : Core :=
  { k with
    gang := k.gang.map (fun g => (moved d g.1, g.2))
    bound := k.bound.map (fun b => { b with peer := moved d b.peer })
    guard := k.guard.map (fun g => { g with peer := moved d g.peer }) }

/-- The peer's coordinates in the lifeguard registers (spec/21 Table 21.2). -/
def moveLg (corner : Nat × Nat) (k : Core) : Core :=
  match (k.bound.map (·.peer)).or (k.guard.map (·.peer)) with
  | some p => if k.lg.v then { k with lg := { k.lg with py := yOf p - corner.2, px := xOf p - corner.1 } } else k
  | none => k

/-- A flat address of a saved cell, moved with its core by `d`. -/
def moveFlat (d : Int) (f : Nat) : Nat :=
  if f < 0x40000000 then moved (d * 0x40000) f
  else if f < 0x800000000 then moved (d * 0x10000) f
  else moved (d * 0x20000) f

/-- Cores that a cluster's locks name, and tile elements that hold a NaN of spec/15 R272. -/
def moveCluster (d : Int) (k : Cluster) : Cluster :=
  { k with
    locks := k.locks.map (fun l => { holder := l.holder.map (fun h => (moved d h.1, h.2)), queue := l.queue.map (fun h => (moved d h.1, h.2)) })
    badNan := k.badNan.map (moveFlat d) }

/-- A round's key moved to a new corner, its times moved by the halt's length. -/
def moveRound (dx dy : Int) (dt : Nat) (e : Nat × Round) : Nat × Round :=
  let r := keyRect e.1
  (roundKey (e.1 / 2 ^ 32) ⟨moved dx r.x0, moved dy r.y0, r.w, r.h⟩,
   { e.2 with first := e.2.first.map (· + dt), last := e.2.last + dt, frozen := e.2.frozen.map (moved (dy * 64 + dx)) })

/-- The squall release (spec/08 R161): the core runs again, its exchange phase continuing at its plan cycle. -/
def releaseCore (dt : Nat) (k : Core) : Core :=
  if k.run = .preempted then { k with run := .running, exch := k.exch.map (fun x => { x with t0 := x.t0 + dt }) } else k

/-- Contexts put back with the domain's low corner at (x, y). -/
def restore (s : State) (t : Task) (sv : SavedTask) (x y : Nat) : State :=
  let dx : Int := (x : Int) - (t.x0 : Int)
  let dy : Int := (y : Int) - (t.y0 : Int)
  let d := dy * 64 + dx
  let r : Rect := ⟨x, y, t.w, t.h⟩
  let dt := s.cyc - t.haltAt
  let cells := sv.cells.map (fun e => (moveFlat d e.1, e.2))
  let s := { s with
    mem := cells.foldl (fun m e => wrB m e.1 e.2) (s.mem.filter (fun e => !inSaved r e.1))
    bad := sv.bad.map (fun b => moveFlat d (b * 8) / 8) ++ s.bad.filter (fun b => !inSaved r (b * 8))
    tags := sv.tags.foldl (fun m e => mset m (moveFlat d (e.1 * 64) / 64) (if e.2 = (0, 0) ∨ !t.rect.has (xOf e.2.1) (yOf e.2.1) then e.2 else (moved d e.2.1, e.2.2))) (s.tags.filter (fun e => !inSaved r (e.1 * 64)))
    rounds := sv.rounds.foldl (fun m e => mset m (moveRound dx dy dt e).1 (moveRound dx dy dt e).2) s.rounds }
  let corner := match partOf s t.vm with
    | some p => (p.x0, p.y0)
    | none => (0, 0)
  let s := sv.cores.foldl (fun s e =>
    let i := moved d e.1
    let k := moveLg corner (releaseCore dt (moveCore d e.2))
    s.modCore i (fun old => keepMmu old (if i < 4096 then { k with dm := dmOf r corner t.blk i } else k))) s
  sv.clusters.foldl (fun s e => s.modCluster (moved (dy / 8 * 64 + dx) e.1) (fun old =>
    { moveCluster d e.2 with wcache := old.wcache, cuts := old.cuts })) s

/-- Where a saved domain goes back: at its place in the partition, or, for a migratable task, at a place of the control complex's
choice. -/
def backAt (s : State) (e : Nat) (t : Task) : Option (Nat × Nat) :=
  let v := Config.unstated s.freeNo
  let c := (bits v 0 6, bits v 6 3 * 8)
  if t.mig && mayPlace s e t ⟨c.1, c.2, t.w, t.h⟩ then some c
  else if mayPlace s e t ⟨t.x0, t.y0, t.w, t.h⟩ then some (t.x0, t.y0)
  else none

/-- The row RESUME: a halted domain is released on one cycle, unless it is to leave its place, and a saved one once its contexts are restored. -/
def execResume (e : Nat) (s : State) : Outcome :=
  .next (match mget s.tasks e with
    | some t =>
      if t.st = .preempted then
        if s.mustLeave e t then s else
        let dt := s.cyc - t.haltAt
        let s := t.agents.foldl (fun s i => s.modCore i (releaseCore dt)) s
        { s with
          rounds := s.rounds.map (fun x => if roundIn t.rect x.1 then moveRound 0 0 dt x else x)
          tasks := mset s.tasks e { t with st := .placed }
          leaving := s.leaving.filter (· != e) }
      else if t.st = .saved then
        match mget s.saved e, backAt s e t with
        | some sv, some (x, y) =>
          let s := restore s t sv x y
          { s with saved := mdel s.saved e, tasks := mset s.tasks e { t with st := .placed, x0 := x, y0 := y }, freeNo := s.freeNo + 1 }
        | _, _ => s
      else s
    | none => s)

/-! ## Quarantine and band remap (spec/01 R11, spec/08 R157, R158) -/

/-- The row QUARANTINE: an uncorrectable error is found in the register state of worker `j` (`src` 0). A repeated `datauc` (`src` 1) quarantines with
its second report. -/
def execQuarantine (j src : Nat) (s : State) : Outcome :=
  if 4096 ≤ j then .fault .noSuchAgent
  else .next (if src = 0 ∧ (s.coreAt j).run ≠ .quarantined then quarantineCore s j 0 else s)

/-- Logical column `k + 1` of the band takes the place of column `k` from the retired cluster on: a flat address as it reads afterwards,
none where the cluster that held it is gone. -/
def shiftFlat (b c f : Nat) : Option Nat :=
  let go (i size : Nat) : Option Nat :=
    if bandOf i ≠ b ∨ colOf i < c then some f else if colOf i = c then none else some (f - size)
  if f < 0x40000000 then go (f / 0x40000) 0x40000
  else if 0x100000000 ≤ f ∧ f < 0x110000000 then go ((f - 0x100000000) / 0x10000) 0x10000
  else if 0x300000000 ≤ f ∧ f < 0x300800000 then
    let cl := (f - 0x300000000) / 0x4000
    go (coreIn cl 0) 0x4000
  else if 0x400000000 ≤ f ∧ f < 0x420000000 then
    let cl := (f - 0x400000000) / 0x100000
    go (coreIn cl 0) 0x100000
  else if 0x800000000 ≤ f ∧ f < 0x820000000 then go ((f - 0x800000000) / 0x20000) 0x20000
  else some f

/-- A number of a core or memory core after the shift. -/
def shiftCore (b c i : Nat) : Option Nat :=
  if 8192 ≤ i ∨ bandOf (i % 4096) ≠ b ∨ colOf (i % 4096) < c then some i else if colOf (i % 4096) = c then none else some (i - 1)

/-- The columns from the retired one on are served by the clusters of the columns above them. -/
def shiftBand (s : State) (b c : Nat) : State :=
  { s with
    mem := s.mem.foldl (fun m e => match shiftFlat b c e.1 with
      | some f => wrB m f e.2
      | none => m) []
    bad := s.bad.filterMap (fun w => (shiftFlat b c (w * 8)).map (· / 8))
    reported := s.reported.filterMap (fun w => (shiftFlat b c (w * 8)).map (· / 8))
    tags := s.tags.foldl (fun m e => match shiftFlat b c (e.1 * 64) with
      | some f => mset m (f / 64) e.2
      | none => m) []
    cores := s.cores.foldl (fun m e => match shiftCore b c e.1 with
      | some i => mset m i e.2
      | none => m) []
    clusters := s.clusters.foldl (fun m e => match shiftCore b c (coreIn e.1 0) with
      | some i => mset m (clusterOf i) { e.2 with badNan := e.2.badNan.filterMap (shiftFlat b c) }
      | none => m) [] }

/-- A band after the remap of column `c`: waiting columns above it have moved down with their clusters, and are withheld. -/
def Band.remap (d : Band) (c : Nat) : Band :=
  { d with remapped := true, quar := d.quar.take 1 ++ (d.quar.drop 1).map (fun x => if c < x then x - 1 else x) }.withhold

/-- The row BAND_REMAP: the first quarantine of band `b` is remapped once no task occupies the band (spec/08 R158). -/
def execBandRemap (b : Nat) (s : State) : Outcome :=
  .next (match mget s.bands b with
    | none => s
    | some d =>
      let busy := s.tasks.any (fun e => e.2.placed && e.2.rect.cores.any (fun i => bandOf i == b))
      match d.quar.head? with
      | some c => if busy || d.remapped then s else shiftBand { s with bands := mset s.bands b (d.remap c) } b c
      | none => s)

end Sys2Proof.Machine
end

