-- ==== Sys2Proof/Machine/Tasks.lean ====
section
/-!
DEFINITION. Queues, token buckets, the dependence table, renaming, launch and completion of tasks, share ratios, compaction holds and
the budget controller (spec/25 R413 to R426).
-/
namespace Sys2Proof.Machine

/-! ## Task records and launch records (spec/25 Tables 25.6a, 25.8) -/

/-- A little-endian field. -/
def recAt (bs : List Byte) (o n : Nat) : Nat := leNat ((bs.drop o).take n)

def Task.f (t : Task) (o n : Nat) : Nat := recAt t.trec o n
def Task.tid (t : Task) : Nat := t.f 0 4
def Task.prio (t : Task) : Nat := t.f 6 1
def Task.ren (t : Task) : Bool := t.f 7 1 / 2 % 2 == 1
def Task.pdl (t : Task) : Nat := if t.f 0xA 2 = 0 then 200 else t.f 0xA 2
def Task.tmax (t : Task) : Nat := t.f 0xC 4
def Task.lrec (t : Task) : Nat := t.f 0x10 8
def Task.srt (t : Task) : Nat := t.f 0x1E 2

/-- A range word as first VA and length; none when it is unused. -/
def rangeOf (v : Nat) : Option (Nat × Nat) := if v / 2 ^ 48 = 0 then none else some (v / 2 ^ 16 % 2 ^ 32 * 2 ^ 16, v / 2 ^ 48 * 65536)

/-- Read ranges, and write ranges with their numbers. -/
def Task.reads (t : Task) : List (Nat × Nat) := (List.range 8).filterMap (fun k => rangeOf (t.f (0x20 + 8 * k) 8))
def Task.writes (t : Task) : List (Nat × Nat × Nat) :=
  (List.range 8).filterMap (fun k => (rangeOf (t.f (0x60 + 8 * k) 8)).map (fun r => (k, r)))

/-- The fields of a task record keep Table 25.6a. -/
def trecOk (bs : List Byte) : Bool :=
  bs.length == 256 && decide (recAt bs 4 2 < 4096) && decide (recAt bs 6 1 < 8) && decide (recAt bs 7 1 < 4) &&
  decide (1 ≤ recAt bs 8 1) && decide (recAt bs 8 1 ≤ 64) && decide (8 ≤ recAt bs 9 1) && decide (recAt bs 9 1 ≤ 64) && recAt bs 9 1 % 8 == 0 &&
  (List.range 16).all (fun k => recAt bs (0x20 + 8 * k) 2 == 0) && recAt bs 0xA0 96 == 0

/-- The fields of a launch record keep Table 25.8 and the limits of R419. -/
def lrecOk (bs : List Byte) : Bool :=
  let f := recAt bs
  let blk := f 0x1C 4
  decide (f 8 4 ≤ 262144) && f 8 4 % 64 == 0 && decide (f 0xC 4 ≤ 65536) && f 0xC 4 % 64 == 0 && decide (f 0x18 2 ≤ 64) &&
  decide (f 0x1A 1 ≤ 4) && f 0x1B 1 == 0 && f 0x4A 2 == 0 && f 0x80 128 == 0 &&
  (blk == 0 || (blk / 64 % 4 == 0 && blk / 2 ^ 14 % 4 == 0 && blk / 2 ^ 23 % 2 == 0 && blk / 2 ^ 31 == 0 && blk / 2 ^ 8 % 8 == 0 &&
    decide (1 ≤ blk / 2 ^ 16 % 128) && decide (blk / 2 ^ 16 % 128 ≤ 64) &&
    decide (8 ≤ blk / 2 ^ 24 % 128) && decide (blk / 2 ^ 24 % 128 ≤ 64) && blk / 2 ^ 24 % 8 == 0)) &&
  (List.range 4).all (fun k => let v := f (0x20 + 8 * k) 8
    v / 2 ^ 32 % 4 != 3 && v / 2 ^ 34 % 4 == 0 && v / 2 ^ 40 == 0)

/-! ## Tenants' memory -/

/-- Consecutive units of `n` bytes from `va`. -/
def unitVas (va n : Nat) : List Nat := if n = 0 then [] else (List.range ((va + n - 1) / 64 - va / 64 + 1)).map (fun k => (va / 64 + k) * 64)

/-- Read units through a tile's translation; none where a translation or a unit fails. -/
def readUnits (tile : Nat) : List Nat → State → State × Option (List Byte)
  | [], s => (s, some [])
  | va :: t, s =>
    match translate s tile ⟨true, false⟩ va with
    | (s, .error _) => (s, none)
    | (s, .ok (pa, slot)) =>
      match keyOf s slot with
      | none => (s, none)
      | some key =>
        if !unitOk s pa then (s, none)
        else
          let r := readUnits tile t s
          (r.1, r.2.map (unitRead s key pa ++ ·))

/-- Bytes of a tenant's DRAM. -/
def dramBytes (s : State) (tile va n : Nat) : State × Option (List Byte) :=
  let v := va % 2 ^ 48
  let r := readUnits tile (unitVas v n) s
  (r.1, r.2.map (fun bs => (bs.drop (v % 64)).take n))

/-- Write pieces of units; false where one fails. -/
def writeUnits (tile : Nat) : List (Nat × List Byte) → State → State × Bool
  | [], s => (s, true)
  | (va, bs) :: t, s =>
    match translate s tile ⟨false, true⟩ va with
    | (s, .error _) => (s, false)
    | (s, .ok (pa, slot)) =>
      match keyOf s slot with
      | none => (s, false)
      | some key => writeUnits tile t (unitMerge s key pa bs)

/-- Bytes at `va` as pieces of units. -/
def unitChunks (va : Nat) (bs : List Byte) : List (Nat × List Byte) :=
  (unitVas va bs.length).map (fun u =>
    let a := max u va
    (a, (bs.drop (a - va)).take (min (u + 64) (va + bs.length) - a)))

/-- A tile of the VM's partition whose memory core translates for the VM: the queue controller's way to the tenant's DRAM. -/
def vmTile (s : State) (vm : Nat) : Option Nat :=
  (partOf s vm).bind (fun p => p.cores.find? (fun i => tenantOf s i == vm + 1))

/-! ## Completion records (spec/25 Table 25.8a) -/

structure Completion where
  tid : Nat
  cst : Nat
  cause : Nat := 0
  core : Nat := 0
  val : Word := 0
  pc : Word := 0
  bound : Nat := 0
  deriving DecidableEq, Repr

def Completion.bytes (c : Completion) : List Byte :=
  natLE 4 c.tid ++ natLE 1 c.cst ++ natLE 1 c.cause ++ natLE 2 c.core ++ natLE 8 c.val.toNat ++ natLE 8 c.pc.toNat ++ natLE 4 c.bound ++ natLE 4 0

def State.queueAt (s : State) (q : Nat) : QDesc := (mget s.queues q).getD {}
def State.modQueue (s : State) (q : Nat) (f : QDesc → QDesc) : State := { s with queues := mset s.queues q (f (s.queueAt q)) }
def QDesc.lq (q : QDesc) : Nat := bits q.w1 0 8
def QDesc.vm (q : QDesc) : Nat := bits q.w1 8 8
def QDesc.cconn (q : QDesc) : Nat := bits q.w1 16 16

/-- Send a completion record on the `cconn` of queue `q`; on a connection that is not live it is lost. -/
def sendCompletion (s : State) (q : Nat) (c : Completion) : State :=
  (connPost s (b2n (Config.queuePort q)) (s.queueAt q).cconn (.raw c.bytes)).getD s

/-! ## Submission and prefetch (spec/25 R414, R415) -/

/-- Records waiting in a queue. -/
def QDesc.used (q : QDesc) : Nat := (q.tail - q.head).toNat

/-- VA of record `n` of a queue. -/
def QDesc.slotVa (q : QDesc) (n : Nat) : Nat := q.w0.toNat % 2 ^ 48 + n % 2 ^ q.lq * 256

/-- Write record number `n` of a queue into its ring; false where it cannot be written. -/
def ringPut (s : State) (d : QDesc) (n : Nat) (bs : List Byte) : State × Bool :=
  match vmTile s d.vm with
  | none => (s, false)
  | some tile => writeUnits tile (unitChunks (d.slotVa n) bs) s

/-- Append a record to the ring of queue `q`; a full queue, or one that cannot be written, discards it with a completion record. -/
def appendRec (s : State) (q : Nat) (bs : List Byte) : State :=
  let d := s.queueAt q
  let drop (s : State) (cst : Nat) := sendCompletion s q { tid := recAt bs 0 4, cst }
  if !d.v then drop s 3
  else if 2 ^ d.lq ≤ d.used then drop s 4
  else match ringPut s d d.tail.toNat bs with
    | (s, true) => s.modQueue q (fun d => { d with tail := d.tail + 1 })
    | (s, false) => drop s 3

/-- An earlier message of the inbox of port `p` than its `k`-th goes to queue `q`. -/
def submitWaits (s : State) (p k q : Nat) : Bool :=
  ((s.portAt p).inbox.take k).any (fun m => mget s.qbind (p * 1024 + m.1) == some q && (match m.2 with
    | .raw _ => true
    | _ => false))

/-- The row TASK_SUBMIT: message `k` of the inbox of port `p` came on a connection that is bound to a queue, and is the queue's oldest there. A
message of another length than a record's is no submission. -/
def execTaskSubmit (p k : Nat) (s : State) : Outcome :=
  if 2 ≤ p then .fault .noSuchAgent
  else .next (match (s.portAt p).inbox[k]? with
    | some (c, .raw bs) =>
      match mget s.qbind (p * 1024 + c) with
      | some q =>
        if submitWaits s p k q then s else
        let s := s.modPort p (fun x => { x with inbox := x.inbox.eraseIdx k })
        if bs.length = 256 then appendRec s q bs else s
      | none => s
    | _ => s)

/-- A task of the VM is placed. -/
def vmPlaced (s : State) (vm : Nat) : Bool := s.tasks.any (fun e => e.2.vm == vm && e.2.placed)

/-- The queue passes records on. -/
def QDesc.serves (d : QDesc) : Bool := d.v && d.map && !d.frz && !d.psn

/-- Record number `n` of a queue, as its ring holds it. -/
def ringRec (s : State) (d : QDesc) (n : Nat) : State × Option (List Byte) :=
  match vmTile s d.vm with
  | none => (s, none)
  | some tile => dramBytes s tile (d.slotVa n) 256

/-- The row QUEUE_PREFETCH: one record ahead of `head`, for a VM with a task placed (spec/25 R415). -/
def execQueuePrefetch (q : Nat) (s : State) : Outcome :=
  if 4096 ≤ q then .fault .noSuchAgent
  else
    let d := s.queueAt q
    .next (if !d.serves ∨ 4 ≤ d.pre.length ∨ d.used ≤ d.pre.length ∨ !vmPlaced s d.vm then s
      else match ringRec s d (d.head.toNat + d.pre.length) with
        | (s, some bs) => s.modQueue q (fun d => { d with pre := d.pre ++ [bs] })
        | (s, none) => s)

/-! ## Dependences and renaming (spec/25 R417, R418) -/

def overlaps (a b : Nat × Nat) : Bool := decide (a.1 < b.1 + b.2) && decide (b.1 < a.1 + a.2)
def meetsAny (r : Nat × Nat) (l : List (Nat × Nat)) : Bool := l.any (overlaps r)

/-- Write ranges that still order the task: those not renamed. -/
def Task.ordered (t : Task) : List (Nat × Nat) := (t.writes.filter (fun w => !t.renIdx.contains w.1)).map (·.2)
def Task.writeRanges (t : Task) : List (Nat × Nat) := t.writes.map (·.2)

/-- The new task depends on the earlier one. -/
def dependsOn (n e : Task) : Bool :=
  n.reads.any (fun r => meetsAny r e.writeRanges) || n.ordered.any (fun r => meetsAny r e.reads || meetsAny r e.writeRanges)

/-- The task has not ended. -/
def Task.unfinished (t : Task) : Bool := match t.st with
  | .ended _ => false
  | _ => true

/-- Tasks admitted and not retired: those of the table, and those whose records wait in their queues again (spec/25 R423). -/
def State.allTasks (s : State) : List Task := s.tasks.map (·.2) ++ s.returned.map (·.task)

/-- Earlier unfinished tasks of the same tenant. -/
def earlier (s : State) (t : Task) : List Task :=
  s.allTasks.filter (fun e => e.vm == t.vm && decide (e.num < t.num) && e.unfinished)

def launchable (s : State) (t : Task) : Bool := t.st == .admitted && (earlier s t).all (fun e => !dependsOn t e)

/-- Record the time at which tasks become launchable. -/
def markEligible (s : State) : State :=
  { s with tasks := s.tasks.map (fun e =>
    if e.2.eligAt.isNone && launchable s e.2 then (e.1, { e.2 with eligAt := some s.cyc }) else e) }

/-- Overlay entries of a version, one for each page. -/
def Version.pages (v : Version) : List (Nat × Nat × Nat) := v.frames.zipIdx.map (fun e => (v.va + 65536 * e.2, 1, e.1))
def Version.range (v : Version) : Nat × Nat := (v.va, v.frames.length * 65536)

/-- Versions, newest first, whose range a task of the VM reads or writes. -/
def versionsOf (s : State) (t : Task) : List Version :=
  s.vers.reverse.filter (fun v => v.vm == t.vm && decide (v.num ≤ t.num) && (meetsAny v.range t.reads || meetsAny v.range t.writeRanges))

/-- Rename write range `w` of the new task `t` when it may be: asked for, dependent only as a write after reads or writes, with frames in the pool,
and at most 8 overlays. -/
def renameOne (st : State × Task) (w : Nat × Nat × Nat) : State × Task :=
  let s := st.1
  let t := st.2
  let es := earlier s t
  let dep := es.any (fun e => meetsAny w.2 e.reads || meetsAny w.2 e.writeRanges)
  let p := (mget s.pools t.vm).getD {}
  let n := w.2.2 / 65536
  if !t.ren || !dep || decide (p.free.length < n) || decide (8 ≤ (versionsOf s t).length) then st
  else
    let fs := p.free.take n
    let v : Version := ⟨t.vm, t.num, w.2.1, fs⟩
    ({ s with vers := s.vers ++ [v], pools := mset s.pools t.vm { p with used := p.used ++ fs } },
     { t with renIdx := t.renIdx ++ [w.1] })

/-- A whole pair of control cores has stopped (spec/25 R428), by a stop of R397 or by `halt` (R398). -/
def pairDown (s : State) : Bool :=
  let stopped (k : Nat) : Bool := match (s.coreAt (ccOf k)).run with
    | .stopped _ _ _ | .halted => true
    | _ => false
  s.pairLost || (List.range 4).any (fun k => stopped (2 * k) && stopped (2 * k + 1))

/-- Admit a record as entry `e` of the table (spec/25 R417). -/
def admitTask (s : State) (q e : Nat) (bs : List Byte) : State :=
  let vm := (s.queueAt q).vm
  let num := (mget s.admitted vm).getD 0
  let t : Task := { trec := bs, vm, qid := q, num, adm := (s.admitted.map (·.2)).foldl (· + ·) 0, w := recAt bs 8 1, h := recAt bs 9 1 }
  let r := t.writes.foldl renameOne (s, t)
  markEligible { r.1 with tasks := mset r.1.tasks e r.2, admitted := mset r.1.admitted vm (num + 1) }

/-- A record taken from queue `q` into entry `e`: a task that was saved and returned to its queue takes its context up again (spec/25 R423), another
is admitted, or discarded when it breaks Table 25.6a. -/
def takeRecord (s : State) (q e : Nat) (bs : List Byte) : State :=
  match s.returned.find? (fun r => r.task.qid == q && r.task.trec == bs) with
  | some r => { s with tasks := mset s.tasks e r.task, saved := mset s.saved e r.ctx, returned := s.returned.erase r }
  | none => if trecOk bs then admitTask s q e bs else sendCompletion s q { tid := recAt bs 0 4, cst := 3 }

/-- The row TASK_ADMIT: the oldest record of queue `q` passes into the dependence table, or is discarded when it breaks Table 25.6a. -/
def execTaskAdmit (q : Nat) (s : State) : Outcome :=
  if 4096 ≤ q then .fault .noSuchAgent
  else
    let d := s.queueAt q
    .next (if !d.serves ∨ d.used = 0 ∨ pairDown s then s
      else match (List.range 512).find? (fun e => (mget s.tasks e).isNone) with
        | none => s
        | some e =>
          let r : State × Option (List Byte) := match d.pre with
            | bs :: _ => (s, some bs)
            | [] => ringRec s d d.head.toNat
          match r with
          | (s, none) => s
          | (s, some bs) =>
            let s := s.modQueue q (fun d => { d with head := d.head + 1, pre := d.pre.tail })
            takeRecord s q e bs)

/-- The leaf that maps a page: its level, its PA and its value (spec/17 R298). -/
def leafEntry (s : State) (va : Nat) : Nat → Nat → Nat → Option (Nat × Nat × Word)
  | 0, _, _ => none
  | fuel + 1, l, tbl =>
    match readPte s tbl l va with
    | .error _ => none
    | .ok e =>
      if pteReason l e ≠ 0 then none
      else if pteLeaf e then some (l, tbl + 8 * lvlIndex l va, e)
      else leafEntry s va fuel (l + 1) (ptePa e)

/-- A leaf with another PA. -/
def withPa (e : Word) (pa : Nat) : Nat := e.toNat - bits e 12 40 * 4096 + pa

/-- A 2 MiB leaf at PA `at_` becomes a table of thirty-two 64 KiB leaves, in a frame of VM `vm`'s pool (DESIGN CHOICE, log entry 71); none when no frame
is free. -/
def splitLeaf (s : State) (vm at_ : Nat) (e : Word) : Option State :=
  let p := (mget s.pools vm).getD {}
  match p.free, keyOf s 0 with
  | f :: _, some key =>
    let line (q : Nat) : List Byte := (List.range 8).flatMap (fun j => natLE 8 (withPa e (ptePa e + 65536 * (8 * q + j))))
    let s := (List.range 4).foldl (fun s q => unitWrite s key (f + 64 * q) (line q)) s
    some { unitMerge s key at_ (natLE 8 (f + 1)) with pools := mset s.pools vm { p with used := p.used ++ [f] } }
  | _, _ => none

/-- Rewrite the leaf of a page to a new frame, under a 2 MiB leaf after it has been split; its old frame. -/
def rewriteLeaf (s : State) (vm root va pa : Nat) : Option (State × Nat) :=
  let s' : Option State := match leafEntry s va 4 0 root with
    | some (2, at_, e) => splitLeaf s vm at_ e
    | _ => some s
  s'.bind (fun s => match leafEntry s va 4 0 root, keyOf s 0 with
    | some (3, at_, e), some key => some (unitMerge s key at_ (natLE 8 (withPa e pa)), ptePa e)
    | _, _ => none)

/-- Rewrite the leaves of consecutive pages; the old frames. -/
def rewriteLeaves (vm root : Nat) : List (Nat × Nat) → State → Option (State × List Nat)
  | [], s => some (s, [])
  | (va, pa) :: t, s =>
    match rewriteLeaf s vm root va pa with
    | none => none
    | some (s, old) => (rewriteLeaves vm root t s).map (fun r => (r.1, old :: r.2))

/-- A version may be retired: it is the oldest on its pages, and no unfinished task reads the older one. -/
def retirable (s : State) (v : Version) : Bool :=
  s.vers.all (fun u => u == v || u.vm != v.vm || !overlaps u.range v.range || decide (v.num ≤ u.num)) &&
  s.allTasks.all (fun t => t.vm != v.vm || !decide (t.num < v.num) || !t.unfinished || !meetsAny v.range t.reads)

/-- A core, and a saved context, without the overlays that `gone` picks. -/
def Core.dropOverlays (gone : Nat × Nat × Nat → Bool) (k : Core) : Core := { k with overlays := k.overlays.filter (fun o => !gone o) }
def SavedTask.dropOverlays (gone : Nat × Nat × Nat → Bool) (v : SavedTask) : SavedTask :=
  { v with cores := v.cores.map (fun e => (e.1, e.2.dropOverlays gone)) }

/-- The row VERSION_RETIRE (spec/25 R418): version `k` of VM `vm` becomes the pages' only one, and the old frames go to the pool. -/
def execVersionRetire (vm k : Nat) (s : State) : Outcome :=
  .next (match (s.vers.filter (fun v => v.vm == vm))[k]?, vmTile s vm with
    | some v, some tile =>
      if !retirable s v then s
      else
        let root := bits (s.coreAt (mcOf tile)).root 12 40 * 4096
        match rewriteLeaves vm root (v.pages.map (fun e => (e.1, e.2.2))) s with
        | none => s
        | some (s, old) =>
          let p := (mget s.pools vm).getD {}
          let gone (o : Nat × Nat × Nat) : Bool := v.pages.contains o
          let s := { s with
            vers := s.vers.filter (· != v)
            pools := mset s.pools vm { p with
              used := p.used.filter (fun f => !old.contains f), extra := p.extra ++ old.filter (fun f => !p.frames.contains f) }
            tasks := s.tasks.map (fun e => if e.2.vm = vm then (e.1, { e.2 with overlays := e.2.overlays.filter (fun o => !gone o) }) else e)
            cores := s.cores.map (fun e => (e.1, e.2.dropOverlays gone))
            saved := s.saved.map (fun e => (e.1, e.2.dropOverlays gone))
            returned := s.returned.map (fun r => { r with ctx := r.ctx.dropOverlays gone }) }
          let ts := ((partOf s vm).elim [] Rect.cores).filter (fun i => tenantOf s i == vm + 1)
          ts.foldl flushTlb s
    | _, _ => s)

/-! ## Launch (spec/25 R419, R420) -/

/-- A VM's queues may be mapped (spec/25 R416). -/
def vmMapped (s : State) (vm : Nat) : Bool := decide (0 < (((mget s.buckets vm).getD {}).level).toInt)

/-- The task's power fits (spec/25 R426). -/
def powerFits (s : State) (t : Task) : Bool :=
  let e := t.f (0x18 + 2 * (s.cap - 1)) 2
  decide (s.pw ≤ s.plim) && decide (e * max t.srt 1 ≤ (s.plim - s.pw) * 1000)

/-- An unplaced task whose VM is mapped, whose power fits and which would hold at most 8 overlays (spec/25 R416, R418, R426). -/
def mayLaunch (s : State) (t : Task) : Bool :=
  launchable s t && vmMapped s t.vm && powerFits s t && decide ((versionsOf s t).length ≤ 8)

/-- Some rectangle may take task `e`. -/
def anyPlace (s : State) (e : Nat) (t : Task) : Bool :=
  (List.range 64).any (fun x => (List.range 8).any (fun r => mayPlace s e t ⟨x, 8 * r, t.w, t.h⟩))

/-- The ratio q of a tenant as the last millisecond gave it; 1 before the first. -/
def ratioOf (s : State) (vm : Nat) : Nat × Nat := (mget s.ratios vm).getD (1, 1)
def ratioLt (a b : Nat × Nat) : Bool := decide (a.1 * b.2 < b.1 * a.2)

/-- Task `a` is offered for placement before task `b` (spec/25 R422). -/
def offeredBefore (s : State) (a b : Task) : Bool :=
  let qa := ratioOf s a.vm
  let qb := ratioOf s b.vm
  ratioLt qa qb || !ratioLt qb qa && (decide (b.prio < a.prio) || a.prio == b.prio && decide (a.adm < b.adm))

/-- Another task that waits for its launch is offered before `t` and could be placed. -/
def outOffered (s : State) (e : Nat) (t : Task) : Bool :=
  s.launchQ.any (fun u => u != e && (match mget s.tasks u with
    | some x => offeredBefore s x t && mayLaunch s x && anyPlace s u x
    | none => false))

/-- The region that a hold keeps for task `e` is free: the task takes that one (spec/25 R423). -/
def takesHeld (s : State) (e : Nat) (t : Task) (x y : Nat) : Bool :=
  s.holds.all (fun h => h.1 != e || (h.2.1 == x && h.2.2 == y) || !mayPlace s e t ⟨h.2.1, h.2.2, t.w, t.h⟩)

/-- `id.o` and `id.e` of an entry for a core at place `i` of `n` (spec/01 R19). -/
def division (ent nx ny ix iy : Nat) : Nat × Nat :=
  let ext := ent % 2 ^ 32
  let ax := ent / 2 ^ 32 % 4
  if ax = 0 then (0, ext)
  else
    let n := if ax = 1 then nx else ny
    let i := if ax = 1 then ix else iy
    let g := 2 ^ (ent / 2 ^ 36 % 16)
    let c := (ext + n - 1) / n
    let t := (c + g - 1) / g * g
    let o := min (i * t) ext
    (o, min t (ext - o))

/-- Identity registers (spec/01 Table 1.4). -/
def identity (lr : List Byte) (t : Task) (x y : Nat) : Vector Word 13 :=
  let d (k : Nat) := division (recAt lr (0x20 + 8 * k) 8) t.w t.h x y
  #v[w64 x, w64 y, w64 t.w, w64 t.h, 0, w64 (d 0).1, w64 (d 1).1, w64 (d 2).1, w64 (d 3).1,
     w64 (d 0).2, w64 (d 1).2, w64 (d 2).2, w64 (d 3).2]

/-- A worker as the launch unit sets it. -/
def freshWorker (s : State) (lr : List Byte) (t : Task) (i : Nat) : Core :=
  let x := xOf i - t.x0
  let y := yOf i - t.y0
  { run := .running
    ctl := { pc := evenPc (recAt lr 0x70 4) }
    id := identity lr t x y
    dm := dmOf t.rect (partCorner s i) t.blk i
    wd := Vector.ofFn (fun k => recAt lr (0x40 + 2 * k.val) 2)
    seed := w64 (recAt lr 0x78 8) }

/-- A memory core as the launch unit sets it; without a program it counts as halted. -/
def freshMemory (lr : List Byte) (t : Task) (old : Core) : Core :=
  { run := if recAt lr 0xC 4 = 0 then .halted else .running
    ctl := { pc := evenPc (recAt lr 0x74 4) }
    seed := w64 (recAt lr 0x78 8)
    root := old.root, tlb := old.tlb, overlays := t.overlays }

/-- A patch entry: core, slice address and value; none when it names no core of the domain or no aligned word of a slice. -/
def patchOf (t : Task) (bs : List Byte) : Option (Nat × Nat × List Byte) :=
  let v := recAt bs 0 8
  let x := v % 64
  let y := v / 2 ^ 8 % 64
  let a := v / 2 ^ 32 % 2 ^ 18
  if x < t.w ∧ y < t.h ∧ a % 8 = 0 then some ((t.y0 + y) * 64 + t.x0 + x, a, (bs.drop 8).take 8) else none

/-- A cluster as the launch unit loads it: slot table, weights, credits, format contexts; its barrier cuts have no stated layout. -/
def launchCluster (s : State) (lr : List Byte) (cl : Nat) : State :=
  let s := (List.range 4).foldl (fun s q => setSlots s cl q (w64 (recAt lr (0x50 + 8 * q) 8))) s
  let s := setWeights s cl (BitVec.ofNat 32 (recAt lr 0x4C 4))
  let s' := s.modCluster cl (fun k => { k with
    fctx := Vector.replicate 8 {}, seqs := Vector.replicate 8 0, badNan := []
    cuts := Vector.ofFn (fun j => Config.unstated (s.freeNo + j.val)) })
  { s' with freeNo := s.freeNo + 32 }

/-- A range of `n` bytes at flat address `f` zeroed, with fresh codes. -/
def wipe (s : State) (f n : Nat) : State :=
  { s with
    mem := s.mem.filter (fun (c : Host.Cell) => !(decide (f ≤ c.1) && decide (c.1 < f + n)))
    bad := healed s.bad f n }

/-- Memory of one core: image and zeros in its slice, its memory core's image or zeros, zero tiles. -/
def launchMemory (s : State) (i : Nat) (img mimg : List Byte) : State :=
  let s := put (wipe s (localBase i) 0x40000) (localBase i) img (0, 0)
  let s := put (wipe s (localBase (mcOf i)) 0x10000) (localBase (mcOf i)) mimg (0, 0)
  wipe s (tileBase i) 0x20000

/-- Images read through each tile of a domain and written; none when one cannot be read. -/
def loadImages (img ilen mimg mlen : Nat) : List Nat → State → Option State
  | [], s => some s
  | i :: t, s =>
    match dramBytes s i img ilen with
    | (_, none) => none
    | (s, some b) =>
      match dramBytes s i mimg mlen with
      | (_, none) => none
      | (s, some m) => loadImages img ilen mimg mlen t (launchMemory s i b m)

/-- Parts of a memory core's image that lie in the DRAM window are written through their pages' keys (spec/19 R334; which parts a launch has is free:
log entry 109); none when one cannot be written. -/
def loadParts (tile : Nat) : List (Nat × List Byte) → State → Option State
  | [], s => some s
  | (va, bs) :: t, s =>
    match writeUnits tile (unitChunks (va % 2 ^ 48) bs) s with
    | (s, true) => loadParts tile t s
    | (_, false) => none

/-- Launch the placed task `t`, entry `e`, with its launch record and patches. -/
def launchWith (s : State) (t : Task) (lr : List Byte) (ps : List (Nat × Nat × List Byte)) : Option State :=
  let r := t.rect
  let parts := if recAt lr 0xC 4 = 0 then [] else Config.dramParts lr
  ((loadImages (recAt lr 0 8) (recAt lr 8 4) (recAt lr 0x10 8) (recAt lr 0xC 4) r.cores s).bind (loadParts (r.y0 * 64 + r.x0) parts)).map (fun s =>
    let s := ps.foldl (fun s p => put s (localBase p.1 + p.2.1) p.2.2 (0, 0)) s
    let s := r.clusters.foldl (fun s cl => launchCluster s lr cl) s
    let s := r.cores.foldl (fun s i =>
      let w := freshWorker s lr t i
      (s.setCore i w).modCore (mcOf i) (freshMemory lr t)) s
    { s with
      tags := s.tags.filter (fun e => !inSaved r (e.1 * 64))
      rounds := s.rounds.filter (fun e => !roundIn r e.1)
      pageCnt := s.pageCnt.filter (fun e => !r.has (xOf (e.1 / 64)) (yOf (e.1 / 64)))
      migRep := s.migRep.filter (fun m => !r.has (xOf m.home) (yOf m.home)) })

/-- A launch that cannot be made: the task ends with `cst` 3. -/
def failLaunch (s : State) (e : Nat) (t : Task) : State := { s with tasks := mset s.tasks e { t with st := .ended 3 } }

/-- Patch entries that follow a launch record; none when one breaks its limits or they cannot be read. -/
def patchesOf (s : State) (t : Task) (tile : Nat) (lr : List Byte) : State × Option (List (Nat × Nat × List Byte)) :=
  let n := recAt lr 0x18 2
  match dramBytes s tile (t.lrec + 256) (16 * n) with
  | (s, none) => (s, none)
  | (s, some bs) =>
    let ps := (pieces 16 n bs).map (patchOf t)
    (s, if ps.all (·.isSome) then some (ps.filterMap id) else none)

/-- Place and launch a launchable task at (x, y): the record is read through the domain's first memory core. -/
def launchAt (s : State) (e : Nat) (t0 : Task) (x y : Nat) : State :=
  let t1 := { t0 with st := .placed, x0 := x, y0 := y, placedAt := s.cyc, overlays := (versionsOf s t0).flatMap Version.pages }
  let s0 := { s with launchQ := s.launchQ.filter (· != e), holds := s.holds.filter (fun h => h.1 != e) }
  let s := { s0 with tasks := mset s.tasks e t1 }
  let s := t1.rect.cores.foldl (fun s i => s.modCore (mcOf i) (fun k => { k with overlays := t1.overlays })) s
  let tile := y * 64 + x
  match dramBytes s tile t1.lrec 256 with
  | (_, none) => failLaunch s0 e t0
  | (s, some lr) =>
    if !lrecOk lr then failLaunch s0 e t0
    else
      let t := { t1 with mfr := recAt lr 0x1A 1, blk := recAt lr 0x1C 4 }
      let s := { s with tasks := mset s.tasks e t }
      match patchesOf s t tile lr with
      | (_, none) => failLaunch s0 e t0
      | (s, some ps) =>
        match launchWith s t lr ps with
        | some s => s
        | none => failLaunch s0 e t0

/-- The row LAUNCH: a task whose entry was stored to the launch unit is placed with its low corner at (x, y) and launched, in the order of offers. -/
def execLaunch (e x y : Nat) (s : State) : Outcome :=
  .next (match mget s.tasks e with
    | none => s
    | some t =>
      if !s.launchQ.contains e || !mayLaunch s t || pairDown s || !mayPlace s e t ⟨x, y, t.w, t.h⟩ || !takesHeld s e t x y || outOffered s e t then s
      else launchAt s e t x y)

/-! ## Completion (spec/25 R421, spec/08 R152, R157) -/

/-- What ends a task: `cst` with the reporting core's fields; none while it runs on. A quarantine decides it also after an earlier fatal stop
(DESIGN CHOICE, log entry 66). -/
def endOf (s : State) (t : Task) : Option Completion :=
  let tid := t.tid
  let rs := t.rect.cores.map (fun i => (i, (s.coreAt i).run))
  let out (r : Run) : Bool := match r with
    | .halted | .stopped _ _ _ | .quarantined => true
    | _ => false
  match t.st with
  | .ended c => some { tid, cst := c }
  | .placed | .preempted =>
    if pairDown s then some { tid, cst := 3 }
    else match rs.find? (fun r => r.2 == .quarantined) with
      | some (i, _) =>
        if rs.all (fun r => out r.2) then
          let q := t.quarRep.getD ((yOf i - t.y0) * 64 + (xOf i - t.x0), quarVal s i 0)
          some { tid, cst := 2, core := q.1, val := q.2 }
        else none
      | none =>
        match t.report with
        | some (cause, core, val, pc) => some { tid, cst := 1, cause, core, val, pc }
        | none =>
          if rs.all (fun r => r.2 == .halted) && t.rect.cores.all (fun i => (s.coreAt (mcOf i)).run == .halted) then some { tid, cst := 0 } else none
  | .admitted | .saved => if pairDown s then some { tid, cst := 3 } else none

/-- A worker of a task that ends: its binding ends and its tags are cleared (spec/21 R376), and unless it halted its contexts are discarded. -/
def endCore (s : State) (i : Nat) : State :=
  let k := s.coreAt i
  let s := clearTags s i
  let k' : Core := match k.run with
    | .halted => { k with bound := none, guard := none, lg := {} }
    | .quarantined => { run := .quarantined }
    | _ => {}
  let s := (s.setCore i k').modCore (mcOf i) (fun m => keepMmu m {})
  { s with
    mesh := s.mesh.map (fun p => if p.core = i ∨ p.core = mcOf i then { p with ctx := endedCtx p.ctx } else p)
    sysOut := s.sysOut.map (fun o => if o.core = i then { o with ctx := endedCtx o.ctx } else o) }

/-- Messages of bindings, and records, from or to the cores of a domain are dropped with the bindings (spec/21 R376). -/
def dropBindings (s : State) (r : Rect) : State :=
  let mine (i : Nat) : Bool := decide (i < 4096) && r.has (xOf i) (yOf i)
  { s with mesh := s.mesh.filter (fun p => !(match p.kind with
      | .record l _ _ _ => mine p.core || mine l
      | k => k.lgTo.any (fun l => mine p.core || mine l))) }

/-- The bindings of a task that ends while its contexts are saved: tags outside its domain that name its bound workers, by the numbers that these had,
are cleared, unless another task has a worker there now (log entry 110). -/
def endSaved (s : State) (e : Nat) : State :=
  match mget s.saved e with
  | some sv => (sv.cores.filter (fun c => c.2.bound.isSome && (taskOf s c.1).isNone)).foldl (fun s c => clearTags s c.1) s
  | none => s

/-- The prefetched records of a VM without a placed task are cleared (spec/25 R415). -/
def clearPre (s : State) (vm : Nat) : State :=
  if vmPlaced s vm then s
  else { s with queues := s.queues.map (fun e => if e.2.vm = vm then (e.1, { e.2 with pre := [] }) else e) }

/-! ### Clusters that come free: borders and held regions (spec/25 R402, R422, R423) -/

/-- A border moves now: no placed task stands in the clusters that change hands, and a VM whose low corner moves has none at all. -/
def Border.due (s : State) (m : Border) : Bool :=
  let keeps (vm : Nat) (v : Word) : Bool := !vmPlaced s vm || (partOf s vm).any (fun r => r.x0 == (rectOfWord v).x0 && r.y0 == (rectOfWord v).y0)
  s.tasks.all (fun e => !e.2.placed || e.2.vm != m.give || e.2.rect.within (rectOfWord m.giveTo)) && keeps m.grow m.growTo && keeps m.give m.giveTo

/-- Borders whose clusters are free move. -/
def settleBorders (s : State) : State :=
  s.borders.foldl (fun s m =>
    if m.due s then { s with rects := mset (mset s.rects m.give m.giveTo) m.grow m.growTo, borders := s.borders.erase m } else s) s

/-- A task whose held region is free is stored to the launch unit. -/
def offerHeld (s : State) : State :=
  { s with launchQ := s.launchQ ++ (s.holds.filter (fun h => !s.launchQ.contains h.1 && (match mget s.tasks h.1 with
      | some n => !s.tasks.any (fun e => e.2.placed && e.2.rect.meets ⟨h.2.1, h.2.2, n.w, n.h⟩)
      | none => false))).map (·.1) }

/-- A saved task's record goes back to the head of its queue, where the ring has room for it and can be written (spec/25 R423; log entry 111). -/
def returnTask (s : State) (e : Nat) : State :=
  match mget s.tasks e, mget s.saved e with
  | some t, some sv =>
    let d := s.queueAt t.qid
    if 2 ^ d.lq ≤ d.used then s
    else match ringPut s d (d.head - 1).toNat t.trec with
      | (s, true) =>
        { s.modQueue t.qid (fun d => { d with head := d.head - 1, pre := if d.pre.isEmpty then [] else (t.trec :: d.pre).take 4 }) with
          tasks := mdel s.tasks e, saved := mdel s.saved e, returned := s.returned ++ [⟨t, sv⟩] }
      | (s, false) => s
  | _, _ => s

/-- The save of task `e`'s domain: its contexts are kept, and its cores are free. -/
def saveTask (s : State) (e : Nat) (t : Task) : State :=
  let sv := saveOf s t
  let s := t.agents.foldl (fun s i => s.modCore i (fun k => keepMmu k {})) s
  { s with
    rounds := s.rounds.filter (fun x => !roundIn t.rect x.1)
    saved := mset s.saved e sv
    tasks := mset s.tasks e { t with st := .saved }
    moving := s.moving.filter (· != e)
    leaving := s.leaving.filter (· != e) }

/-- The row CONTEXT_SAVE: the save of a halted domain starts once nothing of it is in flight (spec/08 R162). A task that leaves a held region and finds no
other place returns to its queue. Borders move with the save of a task that its level-5 release has halted, and with no other (R422). -/
def execContextSave (e : Nat) (s : State) : Outcome :=
  .next (match mget s.tasks e with
    | some t =>
      if t.st = .preempted ∧ agentsQuiet s t.rect then
        let s1 := clearPre (saveTask s e t) t.vm
        let back := t.mig && s.heldFor e t.vm t.rect && !anyPlace s1 e { t with st := .saved }
        let s2 := if back then returnTask s1 e else s1
        offerHeld (if s.leaving.contains e then settleBorders s2 else s2)
      else s
    | none => s)

/-- The row TASK_COMPLETION: task `e` has ended; its completion record is sent and the table retires it. -/
def execTaskCompletion (e : Nat) (s : State) : Outcome :=
  .next (match mget s.tasks e with
    | none => s
    | some t =>
      match endOf s t with
      | none => s
      | some c =>
        let s := if t.placed then t.rect.cores.foldl endCore (dropBindings s t.rect) else endSaved s e
        let s := { s with
          tasks := mdel s.tasks e, saved := mdel s.saved e, launchQ := s.launchQ.filter (· != e)
          holds := s.holds.filter (fun h => h.1 != e), moving := s.moving.filter (· != e), leaving := s.leaving.filter (· != e)
          ports := s.ports.map (fun q => { q with rounds := q.rounds.filter (fun r => r.2.1 != some (t.vm, t.num)) }) }
        markEligible (offerHeld (settleBorders (clearPre (sendCompletion s t.qid c) t.vm))))

/-! ## Controllers' periods (spec/25 R416, R422, R423, R425) -/

/-- Clusters held by the placed tasks of a VM. -/
def clustersHeld (s : State) (vm : Nat) : Nat :=
  ((s.tasks.filter (fun e => e.2.vm == vm && e.2.placed)).map (fun e => e.2.w * e.2.h / 8)).foldl (· + ·) 0

/-- A bucket after a period. -/
def Bucket.tick (b : Bucket) (held : Nat) : Bucket :=
  let depth : Int := (b.depth.toNat : Int)
  let l := b.level.toInt + (b.fill.toNat : Int) - 10 * (held : Int)
  { b with level := BitVec.ofInt 64 (max (min l depth) (-depth)) }

/-- VMs that the bucket controller and the ratio controller look at. -/
def knownVms (s : State) : List Nat :=
  ((s.buckets.map (·.1)) ++ (s.queues.map (fun e => e.2.vm)) ++ (s.tasks.map (fun e => e.2.vm))).foldl
    (fun l v => if l.contains v then l else l ++ [v]) []

/-- Queues after a tick: those of a VM without credit are unmapped; the controller maps others as it chooses, at most 64 at once. -/
def remapQueues (s : State) : List (Nat × QDesc) → Nat → List (Nat × QDesc)
  | [], _ => []
  | (q, d) :: t, n =>
    let want := (Config.unstated (s.freeNo + q)).getLsbD 0
    let m := vmMapped s d.vm && (d.map || (d.v && want)) && decide (n < 64)
    (q, { d with map := m }) :: remapQueues s t (n + b2n m)

/-- The row TOKEN_BUCKET_TICK, every 10 µs. -/
def execTokenBucketTick (s : State) : Outcome :=
  .next (if s.cyc < (s.nTok + 1) * 10 * usCyc then s
    else
      let s := (knownVms s).foldl (fun s v =>
        { s with buckets := mset s.buckets v (((mget s.buckets v).getD {}).tick (clustersHeld s v)) }) s
      { s with nTok := s.nTok + 1, queues := remapQueues s s.queues 0, freeNo := s.freeNo + 4096 })

/-- The row BUDGET_PERIOD: a period of 10 µs with measured power `pw` has passed (spec/25 R425). -/
def execBudgetPeriod (pw : Nat) (s : State) : Outcome :=
  .next (if s.cyc < (s.nBud + 1) * 10 * usCyc then s
    else
      let s := { s with nBud := s.nBud + 1, pw := pw % 2 ^ 16, sinceLow := s.sinceLow + 1 }
      if s.plim < s.pw then
        if 3 ≤ s.sinceLow then { s with cap := max (s.cap - 1) 1, sinceLow := 0, lowRun := 0 } else { s with lowRun := 0 }
      else if s.pw * 100 < 95 * s.plim then
        if 10 ≤ s.lowRun + 1 then { s with cap := min (s.cap + 1) 3, lowRun := 0 } else { s with lowRun := s.lowRun + 1 }
      else { s with lowRun := 0 })

/-- The ratio q of a tenant, as numerator and denominator. -/
def shareOf (s : State) (vm : Nat) : Nat × Nat :=
  let ts := (s.tasks.filter (fun e => e.2.vm == vm)).map (·.2)
  let sum (f : Task → Nat) : Nat := ((ts.filter Task.placed).map f).foldl (· + ·) 0
  let want := sum Task.srt
  if want ≠ 0 then (sum (·.rel5), want)
  else if ts.any (fun t => launchable s t && t.srt != 0) then (0, 1) else (1, 1)

/-- A rectangle word of whole clusters of the device, with `v` set. -/
def rectFits (v : Word) : Bool :=
  let r := rectOfWord v
  bit v 63 && v == (v &&& 0x800000007F7F3F3F) && decide (1 ≤ r.w) && decide (8 ≤ r.h) && r.y0 % 8 == 0 && r.h % 8 == 0 &&
    decide (r.x0 + r.w ≤ 64) && decide (r.y0 + r.h ≤ 64)

/-- Placed tasks of a VM that do not lie within a rectangle. -/
def tasksBeyond (s : State) (vm : Nat) (r : Rect) : List (Nat × Task) :=
  s.tasks.filter (fun e => e.2.vm == vm && e.2.placed && !e.2.rect.within r)

/-- A move that spec/25 R422 allows: toward a tenant with q < 0.9 and an unplaced eligible task, from one with q ≥ 1.25, whose tasks in the way are
migratable; rectangles stay disjoint. -/
def Border.ok (s : State) (m : Border) : Bool :=
  let a' := rectOfWord m.growTo
  let b' := rectOfWord m.giveTo
  let qa := ratioOf s m.grow
  let qb := ratioOf s m.give
  decide (qa.1 * 10 < 9 * qa.2) && decide (5 * qb.2 ≤ 4 * qb.1) && s.tasks.any (fun e => e.2.vm == m.grow && launchable s e.2) &&
  m.grow != m.give && rectFits m.growTo && rectFits m.giveTo && !a'.meets b' &&
  (partOf s m.grow).any (fun a => a.within a') && (partOf s m.give).any (fun b => b'.within b) &&
  s.rects.all (fun e => e.1 == m.grow || e.1 == m.give || !bit e.2 63 || !(rectOfWord e.2).meets a') &&
  !s.borders.any (fun n => [n.grow, n.give].any (fun v => v == m.grow || v == m.give)) &&
  (tasksBeyond s m.give b').all (fun e => e.2.mig)

/-- The controller may start to move a border; which, the spec does not say (log entry 112). -/
def startBorder (s : State) : State :=
  match Config.borderMove s.nRat with
  | none => s
  | some (a, av, b, bv) =>
    let m : Border := ⟨a.toNat, av, b.toNat, bv⟩
    if m.ok s then
      { s with borders := s.borders ++ [m], moving := s.moving ++ (tasksBeyond s m.give (rectOfWord m.giveTo)).map (·.1) }
    else s

/-- The row SHARE_RATIO_TICK, every 1 ms. -/
def execShareRatioTick (s : State) : Outcome :=
  .next (if s.cyc < (s.nRat + 1) * 1000 * usCyc then s
    else startBorder
      { s with
        nRat := s.nRat + 1
        ratios := (knownVms s).map (fun v => (v, shareOf s v))
        tasks := s.tasks.map (fun e => (e.1, { e.2 with rel5 := 0 })) })

/-- Clusters of a rectangle that placed tasks occupy. -/
def occupied (s : State) (r : Rect) : Nat :=
  (r.cores.filter (fun i => rowOf i == 0 && (taskOf s i).isSome)).length

/-- The candidate region of a compaction hold: fewest occupied clusters, then the lowest row, then the lowest column. -/
def holdRegion (s : State) (p : Rect) (w h : Nat) : Option Rect :=
  let rs := (List.range (p.h / 8)).flatMap (fun j => (List.range p.w).filterMap (fun k =>
    if 8 * j + h ≤ p.h ∧ k + w ≤ p.w then some (⟨p.x0 + k, p.y0 + 8 * j, w, h⟩ : Rect) else none))
  rs.foldl (fun (b : Option Rect) r => match b with
    | some c => if occupied s r < occupied s c then some r else b
    | none => some r) none

/-- The wait bound of a hold in µs (spec/25 R423). -/
def holdBound (s : State) (t : Task) (r : Rect) : Nat :=
  let fixed (u : Task) : Bool := u.placed && u.rect.meets r && !(u.mig && (s.roundAt (roundKey 5 u.rect)).ph != 0)
  10 * t.pdl + ((s.tasks.filter (fun e => fixed e.2)).map (fun e => e.2.tmax - (s.cyc - e.2.placedAt) / usCyc)).foldl max 0

/-- The row COMPACTION_HOLD: a launchable task `e` is still unplaced `pdl` after it became launchable; its partition has no other hold.
A region that is free already is the task's at once. -/
def execCompactionHold (e : Nat) (s : State) : Outcome :=
  .next (match mget s.tasks e with
    | none => s
    | some t =>
      match t.eligAt, partOf s t.vm with
      | some at_, some p =>
        let other := s.holds.any (fun h => (match mget s.tasks h.1 with
          | some n => n.vm == t.vm
          | none => false))
        if t.st ≠ .admitted ∨ s.cyc < at_ + 10 * t.pdl * usCyc ∨ other then s
        else match holdRegion s p t.w t.h with
          | none => s
          | some r =>
            offerHeld (sendCompletion { s with holds := s.holds ++ [(e, r.x0, r.y0)] } t.qid { tid := t.tid, cst := 6, bound := holdBound s t r })
      | _, _ => s)

end Sys2Proof.Machine
end

