-- ==== Sys2Proof/Machine/Plugin.lean ====
section
/-!
DEFINITION. What software of the control complex does on its cores' turns by means that the spec does not give: the scheduler's call of a tenant's policy
plug-in and the placement that comes of it (spec/25 R427), and the start of the other control cores by stage 1 (R409). When it does so is free (log entry
113).
-/
namespace Sys2Proof.Machine

/-! ## The candidate list (spec/25 R427) -/

/-- Age of an eligible task in units of 10 µs, saturating. -/
def Task.age (t : Task) (s : State) : Nat := min 0xFFFF ((s.cyc - t.eligAt.getD s.cyc) / (10 * usCyc))

/-- Table entries of a tenant's eligible tasks that are not placed. -/
def candidates (s : State) (vm : Nat) : List Nat := (s.tasks.filter (fun e => e.2.vm == vm && launchable s e.2)).map (·.1)

/-- The doubleword of a candidate: `prio`, age and `tid`. -/
def candWord (s : State) (e : Nat) : Nat :=
  match mget s.tasks e with
  | some t => t.prio * 2 ^ 48 + t.age s * 2 ^ 32 + t.tid
  | none => 0

/-- The list that `g1` addresses: the count, and the candidates. -/
def candList (s : State) (es : List Nat) : List Byte := (es.length :: es.map (candWord s)).flatMap (natLE 8)

/-! ## Call and return -/

/-- A guard for level 2 over the region of 2^`sz` bytes from `base`, with permission bits `perm` (spec/06 Table 6.13). -/
def guardFor (base sz perm : Nat) : Word := w64 (base / 4096 * 4096 + sz % 64 * 64 + 2 ^ 5 + 2 ^ 3 + perm)

/-- The call: the list in local memory, its address in `g1`, guards that grant `r` over the list and `x` over the plug-in, `ptmr` = 4,096, level 2. It is
made by the core that holds the scheduler role, at level 1; another call changes nothing. -/
def callPlugin (s : State) (a : Config.PlugAct) : State :=
  let i := ccOf a.cc
  let es := candidates s a.vm
  let bs := candList s es
  let gl := guardFor a.list.toNat a.lsize.toNat 1
  let gc := guardFor a.code.toNat a.csize.toNat 4
  let k := s.coreAt i
  if a.cc ≠ s.sched ∨ 8 ≤ a.cc ∨ k.run ≠ .running ∨ k.level ≠ 1 ∨ s.plug.isSome ∨ a.list.toNat % 8 ≠ 0 ∨ a.code.toNat % 2 ≠ 0 ∨
      0x40000 < a.list.toNat + bs.length ∨ !guardMatches gl ∨ !guardMatches gc ∨ !guardGrants gl .load a.list.toNat bs.length ∨
      !guardGrants gc .fetch a.code.toNat 2 then s
  else
    let s := put s (localBase i + a.list.toNat) bs (0, 0)
    { s.modCore i (fun k =>
        let k := k.setBank { k.bank with plv := 2, tn := false, ls := false, held := [] }
        { k with
          lvl := 2, ptmr := 4096, grd := vput (vput (Vector.replicate 16 0) 0 gl) 1 gc
          ctl := { k.ctl with g := vput k.ctl.g 1 (w64 a.list.toNat), loops := [], fbuf := [], pc := evenPc a.code.toNat } }) with
      plug := some ⟨a.cc, es⟩ }

/-- The default choice: the eligible candidate of highest `prio`, then greatest age. -/
def defaultChoice (s : State) (es : List Nat) : Option Nat :=
  es.foldl (fun b e => match mget s.tasks e with
    | none => b
    | some t =>
      if !launchable s t then b
      else match b.bind (mget s.tasks) with
        | none => some e
        | some u => if u.prio < t.prio ∨ u.prio = t.prio ∧ u.age s < t.age s then some e else b) none

/-- The index that a plug-in returned by `trap 1`, when it names a candidate that is still eligible. -/
def pluginChoice (s : State) (p : PlugCall) : Option Nat :=
  let k := s.coreAt (ccOf p.cc)
  if k.run = .running ∧ k.level = 1 ∧ k.bank.cause.toNat = cSyscall ∧ k.bank.val = 1 then
    (p.cands[(vget k.ctl.g 2 0).toNat]?).filter (fun e => (mget s.tasks e).any (launchable s))
  else none

/-- The plug-in has left level 2: its choice is stored to the launch unit, or the default choice with the rejection counted. -/
def pluginReturn (s : State) (p : PlugCall) : State :=
  let r := match pluginChoice s p with
    | some e => (some e, s.plugRej)
    | none => (defaultChoice s p.cands, s.plugRej + 1)
  { s with
    plug := none, plugRej := r.2
    launchQ := s.launchQ ++ (r.1.filter (fun e => !s.launchQ.contains e)).toList }

/-- The plug-in that was called still runs. -/
def PlugCall.runs (p : PlugCall) (s : State) : Bool := (s.coreAt (ccOf p.cc)).run == .running && (s.coreAt (ccOf p.cc)).level == 2

/-- Stage 1 starts a control core that is held (spec/25 R407, R409). -/
def startCore (s : State) (k : Nat) (pc : Nat) : State :=
  if k = 0 ∨ 8 ≤ k ∨ (s.coreAt (ccOf k)).run ≠ .idle ∨ (s.coreAt (ccOf 0)).run ≠ .running ∨ (s.coreAt (ccOf 0)).level ≠ 0 then s
  else s.modCore (ccOf k) (fun c => { c with run := .running, lvl := 0, ctl := { c.ctl with pc := evenPc pc } })

/-- What software does on the turn of control core `i` instead of its next instruction. -/
def softwareTurn (s : State) (i : Nat) : Option State :=
  if kindOf i ≠ .control then none
  else match s.plug with
    | some p => if p.runs s then none else some (pluginReturn s p)
    | none =>
      match Config.plugAct s.stepNo, Config.startAct s.stepNo with
      | some a, _ => if ccOf a.cc = i then some (callPlugin s a) else none
      | none, some (k, pc) => if i = ccOf 0 then some (startCore s k.val (2 * pc.toNat)) else none
      | none, none => none

end Sys2Proof.Machine
end

