-- ==== Sys2Proof/Machine/Transport.lean ====
section
/-!
DEFINITION. Ethernet frames and the Milium transport of a port engine (spec/23 R377 to R380), and what the answers to window accesses
do (R382).
-/
namespace Sys2Proof.Config

/-- Payload of a message whose layout on the wire the spec does not give (log entry 52). -/
opaque wireOf : Machine.Msg → List (BitVec 8)

end Sys2Proof.Config

namespace Sys2Proof.Machine

/-! ## Frames (spec/23 R377, Table 23.1) -/

/-- One bit and one byte of the frame check sequence. -/
def fcsBit (c : BitVec 32) : BitVec 32 := (c >>> 1) ^^^ (if c.getLsbD 0 then 0xEDB88320 else 0)
def fcsByte (c : BitVec 32) (b : Byte) : BitVec 32 :=
  fcsBit (fcsBit (fcsBit (fcsBit (fcsBit (fcsBit (fcsBit (fcsBit (c ^^^ b.zeroExtend 32))))))))
def fcs (m : List Byte) : BitVec 32 := ~~~(m.foldl fcsByte (BitVec.allOnes 32))

/-- Ones' complement sum of big-endian 16-bit words. -/
def sum16 (bs : List Byte) : Nat :=
  let t := ((pieces 2 bs.length bs).map (fun p => beNat (p ++ List.replicate (2 - p.length) 0))).foldl (· + ·) 0
  let fold (n : Nat) : Nat := n % 65536 + n / 65536
  fold (fold (fold t))

/-- The Ethernet payload and its type, after at most one C-tag with VID 1 to 4,094; none for a frame that Table 23.1 drops. -/
def etherParse (f : List Byte) : Option (Nat × List Byte) :=
  if f.length < 64 ∨ 9216 < f.length then none
  else
    let body := f.take (f.length - 4)
    if leNat (f.drop (f.length - 4)) ≠ (fcs body).toNat then none
    else
      let ty := beNat ((body.drop 12).take 2)
      if ty = 0x8100 then
        let vid := beNat ((body.drop 14).take 2) % 4096
        if vid = 0 ∨ vid = 4095 then none else some (beNat ((body.drop 16).take 2), body.drop 18)
      else some (ty, body.drop 14)

/-- The UDP datagram of an IP packet, its source address and its pseudo-header's sum without the UDP length, and whether a zero checksum is accepted; none for
what Table 23.1 drops. -/
def ipParse (ty : Nat) (p : List Byte) : Option (Nat × Nat × Bool × List Byte) :=
  if ty = 0x86DD then
    let len := beNat ((p.drop 4).take 2)
    if beNat (p.take 1) / 16 ≠ 6 ∨ beNat ((p.drop 6).take 1) ≠ 17 ∨ len = 0 ∨ p.length < 40 + len then none
    else some (beNat ((p.drop 8).take 16), sum16 ((p.drop 8).take 32) + 17, false, (p.drop 40).take len)
  else if ty = 0x0800 then
    let len := beNat ((p.drop 2).take 2)
    if beNat (p.take 1) ≠ 0x45 ∨ beNat ((p.drop 9).take 1) ≠ 17 ∨ beNat ((p.drop 6).take 2) % 0x4000 ≠ 0 ∨ len < 20 ∨
        p.length < len ∨ sum16 (p.take 20) ≠ 65535 then none
    else some (beNat ((p.drop 12).take 4), sum16 ((p.drop 12).take 8) + 17, true, (p.drop 20).take (len - 20))
  else none

/-- A frame that the port accepts: source address, UDP destination port and payload. -/
def frameParse (f : List Byte) : Option (Nat × Nat × List Byte) :=
  match etherParse f with
  | none => none
  | some (ty, p) =>
    match ipParse ty p with
    | none => none
    | some (src, ps, zeroOk, u) =>
      let len := beNat ((u.drop 4).take 2)
      let ck := beNat ((u.drop 6).take 2)
      let s := ps + len + sum16 (u.take len)
      let ok := if ck = 0 then zeroOk else (s % 65536 + s / 65536) % 65535 == 0
      if len < 8 ∨ u.length < len ∨ !ok then none
      else some (src, beNat ((u.drop 2).take 2), (u.take len).drop 8)

/-! ### Frames sent (spec/23 R377, R378) -/

/-- The Milium header on the wire (spec/23 Table 23.2). -/
def MHdr.bytes (h : MHdr) : List Byte :=
  natBE 1 1 ++ natBE 1 h.typ ++ natBE 2 h.flg ++ natBE 4 h.cid ++ natBE 4 h.psn ++ natBE 4 h.cack ++ natBE 8 h.sack.toNat

def Body.wire : Body → List Byte
  | .bytes bs | .msg (.raw bs) => bs
  | .msg m => Config.wireOf m
  | .solicit _ => []

/-- A Milium packet as the payload of its datagram. -/
def Out.packet (o : Out) : List Byte := o.hdr.bytes ++ o.body.wire

/-- A UDP datagram with its checksum, `ps` being the sum of its pseudo-header. -/
def udpOf (ps sport dport : Nat) (pl : List Byte) : List Byte :=
  let n := 8 + pl.length
  let hd (ck : Nat) := natBE 2 sport ++ natBE 2 dport ++ natBE 2 n ++ natBE 2 ck
  let t := ps + sum16 (hd 0 ++ pl)
  let ck := 65535 - ((t % 65536 + t / 65536) % 65536 + (t % 65536 + t / 65536) / 65536)
  hd (if ck = 0 then 65535 else ck) ++ pl

/-- An IPv6 packet, or an IPv4 packet with DF set for an address below 2^32, without options or extension headers: its type, and its bytes. -/
def ipOf (src dst hop : Nat) (udp : Nat → List Byte) (n : Nat) : Nat × List Byte :=
  if dst < 2 ^ 32 then
    let hd (ck : Nat) := natBE 2 0x4500 ++ natBE 2 (20 + n) ++ natBE 2 0 ++ natBE 2 0x4000 ++ natBE 1 hop ++ natBE 1 17 ++ natBE 2 ck ++
      natBE 4 src ++ natBE 4 dst
    (0x0800, hd (65535 - sum16 (hd 0)) ++ udp (sum16 (natBE 4 src ++ natBE 4 dst) + 17 + n))
  else
    (0x86DD, natBE 4 0x60000000 ++ natBE 2 n ++ natBE 1 17 ++ natBE 1 hop ++ natBE 16 src ++ natBE 16 dst ++
      udp (sum16 (natBE 16 src ++ natBE 16 dst) + 17 + n))

/-- An Ethernet frame with at most one C-tag, padded to 64 bytes, and its frame check sequence. -/
def etherOf (dst src : Nat) (vtag : Option (Nat × Nat)) (ty : Nat) (pl : List Byte) : List Byte :=
  let tag := match vtag with
    | some (vid, prio) => natBE 2 0x8100 ++ natBE 2 (prio % 8 * 8192 + vid % 4096)
    | none => []
  let body := natBE 6 dst ++ natBE 6 src ++ tag ++ natBE 2 ty ++ pl
  let body := body ++ List.replicate (60 - body.length) 0
  body ++ natLE 4 (fcs body).toNat

/-- Ethernet address of a port (spec/25 R407: the fuse `mac` is that of port 0). -/
def ownMac (p : Nat) : Nat := if p = 0 then beNat Config.fuseMac % 2 ^ 48 else Config.portMac.toNat

/-- The link-local address of port 0 (spec/25 R408): fe80::/64 with the modified EUI-64 of `mac`. -/
def linkLocal : Nat :=
  let m := ownMac 0
  0xFE80 * 2 ^ 112 + (m / 2 ^ 24 ^^^ 0x020000) * 2 ^ 40 + 0xFFFE * 2 ^ 24 + m % 2 ^ 24

/-- A neighbour solicitation of RFC 4861 for an address, with the source link-layer address option, to the solicited-node multicast address (PRESUMED, log
entry 75). -/
def solicitOf (src mac target : Nat) (vtag : Option (Nat × Nat)) : List Byte :=
  let dst := 0xFF02 * 2 ^ 112 + 0x1FF * 2 ^ 24 + target % 2 ^ 24
  let msg (ck : Nat) := natBE 2 0x8700 ++ natBE 2 ck ++ natBE 4 0 ++ natBE 16 target ++ natBE 2 0x0101 ++ natBE 6 mac
  let t := sum16 (natBE 16 src ++ natBE 16 dst) + 58 + 32 + sum16 (msg 0)
  let ck := 65535 - ((t % 65536 + t / 65536) % 65536 + (t % 65536 + t / 65536) / 65536)
  etherOf (0x3333FF * 2 ^ 24 + target % 2 ^ 24) mac vtag 0x86DD
    (natBE 4 0x60000000 ++ natBE 2 32 ++ natBE 1 58 ++ natBE 1 255 ++ natBE 16 src ++ natBE 16 dst ++ msg ck)

/-- The frame that carries a packet (spec/23 Table 23.1): what the table does not fix is free (log entry 55). -/
def frameOf (s : State) (o : Out) : List Byte :=
  let pl := o.packet
  let src := o.src.getD (Config.ownAddr o.port) % (if o.dest < 2 ^ 32 then 2 ^ 32 else 2 ^ 128)
  match o.body with
  | .solicit t => solicitOf src (ownMac o.port) t o.vtag
  | _ =>
  let ip := ipOf src o.dest Config.hopLimit.toNat (fun ps => udpOf ps (Config.udpSource o.port).toNat (s.portAt o.port).mport pl) (8 + pl.length)
  etherOf (Config.neighbour o.port o.dest) (ownMac o.port) o.vtag ip.1 ip.2

/-- A Milium packet (spec/23 Table 23.2); none for one that is dropped. -/
def miliumParse (src : Nat) (p : List Byte) : Option MPkt :=
  let f (o n : Nat) := beNat ((p.drop o).take n)
  if p.length < 24 ∨ 24 + 8192 < p.length ∨ f 0 1 ≠ 1 ∨ 4 < f 1 1 then none
  else some { typ := f 1 1, ackReq := f 2 2 % 2 == 1, cid := f 4 4, psn := f 8 4, cack := f 0xC 4,
              sack := BitVec.ofNat 64 (f 0x10 8), payload := p.drop 24, from_ := src }

/-- The row FRAME_RECEIVE: a frame arrives at port `p` while a link is up. A frame outside Table 23.1 is dropped and counted; a Milium packet
waits to be handled. -/
def execFrameReceive (p : Nat) (f : List Byte) (s : State) : Outcome :=
  if 2 ≤ p then .fault .noSuchAgent
  else .next (s.modPort p (fun q =>
    if !q.up.any id then q
    else match frameParse f with
      | none => { q with drops := q.drops + 1 }
      | some (src, dport, pl) =>
        if q.mport = 0 ∨ dport ≠ q.mport then q
        else match miliumParse src pl with
          | some m => { q with rxq := q.rxq ++ [m] }
          | none => q))

/-- The row LINK_STATE_CHANGE (spec/23 R377): a port has a second link only when its split fuse makes it two. -/
def execLinkStateChange (p link : Nat) (up : Bool) (s : State) : Outcome :=
  if 2 ≤ p ∨ 2 ≤ link then .fault .noSuchAgent
  else .next (if link = 1 ∧ !Config.fuseSplit p then s else s.modPort p (fun q => { q with up := q.up.set link up }))

/-! ## Outcomes of window accesses (spec/23 R382) -/

/-- Bytes fetched for a copy. -/
def copyGot (s : State) (id a : Nat) (v : Word) : State :=
  { s with copies := s.copies.map (fun c => if c.id = id then { c with got := ((natLE 8 v.toNat).zipIdx).foldl (fun m e => mset m (a + e.2) e.1) c.got } else c) }

/-- The answer to access `tag`: a store ends, a load or atomic lands at its width and its instruction completes. `st.f` follows from the old
value, for the conditional atomics alone (spec/06 R120, spec/23 R383). -/
def sysReply (s : State) (tag : Nat) (v : Word) : State :=
  match s.sysOut.find? (fun o => o.tag == tag) with
  | none => s
  | some o =>
    let s := { s with sysOut := s.sysOut.filter (fun p => p.tag != tag) }
    match o.copy with
    | some (id, _, _) => if o.store then s else copyGot s id o.addr.toNat v
    | none =>
      if o.store || ctxEnded o.ctx then s
      else
        let w : Who := ⟨o.core, o.ctx, o.core⟩
        match (s.ctxAt w).sys with
        | none => s
        | some x =>
          let old := v.toNat % 2 ^ (8 * x.n)
          let s := s.modCtx w (fun c => { c with sys := none })
          match x.atom with
          | none => completeAt ((landLoad s w x.seq (log2sz x.n) x.addr x.n 0).wr w x.rd (w64 old)) w x.next
          | some (op, e, y) =>
            let flag := (atomStep op (8 * x.n) old (e.toNat % 2 ^ (8 * x.n)) (y.toNat % 2 ^ (8 * x.n))).2
            completeAt (landAtomic (sendAtomic s w x.seq (log2sz x.n) x.addr (0, 0)) w x.rd old flag) w x.next

/-- A refused access fails at its issuer; the connection stays open (spec/23 R384). -/
def sysRefused (s : State) (tag : Nat) : State :=
  match s.sysOut.find? (fun o => o.tag == tag) with
  | some o => failSys s o
  | none => s

/-! ## Connections (spec/23 R379, R380) -/

/-- A command of the port engine that ends with a status (spec/23 Table 23.7): connection failure of a message, or of a ring
whose neighbour the connection leads to. -/
def failCmd (c : Nat) (r : PRun) : PRun :=
  if r.fin.isSome then r
  else match r.group with
    | none => if leNat ((r.cmd.blk.drop 0x1C).take 2) = c ∧ leNat (r.cmd.blk.take 1) = 0 then { r with fin := some (4, 0) } else r
    | some g =>
      let nx := (g.rank + 1) % g.n
      let pv := (g.rank + g.n - 1) % g.n
      let lost := if g.peers.getD nx 0 = c then some nx else if g.peers.getD pv 0 = c then some pv else none
      match lost with
      | some l => { r with fin := some (4, r.step * 2 ^ 16 + l * 2 ^ 8 + l) }
      | none => r

/-- Ring neighbours that learn of an abort of a command: the connections to its next and previous member. -/
def ringConns (g : Group) : List Nat :=
  [g.peers.getD ((g.rank + 1) % g.n) 0, g.peers.getD ((g.rank + g.n - 1) % g.n) 0]

/-- Tell both neighbours of a round that it is aborted (spec/23 R387, spec/24 R393). -/
def sendAborts (s : State) (p : Nat) (r : PRun) (lost : Nat) : State :=
  match r.group with
  | none => s
  | some g =>
    let gid := leNat ((r.cmd.blk.drop 4).take 2)
    (ringConns g).foldl (fun s c => (connPost s p c (.creset gid r.round lost)).getD s) s

/-- Commands that a failure has just ended, with the rank lost. -/
def newlyLost (a b : PRun) : Option Nat :=
  match a.fin, b.fin, b.group with
  | none, some (_, v), some _ => some (v / 2 ^ 8 % 2 ^ 8)
  | _, _, _ => none

/-- Every operation outstanding on a connection completes with a failure. -/
def failOps (s : State) (p c : Nat) : State :=
  let s := failAllSys s p c
  let old := (s.portAt p).cmds
  let s := s.modPort p (fun q => { q with cmds := q.cmds.map (failCmd c) })
  old.foldl (fun s r => match newlyLost r (failCmd c r) with
    | some l => sendAborts s p r l
    | none => s) s

/-- The data packet `n` has been sent and acknowledged. -/
def Conn.acked (k : Conn) (n : Nat) : Bool := !k.una.any (fun e => e.1 == n) && !decide (psnSub n k.nxt < 2 ^ 31)

/-- Messages on a connection whose last packet is acknowledged are done. -/
def settleMsgs (s : State) (p c : Nat) : State :=
  match s.connAt p c with
  | none => s
  | some k => s.modPort p (fun q => { q with cmds := q.cmds.map (fun r =>
      if r.fin.isNone && leNat (r.cmd.blk.take 1) == 0 && leNat ((r.cmd.blk.drop 0x1C).take 2) == c && k.acked r.lastPsn then
        { r with fin := some (0, 0) }
      else r) })

/-- A connection fails (spec/23 R379). -/
def failConn (s : State) (p c : Nat) : State :=
  match s.connAt p c with
  | none => s
  | some k => failOps ((settleMsgs s p c).setConn p c { k with st := .failed, una := [], wait := [], held := [] }) p c

/-- Free a connection. -/
def freeConn (s : State) (p c : Nat) : State :=
  failOps ((settleMsgs s p c).modPort p (fun q => { q with conns := mdel q.conns c })) p c

/-- Send an ack (spec/23 R379). -/
def sendAck (s : State) (p c : Nat) : State :=
  match s.connAt p c with
  | none => s
  | some k => (emit s (k.ackOut p)).setConn p c { k with unacked := 0, ackDue := none }

/-- `cack` and `sack` of a received packet: what they cover is acknowledged, and progress sets `rto` back. -/
def takeAck (s : State) (p c : Nat) (m : MPkt) : State :=
  match s.connAt p c with
  | none => s
  | some k =>
    let left := k.una.filter (fun e => !decide (psnSub m.cack e.1 < 2 ^ 31))
    let sacked := (left.map (·.1)).filter (fun n => (List.range 64).any (fun i =>
      m.sack.getLsbD i && psnAdd m.cack (2 + i) == n) || k.sacked.contains n)
    let k := { k with una := left, sacked }
    let k' := if left.length < ((s.connAt p c).getD {}).una.length then
        { k with cur := k.rto, expiries := 0, deadline := s.cyc + k.rto * usCyc } else k
    pump (s.setConn p c k') p c

/-- The message that a data packet carries. The layout of window accesses and of collective packets on the wire is free. -/
def readMsg (s : State) (key : Nat) (bs : List Byte) : Msg :=
  if s.mgmt.contains key || (mget s.qbind key).isSome then .raw bs
  else
    let f := Config.wireField bs
    match Config.wireKind bs with
    | 0 => .ld (w64 (f 0)) (2 ^ (f 1 % 4)) (f 2)
    | 1 => .st (w64 (f 0)) (2 ^ (f 1 % 4)) (f 2) (w64 (f 3))
    | 2 => .at (w64 (f 0)) (f 1 % 2 == 0) (match f 2 % 13 with
        | 0 => .add | 1 => .and | 2 => .or | 3 => .xor | 4 => .min | 5 => .max | 6 => .minn | 7 => .maxn | 8 => .maxf
        | 9 => .swp | 10 => .cas | 11 => .incW | _ => .faddB) (w64 (f 3)) (w64 (f 4)) (f 5)
    | 3 => .reply (f 0) (w64 (f 1))
    | 4 => .refused (f 0)
    | 5 => .chunk (f 0) (f 1) (f 2) (Config.wireData bs)
    | 6 => .creset (f 0) (f 1) (f 2 % 256)
    | 7 => .release (f 0)
    | _ => .raw bs

/-- Hand a message to its consumer: answers to this device's accesses act at once, the rest waits in the port's inbox. An answer counts
only for an access that went out on that connection. -/
def deliver (s : State) (p c : Nat) (bs : List Byte) : State :=
  let mine (tag : Nat) : Bool := s.sysOut.any (fun o => o.tag == tag && o.conn == p * 1024 + c)
  match readMsg s (p * 1024 + c) bs with
  | .reply tag v => if mine tag then sysReply s tag v else s
  | .refused tag => if mine tag then sysRefused s tag else s
  | m => s.modPort p (fun q => { q with inbox := q.inbox ++ [(c, m)] })

/-- Rounds started on a group by a launch (spec/24 R394). -/
def Port.started (q : Port) (gid : Nat) (o : Option (Nat × Nat)) : Nat :=
  ((q.rounds.find? (fun e => e.1 == gid && e.2.1 == o)).map (·.2.2)).getD 0

/-- The engine's own round on a group: that of the launch that last started a command there; a packet does not name its launch (log entry
62). -/
def roundOf (s : State) (p gid : Nat) : Nat := (((s.portAt p).rounds.find? (fun e => e.1 == gid)).map (·.2.2)).getD 0

/-- A collective packet of a later round than the engine's own stays in the receive window (spec/24 R394). -/
def ahead? (s : State) (p : Nat) : Msg → Bool
  | .chunk gid rd _ _ | .creset gid rd _ => decide (roundOf s p gid < rd)
  | _ => false

/-- The packets received in order from `exp` on join those that wait for their consumer. -/
def Conn.inOrder : Nat → Conn → Conn
  | 0, k => k
  | n + 1, k =>
    match k.ahead.find? (fun e => e.1 == k.exp) with
    | none => k
    | some (_, bs) =>
      Conn.inOrder n { k with exp := psnAdd k.exp 1, ahead := k.ahead.filter (fun e => e.1 != k.exp), held := k.held ++ [bs] }

/-- Hand over what waits, in order, up to a packet of a later round. -/
def handOver (p c : Nat) : Nat → State → State
  | 0, s => s
  | n + 1, s =>
    match s.connAt p c with
    | none => s
    | some k =>
      match k.held with
      | bs :: t => if ahead? s p (readMsg s (p * 1024 + c) bs) then s else handOver p c n (deliver (s.setConn p c { k with held := t }) p c bs)
      | [] => s

/-- A data packet on an open connection: in the window, which what waits takes up too, it is kept once, and what is in order is handed over. -/
def takeData (s : State) (p c : Nat) (m : MPkt) : State :=
  match s.connAt p c with
  | none => s
  | some k =>
    let new := decide (psnSub m.psn k.exp + k.held.length < 1024) && !k.ahead.any (fun e => e.1 == m.psn)
    let k := Conn.inOrder 1024 { k with
      ahead := if new then k.ahead ++ [(m.psn, m.payload)] else k.ahead
      unacked := k.unacked + 1
      ackDue := some (k.ackDue.getD (s.cyc + 2 * usCyc)) }
    let s := handOver p c 1024 (s.setConn p c k)
    if m.ackReq || decide (8 ≤ k.unacked) then sendAck s p c else s

/-- A connection that data and acks are taken on. -/
def Conn.open (k : Conn) : Bool := k.st == .opened || k.st == .closing

/-- The oldest packet of port `p`, when it has type `typ`, is handled by `f`; it leaves the queue. -/
def rxRow (p typ : Nat) (s : State) (f : MPkt → State → State) : Outcome :=
  if 2 ≤ p then .fault .noSuchAgent
  else .next (match (s.portAt p).rxq with
    | m :: t => if m.typ = typ then f m (s.modPort p (fun q => { q with rxq := t })) else s
    | [] => s)

/-- On an open connection `f` acts; otherwise the packet is answered with a reset of reason 2 (spec/23 R380). -/
def onOpen (s : State) (p : Nat) (m : MPkt) (f : State) : State :=
  match s.connAt p m.cid with
  | some k => if k.open then f else sendUnknown s p m.from_
  | none => sendUnknown s p m.from_

/-- A close of the peer is answered, and the connection freed, once its delivery is complete and no data packet of this side is
unacknowledged (spec/23 R380). -/
def answerClose (s : State) (p c : Nat) : State :=
  match s.connAt p c with
  | some k =>
    if k.closeReq && k.una.isEmpty && k.wait.isEmpty && k.held.isEmpty then freeConn (emit s (k.ctlOut p 3 k.peer [])) p c else s
  | none => s

/-- The row MILIUM_DATA. -/
def execMiliumData (p : Nat) (s : State) : Outcome :=
  rxRow p 0 s (fun m s => onOpen s p m (answerClose (takeData (takeAck s p m.cid m) p m.cid m) p m.cid))

/-- The row MILIUM_ACK. -/
def execMiliumAck (p : Nat) (s : State) : Outcome :=
  rxRow p 1 s (fun m s => onOpen s p m (answerClose (takeAck s p m.cid m) p m.cid))

/-- Payload of a connect (spec/23 Table 23.2a): `scid`, `ipsn`, `rto`, `mss`. -/
def connectOf (bs : List Byte) : Option (Nat × Nat × Nat × Nat) :=
  let f (o n : Nat) := leNat ((bs.drop o).take n)
  if bs.length ≠ 16 ∨ f 8 2 < 4 ∨ 1000 < f 8 2 ∨ f 0xA 2 < 256 ∨ 8192 < f 0xA 2 ∨ f 0xC 4 ≠ 0 then none
  else some (f 0 4, f 4 4, f 8 2, f 0xA 2)

/-- This side's connect for a connection (spec/23 R380). -/
def sendConnect (s : State) (p c : Nat) : State :=
  match s.connAt p c with
  | none => s
  | some k => emit s (k.ctlOut p 2 (if k.st = .opening then 0xFFFFFFFF else k.peer)
      (natLE 4 c ++ natLE 4 k.ipsn ++ natLE 2 k.rto ++ natLE 2 8192 ++ natLE 4 0))

/-- The C-tag of a connection that the device accepts: free, with a VID of 1 to 4,094 (log entry 54). -/
def freeTag (v : Word) : Option (Nat × Nat) := if bits v 15 1 = 0 then none else some (bits v 0 12 % 4094 + 1, bits v 12 3)

/-- A free connection number. -/
def freeConnNo (s : State) (p : Nat) : Option Nat := (List.range 1024).find? (fun c => (s.connAt p c).isNone)

/-- The row MILIUM_CONNECT (spec/23 R380): a request to open is accepted when it is armed, a repeated one is answered again, and an answer opens
this side. The first `psn` and the `rto` of the accepting side are the implementation's. -/
def execMiliumConnect (p : Nat) (s : State) : Outcome :=
  rxRow p 2 s (fun m s => match connectOf m.payload with
    | none => s
    | some (scid, ipsn, _, mss) =>
      if m.cid = 0xFFFFFFFF then
        match (s.portAt p).conns.find? (fun e => e.2.addr == m.from_ && e.2.peer == scid && e.2.open) with
        | some (c, _) => sendConnect s p c
        | none =>
          if !(s.portAt p).armed.contains ((s.portAt p).mport, m.from_) then s
          else match freeConnNo s p with
            | none => s
            | some c =>
              let i := bits (Config.unstated s.freeNo) 0 32
              let rto := 4 + bits (Config.unstated s.freeNo) 32 32 % 997
              let s := { s with freeNo := s.freeNo + 2 }
              let k : Conn := { st := .opened, peer := scid, nxt := i, ipsn := i, exp := ipsn, rto, cur := rto, mss, addr := m.from_ }
              sendConnect (s.setConn p c { k with vtag := freeTag (Config.unstated (s.freeNo - 1)) }) p c
      else match s.connAt p m.cid with
        | some k =>
          if k.st = .opening then
            pump (s.setConn p m.cid { k with st := .opened, peer := scid, exp := ipsn, mss, cur := k.rto, expiries := 0 }) p m.cid
          else s
        | none => s)

/-- The row MILIUM_CLOSE (spec/23 R380): the receiver answers and frees, once it has no unacknowledged data packet itself; the side that asked
frees on the answer. -/
def execMiliumClose (p : Nat) (s : State) : Outcome :=
  rxRow p 3 s (fun m s => match s.connAt p m.cid with
    | some k =>
      if k.st = .closing then freeConn s p m.cid
      else if k.st = .opened then answerClose (s.setConn p m.cid { k with closeReq := true }) p m.cid
      else sendUnknown s p m.from_
    | none => sendUnknown s p m.from_)

/-- The row MILIUM_RESET (spec/23 R380): the connection fails, and nothing is answered. -/
def execMiliumReset (p : Nat) (s : State) : Outcome :=
  rxRow p 4 s (fun m s => match s.connAt p m.cid with
    | some _ => failConn s p m.cid
    | none => s)

/-- Send again what neither `cack` nor `sack` covers. -/
def resend (s : State) (p c : Nat) (k : Conn) : State :=
  match k.st with
  | .opening => sendConnect s p c
  | .closing => emit s (k.ctlOut p 3 k.peer [])
  | _ => (k.una.filter (fun e => !k.sacked.contains e.1)).foldl (fun s e =>
      emit s (k.dataOut p e.1 (Config.ackAsked s.stepNo) e.2)) s

/-- The row RETRANSMIT_TIMEOUT (spec/23 R379, R380): `rto` expires. At the eighth expiry a connection fails with a reset, an attempt to open
fails, and a closing one is freed. -/
def execRetransmitTimeout (p c : Nat) (s : State) : Outcome :=
  if 2 ≤ p then .fault .noSuchAgent
  else .next (match s.connAt p c with
    | none => s
    | some k =>
      if k.st = .failed ∨ (k.st = .opened ∧ k.una.isEmpty) ∨ s.cyc < k.deadline then s
      else if 8 ≤ k.expiries + 1 then
        if k.st = .closing then freeConn s p c
        else if k.st = .opening then failConn s p c
        else failConn (sendReset s p k 1) p c
      else
        let k := { k with expiries := k.expiries + 1, cur := 2 * k.cur, deadline := s.cyc + 2 * k.cur * usCyc }
        resend (s.setConn p c k) p c k)

/-- The row ACK_DELAY_EXPIRY (spec/23 R379): an unacknowledged arrival is acknowledged, within 2 µs. -/
def execAckDelayExpiry (p c : Nat) (s : State) : Outcome :=
  if 2 ≤ p then .fault .noSuchAgent
  else .next (match s.connAt p c with
    | some k => if k.ackDue.isSome && k.open then sendAck s p c else s
    | none => s)

/-! ## Accesses of a peer (spec/23 R383, R384) -/

/-- Home of a peer's address for the VM of the connection. -/
def peerHome (s : State) (key : Nat) (a : Word) (n : Nat) : Option (Nat × Nat) :=
  match mget s.cbind key with
  | none => none
  | some b =>
    if bit b 63 ∧ 0x100000000 ≤ a.toNat ∧ a.toNat < 0x140000000 ∧ a.toNat % n = 0 then homeVm s (bits b 0 8) (a.toNat - 0x100000000) else none

/-- Window accesses of one connection are performed in order. -/
def peerFirst (q : Port) (k c : Nat) : Bool :=
  !(q.inbox.take k).any (fun e => e.1 == c && (match e.2 with
    | .ld .. | .st .. | .at .. => true
    | _ => false))

/-- Perform one access and post its answer, an atomic as a device-scope one at the home slice (spec/23 R383, spec/06 R123); a refused one, and a load or atomic that meets an uncorrectable word, is answered as refused. -/
def peerDo (s : State) (p c h off : Nat) : Msg → State
  | .ld _ n tag =>
    let f := localBase h + off
    let ans := if (badAt s.bad f n (fun _ => false)).isSome then Msg.refused tag else .reply tag (w64 (leNat (rdBs s.mem f n)))
    (connPost s p c ans).getD s
  | .st _ n tag v =>
    let s := extWrite s h off (natLE n v.toNat) 0
    (connPost s p c (.reply tag 0)).getD s
  | .at _ w32 op e y tag =>
    let n := if w32 then 4 else 8
    let f := localBase h + off
    if (badAt s.bad f n (fun _ => false)).isSome then (connPost s p c (.refused tag)).getD s
    else
      let (s, old, _) := atomAt s op f n e.toNat y.toNat (fun s bs => extWrite s h off bs 1)
      let s := countPage s peerAgent h off
      (connPost s p c (.reply tag (w64 old))).getD s
  | _ => s

/-- Address, bytes and tag of a window access. -/
def Msg.access : Msg → Option (Word × Nat × Nat)
  | .ld a n t => some (a, n, t)
  | .st a n t _ => some (a, n, t)
  | .at a w32 _ _ _ t => some (a, if w32 then 4 else 8, t)
  | _ => none

/-- The row PEER_WINDOW_ACCESS: item `k` of the inbox of port `p` is performed at its home slice. -/
def execPeerWindowAccess (p k : Nat) (s : State) : Outcome :=
  if 2 ≤ p then .fault .noSuchAgent
  else .next (match (s.portAt p).inbox[k]? with
    | none => s
    | some (c, m) =>
      match m.access with
      | none => s
      | some (a, n, tag) =>
        if !peerFirst (s.portAt p) k c then s
        else
          let s1 := s.modPort p (fun q => { q with inbox := q.inbox.eraseIdx k })
          match peerHome s (p * 1024 + c) a n with
          | none => (connPost s1 p c (.refused tag)).getD s1
          | some (h, off) => if heldAtEdge s peerAgent h then s else peerDo s1 p c h off m)

end Sys2Proof.Machine
end

