-- ==== Sys2Proof/Machine/Power.lean ====
section
/-!
DEFINITION. Power-on with the boot ROM, loss of power (spec/25 R407 to R410), and bit errors in the device's memories (spec/06 R111,
spec/15 R272, spec/17 R294, spec/25 R428).
-/
namespace Sys2Proof.Machine

/-! ## The boot ROM (spec/25 R407 to R409, Table 25.4) -/

/-- C-tag of boot traffic: `bvid`, 0 for none (spec/25 R408). -/
def bootTag : Option (Nat × Nat) := if Config.fuseBvid = 0 then none else some (Config.fuseBvid.toNat, 0)

/-- Transmissions of what is repeated until it is answered: up to the answer, or eight, at whose last expiry the sender gives up. -/
def triesOf (answered : Option (Fin 8)) : Nat := answered.elim 8 (fun k => k.val + 1)

/-- Emit a packet `n` times. -/
def emitTimes (n : Nat) (o : Out) (s : State) : State := (List.range n).foldl (fun s _ => emit s o) s

/-- Port 0 under network boot (spec/25 R408): a link up, the Milium port number, the solicitations for the boot server, and, once an advertisement has
answered, the connects to it; the connection is there once the server's connect has answered (spec/23 R380; log entry 75). -/
def bootLink (s : State) : State :=
  let s := s.modPort 0 (fun q => { q with mport := Config.fuseBport.toNat, up := q.up.set 0 true })
  let server := beNat Config.fuseBsrv
  let s := emitTimes (triesOf Config.solicits)
    { port := 0, src := some linkLocal, dest := server, vtag := bootTag, hdr := { typ := 0, cid := 0 }, body := .solicit server } s
  if Config.solicits.isNone then s
  else
    let k : Conn := { st := .opened, addr := server, vtag := bootTag, rto := 1000, cur := 1000, ipsn := Config.bootIpsn.toNat, nxt := Config.bootIpsn.toNat
                      peer := Config.bootPeer.toNat, exp := Config.bootPsn.toNat }
    let s := emitTimes (triesOf Config.bootConnects)
      { k.ctlOut 0 2 0xFFFFFFFF (natLE 4 0 ++ natLE 4 k.ipsn ++ natLE 2 k.rto ++ natLE 2 8192 ++ natLE 4 0) with src := some linkLocal } s
    if Config.bootConnects.isNone then s else s.setConn 0 0 k

/-- A 16-byte request on the boot connection. The server's answer is one data packet; without an answer the request is sent eight times, and the
connection fails with a reset (spec/23 R379). -/
def bootAsk (s : State) (slot off n : Nat) (answered : Bool) : State :=
  match s.connAt 0 0 with
  | some k =>
    let ask : Out :=
      { k.dataOut 0 k.nxt (Config.ackAsked s.stepNo) (.raw (natLE 4 slot ++ natLE 4 off ++ natLE 4 n ++ natLE 4 0)) with src := some linkLocal }
    if answered then emit (s.setConn 0 0 { k with nxt := psnAdd k.nxt 1, exp := psnAdd k.exp 1 }) ask
    else emit (emitTimes 8 ask (s.modPort 0 (fun q => { q with conns := mdel q.conns 0 })))
      { k.ctlOut 0 4 k.peer (natLE 4 1) with src := some linkLocal }
  | none => s

/-- Ranges of a slot read from the boot server, in order, up to one that is not answered in full; without a connection nothing is asked. -/
def netRead (slot : Nat) : List (Nat × Nat) → State → State × Option (List Byte)
  | [], s => (s, some [])
  | (o, n) :: t, s =>
    if (s.connAt 0 0).isNone then (s, none)
    else match Config.served slot o n with
      | none => (bootAsk s slot o n false, none)
      | some b =>
        if b.length ≠ n then (bootAsk s slot o n true, none)
        else
          let r := netRead slot t (bootAsk s slot o n true)
          (r.1, r.2.map (b ++ ·))

/-- `n` bytes at offset `off` of an image slot: from the flash, or from the boot server in requests of at most 8,192 bytes. -/
def romRead (s : State) (slot off n : Nat) : State × Option (List Byte) :=
  if Config.fuseBsrc then netRead slot ((List.range ((n + 8191) / 8192)).map (fun k => (off + 8192 * k, min 8192 (n - 8192 * k)))) s
  else (s, some ((List.range n).map (fun k => Config.flash (slot * 0x400000 + off + k))))

/-- Magic, version, sizes, entry and reserved bytes of a header. -/
def headerOk (h : List Byte) : Bool :=
  let f := recAt h
  f 0 4 == 0x594C4D31 && f 4 4 == 1 && decide (f 0xC 4 ≤ 229376) && f 0xC 4 % 64 == 0 && f 0x10 4 % 2 == 0 &&
  decide (f 0x10 4 < 0x40000) && f 0x14 12 == 0 && f 0xB1 7 == 0 && f 0xB1C 1252 == 0

/-- The keys are those of the fuses, and both signatures of the header verify. -/
def headerSigned (h : List Byte) : Bool :=
  let ek := (h.drop 0x50).take 97
  let lk := (h.drop 0xB8).take 56
  let m := h.take 0xF0
  sha384 ek == Config.fuseEkh && sha384 lk == Config.fuseLkh && decide (Config.fuseSvn ≤ recAt h 8 4) &&
  ecdsaVerify ek m ((h.drop 0xF0).take 96) && lmsVerify lk m ((h.drop 0x150).take 2508)

/-- Control core 0. -/
def rom : Nat := ccOf 0

/-- One image slot: the body is loaded before its digest is checked. -/
def trySlot (s : State) (slot : Nat) : State × Option Nat :=
  match romRead s slot 0 0x1000 with
  | (s, none) => (s, none)
  | (s, some h) =>
    if !headerOk h || !headerSigned h then (s, none)
    else match romRead s slot 0x1000 (recAt h 0xC 4) with
      | (s, none) => (s, none)
      | (s, some body) =>
        let s := put s (localBase rom) body (0, 0)
        if sha384 body ≠ (h.drop 0x20).take 48 then (s, none)
        else (extendMeas (extendMeas s 0 (sha384 (h ++ body))) 1 (sha384 Config.fuseBytes), some (recAt h 0x10 4))

/-- The ROM: slot A, then slot B, else BOOTFAIL. Its connection ends with it. -/
def bootRom (s : State) : State :=
  let s := if Config.fuseBsrc then bootLink s else s
  let start (s : State) (entry : Nat) : State :=
    (s.modPort 0 (fun q => { q with conns := mdel q.conns 0 })).modCore rom (fun k => { k with run := .running, lvl := 0, ctl := { k.ctl with pc := evenPc entry } })
  match trySlot s 0 with
  | (s, some e) => start s e
  | (s, none) =>
    match trySlot s 1 with
    | (s, some e) => start s e
    | (s, none) =>
      { (s.modPort 0 (fun q => { q with conns := mdel q.conns 0 })).modCore rom (fun k => { k with run := .halted, lvl := 0 }) with bootfail := true }

/-- The row POWER_ON. -/
def execPowerOn (s : State) : Outcome := .next (if s.powered then s else bootRom { s with powered := true })

/-- The row POWER_LOSS: nothing is retained but what the model counts for itself, and what has left the device. -/
def execPowerLoss (s : State) : Outcome :=
  .next { State.reset with stepNo := s.stepNo, freeNo := s.freeNo, out := s.out }

/-! ## Bit errors -/

/-- Where the descriptors of the queues stand among the flat addresses: 32 bytes each. -/
def queueBase : Nat := 0xF00000000

/-- The `tid` of a completion record about queue `q`'s poisoned entries: that of its oldest prefetched record, else free. -/
def poisonTid (s : State) (q : Nat) : Nat :=
  ((s.queueAt q).pre.head?.map (fun bs => recAt bs 0 4)).getD ((Config.unstated (s.freeNo + q)).toNat % 2 ^ 32)

/-- An uncorrectable error in queue `q`'s descriptor or prefetched records (spec/25 R428): they are poisoned, the tenant's queues are frozen, and a
completion record goes to each `cconn` of the tenant. -/
def poisonQueue (s : State) (q : Nat) : State :=
  let d := s.queueAt q
  let qs := (mset s.queues q { d with psn := true }).map (fun (e : Nat × QDesc) =>
    if e.2.vm = d.vm then (e.1, { e.2 with frz := true }) else e)
  let mine := (qs.filter (fun (e : Nat × QDesc) => e.2.vm == d.vm && (e.2.v || e.1 == q))).map (·.1)
  let s1 := { s with queues := qs, freeNo := s.freeNo + 4096 }
  mine.foldl (fun s1 p => sendCompletion s1 p { tid := poisonTid s p, cst := 5 }) s1

/-- The DRAM copy of the monitor and scheduler image, read through key slot 0; none where it cannot be read (where it lies is free: log entry 76). -/
def schedCopy (s : State) : Option (List Byte) :=
  let pa := Config.schedPa.toNat
  let us := unitVas pa Config.schedLen.toNat
  (keyOf s 0).bind (fun key =>
    if us.all (unitOk s) then some (((us.flatMap (unitRead s key)).drop (pa % 64)).take Config.schedLen.toNat) else none)

/-- An uncorrectable error in the local memory of control core `k`, which holds the scheduler role: it stops, and its pair takes the role when the
image that it reloads matches `sdig` (spec/25 R406, R428). -/
def schedulerLost (s : State) (k : Nat) (a : Word) : State :=
  let s := s.modCore (ccOf k) (fun c => { c with run := .stopped 0x0C a c.ctl.pc })
  let mate := k / 2 * 2 + 1 - k % 2
  let up := match (s.coreAt (ccOf mate)).run with
    | .stopped _ _ _ | .halted => false
    | _ => true
  match schedCopy s with
  | some img =>
    if up && sha384 img == measBytes s.sdig then
      { put s (localBase (ccOf mate) + Config.schedAt.toNat) (img.take (0x40000 - Config.schedAt.toNat)) (0, 0) with sched := mate }
    else { s with pairLost := true }
  | none => { s with pairLost := true }

/-- The row MEMORY_ERROR: an error in the word at flat address `f` is corrected in place and counted, or leaves the word uncorrectable. -/
def execMemoryError (f : Nat) (unc : Bool) (s : State) : Outcome :=
  .next (if !unc then { s with corrected := s.corrected + 1 }
    else if queueBase ≤ f ∧ f < queueBase + 4096 * 32 then poisonQueue s ((f - queueBase) / 32)
    else
      let s := if s.bad.contains (f / 8) then s else { s with bad := f / 8 :: s.bad }
      if 0x200000000 ≤ f ∧ f < 0x200200000 then
        let k := (f - 0x200000000) / 0x40000
        if k = s.sched then schedulerLost s k (w64 (f % 0x40000 / 8 * 8)) else s
      else s)

end Sys2Proof.Machine
end

