-- ==== Sys2Proof/Machine/Ring.lean ====
section
/-!
DEFINITION. Port commands and the ring collective engine (spec/23 R385 to R391, spec/24 R393, R394).
-/
namespace Sys2Proof.Machine

/-! ## Instructions (spec/23 R390, R391) -/

/-- The tag after `t`. -/
def nextTag (t : Nat) : Nat := if t + 1 = 65536 then 1 else t + 1

def npostOp (a b : Reg) (w : Who) (s : State) : Res :=
  let gb := s.rd w b
  Res.ofTry s (fun blk =>
    pushForm w s 4 gb (fun s =>
      let tag := nextTag (s.coreAt w.i).ntag
      (s.modCore w.i (fun k => { k with ntag := tag, q4 := k.q4 ++ [{ blk, tag, deps := releaseDeps s w }] })).wr w a (w64 tag)))
    (blockRead s w gb 64)

def execNpost (a b : Reg) : State → Outcome := issue (.npost a b) (npostOp a b)

/-- A command of core `i` with tag `t` is queued or running. -/
def portBusy (s : State) (i t : Nat) : Bool :=
  (s.coreAt i).q4.any (·.tag == t) || s.ports.toList.any (fun p => p.cmds.any (fun r => r.core == i && r.cmd.tag == t))

def npollOp (a b : Reg) (w : Who) (s : State) : Res :=
  let t := bits (s.rd w b) 0 16
  let k := s.coreAt w.i
  match k.r4.findIdx? (fun e => bits e.val 32 16 == t) with
  | some j =>
    let e := k.r4.getD j ⟨0, true⟩
    let s1 := s.modCore w.i (fun k => { k with r4 := k.r4.eraseIdx j })
    let st := bits e.val 52 4
    if !e.nt && (st == 2 || st == 3 || st == 4) then .trapIn s1 cPorttime e.val else .go (s1.wr w a e.val)
  | none => .go (s.wr w a (if portBusy s w.i t then ones64 else ones64 - 1))

def execNpoll (a b : Reg) : State → Outcome := issue (.npoll a b) (npollOp a b)

/-! ## Command blocks and group entries (spec/23 Tables 23.5, 23.6) -/

def PCmd.f (c : PCmd) (o n : Nat) : Nat := leNat ((c.blk.drop o).take n)
def PCmd.op (c : PCmd) : Nat := c.f 0 1
def PCmd.ty (c : PCmd) : Nat := c.f 1 1
def PCmd.rop (c : PCmd) : Nat := c.f 2 1
def PCmd.nt (c : PCmd) : Bool := c.f 3 1 % 2 == 1
def PCmd.gid (c : PCmd) : Nat := c.f 4 2
def PCmd.srcA (c : PCmd) : Nat := c.f 8 8
def PCmd.dstA (c : PCmd) : Nat := c.f 0x10 8
def PCmd.len (c : PCmd) : Nat := c.f 0x18 4
def PCmd.conn (c : PCmd) : Nat := c.f 0x1C 2

/-- A collective. -/
def PCmd.coll (c : PCmd) : Bool := c.op == 1 || c.op == 2

/-- Bytes of an element. -/
def PCmd.esz (c : PCmd) : Nat := if c.op = 0 then 1 else if c.ty = 0x11 then 2 else 4

/-- The fields of the block keep Table 23.6 (spec/23 R388, check 1). -/
def PCmd.form (c : PCmd) : Bool :=
  decide (c.op ≤ 3) && decide (c.f 3 1 ≤ 1) && c.f 6 2 == 0 && c.f 0x1E 34 == 0 &&
  (if c.op = 1 then decide (c.rop ≤ 2) else c.rop == 0) &&
  (if c.coll then c.ty == 0x10 || c.ty == 0x11 || c.ty == 0x05 else c.ty == 0 && c.dstA == 0) &&
  (if c.op = 0 then c.gid == 0 && decide (1 ≤ c.len) && decide (c.len ≤ 8192) else c.conn == 0) &&
  (c.op != 3 || c.len == 0)

/-- A group entry of 64 bytes; none where it breaks Table 23.5, or names another group. A `gid` of 64 or more, to which Table 23.6 sets no limit,
names no entry (status 6), and no entry can have it (status 1). -/
def parseGroup (gid : Nat) (bs : List Byte) : Option Group :=
  let f (o n : Nat) := leNat ((bs.drop o).take n)
  let n := f 2 1
  if f 0 2 ≠ gid ∨ 64 ≤ gid ∨ n < 2 ∨ 16 < n ∨ n ≤ f 3 1 ∨ f 4 4 < 1 ∨ 1000000 < f 4 4 ∨ f 0x28 24 ≠ 0 then none
  else some ⟨n, f 3 1, f 4 4, (List.range 16).map (fun k => f (8 + 2 * k) 2)⟩

/-- Bytes of a slice as the engine reads them: a byte of an uncorrectable word is free. -/
def portRead (s : State) (i a n : Nat) : List Byte :=
  let f := localBase i + a
  (List.range n).map (fun k => if s.bad.contains ((f + k) / 8) then freeByte s (f + k) else rdB s.mem (f + k))

/-- The range from `a` passes 0x4_0000 (check 3). -/
def passes (a n : Nat) : Bool := decide (0x40000 < a + n)

/-- Outcome of the three checks: the status, 0 when all pass. -/
def portCheck (s : State) (p i : Nat) (c : PCmd) : Nat :=
  if !c.form then 1
  else if c.op = 0 then (if passes c.srcA c.len then 5 else 0)
  else if c.op = 3 then
    if passes c.srcA 64 then 5 else if (parseGroup c.gid (portRead s i c.srcA 64)).isNone then 1 else 0
  else match mget (s.portAt p).groups c.gid with
    | none => 6
    | some g =>
      let n := c.len * c.esz
      if passes c.srcA n || passes c.dstA (if c.op = 2 then g.n * n else n) then 5 else 0

/-! ## Running collectives (spec/23 R386, spec/24 R393) -/

/-- Byte range of chunk `k` in `dst`: first offset and length. -/
def PCmd.chunk (c : PCmd) (g : Group) (k : Nat) : Nat × Nat :=
  if c.op = 2 then (k * c.len * c.esz, c.len * c.esz)
  else
    let m := (c.len + g.n - 1) / g.n
    let lo := min (k * m) c.len
    (lo * c.esz, (min ((k + 1) * m) c.len - lo) * c.esz)

/-- Chunks that step `t` sends and writes. -/
def PCmd.sends (c : PCmd) (g : Group) (t : Nat) : Nat :=
  if c.op = 2 ∨ t < g.n - 1 then (g.rank + g.n - t % g.n) % g.n else (g.rank + 1 + g.n - (t - (g.n - 1)) % g.n) % g.n
def PCmd.writes (c : PCmd) (g : Group) (t : Nat) : Nat := (c.sends g t + g.n - 1) % g.n

/-- Steps of a round. -/
def PCmd.steps (c : PCmd) (g : Group) : Nat := if c.op = 2 then g.n - 1 else 2 * (g.n - 1)

/-- `round(x op y)` on element codes: a sum is rounded once, a minimum or maximum follows `vmin` and `vmax`. -/
def reduceElem (ty rop x y : Nat) : Nat :=
  let f := fmtOf (if ty = 0x10 then .f32 else if ty = 0x11 then .bf16 else .s32)
  match f with
  | .int w sgn =>
    let a := intOf w sgn x
    let b := intOf w sgn y
    if rop = 0 then intBits w (a + b) else if rop = 1 then (if b < a then y else x) else (if a < b then y else x)
  | _ =>
    let a := f.val x
    let b := f.val y
    if rop = 0 then f.narrow {} (a.add b)
    else if a.isNan || b.isNan then f.narrow {} .nan
    else if rop = 1 then (if b.below a then y else x) else (if a.below b then y else x)

/-- Element by element, the received bytes on the left. -/
def reduceBytes (ty rop e : Nat) (x y : List Byte) : List Byte :=
  ((pieces e x.length x).zip (pieces e y.length y)).flatMap (fun p => natLE e (reduceElem ty rop (leNat p.1) (leNat p.2)))

/-- Write bytes of `dst`. -/
def portWrite (s : State) (r : PRun) (o : Nat) (bs : List Byte) : State :=
  if bs.isEmpty then s else extWrite s r.core (r.cmd.dstA + o) bs 1

/-- Offset in `dst` of the copy of `src`. -/
def PRun.copyAt (r : PRun) : Nat := match r.group with
  | some g => if r.cmd.op = 2 then (r.cmd.chunk g g.rank).1 else 0
  | none => 0

/-- Offsets from `o` on, for `n` bytes, cut at the aligned words of `dst`: first offset and length of each piece. -/
def wordCuts (base o n : Nat) : List (Nat × Nat) :=
  if n = 0 then []
  else
    let a := base + o
    (List.range ((a + n - 1) / 8 - a / 8 + 1)).map (fun k =>
      let lo := max a ((a / 8 + k) * 8)
      (lo - base, min (a + n) ((a / 8 + k + 1) * 8) - lo))

/-- Copy `src` into `dst` where it is still to be copied, in the words that `sel` names by their first offset. -/
def copyLate (s : State) (r : PRun) (sel : Nat → Bool) : State × PRun :=
  let cut := (wordCuts r.cmd.dstA r.copyAt r.src.length).filter (fun e => r.late.contains e.1 && sel e.1)
  (cut.foldl (fun s e => portWrite s r e.1 ((r.src.drop (e.1 - r.copyAt)).take e.2)) s,
   { r with late := r.late.filter (fun o => !sel o) })

/-- Words of `dst` that bytes `o` to `o + n − 1` touch. -/
def touches (base o n wo : Nat) : Bool :=
  decide (0 < n) && decide ((base + o) / 8 ≤ (base + wo) / 8) && decide ((base + wo) / 8 ≤ (base + o + n - 1) / 8)

/-- Start a step: its outgoing chunk leaves; with no step left the command is done; a connection that is not live aborts it. -/
def beginStep (s : State) (p : Nat) (r : PRun) : State × PRun :=
  match r.group with
  | none => (s, r)
  | some g =>
    if r.cmd.steps g ≤ r.step then
      let (s, r) := copyLate s r (fun _ => true)
      (s, { r with fin := some (0, 0) })
    else
      let nx := (g.rank + 1) % g.n
      let (o, n) := r.cmd.chunk g (r.cmd.sends g r.step)
      let (s, r) := copyLate s r (touches r.cmd.dstA o n)
      let m := Msg.chunk r.cmd.gid r.round r.step (portRead s r.core (r.cmd.dstA + o) n)
      match connPost s p (g.peers.getD nx 0) m with
      | some s => (s, { r with stepAt := s.cyc })
      | none => (sendAborts s p r nx, { r with fin := some (4, r.step * 2 ^ 16 + nx * 2 ^ 8 + nx) })

/-- The collective that runs on a group. -/
def runningOn (s : State) (p gid : Nat) : Option PRun :=
  (s.portAt p).cmds.find? (fun r => r.fin.isNone && r.cmd.coll && r.cmd.gid == gid)

/-- The launch that a command belongs to: its task's VM and admission number; none for a control core. -/
def launchOf (s : State) (i : Nat) : Option (Nat × Nat) := (taskOf s i).map (fun e => (e.2.vm, e.2.num))

/-- The round that a command of core `i` starts on a group (spec/24 R394). -/
def nextRound (s : State) (p i gid : Nat) : Nat := 1 + (s.portAt p).started gid (launchOf s i)

/-- A launch has started its round `rd` on a group. -/
def Port.start (q : Port) (gid : Nat) (o : Option (Nat × Nat)) (rd : Nat) : Port :=
  { q with rounds := (gid, o, rd) :: q.rounds.filter (fun e => !(e.1 == gid && e.2.1 == o)) }

/-- Hand over what the connections of a port hold. -/
def handAll (s : State) (p : Nat) : State := (s.portAt p).conns.foldl (fun s e => handOver p e.1 1024 s) s

/-- Start a collective (spec/23 R386): `dst := src`, whose words are copied at once or later, at the engine's choice; then step 0. -/
def startColl (s : State) (p : Nat) (r : PRun) : State × PRun :=
  match mget (s.portAt p).groups r.cmd.gid with
  | none => (s, r)
  | some g =>
    let rd := nextRound s p r.core r.cmd.gid
    let s := s.modPort p (fun q => q.start r.cmd.gid (launchOf s r.core) rd)
    let src := portRead s r.core r.cmd.srcA (r.cmd.len * r.cmd.esz)
    let r := { r with group := some g, round := rd, src }
    let r := { r with late := (wordCuts r.cmd.dstA r.copyAt src.length).map (·.1) }
    let (s, r) := copyLate s r (fun o => (Config.unstated (s.freeNo + o)).getLsbD 0)
    beginStep s p r

/-- Start a message (spec/23 R388): its bytes go out in packets of at most the other side's `mss`, which is at least 256. -/
def startMessage (s : State) (p : Nat) (r : PRun) : State × PRun :=
  let c := r.cmd.conn
  match s.connAt p c with
  | none => (s, { r with fin := some (4, 0) })
  | some k =>
    if !k.live then (s, { r with fin := some (4, 0) })
    else
      let ps := pieces k.room r.cmd.len (portRead s r.core r.cmd.srcA r.cmd.len)
      let last := psnAdd k.nxt (k.wait.length + ps.length - 1)
      (ps.foldl (fun s m => (connPost s p c (.raw m)).getD s) s, { r with lastPsn := last })

/-- Install a group entry (spec/23 R385). -/
def startSet (s : State) (p : Nat) (r : PRun) : State × PRun :=
  match parseGroup r.cmd.gid (portRead s r.core r.cmd.srcA 64) with
  | some g => (s.modPort p (fun q => { q with groups := mset q.groups r.cmd.gid g }), { r with fin := some (0, 0) })
  | none => (s, { r with fin := some (1, 0) })

/-- A row of the opcode table for a command's operation: the engine takes the oldest command of core `i` (spec/23 R388). Commands of one
core start in order, collectives on one group run one at a time, and at most 16 of a core are in flight. -/
def portRow (mine : Nat → Bool) (go : State → Nat → PRun → State × PRun) (p i : Nat) (s : State) : Outcome :=
  if 2 ≤ p ∨ 8200 ≤ i then .fault .noSuchAgent
  else .next (match (s.coreAt i).q4 with
    | [] => s
    | c :: t =>
      if b2n (Config.commandPort i) != p || !mine c.op || !depsDone s c.deps || decide (16 ≤ pendCount s i 4) ||
          heldAtEdge s 9000 i || (c.coll && (runningOn s p c.gid).isSome) then s
      else
        let s1 := s.modCore i (fun k => { k with q4 := t })
        let st := portCheck s p i c
        let r : PRun := { core := i, cmd := c }
        let (s2, r) := if st = 0 then go s1 p r else (s1, { r with fin := some (st, 0) })
        let s3 := s2.modPort p (fun q => { q with cmds := q.cmds ++ [r] })
        if c.coll then handAll s3 p else s3)

/-- The row PORT_MESSAGE; a command whose `op` is above 3 names no operation and ends here with status 1. -/
def execPortMessage (p i : Nat) : State → Outcome := portRow (fun o => o == 0 || decide (3 < o)) startMessage p i
def execAllReduce (p i : Nat) : State → Outcome := portRow (· == 1) startColl p i
def execAllGather (p i : Nat) : State → Outcome := portRow (· == 2) startColl p i
def execSetGroup (p i : Nat) : State → Outcome := portRow (· == 3) startSet p i

/-! ## Arrivals (spec/23 R387, spec/24 R394) -/

/-- Replace the running command on a group. -/
def putRun (s : State) (p gid : Nat) (r : PRun) : State :=
  s.modPort p (fun q => { q with cmds := q.cmds.map (fun x =>
    if x.fin.isNone && x.cmd.coll && x.cmd.gid == gid then r else x) })

/-- Ranks of the neighbours. -/
def Group.next (g : Group) : Nat := (g.rank + 1) % g.n
def Group.prev (g : Group) : Nat := (g.rank + g.n - 1) % g.n

/-- Bytes of the chunk that the step receives. -/
def PRun.want (r : PRun) (g : Group) : Nat := (r.cmd.chunk g (r.cmd.writes g r.step)).2

/-- An incoming chunk is reduced or stored, and the next step starts. -/
def takeChunk (s : State) (p : Nat) (r : PRun) (g : Group) (data : List Byte) : State × PRun :=
  let (o, n) := r.cmd.chunk g (r.cmd.writes g r.step)
  let (s, r) := copyLate s r (touches r.cmd.dstA o n)
  let own := portRead s r.core (r.cmd.dstA + o) n
  let new := if r.cmd.op = 1 ∧ r.step < g.n - 1 then reduceBytes r.cmd.ty r.cmd.rop r.cmd.esz data own else data
  beginStep (portWrite s r o new) p { r with step := r.step + 1, part := [] }

/-- Collective packets of one connection are taken in the order of its `psn` (spec/23 R379). -/
def collFirst (q : Port) (k c : Nat) : Bool :=
  !(q.inbox.take k).any (fun e => e.1 == c && (match e.2 with
    | .chunk .. | .creset .. => true
    | _ => false))

/-- The row COLLECTIVE_CHUNK_ARRIVAL: item `k` of the inbox of port `p`, a chunk or a part of one (spec/23 R380: no payload is larger than the
`mss`). One of a later step is held; one of an earlier round, or of the same round with no command running, is dropped. The step goes on with
the last part. -/
def execCollectiveChunkArrival (p k : Nat) (s : State) : Outcome :=
  if 2 ≤ p then .fault .noSuchAgent
  else .next (match (s.portAt p).inbox[k]? with
    | some (c, .chunk gid rd st data) =>
      let s1 := s.modPort p (fun q => { q with inbox := q.inbox.eraseIdx k })
      if !collFirst (s.portAt p) k c then s
      else match runningOn s p gid with
      | some r =>
        match r.group with
        | none => s
        | some g =>
          if rd < r.round then s1
          else if r.round < rd ∨ r.step < st then s
          else
            let all := r.part ++ data
            let n := r.want g
            if g.peers.getD g.prev 0 != c || st != r.step || decide (n < all.length) || (data.isEmpty && n != 0) then s1
            else if heldAtEdge s 9000 r.core then s
            else if all.length < n then putRun s1 p gid { r with part := all }
            else
              let (s2, r) := takeChunk s1 p r g all
              putRun s2 p gid r
      | none => if rd ≤ roundOf s p gid then s1 else s
    | _ => s)

/-- The parts of the chunk of a command's step that wait in the inbox. -/
def waiting (s : State) (p : Nat) (r : PRun) (g : Group) : List (List Byte) :=
  (s.portAt p).inbox.filterMap (fun e => match e with
    | (c, .chunk gid rd st d) =>
      if c == g.peers.getD g.prev 0 && gid == r.cmd.gid && rd == r.round && st == r.step then some d else none
    | _ => none)

/-- The row COLLECTIVE_STEP_TIMEOUT: command `k` of port `p`. A chunk held for the step counts as arrived at its start. -/
def execCollectiveStepTimeout (p k : Nat) (s : State) : Outcome :=
  if 2 ≤ p then .fault .noSuchAgent
  else .next (match (s.portAt p).cmds[k]? with
    | none => s
    | some r =>
      match r.group with
      | none => s
      | some g =>
        let ws := waiting s p r g
        let arrived := !ws.isEmpty && decide (r.want g ≤ r.part.length + ws.flatten.length)
        if r.fin.isSome || arrived || decide (s.cyc < r.stepAt + g.gto * usCyc) then s
        else
          let r' := { r with fin := some (2, r.step * 2 ^ 16 + g.prev * 2 ^ 8 + g.prev) }
          sendAborts (s.modPort p (fun q => { q with cmds := q.cmds.set k r' })) p r g.prev)

/-- The row COLLECTIVE_RESET_ARRIVAL: item `k` of the inbox of port `p`. -/
def execCollectiveResetArrival (p k : Nat) (s : State) : Outcome :=
  if 2 ≤ p then .fault .noSuchAgent
  else .next (match (s.portAt p).inbox[k]? with
    | some (c, .creset gid rd lost) =>
      let s1 := s.modPort p (fun q => { q with inbox := q.inbox.eraseIdx k })
      if !collFirst (s.portAt p) k c then s
      else match runningOn s p gid with
      | some r =>
        match r.group with
        | none => s
        | some g =>
          if r.round < rd then s
          else
            let from_ := if g.peers.getD g.prev 0 = c then some g.prev else if g.peers.getD g.next 0 = c then some g.next else none
            match from_ with
            | some m =>
              if rd = r.round then
                sendAborts (putRun s1 p gid { r with fin := some (3, r.step * 2 ^ 16 + lost % 2 ^ 8 * 2 ^ 8 + m) }) p r lost
              else s1
            | none => s1
      | none => if rd ≤ roundOf s p gid then s1 else s
    | _ => s)

/-! ## Completion (spec/23 R388, Table 23.7) -/

/-- Status and `val` of a finished command: a message is done when its last packet is acknowledged. -/
def portFin (s : State) (p : Nat) (r : PRun) : Option (Nat × Nat) :=
  match r.fin with
  | some f => some f
  | none =>
    if r.cmd.op = 0 then
      match s.connAt p r.cmd.conn with
      | some k => if k.acked r.lastPsn then some (0, 0) else none
      | none => some (4, 0)
    else none

/-- The element of a command. -/
def portElem (c : PCmd) (f : Nat × Nat) : Word :=
  w64 ((if 3 < c.op then 0xFE else c.op) * 2 ^ 56 + f.1 * 2 ^ 52 + c.tag * 2 ^ 32 + f.2 % 2 ^ 32)

/-- The row PORT_COMMAND_COMPLETE: command `k` of port `p` leaves the engine when the result FIFO has room. -/
def execPortCommandComplete (p k : Nat) (s : State) : Outcome :=
  if 2 ≤ p then .fault .noSuchAgent
  else .next (match (s.portAt p).cmds[k]? with
    | none => s
    | some r =>
      match portFin s p r with
      | none => s
      | some f =>
        if resDepth 4 ≤ (s.coreAt r.core).r4.length then s
        else
          let s1 := s.modPort p (fun q => { q with cmds := q.cmds.eraseIdx k })
          enterResult s1 r.core (fun c => { c with r4 := c.r4 ++ [{ val := portElem r.cmd f, nt := r.cmd.nt }] }))

end Sys2Proof.Machine
end

