-- ==== Sys2Proof/Machine/Scalar.lean ====
section
/-!
DEFINITION. Page-0 arithmetic, logic, shifts, division, compares, select, bit counting and fields (spec/05 R76 to R86).
-/
namespace Sys2Proof.Machine

/-- An RR instruction that writes f x y to register a (spec/05 R77). -/
def rrOp (f : Word → Word → Word) (o : RR) (w : Who) (s : State) : Res :=
  .go (s.wr w o.a (f (rrX s w o) (rrY s w o)))

/-- An RI instruction that writes f x imm to register a (spec/05 R79). -/
def riOp (f : Word → Word → Word) (imm : Word) (o : RI) (w : Who) (s : State) : Res :=
  .go (s.wr w o.a (f (riX s w o) imm))

def shOp (f : Word → Nat → Word) (o : ShI) (w : Who) (s : State) : Res :=
  .go (s.wr w o.a (f (shX s w o) o.sh.toNat))

/-- A unary RR instruction: gA := f gB. -/
def unOp (f : Word → Word) (a b : Reg) (w : Who) (s : State) : Res := .go (s.wr w a (f (s.rd w b)))

/-- Shift count y[5:0] (spec/05 R77). -/
def cnt6 (y : Word) : Nat := y.toNat % 64

def fShl (x y : Word) : Word := x <<< cnt6 y
def fShr (x y : Word) : Word := x >>> cnt6 y
def fSra (x y : Word) : Word := x.sshiftRight (cnt6 y)
def fRot (x y : Word) : Word := x.rotateRight (cnt6 y)
/-- Bits [127:64] of the signed and the unsigned product. -/
def fMulh (x y : Word) : Word := BitVec.ofInt 64 (x.toInt * y.toInt / 2 ^ 64)
def fMulhn (x y : Word) : Word := w64 (x.toNat * y.toNat / 2 ^ 64)
def fMin (x y : Word) : Word := if x.toInt ≤ y.toInt then x else y
def fMax (x y : Word) : Word := if x.toInt ≤ y.toInt then y else x
def fMinn (x y : Word) : Word := if x.toNat ≤ y.toNat then x else y
def fMaxn (x y : Word) : Word := if x.toNat ≤ y.toNat then y else x

/-- Division (spec/05 R80): by zero the quotient is all ones and the remainder x; the one overflow gives x and 0. -/
def fDiv (x y : Word) : Word :=
  if y = 0 then ones64 else if x = w64 (2 ^ 63) ∧ y = ones64 then x else BitVec.ofInt 64 (x.toInt.tdiv y.toInt)
def fDivn (x y : Word) : Word := if y = 0 then ones64 else w64 (x.toNat / y.toNat)
def fRem (x y : Word) : Word :=
  if y = 0 then x else if x = w64 (2 ^ 63) ∧ y = ones64 then 0 else BitVec.ofInt 64 (x.toInt.tmod y.toInt)
def fRemn (x y : Word) : Word := if y = 0 then x else w64 (x.toNat % y.toNat)

/-- Compares (spec/05 R82). -/
def fEq (x y : Word) : Word := w64 (b2n (decide (x = y)))
def fNe (x y : Word) : Word := w64 (b2n (decide (x ≠ y)))
def fLt (x y : Word) : Word := w64 (b2n (decide (x.toInt < y.toInt)))
def fLtn (x y : Word) : Word := w64 (b2n (decide (x.toNat < y.toNat)))
def fLe (x y : Word) : Word := w64 (b2n (decide (x.toInt ≤ y.toInt)))
def fLen (x y : Word) : Word := w64 (b2n (decide (x.toNat ≤ y.toNat)))

/-- Bit counting (spec/05 R84). -/
def fPopc (x : Word) : Word := w64 ((List.range 64).countP (fun i => bit x i))
def fClz (x : Word) : Word := w64 (if x = 0 then 64 else 63 - Nat.log2 x.toNat)
def fCtz (x : Word) : Word := w64 (((List.range 64).find? (fun i => bit x i)).getD 64)

/-- Bit fields (spec/05 R85). -/
def fBfx (x : Word) (p l : Nat) : Word := zxt (x.toNat / 2 ^ p) (l + 1)
def fBfxs (x : Word) (p l : Nat) : Word := sxt (x.toNat / 2 ^ p) (l + 1)
def fBfi (old src : Word) (p l : Nat) : Word :=
  let m := w64 ((2 ^ (l + 1) - 1) * 2 ^ p)
  (old &&& ~~~m) ||| ((src <<< p) &&& m)

def execAdd (o : RR) : State → Outcome := issue (.add o) (rrOp (· + ·) o)
def execSub (o : RR) : State → Outcome := issue (.sub o) (rrOp (· - ·) o)
def execAnd (o : RR) : State → Outcome := issue (.and o) (rrOp (· &&& ·) o)
def execOr (o : RR) : State → Outcome := issue (.or o) (rrOp (· ||| ·) o)
def execXor (o : RR) : State → Outcome := issue (.xor o) (rrOp (· ^^^ ·) o)
def execAndn (o : RR) : State → Outcome := issue (.andn o) (rrOp (fun x y => x &&& ~~~y) o)
def execShl (o : RR) : State → Outcome := issue (.shl o) (rrOp fShl o)
def execShr (o : RR) : State → Outcome := issue (.shr o) (rrOp fShr o)
def execSra (o : RR) : State → Outcome := issue (.sra o) (rrOp fSra o)
def execRot (o : RR) : State → Outcome := issue (.rot o) (rrOp fRot o)
def execMul (o : RR) : State → Outcome := issue (.mul o) (rrOp (· * ·) o)
def execMulh (o : RR) : State → Outcome := issue (.mulh o) (rrOp fMulh o)
def execMulhn (o : RR) : State → Outcome := issue (.mulhn o) (rrOp fMulhn o)
def execDiv (o : RR) : State → Outcome := issue (.div o) (rrOp fDiv o)
def execDivn (o : RR) : State → Outcome := issue (.divn o) (rrOp fDivn o)
def execRem (o : RR) : State → Outcome := issue (.rem o) (rrOp fRem o)
def execRemn (o : RR) : State → Outcome := issue (.remn o) (rrOp fRemn o)
def execMin (o : RR) : State → Outcome := issue (.min o) (rrOp fMin o)
def execMax (o : RR) : State → Outcome := issue (.max o) (rrOp fMax o)
def execMinn (o : RR) : State → Outcome := issue (.minn o) (rrOp fMinn o)
def execMaxn (o : RR) : State → Outcome := issue (.maxn o) (rrOp fMaxn o)
/-- `mov gA, gB` (spec/05 R78). -/
def execMov (a b : Reg) : State → Outcome := issue (.mov a b) (unOp id a b)
def execAddi (o : RI) : State → Outcome := issue (.addi o) (riOp (· + ·) (immS o.imm) o)
/-- `li gA, imm` (spec/05 R79). -/
def execLi (a : Reg) (imm : BitVec 35) : State → Outcome := issue (.li a imm) (fun w s => .go (s.wr w a (immS imm)))
def execAndi (o : RI) : State → Outcome := issue (.andi o) (riOp (· &&& ·) (immS o.imm) o)
def execOri (o : RI) : State → Outcome := issue (.ori o) (riOp (· ||| ·) (immU o.imm) o)
def execXori (o : RI) : State → Outcome := issue (.xori o) (riOp (· ^^^ ·) (immU o.imm) o)
def execCmpeq (o : RR) : State → Outcome := issue (.cmpeq o) (rrOp fEq o)
def execCmpne (o : RR) : State → Outcome := issue (.cmpne o) (rrOp fNe o)
def execCmplt (o : RR) : State → Outcome := issue (.cmplt o) (rrOp fLt o)
def execCmpltn (o : RR) : State → Outcome := issue (.cmpltn o) (rrOp fLtn o)
def execCmple (o : RR) : State → Outcome := issue (.cmple o) (rrOp fLe o)
def execCmplen (o : RR) : State → Outcome := issue (.cmplen o) (rrOp fLen o)
/-- `sel` (spec/05 R83). -/
def execSel (a b c : Reg) : State → Outcome :=
  issue (.sel a b c) (fun w s => .go (s.wr w a (if s.rd w a ≠ 0 then s.rd w b else s.rd w c)))
def execShli (o : ShI) : State → Outcome := issue (.shli o) (shOp (fun x n => x <<< n) o)
def execShri (o : ShI) : State → Outcome := issue (.shri o) (shOp (fun x n => x >>> n) o)
def execSrai (o : ShI) : State → Outcome := issue (.srai o) (shOp (fun x n => x.sshiftRight n) o)
def execPopc (a b : Reg) : State → Outcome := issue (.popc a b) (unOp fPopc a b)
def execClz (a b : Reg) : State → Outcome := issue (.clz a b) (unOp fClz a b)
def execCtz (a b : Reg) : State → Outcome := issue (.ctz a b) (unOp fCtz a b)
def execBfx (o : BF) : State → Outcome :=
  issue (.bfx o) (fun w s => .go (s.wr w o.a (fBfx (bfX s w o) o.p.toNat o.l.toNat)))
def execBfxs (o : BF) : State → Outcome :=
  issue (.bfxs o) (fun w s => .go (s.wr w o.a (fBfxs (bfX s w o) o.p.toNat o.l.toNat)))
def execBfi (a c : Reg) (p l : BitVec 6) : State → Outcome :=
  issue (.bfi a c p l) (fun w s => .go (s.wr w a (fBfi (s.rd w a) (s.rd w c) p.toNat l.toNat)))
/-- `lea` (spec/05 R86). -/
def execLea (a b c : Reg) (sh : BitVec 2) : State → Outcome :=
  issue (.lea a b c sh) (fun w s => .go (s.wr w a (s.rd w b + s.rd w c <<< sh.toNat)))

end Sys2Proof.Machine
end

