-- ==== Sys2Proof/Machine/Spdm.lean ====
section
/-!
DEFINITION. The SPDM responder on management connections (spec/25 R411, R412). Layouts of messages are those of DMTF DSP0274 1.2, which
the spec names (log entry 78).
-/
namespace Sys2Proof.Machine

/-- Error codes (spec/25 R412). -/
def eInvalid : Nat := 0x01
def eBusy : Nat := 0x03
def eUnexpected : Nat := 0x04
def eUnsupported : Nat := 0x07
def eVersion : Nat := 0x41

/-- What a request comes to: an error code with its data, or the responder after it and the response. -/
abbrev SpdmRes := Except (Nat × Nat) (Spdm × List Byte)

/-- An ERROR message. -/
def spdmError (code data : Nat) : List Byte := [0x12, 0x7F, BitVec.ofNat 8 code, BitVec.ofNat 8 data]

/-- Code of a request, and its two parameters. -/
def reqCode (m : List Byte) : Nat := recAt m 1 1
def reqP1 (m : List Byte) : Nat := recAt m 2 1
def reqP2 (m : List Byte) : Nat := recAt m 3 1

/-- Checks that every request but GET_VERSION meets: the version, its place in the order, and its length. -/
def spdmGuard (d : Spdm) (m : List Byte) (phase n : Nat) (go : SpdmRes) : SpdmRes :=
  if recAt m 0 1 ≠ 0x12 then .error (eVersion, 0)
  else if (if phase < 3 then d.phase ≠ phase else d.phase < 3) then .error (eUnexpected, 0)
  else if m.length < n then .error (eInvalid, 0)
  else go

/-- Thirty-two free bytes: a nonce. -/
def freeBytes32 (n : Nat) : List Byte := (List.range 4).flatMap (fun k => natLE 8 (Config.unstated (n + k)).toNat)

/-- Digest of the certificate chain of slot 0. -/
def chainDigest : List Byte := sha384 Config.certChain

/-- The DMTF measurement block of index `j` + 1. -/
def measBlock (s : State) (j : Nat) : List Byte :=
  natLE 1 (j + 1) ++ natLE 1 1 ++ natLE 2 51 ++ [Config.measType j] ++ natLE 2 48 ++ measBytes (vget s.meas j 0)

/-- Measurement summary hash of a type. -/
def summaryHash (s : State) (ty : Nat) : List Byte :=
  if ty = 0 then []
  else sha384 (((List.range 8).filter (fun j => ty == 0xFF || Config.measTcb j)).flatMap (measBlock s))

/-- The message that the alias key signs for a transcript: the 1.2 prefix, the context, and the digest. -/
def signedOf (ctx : List Byte) (tr : List Byte) : List Byte :=
  let pre : List Byte := [0x64, 0x6D, 0x74, 0x66, 0x2D, 0x73, 0x70, 0x64, 0x6D, 0x2D, 0x76, 0x31, 0x2E, 0x32, 0x2E, 0x2A]
  Config.sign (pre ++ pre ++ pre ++ pre ++ List.replicate (36 - ctx.length) 0 ++ ctx ++ sha384 tr)

/-- A signed response is begun: it goes out when its signature is done (Config.signTime). -/
def Spdm.sign (d : Spdm) (s : State) (r : List Byte) : Spdm := { d with signing := some (s.cyc + Config.signTime s.stepNo, r) }

/-- "responder-challenge_auth signing" and "responder-measurements signing". -/
def ctxChallenge : List Byte := [0x72, 0x65, 0x73, 0x70, 0x6F, 0x6E, 0x64, 0x65, 0x72, 0x2D, 0x63, 0x68, 0x61, 0x6C, 0x6C, 0x65, 0x6E, 0x67, 0x65,
  0x5F, 0x61, 0x75, 0x74, 0x68, 0x20, 0x73, 0x69, 0x67, 0x6E, 0x69, 0x6E, 0x67]
def ctxMeas : List Byte := [0x72, 0x65, 0x73, 0x70, 0x6F, 0x6E, 0x64, 0x65, 0x72, 0x2D, 0x6D, 0x65, 0x61, 0x73, 0x75, 0x72, 0x65, 0x6D, 0x65, 0x6E,
  0x74, 0x73, 0x20, 0x73, 0x69, 0x67, 0x6E, 0x69, 0x6E, 0x67]

/-! ## Requests (spec/25 Table 25.5)

The transcript of measurements begins anew after any other request, and that of a challenge after a GET_MEASUREMENTS (DSP0274, log entry 78). -/

def doVersion (m : List Byte) : SpdmRes :=
  if recAt m 0 1 ≠ 0x10 then .error (eVersion, 0)
  else
    let r : List Byte := [0x10, 0x04, 0, 0, 0, 1, 0x00, 0x12]
    .ok ({ phase := 1, va := m ++ r }, r)

/-- CERT_CAP, CHAL_CAP and MEAS_CAP = 2. -/
def doCapabilities (d : Spdm) (m : List Byte) : SpdmRes :=
  spdmGuard d m 1 20 (
    let r : List Byte := [0x12, 0x61, 0, 0, 0, Config.spdmExponent, 0, 0] ++ natLE 4 0x16 ++ natLE 4 4096 ++ natLE 4 4096
    .ok ({ d with phase := 2, va := d.va ++ m ++ r }, r))

def doAlgorithms (d : Spdm) (m : List Byte) : SpdmRes :=
  spdmGuard d m 2 32 (
    if recAt m 6 1 % 2 = 0 ∨ recAt m 8 4 / 2 ^ 7 % 2 = 0 ∨ recAt m 12 4 / 2 % 2 = 0 then .error (eInvalid, 0)
    else
      let r : List Byte := [0x12, 0x63, 0, 0] ++ natLE 2 36 ++ [1, 0] ++ natLE 4 4 ++ natLE 4 0x80 ++ natLE 4 2 ++ List.replicate 16 0
      .ok ({ d with phase := 3, va := d.va ++ m ++ r }, r))

def doDigests (d : Spdm) (m : List Byte) : SpdmRes :=
  spdmGuard d m 3 4 (
    let r : List Byte := [0x12, 0x01, 0, 1] ++ chainDigest
    .ok ({ d with vb := d.vb ++ m ++ r, vl := [] }, r))

def doCertificate (d : Spdm) (m : List Byte) : SpdmRes :=
  spdmGuard d m 3 8 (
    let o := recAt m 4 2
    let c := Config.certChain
    if reqP1 m % 16 ≠ 0 ∨ c.length ≤ o then .error (eInvalid, 0)
    else
      let n := min (min (recAt m 6 2) 1024) (c.length - o)
      let r : List Byte := [0x12, 0x02, 0, 0] ++ natLE 2 n ++ natLE 2 (c.length - o - n) ++ (c.drop o).take n
      .ok ({ d with vb := d.vb ++ m ++ r, vl := [] }, r))

def doChallenge (s : State) (d : Spdm) (m : List Byte) : SpdmRes :=
  spdmGuard d m 3 36 (
    let ty := reqP2 m
    if reqP1 m ≠ 0 ∨ !(ty == 0 || ty == 1 || ty == 0xFF) then .error (eInvalid, 0)
    else
      let r : List Byte := [0x12, 0x03, 0, 1] ++ chainDigest ++ freeBytes32 s.freeNo ++ summaryHash s ty ++ natLE 2 0
      let sig := signedOf ctxChallenge (d.va ++ d.vb ++ m ++ r)
      .ok (({ d with vb := [], vl := [] }).sign s (r ++ sig), []))

def doMeasurements (s : State) (d : Spdm) (m : List Byte) : SpdmRes :=
  let signed := reqP1 m % 2 == 1
  spdmGuard d m 3 (if signed then 37 else 4) (
    let op := reqP2 m
    if (signed && recAt m 36 1 % 16 != 0) || (decide (9 ≤ op) && op != 0xFF) then .error (eInvalid, 0)
    else
      let js := if op = 0 then [] else if op = 0xFF then List.range 8 else [op - 1]
      let rec_ := js.flatMap (measBlock s)
      let r : List Byte := [0x12, 0x60] ++ natLE 1 (if op = 0 then 8 else 0) ++ [0] ++ natLE 1 js.length ++ natLE 3 rec_.length ++ rec_ ++
        freeBytes32 s.freeNo ++ natLE 2 0
      let tr := d.vl ++ m ++ r
      if signed then .ok (({ d with vb := [], vl := [] }).sign s (r ++ signedOf ctxMeas (d.va ++ tr)), []) else .ok ({ d with vb := [], vl := tr }, r))

/-! ## Rows -/

/-- Codes of Table 25.5. -/
def spdmCodes : List Nat := [0x84, 0xE1, 0xE3, 0x81, 0x82, 0x83, 0xE0]

/-- Message `k` of the inbox of port `p`, on a management connection, when its code is `mine`: it is answered there, and after an ERROR the
transcript is as it stood (spec/25 R412). While an earlier request of the connection is being signed, the answer is Busy. -/
def spdmRow (mine : Nat → Bool) (f : State → Spdm → List Byte → SpdmRes) (p k : Nat) (s : State) : Outcome :=
  if 2 ≤ p then .fault .noSuchAgent
  else .next (match (s.portAt p).inbox[k]? with
    | some (c, .raw m) =>
      let key := p * 1024 + c
      if !s.mgmt.contains key || !mine (reqCode m) then s
      else
        let s1 := s.modPort p (fun q => { q with inbox := q.inbox.eraseIdx k })
        let d0 := (mget s.spdm key).getD {}
        match (if d0.signing.isSome then .error (eBusy, 0) else f s d0 m) with
        | .ok (d, r) =>
          let s2 := { s1 with spdm := mset s1.spdm key d, freeNo := s.freeNo + 4 }
          if d.signing.isSome then s2 else (connPost s2 p c (.raw r)).getD s2
        | .error e => (connPost s1 p c (.raw (spdmError e.1 e.2))).getD s1
    | _ => s)

/-- Signed responses that are ready go out. -/
def sendSigned (s : State) : State :=
  s.spdm.foldl (fun s e => match e.2.signing with
    | some (t, r) =>
      if t ≤ s.cyc then
        let s := { s with spdm := mset s.spdm e.1 { e.2 with signing := none } }
        (connPost s (e.1 / 1024) (e.1 % 1024) (.raw r)).getD s
      else s
    | none => s) s

/-- GET_VERSION; a request absent from Table 25.5 is turned away here. -/
def execGetVersion (p k : Nat) : State → Outcome :=
  spdmRow (fun c => c == 0x84 || !spdmCodes.contains c) (fun _ _ m =>
    if reqCode m = 0x84 then doVersion m
    else if recAt m 0 1 ≠ 0x12 then .error (eVersion, 0) else .error (eUnsupported, reqCode m)) p k
def execGetCapabilities (p k : Nat) : State → Outcome := spdmRow (· == 0xE1) (fun _ d m => doCapabilities d m) p k
def execNegotiateAlgorithms (p k : Nat) : State → Outcome := spdmRow (· == 0xE3) (fun _ d m => doAlgorithms d m) p k
def execGetDigests (p k : Nat) : State → Outcome := spdmRow (· == 0x81) (fun _ d m => doDigests d m) p k
def execGetCertificate (p k : Nat) : State → Outcome := spdmRow (· == 0x82) (fun _ d m => doCertificate d m) p k
def execChallenge (p k : Nat) : State → Outcome := spdmRow (· == 0x83) doChallenge p k
def execGetMeasurements (p k : Nat) : State → Outcome := spdmRow (· == 0xE0) doMeasurements p k

end Sys2Proof.Machine
end

