-- ==== Sys2Proof/Machine/Sync.lean ====
section
/-!
DEFINITION. Syncs, slipstream and exchange phases (spec/03 R43 to R48, spec/09 R163 to R173, R182 to R186, R188 to R190).
-/
namespace Sys2Proof.Machine

/-- The context is ready to arrive (spec/09 R164). -/
def arrivalReady (s : State) (w : Who) : Bool := allDone s w && !(s.coreAt w.i).seqr.busy

/-- The round of a domain has run out (spec/09 R166): an arrival now belongs to the next round. -/
def roundOver (s : State) (r : Round) (lim : Nat) : Bool := r.first.any (fun f => decide (f + lim ≤ s.cyc))

/-- A member arrives (spec/09 R164): its bit, and the round's first and last arrival. A member whose bit is kept arrives
again without effect (spec/08 R160). -/
def arrive (s : State) (i l : Nat) : State :=
  if (s.coreAt i).arrived.contains l then s
  else
    let key := roundKey l (domRect s i l)
    let r := s.roundAt key
    (s.setRound key { r with first := some (r.first.getD s.cyc), last := s.cyc }).modCore i
      (fun k => { k with arrived := l :: k.arrived, arrAt := mset k.arrAt l s.cyc })

/-- A member's arrival at level `l` is cleared. -/
def Core.leave (k : Core) (l : Nat) : Core := { k with arrived := k.arrived.filter (· != l), arrAt := mdel k.arrAt l }

/-- Every member of the domain has arrived, the rest of `i`'s gang arriving with it. Where peers of the device's group take part, the domain has
not released by that (spec/09 R167, spec/03 R34). -/
def lastArrival (s : State) (i l : Nat) : Bool :=
  !withPeers (s.coreAt i) l && (missing s (domRect s i l) l).all (fun j => (gangOf s i).contains j)

/-- Entry into slipstream (spec/09 R167). -/
def enterSlip (k : Core) (l : Nat) (next : Word) : Core :=
  { k with
    spLv := BitVec.ofNat 3 l
    slip := some { lvl := l, syncPc := k.ctl.pc, latch := k.ctl.latch, g := k.ctl.g, v := k.v, k := k.k, bb := k.bb, loops := k.ctl.loops, started := k.seqr.started,
                   f := k.bank.f, pc := next } }

/-- `sync.h` and `sync.s` (spec/09 R182, R183). -/
def syncOp (l : Nat) (hard nos : Bool) (w : Who) (s : State) : Res :=
  let k := s.coreAt w.i
  let lv := syncLvl k l
  if !arrivalReady s w || roundOver s (s.roundAt (roundKey lv (domRect s w.i lv))) (wdLimit k lv) then .wait s
  else
    let s := logRec (arrive s w.i lv) w 6 0 (b2n hard * 8 + l)
    if hard || nos || k.noSlip == some (s.pcOf w) || lastArrival s w.i lv then
      .stay (s.modCore w.i (fun k => { k with sync := some { lvl := lv, hard, pc := s.pcOf w, next := s.fall w } }))
    else .go (s.modCore w.i (fun k => enterSlip k lv (s.fall w)))

/-- What the release does at one member. It empties the fetch buffer of the control context, which arrived: every context has a fetch buffer
of its own, emptied by its own events (DEDUCED, log entry 102). A member that did not come by `sync.h` is in no phase that follows. -/
def releaseOne (l : Nat) (s : State) (j : Nat) : State :=
  let k := s.coreAt j
  let s := s.modCore j (fun k => { k.leave l with noSlip := none, exMiss := k.exMiss.filter (· != l) })
  let s := if k.slip.any (fun sl => sl.lvl == l) then commitOne s j else s
  match k.sync with
  | some y =>
    if y.lvl = l then
      let s := completeAt s ⟨j, 0, j⟩ y.next
      s.modCore j (fun k => { k with
        sync := none, exReady := if y.hard then some l else none, exEarly := 0, ctl := { k.ctl with fbuf := [] } })
    else s
  | none => s.modCore j (fun k => { k with ctl := { k.ctl with fbuf := [] } })

/-- The release of a domain (spec/09 R165). -/
def releaseDomain (s : State) (l : Nat) (r : Rect) : State :=
  let key := roundKey l r
  let s := r.cores.foldl (releaseOne l) s
  let s := s.setRound key { s.roundAt key with ph := (s.roundAt key).ph + 1, first := none, last := 0, brk := false, frozen := [] }
  if l = 5 ∨ l = 6 then level5Release s r else s

/-- Every member of this device has arrived in time for the release. -/
def inTime (s : State) (i l : Nat) : Bool :=
  let r := domRect s i l
  let rd := s.roundAt (roundKey l r)
  (missing s r l).isEmpty && rd.first.any (fun f => decide (rd.last + relTime r ≤ f + wdLimit (s.coreAt i) l))

/-- The row SYNC_RELEASE: the level-`l` domain of core `i` releases T cycles after its last arrival (spec/03 R54). Level 6 of a
device in a group waits for its peers. -/
def execSyncRelease (i l : Nat) (s : State) : Outcome :=
  if 4096 ≤ i then .fault .noSuchAgent
  else
    let r := domRect s i l
    .next (if 2 ≤ l ∧ l ≤ 5 ∧ inTime s i l ∧ (s.roundAt (roundKey l r)).last + relTime r ≤ s.cyc ∧ !domHalted s r then
        releaseDomain s l r
      else s)

/-- The round of domain `r` at level `l` is still within its watchdog limit (spec/09 R166). -/
def withinLimit (s : State) (r : Rect) (l : Nat) : Bool :=
  (s.roundAt (roundKey l r)).first.any (fun f => decide (s.cyc ≤ f + wdLimit (s.coreAt (r.y0 * 64 + r.x0)) l))

/-- The row GROUP_RELEASE: the joined release of a group has reached this device (spec/03 R34): every level-6 domain whose
members have all arrived, and whose round has not run out, releases. It comes first in its cycle, so that a `dom` of that cycle sees it
(spec/10 R189). -/
def execGroupRelease (s : State) : Outcome :=
  .next (if !s.newCyc then s else (s.rounds.filter (fun e => e.1 / 2 ^ 32 == 6 && e.2.first.isSome)).foldl (fun s e =>
    let r : Rect := ⟨e.1 / 2 ^ 24 % 256, e.1 / 2 ^ 16 % 256, e.1 / 2 ^ 8 % 256, e.1 % 256⟩
    if (missing s r 6).isEmpty && withinLimit s r 6 && !domHalted s r then releaseDomain s 6 r else s) s)

/-- `trap.val` after `synctime` (spec/09 Table 9.1). -/
def synctimeVal (s : State) (i l : Nat) (ms : List Nat) : Word := w64 (l * 2 ^ 48 + missWord s i ms)

/-- A member that had arrived takes `synctime`; one in slipstream rolls back first (spec/09 R166). -/
def breakOne (l : Nat) (ms : List Nat) (s : State) (j : Nat) : State :=
  let s := if (s.coreAt j).slip.any (fun sl => sl.lvl == l) then rollbackOne s j 2 0 0 else s
  match (s.coreAt j).sync with
  | some y =>
    let s := s.modCore j (fun k => { k with sync := none })
    takeTrap s ⟨j, 0, j⟩ cSynctime (synctimeVal s j l ms) y.pc
  | none => s

/-- The break of a round (spec/09 R166). -/
def breakDomain (s : State) (l : Nat) (r : Rect) : State :=
  let key := roundKey l r
  let ms := missing s r l
  let came := r.cores.filter (fun j => (s.coreAt j).arrived.contains l)
  let s := s.setRound key { s.roundAt key with first := none, last := 0, brk := true, frozen := ms }
  let s := came.foldl (fun s j => s.modCore j (fun k => k.leave l)) s
  keepGf s (came.foldl (breakOne l ms) s) came

/-- The round is to release: all have arrived in time, and no peers are waited for. -/
def willRelease (s : State) (i l : Nat) : Bool := !(l == 6) && inTime s i l

/-- The row SYNC_BREAK: the watchdog of the level-`l` domain of core `i` (spec/09 R166). A level-6 round breaks whatever has arrived here. -/
def execSyncBreak (i l : Nat) (s : State) : Outcome :=
  if 4096 ≤ i then .fault .noSuchAgent
  else
    let r := domRect s i l
    let rd := s.roundAt (roundKey l r)
    let lim := wdLimit (s.coreAt i) l
    .next (if 2 ≤ l ∧ l ≤ 6 ∧ rd.first.any (fun f => decide (f + lim + relTime r ≤ s.cyc)) ∧ !willRelease s i l ∧ !domHalted s r then
        breakDomain s l r
      else s)

/-- The round of core `i`'s level-`l` domain as a program sees it. A release stands from its cycle on (spec/10 R189), and a break from the cycle
in which the limit is reached (spec/09 R166), whether or not the row that carries it out has acted. -/
def seenRound (s : State) (i l : Nat) : Round :=
  let r := domRect s i l
  let rd := s.roundAt (roundKey l r)
  if domHalted s r then rd
  else if willRelease s i l && decide (rd.last + relTime r ≤ s.cyc) then
    { rd with ph := rd.ph + 1, first := none, brk := false, frozen := [] }
  else if !willRelease s i l && rd.first.any (fun f => decide (f + wdLimit (s.coreAt i) l < s.cyc)) then
    { rd with first := none, brk := true, frozen := missing s r l }
  else rd

/-- A member's arrival shows in the domain word: it came in an earlier cycle (spec/10 R189). -/
def seenArrival (s : State) (l j : Nat) : Bool :=
  (s.coreAt j).arrived.contains l && (mget (s.coreAt j).arrAt l).all (fun c => decide (c < s.cyc))

/-- The domain word (spec/09 Table 9.8). At level 6 in a group `narr` counts this device's members (DEDUCED, log entry 117). -/
def domWord (s : State) (i l : Nat) : Word :=
  let k := s.coreAt i
  let lv := syncLvl k l
  let r := domRect s i lv
  let rd := seenRound s i lv
  let came := if rd.first.isSome then r.cores.filter (seenArrival s lv) else []
  w64 (rd.ph.toNat * 2 ^ 32 + wdLimit k lv / 1024 % 2 ^ 16 * 2 ^ 16 + b2n rd.brk * 2 ^ 14 +
    b2n (came.contains i) * 2 ^ 13 + came.length)

/-- The `bstat` views (spec/09 Table 9.9). -/
def bstatWord (s : State) (i l : Nat) (view : BView) : Word :=
  let lv := syncLvl (s.coreAt i) l
  let r := domRect s i lv
  let rd := seenRound s i lv
  let shown := if rd.first.isSome then some (missing s r lv) else if rd.brk then some rd.frozen else none
  match shown with
  | none => 0
  | some ms =>
    match view with
    | .v0 => w64 (b2n rd.brk * 2 ^ 63 + missWord s i ms)
    | .v1 => w64 ((List.range 64).foldl (fun v y => v + b2n (ms.any (fun j => yOf j == r.y0 + y)) * 2 ^ y) 0)
    | .v2 => w64 ((List.range 64).foldl (fun v x => v + b2n (ms.any (fun j => xOf j == r.x0 + x)) * 2 ^ x) 0)

def execSyncH (l : BitVec 3) : State → Outcome := issue (.syncH l) (syncOp l.toNat true false)
def execSyncS (l : BitVec 3) (nos : Bool) : State → Outcome := issue (.syncS l nos) (syncOp l.toNat false nos)
def execDom (a : Reg) (l : BitVec 3) : State → Outcome :=
  issue (.dom a l) (fun w s => .go (s.wr w a (domWord s w.i l.toNat)))
def execBstat (a : Reg) (v : BView) (l : BitVec 3) : State → Outcome :=
  issue (.bstat a v l) (fun w s => .go (s.wr w a (bstatWord s w.i l.toNat v)))

/-! ## The exchange phase -/

/-- A 32-bit or shorter field of the own slice. -/
def sliceNat (s : State) (i a n : Nat) : Nat := leNat (rdBs s.mem (localBase i + a) n)

/-- `exch gB` (spec/03 R44 to R47, spec/09 R184). Flits of the phase that have been written since the release count (R47). -/
def exchOp (b : Reg) (w : Who) (s : State) : Res :=
  let k := s.coreAt w.i
  match k.exReady with
  | none => .trap cIllegal (illegalVal s 12)
  | some l =>
    let a := (s.rd w b).toNat
    let good := decide (a % 64 = 0) && decide (a + 16 ≤ 0x40000)
    let n := if good then sliceNat s w.i a 4 else 0
    let x : Exch := {
      lvl := l, pc := s.pcOf w, next := s.fall w, plan := a, n := n
      arr := if good then sliceNat s w.i (a + 4) 4 else 0
      span := if good then sliceNat s w.i (a + 8) 4 else 0
      t0 := s.cyc, mal := if good && decide (n ≤ 16383) then none else some 0, cnt := k.exEarly }
    .stay ((logRec s w 6 0 (8 + l)).modCore w.i (fun k => { k with exch := some x }))

def execExch (b : Reg) : State → Outcome := issue (.exch b) (exchOp b)

/-- A send entry (spec/03 Table 3.5). -/
structure SendEntry where
  t : Nat
  len : Nat
  tx : Nat
  ty : Nat
  laddr : Nat
  taddr : Nat
  deriving DecidableEq, Repr

/-- The entry at a slice address; none when its 16 bytes pass the slice. -/
def sendEntry (s : State) (i a : Nat) : Option SendEntry :=
  if 0x40000 < a + 16 then none
  else some ⟨sliceNat s i a 4, sliceNat s i (a + 4) 2, sliceNat s i (a + 6) 1, sliceNat s i (a + 7) 1,
    sliceNat s i (a + 8) 4, sliceNat s i (a + 12) 4⟩

/-- The entry is well formed after one that ends at plan cycle `prev` (spec/03 R46). -/
def SendEntry.ok (e : SendEntry) (r : Rect) (prev span : Nat) : Bool :=
  e.len != 0 && decide (prev ≤ e.t) && decide (e.t + e.len ≤ span) && decide (e.tx < r.w) && decide (e.ty < r.h) &&
    decide (e.laddr % 64 = 0) && decide (e.taddr % 64 = 0) &&
    decide (e.laddr + 64 * e.len ≤ 0x40000) && decide (e.taddr + 64 * e.len ≤ 0x40000)

/-- The exchange sequencer still has a flit to inject. -/
def Exch.sending (x : Exch) : Bool := x.mal.isNone && decide (x.ent < x.n)

/-- One flit of core `i`'s plan (spec/03 R46), or the finding that its next entry is malformed. DESIGN CHOICE (log entry 97): the spec does not
say when the sequencer reads an entry that a flit of the phase overwrites; here it is read at each of its flits, and checked at its first. -/
def injectFlit (s : State) (i : Nat) (x : Exch) : State :=
  let r := domRect s i x.lvl
  let bad := s.modCore i (fun k => { k with exch := some { x with mal := some x.ent } })
  match sendEntry s i (x.plan + 16 + 16 * x.ent) with
  | none => bad
  | some e =>
    if x.flit = 0 ∧ !e.ok r x.prevEnd x.span then bad
    else if s.cyc < x.t0 + e.t + x.flit then s
    else
      let home := (r.y0 + e.ty) * 64 + r.x0 + e.tx
      let bs := rdBs s.mem (localBase i + e.laddr + 64 * x.flit) 64
      let x' := if e.len ≤ x.flit + 1 then { x with ent := x.ent + 1, flit := 0, prevEnd := e.t + e.len }
        else { x with flit := x.flit + 1 }
      send (s.modCore i (fun k => { k with exch := some x' })) i 0 0 (.flit home (e.taddr + 64 * x.flit) x.lvl bs)

/-- The row EXCHANGE_FLIT_INJECT at core `i`. -/
def execExchangeFlitInject (i : Nat) (s : State) : Outcome :=
  if 4096 ≤ i then .fault .noSuchAgent
  else
    let k := s.coreAt i
    .next (match k.exch with
      | some x => if x.sending && k.run == .running then injectFlit s i x else s
      | none => s)

/-- The row EXCHANGE_COUNT at core `i`: at plan cycle `span` the count is taken (spec/03 R47). -/
def execExchangeCount (i : Nat) (s : State) : Outcome :=
  if 4096 ≤ i then .fault .noSuchAgent
  else
    let k := s.coreAt i
    .next (match k.exch with
      | some x =>
        if !x.counted && !x.sending && decide (x.t0 + x.span ≤ s.cyc) && k.run != .preempted then
          s.modCore i (fun k => { k with exch := some { x with counted := true } })
        else s
      | none => s)

/-- The mismatch bit of a member in the phase (spec/03 R47). -/
def Exch.mismatch (x : Exch) : Bool := x.mal.isSome || x.cnt != x.arr

/-- `trap.val` after `exover` (spec/03 Table 3.6). -/
def Exch.overVal (x : Exch) : Word :=
  let why := if x.mal.isSome then 2 else if x.cnt != x.arr then 0 else 1
  w64 (why * 2 ^ 62 + x.mal.getD 0 % 2 ^ 16 * 2 ^ 32 + x.cnt % 2 ^ 32)

/-- The end of the combine at one member (spec/03 R47). -/
def combineOne (missed : Bool) (s : State) (j : Nat) : State :=
  match (s.coreAt j).exch with
  | none => s
  | some x =>
    let s := s.modCore j (fun k => { k with exch := none })
    if missed then takeTrap s ⟨j, 0, j⟩ cExover x.overVal x.pc else completeAt s ⟨j, 0, j⟩ x.next

/-- The row EXCHANGE_COMBINE_END: the domain of core `i`'s phase ends T cycles after its largest `span` (spec/09 R184). -/
def execExchangeCombineEnd (i : Nat) (s : State) : Outcome :=
  if 4096 ≤ i then .fault .noSuchAgent
  else .next (match (s.coreAt i).exch with
    | none => s
    | some x0 =>
      let r := domRect s i x0.lvl
      let ins := r.cores.filter (fun j => (s.coreAt j).exch.any (fun x => x.lvl == x0.lvl))
      let ready := r.cores.all (fun j =>
        let k := s.coreAt j
        k.run != .preempted && k.exReady.isNone &&
          (match k.exch with
            | some x => x.lvl != x0.lvl || (x.counted && decide (x.t0 + x.span + relTime r ≤ s.cyc))
            | none => true))
      if !ready then s
      else
        let missed := r.cores.any (fun j => (s.coreAt j).exMiss.contains x0.lvl) ||
          ins.any (fun j => (s.coreAt j).exch.any Exch.mismatch)
        let t := ins.foldl (combineOne missed) s
        let t := if missed then keepGf s t ins else t
        r.cores.foldl (fun s j => if (s.coreAt j).exMiss.contains x0.lvl then
          s.modCore j (fun k => { k with exMiss := k.exMiss.filter (· != x0.lvl) }) else s) t)

end Sys2Proof.Machine
end

