-- ==== Sys2Proof/Machine/Transform.lean ====
section
/-!
DEFINITION. The transform coprocessor of a cluster (spec/20): `xreq`, `xres`, the checks of a request, its five functions, and its
result element.
-/
namespace Sys2Proof.Machine

/-! ## Instructions (spec/20 R345, R346) -/

def xreqOp (a b : Reg) (w : Who) (s : State) : Res :=
  let gb := s.rd w b
  let k := s.coreAt w.i
  match sliceCheck s w .load gb 64 64 with
  | some (.cause c v) => .trap c v
  | some .wait => .wait s
  | none =>
    if k.q1.length < cmdDepth 1 then
      let s1 := s.modCore w.i (fun k => { k with q1 := k.q1 ++ [{ val := gb, deps := releaseDeps s w, at_ := s.cyc }] })
      .go ((logRec s1 w 9 gb 1).wr w a 0)
    else if resDepth 1 ≤ k.r1.length then .trap cWedge (wedgeVal false 1)
    else .go (s.wr w a 1)

def execXreq (a b : Reg) : State → Outcome := issue (.xreq a b) (xreqOp a b)

def xresOp (a : Reg) (w : Who) (s : State) : Res :=
  match (s.coreAt w.i).r1 with
  | v :: t => .go ((logRec (s.modCore w.i (fun k => { k with r1 := t })) w 10 v 1).wr w a v)
  | [] => .go (s.wr w a ones64)

def execXres (a : Reg) : State → Outcome := issue (.xres a) (xresOp a)

/-! ## Requests (spec/20 R335, R336) -/

/-- A request block (spec/20 Table 20.1). -/
structure XReq where
  src : Nat
  dst : Nat
  aux : Nat
  len : Nat
  fn : Nat
  par : Nat
  tag : Nat
  tail : Nat
  deriving DecidableEq, Repr

def parseX (bs : List Byte) : XReq :=
  let f (o n : Nat) := leNat ((bs.drop o).take n)
  ⟨f 0 8, f 8 8, f 0x10 8, f 0x18 4, f 0x1C 1, f 0x1D 1, f 0x1E 2, f 0x20 32⟩

/-- Width of functions 2 and 3, and words of their stream. -/
def XReq.w (r : XReq) : Nat := r.par % 64 + 1
def XReq.words (r : XReq) : Nat := (r.len * r.w + 31) / 32

/-- Check 1 (spec/20 Table 20.2). -/
def XReq.form (r : XReq) : Bool :=
  let upTo (n : Nat) : Bool := decide (1 ≤ r.len) && decide (r.len ≤ n)
  r.tail == 0 && (match r.fn with
  | 0 => r.aux == 0 && upTo 65536 && r.par == 0 && r.dst % 16 == 0
  | 1 => upTo 4096 && decide (6 ≤ r.par) && decide (r.par ≤ 14) && r.src % 64 == 0 && r.aux % 16 == 0 && r.dst % 4 == 0
  | 2 => r.aux == 0 && upTo 4096 && decide (r.par < 64) && r.src % 8 == 0 && r.dst % 4 == 0
  | 3 => r.aux == 0 && upTo 4096 && decide (r.par < 128) && r.src % 4 == 0 && r.dst % 8 == 0
  | 4 => decide (r.aux < 2 ^ 32) && upTo 65536 && r.par == 0
  | _ => false)

/-- Ranges that a request reads or writes: source, table, destination (spec/20 R336). -/
def XReq.ranges (r : XReq) : List (Nat × Nat) := match r.fn with
  | 0 => [(r.src, r.len), (r.dst, 16)]
  | 1 => [(r.src, r.len * 2 ^ r.par), (r.aux, 16 * r.len), (r.dst, (r.len + 31) / 32 * 4)]
  | 2 => [(r.src, 8 * r.len), (r.dst, 4 * r.words)]
  | 3 => [(r.src, 4 * r.words), (r.dst, 8 * r.len)]
  | _ => [(r.src, r.len)]

/-- The first byte at or above 0x4_0000 (check 2). -/
def XReq.outside (r : XReq) : Option Nat :=
  r.ranges.findSome? (fun e => if 0x40000 < e.1 + e.2 then some (max e.1 0x40000) else none)

/-- Ranges read, in the order of access. -/
def XReq.reads (r : XReq) : List (Nat × Nat) :=
  if r.fn = 1 then (List.range r.len).flatMap (fun i => [(r.src + i * 2 ^ r.par, 2 ^ r.par), (r.aux + 16 * i, 16)])
  else r.ranges.take 1

/-- A result element (spec/20 Table 20.3). -/
def xElem (fn xst tag val : Nat) : Word := w64 (fn * 2 ^ 56 + xst * 2 ^ 52 + tag * 2 ^ 32 + val % 2 ^ 32)

/-! ## The functions (spec/20 R339 to R342): `val`, and what is written, in order -/

abbrev XResult := Nat × List (Nat × List Byte)

/-- Bytes of core `i`'s slice. -/
def xBytes (s : State) (i a n : Nat) : List Byte := rdBs s.mem (localBase i + a) n

def xHash (s : State) (i : Nat) (r : XReq) : XResult := (0, [(r.dst, blake2s (xBytes s i r.src r.len))])

/-- Bit `k mod 32` of bitmap word `k div 32` at `f` becomes `v`. -/
def wrBit (m : List Host.Cell) (f k : Nat) (v : Bool) : List Host.Cell :=
  let a := f + k / 8
  let old := (rdB m a).toNat
  wrB m a (BitVec.ofNat 8 (old - old / 2 ^ (k % 8) % 2 * 2 ^ (k % 8) + b2n v * 2 ^ (k % 8)))

/-- Function 1 on its way (spec/20 R340): blocks that have changed, memory, and memory as source bytes see it, which no write to the
destination has touched (R336). -/
structure XDelta where
  val : Nat
  mem : List Host.Cell
  src : List Host.Cell
  deriving DecidableEq, Repr

/-- Block `k`: its table entry is compared and written, and then its bit. -/
def xBlock (i : Nat) (r : XReq) (c : XDelta) (k : Nat) : XDelta :=
  let f := localBase i
  let entry := f + r.aux + 16 * k
  let h := blake2s (rdBs c.src (f + r.src + k * 2 ^ r.par) (2 ^ r.par))
  let ch := h != rdBs c.mem entry 16
  { val := c.val + b2n ch, mem := wrBit (wrBs c.mem entry h) (f + r.dst) k ch, src := wrBs c.src entry h }

/-- Function 1: the blocks in order, each one seeing what those before it wrote, then the bits from `n` on; what is written is the table and
the bitmap as they then stand. -/
def xDelta (s : State) (i : Nat) (r : XReq) : XResult :=
  let nb := (r.len + 31) / 32 * 4
  let e := (List.range r.len).foldl (xBlock i r) { val := 0, mem := s.mem, src := s.mem }
  let m := (List.range (8 * nb - r.len)).foldl (fun m k => wrBit m (localBase i + r.dst) (r.len + k) false) e.mem
  (e.val, (List.range r.len).map (fun k => (r.aux + 16 * k, rdBs m (localBase i + r.aux + 16 * k) 16)) ++
    [(r.dst, rdBs m (localBase i + r.dst) nb)])

def xPack (s : State) (i : Nat) (r : XReq) : XResult :=
  let v := (List.range r.len).foldr (fun e acc => leNat (xBytes s i (r.src + 8 * e) 8) % 2 ^ r.w + 2 ^ r.w * acc) 0
  (r.words, [(r.dst, natLE (4 * r.words) v)])

def xUnpack (s : State) (i : Nat) (r : XReq) : XResult :=
  let v := leNat (xBytes s i r.src (4 * r.words))
  (r.len, (List.range r.len).map (fun e =>
    let f := v / 2 ^ (r.w * e) % 2 ^ r.w
    (r.dst + 8 * e, natLE 8 (if 64 ≤ r.par then sxt f r.w else w64 f).toNat)))

def xCrc (s : State) (i : Nat) (r : XReq) : XResult :=
  ((~~~((xBytes s i r.src r.len).foldl crcByte (~~~(BitVec.ofNat 32 r.aux)))).toNat, [])

/-- Words that a request which met an uncorrectable word has written: each is the model's free choice of old and new (spec/20
R336). -/
def xPartial (s : State) (ws : List (Nat × List Byte)) : List (Nat × List Byte) :=
  (ws.zipIdx).filterMap (fun e => if bit (Config.unstated (s.freeNo + e.2)) 0 then some e.1 else none)

/-- Writes of a request, cut at aligned 8-byte words. -/
def cutWords : Nat → Nat → List Byte → List (Nat × List Byte)
  | 0, _, _ => []
  | n + 1, a, bs =>
    if bs.isEmpty then []
    else
      let k := 8 - a % 8
      (a, bs.take k) :: cutWords n (a + k) (bs.drop k)

/-- The request of a row with a function applied: its element, and the state after its writes. -/
def xDo (s : State) (i : Nat) (r : XReq) (f : State → Nat → XReq → XResult) : Word × State :=
  if !r.form then (xElem (if 4 < r.fn then 0xFE else r.fn) 1 r.tag 0, s)
  else match r.outside with
    | some a => (xElem r.fn 2 r.tag a, s)
    | none =>
      let res := f s i r
      let ws := res.2.flatMap (fun e => cutWords (e.2.length + 1) e.1 e.2)
      let go (s : State) (ws : List (Nat × List Byte)) := ws.foldl (fun s e => extWrite s i e.1 e.2 1) s
      match r.reads.findSome? (fun e => (badAt s.bad (localBase i + e.1) e.2 (fun _ => false)).map (fun j => (e.1 + j) / 8 * 8)) with
      | some a => (xElem r.fn 3 r.tag a, go { s with freeNo := s.freeNo + ws.length } (xPartial s ws))
      | none => (xElem r.fn 0 r.tag res.1, go s ws)

/-! ## Service (spec/20 R337) -/

/-- The command that row `row` offers: eligible two cycles after its `xreq`, with its stores performed, room for its element, and no
exchange phase or pre-emption halt of its core. -/
def xOffer (s : State) (cl row : Nat) : Option Nat :=
  let k := s.coreAt (coreIn cl row)
  match k.q1 with
  | [] => none
  | c :: _ =>
    if decide (c.at_ + 2 ≤ s.cyc) && depsDone s c.deps && decide (k.r1.length < 4) && k.exch.isNone && k.run != .preempted &&
        k.run != .quarantined then
      some c.val.toNat
    else none

/-- The command that the idle coprocessor takes: its row and block address. -/
def xNext (s : State) (cl : Nat) : Option (Nat × Nat) :=
  let k := s.clusterAt cl
  if k.xrun.isSome then none
  else (List.range 8).findSome? (fun n =>
    let row := (k.xlast + 1 + n) % 8
    (xOffer s cl row).map (fun b => (row, b)))

/-- Take the command of a row: it leaves the command FIFO, and its element waits for its completion. -/
def xTake (s : State) (cl row : Nat) (elem : Word) : State :=
  let s := s.modCore (coreIn cl row) (fun k => { k with q1 := k.q1.tail })
  s.modCluster cl (fun k => { k with xrun := some { row, elem }, xlast := row })

/-- The first uncorrectable word of a block. -/
def xBlockBad (s : State) (i b : Nat) : Option Nat :=
  (badAt s.bad (localBase i + b) 64 (fun _ => false)).map (fun j => (b + j) / 8 * 8)

/-- A row of the opcode table for function `fn`: the coprocessor takes the next request when it asks for that function. -/
def xRow (fn cl : Nat) (f : State → Nat → XReq → XResult) (s : State) : Outcome :=
  if 512 ≤ cl then .fault .noSuchAgent
  else .next (match xNext s cl with
    | none => s
    | some (row, b) =>
      let i := coreIn cl row
      let r := parseX (xBytes s i b 64)
      if (xBlockBad s i b).isSome || r.fn != fn then s
      else
        let e := xDo s i r f
        xTake e.2 cl row e.1)

def execBlockHash (cl : Nat) : State → Outcome := xRow 0 cl xHash
def execSnapshotDelta (cl : Nat) : State → Outcome := xRow 1 cl xDelta
def execFieldPack (cl : Nat) : State → Outcome := xRow 2 cl xPack
def execFieldUnpack (cl : Nat) : State → Outcome := xRow 3 cl xUnpack
def execCrc32c (cl : Nat) : State → Outcome := xRow 4 cl xCrc

/-- Element of a request that names no function, or whose block meets an uncorrectable word (spec/20 R336). -/
def xRefused (s : State) (i b : Nat) : Option Word :=
  let r := parseX (xBytes s i b 64)
  match xBlockBad s i b with
  | some a =>
    let readable := (badAt s.bad (localBase i + b + 0x18) 8 (fun _ => false)).isNone
    some (xElem (if readable then r.fn else 0xFD) 3 (if readable then r.tag else 0) a)
  | none => if 4 < r.fn then some (xElem 0xFE 1 r.tag 0) else none

/-- The row TRANSFORM_COMPLETE (spec/20 R343): the element of the request in progress enters the port-1 result FIFO, with its report
when its status is 3 (spec/08 R157). An idle coprocessor takes a next request that names no function. -/
def execTransformComplete (cl : Nat) (s : State) : Outcome :=
  if 512 ≤ cl then .fault .noSuchAgent
  else .next (match (s.clusterAt cl).xrun with
    | some x =>
      let i := coreIn cl x.row
      let s := s.modCluster cl (fun k => { k with xrun := none })
      let s := enterResult s i (fun k => { k with r1 := k.r1 ++ [x.elem] })
      if bits x.elem 52 4 = 3 then noteReport s ((localBase i + bits x.elem 0 32) / 8) else s
    | none =>
      match xNext s cl with
      | none => s
      | some (row, b) => match xRefused s (coreIn cl row) b with
        | some e => xTake s cl row e
        | none => s)

end Sys2Proof.Machine
end

