-- ==== Sys2Proof/Machine/Vector.lean ====
section
/-!
DEFINITION. The meanings of page 1: each vector instruction as the control context executes it, the loop sequencer (spec/13
R246 to R252) with `vrep`, `vend`, `vwait`, and the step in which it issues a body instruction.
-/
namespace Sys2Proof.Machine

/-- Operands of an instruction in the control context. -/
def varg (w : Who) (b c : Reg) (s : State) : VArg := ⟨w, 0, (s.coreAt w.i).seed, s.rd w b, s.rd w c⟩

def vExec (o : VOp) (body : VBody) (w : Who) (s : State) : Res := Res.ofTry s .go (body (varg w o.b (o.c.getD 0) s) s)

def execVmov (o : VOp) : State → Outcome := issue (.vmov o) (vExec o (bodyVmov o))
def execVadd (o : VOp) : State → Outcome := issue (.vadd o) (vExec o (bodyVadd o))
def execVsub (o : VOp) : State → Outcome := issue (.vsub o) (vExec o (bodyVsub o))
def execVmul (o : VOp) : State → Outcome := issue (.vmul o) (vExec o (bodyVmul o))
def execVfma (o : VOp) : State → Outcome := issue (.vfma o) (vExec o (bodyVfma o))
def execVfms (o : VOp) : State → Outcome := issue (.vfms o) (vExec o (bodyVfms o))
def execVmin (o : VOp) : State → Outcome := issue (.vmin o) (vExec o (bodyVmin o))
def execVmax (o : VOp) : State → Outcome := issue (.vmax o) (vExec o (bodyVmax o))
def execVabs (o : VOp) : State → Outcome := issue (.vabs o) (vExec o (bodyVabs o))
def execVneg (o : VOp) : State → Outcome := issue (.vneg o) (vExec o (bodyVneg o))
def execVand (o : VOp) : State → Outcome := issue (.vand o) (vExec o (bodyVand o))
def execVor (o : VOp) : State → Outcome := issue (.vor o) (vExec o (bodyVor o))
def execVxor (o : VOp) : State → Outcome := issue (.vxor o) (vExec o (bodyVxor o))
def execVshl (o : VOp) : State → Outcome := issue (.vshl o) (vExec o (bodyVshl o))
def execVshr (o : VOp) : State → Outcome := issue (.vshr o) (vExec o (bodyVshr o))
def execVsra (o : VOp) : State → Outcome := issue (.vsra o) (vExec o (bodyVsra o))
def execVsel (o : VOp) : State → Outcome := issue (.vsel o) (vExec o (bodyVsel o))
def execVsplat (o : VOp) : State → Outcome := issue (.vsplat o) (vExec o (bodyVsplat o))
def execVrcp (o : VOp) : State → Outcome := issue (.vrcp o) (vExec o (bodyVrcp o))
def execVrsq (o : VOp) : State → Outcome := issue (.vrsq o) (vExec o (bodyVrsq o))
def execVexp2 (o : VOp) : State → Outcome := issue (.vexp2 o) (vExec o (bodyVexp2 o))
def execVlog2 (o : VOp) : State → Outcome := issue (.vlog2 o) (vExec o (bodyVlog2 o))
def execVtanh (o : VOp) : State → Outcome := issue (.vtanh o) (vExec o (bodyVtanh o))
def execVperm (o : VOp) : State → Outcome := issue (.vperm o) (vExec o (vPerm o))
def execVrot (o : VOp) : State → Outcome := issue (.vrot o) (vExec o (vRot o))
def execVext (o : VOp) : State → Outcome := issue (.vext o) (vExec o (vExt o))
def execVins (o : VOp) : State → Outcome := issue (.vins o) (vExec o (vIns o))
def execVtrn (o : VOp) : State → Outcome := issue (.vtrn o) (vExec o (vTrn o))
def execVlut (o : VOp) : State → Outcome := issue (.vlut o) (vExec o (bodyVlut o))
def execVgath (o : VOp) : State → Outcome := issue (.vgath o) (vExec o (bodyVgath o))
def execVscat (o : VOp) : State → Outcome := issue (.vscat o) (vExec o (bodyVscat o))
def execVpupd (o : VOp) : State → Outcome := issue (.vpupd o) (vExec o (bodyVpupd o))
def execVdot (o : VOp) : State → Outcome := issue (.vdot o) (vExec o (bodyVdot o))
def execVmovToMask (a : KReg) (b : Reg) : State → Outcome :=
  issue (.vmovToMask a b) (fun w s => Res.ofTry s .go (bodyVmovToMask a (varg w b 0 s) s))
def execVmovFromMask (a : Reg) (b : KReg) : State → Outcome :=
  issue (.vmovFromMask a b) (fun w s => Res.ofTry s .go (bodyVmovFromMask a b (varg w 0 0 s) s))
def execVcmp (o : VOp) (c : VCond) : State → Outcome := issue (.vcmp o c) (vExec o (bodyVcmp o c))
def execVcvt (o : VOp) (st : ETy) (p : BitVec 3) : State → Outcome := issue (.vcvt o st p) (vExec o (bodyVcvt o st p))
def execVqnt (o : VOp) (rd : Reading) : State → Outcome := issue (.vqnt o rd) (vExec o (bodyVqnt o rd))
def execVdqt (o : VOp) (rd : Reading) : State → Outcome := issue (.vdqt o rd) (vExec o (bodyVdqt o rd))
def execVamax (o : VOp) (rd : Reading) : State → Outcome := issue (.vamax o rd) (vExec o (bodyVamax o rd))
def execVred (o : VOp) (op : RedOp) : State → Outcome := issue (.vred o op) (vExec o (vRed o op))
def execVld (o : VOp) (sz : BitVec 2) : State → Outcome := issue (.vld o sz) (vExec o (bodyVld o sz))
def execVst (o : VOp) (sz : BitVec 2) : State → Outcome := issue (.vst o sz) (vExec o (bodyVst o sz))
def execVldp (o : VOp) (np : BitVec 2) : State → Outcome := issue (.vldp o np) (vExec o (bodyVldp o np))
def execVstp (o : VOp) (np : BitVec 2) : State → Outcome := issue (.vstp o np) (vExec o (bodyVstp o np))
def execBbgetv (ty : ETy) (sa : Bool) (a w : Reg) : State → Outcome :=
  issue (.bbgetv ty sa a w) (fun x s => Res.ofTry s .go (bodyBbgetv ty a w (varg x 0 0 s) s))

/-! ## The loop sequencer -/

/-- What a body instruction does (spec/04 R74 gives the set). -/
def bodyOf : Instr → VBody
  | .vmov o => bodyVmov o
  | .vadd o => bodyVadd o
  | .vsub o => bodyVsub o
  | .vmul o => bodyVmul o
  | .vfma o => bodyVfma o
  | .vfms o => bodyVfms o
  | .vmin o => bodyVmin o
  | .vmax o => bodyVmax o
  | .vabs o => bodyVabs o
  | .vneg o => bodyVneg o
  | .vand o => bodyVand o
  | .vor o => bodyVor o
  | .vxor o => bodyVxor o
  | .vshl o => bodyVshl o
  | .vshr o => bodyVshr o
  | .vsra o => bodyVsra o
  | .vsel o => bodyVsel o
  | .vsplat o => bodyVsplat o
  | .vrcp o => bodyVrcp o
  | .vrsq o => bodyVrsq o
  | .vexp2 o => bodyVexp2 o
  | .vlog2 o => bodyVlog2 o
  | .vtanh o => bodyVtanh o
  | .vlut o => bodyVlut o
  | .vgath o => bodyVgath o
  | .vscat o => bodyVscat o
  | .vpupd o => bodyVpupd o
  | .vdot o => bodyVdot o
  | .vmovToMask a _ => bodyVmovToMask a
  | .vmovFromMask a b => bodyVmovFromMask a b
  | .vcmp o c => bodyVcmp o c
  | .vcvt o st p => bodyVcvt o st p
  | .vqnt o r => bodyVqnt o r
  | .vdqt o r => bodyVdqt o r
  | .vamax o r => bodyVamax o r
  | .vld o sz => bodyVld o sz
  | .vst o sz => bodyVst o sz
  | .vldp o np => bodyVldp o np
  | .vstp o np => bodyVstp o np
  | _ => fun _ s => .ok s

/-- Address after the body of a `vrep` of `n` instructions: a gang fetches from its leader's slice (spec/03 R40). -/
def afterBody (s : State) (w : Who) (n : Nat) : Word := w64 (skipInstrs s ⟨w.lead, 0, w.lead⟩ n (s.fall w).toNat)

/-- `vrep` (spec/13 R246, R249): with a count of 0 nothing is captured, and the body is passed over (spec/02 R28). -/
def vrepOp (a : Reg) (n : BitVec 5) (w : Who) (s : State) : Res :=
  let cnt := (s.rdLead w a).toNat
  let s1 := s.modCore w.i (fun k => { k with seqr :=
    { n := n.toNat, count := cnt, toCap := if cnt = 0 then 0 else n.toNat, seed := k.seed } })
  if cnt = 0 then .stay (completeAt s1 w (afterBody s w n.toNat)) else .go s1

def execVrep (a : Reg) (n : BitVec 5) : State → Outcome := issue (.vrep a n) (vrepOp a n)

/-- `vend` (spec/13 R250): no repetition whose slot 0 has not issued starts any more. -/
def execVend (a : Reg) : State → Outcome :=
  issue (.vend a) (fun w s =>
    .go ((s.modCore w.i (fun k => { k with seqr := { k.seqr with stopNew := true } })).wr w a
      (w64 (s.coreAt w.i).seqr.started)))

/-- `vwait` (spec/13 R251): waits until the sequencer is idle. -/
def execVwait : State → Outcome :=
  issue .vwait (fun w s => if (s.coreAt w.i).seqr.busy then .wait s else .go s)

/-- v registers (0 to 31) and mask registers (32 to 39) that a body instruction of repetition `j` reads. -/
def bodyReads (j : Nat) (ins : Instr) : List Nat :=
  let r (x : Reg) (st : Bool) : Nat := (stag x st j).toNat
  let mk (o : VOp) : List Nat := if o.k = 0 then [] else [32 + o.k.toNat]
  let b (o : VOp) : List Nat := r o.b o.sb :: mk o
  let xy (o : VOp) : List Nat := if o.c.isSome then r o.b o.sb :: r (o.c.getD 0) o.sc :: mk o else r o.a o.sa :: r o.b o.sb :: mk o
  let abc (o : VOp) : List Nat := r o.a o.sa :: r o.b o.sb :: r (o.c.getD 0) o.sc :: mk o
  match ins with
  | .vmovFromMask _ k => [32 + k.toNat]
  | .vadd o | .vsub o | .vmul o | .vmin o | .vmax o | .vand o | .vor o | .vxor o | .vshl o | .vshr o | .vsra o
  | .vlut o => xy o
  | .vfma o | .vfms o | .vdot o => abc o
  | .vcmp o _ => r o.b o.sb :: r (o.c.getD 0) o.sc :: (32 + o.a.toNat) :: mk o
  | .vsel o => r o.b o.sb :: r (o.c.getD 0) o.sc :: mk o
  | .vmov o | .vabs o | .vneg o | .vrcp o | .vrsq o | .vexp2 o | .vlog2 o | .vtanh o | .vcvt o _ _ | .vqnt o _
  | .vdqt o _ => b o
  | .vamax o _ => r o.a o.sa :: b o
  | .vsplat o | .vld o _ | .vldp o _ => mk o
  | .vst o _ | .vstp o _ => r o.a o.sa :: mk o
  | .vgath o => r (o.c.getD 0) o.sc :: mk o
  | .vscat o => r o.a o.sa :: r (o.c.getD 0) o.sc :: mk o
  | .vpupd o => pairN o :: (pairN o + 1) % 32 :: mk o
  | _ => []
where
  pairN (o : VOp) : Nat := (if o.sa then o.a + BitVec.ofNat 5 (2 * j) else o.a).toNat

/-- v and mask registers that it writes. -/
def bodyWrites (j : Nat) (ins : Instr) : List Nat :=
  let a (o : VOp) : List Nat := [(stag o.a o.sa j).toNat]
  match ins with
  | .vmovToMask k _ => [32 + k.toNat]
  | .vcmp o _ => [32 + o.a.toNat]
  | .vmov o | .vadd o | .vsub o | .vmul o | .vfma o | .vfms o | .vmin o | .vmax o | .vabs o | .vneg o | .vand o | .vor o
  | .vxor o | .vshl o | .vshr o | .vsra o | .vsel o | .vsplat o | .vrcp o | .vrsq o | .vexp2 o | .vlog2 o | .vtanh o
  | .vcvt o _ _ | .vqnt o _ | .vdqt o _ | .vamax o _ | .vlut o | .vld o _ | .vldp o _ | .vgath o | .vdot o => a o
  | .vpupd o => [bodyReads.pairN j o, (bodyReads.pairN j o + 1) % 32]
  | _ => []

/-- Operands of body instruction `e` of repetition `j` at one member. -/
def BodyI.arg (e : BodyI) (w : Who) (j : Nat) (s : State) : VArg := ⟨w, j, (s.coreAt w.i).seqr.seed, e.gb, e.gc⟩

/-- Lines of a plane-aware access: those of its descriptor, and of the group's bytes (of `k` planes, where it only reads). -/
def planeLines (s : State) (w : Who) (ta pos : Word) (k : TD → Option Nat) : List Nat :=
  let a := ta.toNat
  let td := parseTd ta (sliceRd s w a 128)
  let bs := match k td with
    | some n => readBytes td (bits pos 0 32) (bits pos 32 32) n
    | none => (td.groupBytes (bits pos 0 32) (bits pos 32 32)).map Int.toNat
  a / 64 :: (a + 127) / 64 :: bs.map (· / 64)

/-- The 64-byte lines that a body load or store touches where it would issue at `s`. -/
def bodyLines (e : VArg) (ins : Instr) (s : State) : List Nat :=
  let lanes (o : VOp) : List Nat :=
    (gLanes o ((s.coreAt e.w.i).kr o.k)).map (fun l => (gAddr o e (s.vr e.w (o.rc e)) l).toNat / 64)
  match ins with
  | .vld o sz | .vst o sz =>
    let a := (vAddr o e (64 * 2 ^ sz.toNat)).toNat
    [a / 64, (a + 63) / 64]
  | .vgath o | .vscat o => lanes o
  | .vldp o np => planeLines s e.w (vAddr o e 0) (vPos o e 16) (fun td => some (readPlanes s td np.toNat))
  | .vstp o _ => planeLines s e.w (vAddr o e 0) (vPos o e 16) (fun _ => none)
  | .vpupd o => planeLines s e.w (vAddr o e 0) (vPos o e 32) (fun _ => none)
  | _ => []

/-- An earlier body instruction that has not issued holds a later one by a register (spec/13 R247). -/
def regsHold (j' : Nat) (i' : Instr) (j : Nat) (i : Instr) : Bool :=
  let w := bodyWrites j i
  let r := bodyReads j i
  (bodyWrites j' i').any (fun x => r.contains x || w.contains x) || (bodyReads j' i').any w.contains

/-- Body instruction `e` of repetition `j` is held by one of the earlier ones that have not issued, by a register or by one of its lines
`ls` (spec/13 R247). The lines of an earlier one are those that it touches when its turn comes: after those before it. -/
def bodyHeld (w : Who) (j : Nat) (e : BodyI) (ls : List Nat) : List (Nat × BodyI) → State → Bool
  | [], _ => false
  | (j', e') :: t, s =>
    regsHold j' e'.ins j e.ins || (!ls.isEmpty && (bodyLines (e'.arg w j' s) e'.ins s).any ls.contains) ||
    bodyHeld w j e ls t (match bodyOf e'.ins (e'.arg w j' s) s with
      | .ok s' => s'
      | .error _ => s)

/-- The body instructions that are still to be captured, as the slice and the registers hold them now. -/
def upcoming (s : State) (w : Who) : Nat → Nat → List BodyI
  | 0, _ => []
  | n + 1, a =>
    match decode ⟨kindOf w.i, false⟩ (fetchRun s w 5 a) with
    | .ok ins len _ _ _ =>
      let g := fun (r : Option Reg) => r.elim 0 (s.rd w)
      { ins, gb := g (bodyRegs ins).1, gc := g (bodyRegs ins).2, pc := w64 a } :: upcoming s w n (a + 2 * len)
    | _ => []

/-- The slot that repetition `j` issues next: of a started repetition, or slot 0 of the next one. -/
def nextSlot (q : Seqr) (j : Nat) : Option Nat :=
  if j < q.base then none
  else match q.pos[j - q.base]? with
    | some i => if i < q.n then some i else none
    | none => if j = q.base + q.pos.length ∧ j < q.count ∧ !q.stopNew then some 0 else none

/-- Body instruction `i` of repetition `j` is eligible (spec/13 R247). -/
def repEligible (s : State) (w : Who) (j i : Nat) : Bool :=
  let q := (s.coreAt w.i).seqr
  let all := q.body ++ (if q.toCap = 0 then [] else upcoming s w q.toCap (s.pcOf w).toNat)
  let start (j' : Nat) : Nat := (q.pos[j' - q.base]?).getD 0
  match q.body[i]? with
  | none => false
  | some e =>
    let before := (List.range (j - q.base)).flatMap (fun d =>
      let j' := q.base + d
      (List.range (q.n - start j')).filterMap (fun k => (all[start j' + k]?).map (fun e' => (j', e'))))
    (j = q.base || decide (j < q.base) || decide (i < start (j - 1))) &&
    !bodyHeld w j e (bodyLines (e.arg w j s) e.ins s) before s

/-- The positions after slot `i` of repetition `j` has issued; repetitions that have ended leave from the front. -/
def Seqr.issued (q : Seqr) (j : Nat) : Seqr :=
  let d := j - q.base
  let pos := if d < q.pos.length then q.pos.mapIdx (fun k p => if k = d then p + 1 else p) else q.pos ++ [1]
  let started := if d < q.pos.length then q.started else q.started + 1
  let fin := (pos.takeWhile (· == q.n)).length
  { q with base := q.base + fin, pos := pos.drop fin, started }

/-- A body instruction raised a cause (spec/13 R252): no body instruction issues any more. -/
def Seqr.failed (q : Seqr) : Seqr := { q with pos := [], base := q.count, stopNew := true }

/-- The effect of issuing body instruction `i` of repetition `j` at one member; `none` when it waits. -/
def bodyIssue (w : Who) (j i : Nat) (s : State) : Option State :=
  let k := s.coreAt w.i
  match k.seqr.body[i]? with
  | none => none
  | some e =>
    match bodyOf e.ins (e.arg w j s) s with
    | .ok t =>
      if lagBlocks k (t.coreAt w.i) then none
      else some (t.modCore w.i (fun k => { k with seqr := k.seqr.issued j }))
    | .error .wait => none
    | .error (.cause c v) =>
      if k.slip.isSome then none
      else some (s.modCore w.i (fun k =>
        { k with seqr := k.seqr.failed, ctl := { k.ctl with kept := k.ctl.kept ++ [(c, v, none)] } }))

/-- The sequencer of a core may issue: the core runs, and no exchange phase freezes it. -/
def seqRuns (k : Core) : Bool := k.run == .running && k.exch.isNone && k.ctl.kept.isEmpty

/-- The slot of repetition `rep` that one member may issue. -/
def slotReady (s : State) (rep : Nat) (w : Who) : Option Nat :=
  let k := s.coreAt w.i
  if !seqRuns k then none
  else (nextSlot k.seqr rep).filter (fun i => repEligible s w rep i && (bodyIssue w rep i s).isSome)

/-- Repetition `rep` may issue at every member. -/
def repReady (s : State) (ms : List Who) (rep : Nat) : Bool := ms.all (fun w => (slotReady s rep w).isSome)

/-- A lower repetition of the members' sequencers goes first (spec/13 R247): it may issue, and its operands are ready under spec/03 R50, which
is free as every latency is (log entries 5, 23). -/
def lowerFirst (s : State) (ms : List Who) (rep : Nat) : Bool :=
  ms.any (fun w => let b := (s.coreAt w.i).seqr.base
    (List.range (rep - b)).any (fun d => repReady s ms (b + d) && !Config.bodyStalled s.stepNo (b + d)))

/-- One body instruction of repetition `rep` at every member, or nothing (spec/13 R247, R248, R252). -/
def sequencerStep (ms : List Who) (rep : Nat) (s : State) : State :=
  if repReady s ms rep && !lowerFirst s ms rep then
    ms.foldl (fun t w => match slotReady s rep w with
      | some i => (bodyIssue w rep i t).getD t
      | none => t) s
  else s

/-- The row SEQUENCER_ISSUE: the sequencer of worker `core` issues the next body instruction of repetition `rep`. -/
def execSequencerIssue (core rep : Nat) (s : State) : Outcome :=
  if 4096 ≤ core then .fault .noSuchAgent
  else match (s.coreAt core).gang with
    | none => .next (sequencerStep [⟨core, 0, core⟩] rep s)
    | some (l, n) =>
      .next (if l = core then sequencerStep ((List.range n).map (fun r => ⟨l + 64 * r, 0, l⟩)) rep s else s)

end Sys2Proof.Machine
end

