-- ==== Sys2Proof/Machine/Dispatch.lean ====
section
/-!
DEFINITION. Dispatch of an instruction or hardware event to its meaning: one arm per constructor of `Instr`, in the order of
the opcode table.
-/
namespace Sys2Proof.Machine

def exec (i : Instr) (s : State) : Host.Outcome State Fault Refusal :=
  match i with
  | .nop => Sys2Proof.Machine.execNop s
  | .brk x => Sys2Proof.Machine.execBrk x s
  | .ret => Sys2Proof.Machine.execRet s
  | .jr x => Sys2Proof.Machine.execJr x s
  | .bbset x => Sys2Proof.Machine.execBbset x s
  | .bbflush => Sys2Proof.Machine.execBbflush s
  | .add x => Sys2Proof.Machine.execAdd x s
  | .sub x => Sys2Proof.Machine.execSub x s
  | .and x => Sys2Proof.Machine.execAnd x s
  | .or x => Sys2Proof.Machine.execOr x s
  | .xor x => Sys2Proof.Machine.execXor x s
  | .andn x => Sys2Proof.Machine.execAndn x s
  | .shl x => Sys2Proof.Machine.execShl x s
  | .shr x => Sys2Proof.Machine.execShr x s
  | .sra x => Sys2Proof.Machine.execSra x s
  | .rot x => Sys2Proof.Machine.execRot x s
  | .mul x => Sys2Proof.Machine.execMul x s
  | .mulh x => Sys2Proof.Machine.execMulh x s
  | .mulhn x => Sys2Proof.Machine.execMulhn x s
  | .div x => Sys2Proof.Machine.execDiv x s
  | .divn x => Sys2Proof.Machine.execDivn x s
  | .rem x => Sys2Proof.Machine.execRem x s
  | .remn x => Sys2Proof.Machine.execRemn x s
  | .min x => Sys2Proof.Machine.execMin x s
  | .max x => Sys2Proof.Machine.execMax x s
  | .minn x => Sys2Proof.Machine.execMinn x s
  | .maxn x => Sys2Proof.Machine.execMaxn x s
  | .mov x y => Sys2Proof.Machine.execMov x y s
  | .addi x => Sys2Proof.Machine.execAddi x s
  | .li x y => Sys2Proof.Machine.execLi x y s
  | .andi x => Sys2Proof.Machine.execAndi x s
  | .ori x => Sys2Proof.Machine.execOri x s
  | .xori x => Sys2Proof.Machine.execXori x s
  | .cmpeq x => Sys2Proof.Machine.execCmpeq x s
  | .cmpne x => Sys2Proof.Machine.execCmpne x s
  | .cmplt x => Sys2Proof.Machine.execCmplt x s
  | .cmpltn x => Sys2Proof.Machine.execCmpltn x s
  | .cmple x => Sys2Proof.Machine.execCmple x s
  | .cmplen x => Sys2Proof.Machine.execCmplen x s
  | .sel x y z => Sys2Proof.Machine.execSel x y z s
  | .shli x => Sys2Proof.Machine.execShli x s
  | .shri x => Sys2Proof.Machine.execShri x s
  | .srai x => Sys2Proof.Machine.execSrai x s
  | .b x => Sys2Proof.Machine.execB x s
  | .beqz x y => Sys2Proof.Machine.execBeqz x y s
  | .bnez x y => Sys2Proof.Machine.execBnez x y s
  | .bltz x y => Sys2Proof.Machine.execBltz x y s
  | .loop x y => Sys2Proof.Machine.execLoop x y s
  | .bgez x y => Sys2Proof.Machine.execBgez x y s
  | .call x => Sys2Proof.Machine.execCall x s
  | .ldN8 x => Sys2Proof.Machine.execLdN8 x s
  | .ldS8 x => Sys2Proof.Machine.execLdS8 x s
  | .ldN16 x => Sys2Proof.Machine.execLdN16 x s
  | .ldS16 x => Sys2Proof.Machine.execLdS16 x s
  | .ldN32 x => Sys2Proof.Machine.execLdN32 x s
  | .ldS32 x => Sys2Proof.Machine.execLdS32 x s
  | .ld64 x => Sys2Proof.Machine.execLd64 x s
  | .st8 x => Sys2Proof.Machine.execSt8 x s
  | .st16 x => Sys2Proof.Machine.execSt16 x s
  | .st32 x => Sys2Proof.Machine.execSt32 x s
  | .st64 x => Sys2Proof.Machine.execSt64 x s
  | .popc x y => Sys2Proof.Machine.execPopc x y s
  | .clz x y => Sys2Proof.Machine.execClz x y s
  | .ctz x y => Sys2Proof.Machine.execCtz x y s
  | .bfx x => Sys2Proof.Machine.execBfx x s
  | .bfxs x => Sys2Proof.Machine.execBfxs x s
  | .bfi x y z u => Sys2Proof.Machine.execBfi x y z u s
  | .lea x y z u => Sys2Proof.Machine.execLea x y z u s
  | .bbget x y => Sys2Proof.Machine.execBbget x y s
  | .bbgets x y => Sys2Proof.Machine.execBbgets x y s
  | .bbpeek x y => Sys2Proof.Machine.execBbpeek x y s
  | .bbskip x => Sys2Proof.Machine.execBbskip x s
  | .bbput x y => Sys2Proof.Machine.execBbput x y s
  | .vmov x => Sys2Proof.Machine.execVmov x s
  | .vmovToMask x y => Sys2Proof.Machine.execVmovToMask x y s
  | .vmovFromMask x y => Sys2Proof.Machine.execVmovFromMask x y s
  | .vadd x => Sys2Proof.Machine.execVadd x s
  | .vsub x => Sys2Proof.Machine.execVsub x s
  | .vmul x => Sys2Proof.Machine.execVmul x s
  | .vfma x => Sys2Proof.Machine.execVfma x s
  | .vfms x => Sys2Proof.Machine.execVfms x s
  | .vmin x => Sys2Proof.Machine.execVmin x s
  | .vmax x => Sys2Proof.Machine.execVmax x s
  | .vabs x => Sys2Proof.Machine.execVabs x s
  | .vneg x => Sys2Proof.Machine.execVneg x s
  | .vand x => Sys2Proof.Machine.execVand x s
  | .vor x => Sys2Proof.Machine.execVor x s
  | .vxor x => Sys2Proof.Machine.execVxor x s
  | .vshl x => Sys2Proof.Machine.execVshl x s
  | .vshr x => Sys2Proof.Machine.execVshr x s
  | .vsra x => Sys2Proof.Machine.execVsra x s
  | .vcmp x y => Sys2Proof.Machine.execVcmp x y s
  | .vsel x => Sys2Proof.Machine.execVsel x s
  | .vsplat x => Sys2Proof.Machine.execVsplat x s
  | .vrcp x => Sys2Proof.Machine.execVrcp x s
  | .vrsq x => Sys2Proof.Machine.execVrsq x s
  | .vexp2 x => Sys2Proof.Machine.execVexp2 x s
  | .vlog2 x => Sys2Proof.Machine.execVlog2 x s
  | .vtanh x => Sys2Proof.Machine.execVtanh x s
  | .vcvt x y z => Sys2Proof.Machine.execVcvt x y z s
  | .vqnt x y => Sys2Proof.Machine.execVqnt x y s
  | .vdqt x y => Sys2Proof.Machine.execVdqt x y s
  | .vamax x y => Sys2Proof.Machine.execVamax x y s
  | .vred x y => Sys2Proof.Machine.execVred x y s
  | .vperm x => Sys2Proof.Machine.execVperm x s
  | .vrot x => Sys2Proof.Machine.execVrot x s
  | .vext x => Sys2Proof.Machine.execVext x s
  | .vins x => Sys2Proof.Machine.execVins x s
  | .vtrn x => Sys2Proof.Machine.execVtrn x s
  | .vlut x => Sys2Proof.Machine.execVlut x s
  | .vld x y => Sys2Proof.Machine.execVld x y s
  | .vldp x y => Sys2Proof.Machine.execVldp x y s
  | .vgath x => Sys2Proof.Machine.execVgath x s
  | .vst x y => Sys2Proof.Machine.execVst x y s
  | .vstp x y => Sys2Proof.Machine.execVstp x y s
  | .vscat x => Sys2Proof.Machine.execVscat x s
  | .vpupd x => Sys2Proof.Machine.execVpupd x s
  | .vdot x => Sys2Proof.Machine.execVdot x s
  | .bbgetv x y z u => Sys2Proof.Machine.execBbgetv x y z u s
  | .vrep x y => Sys2Proof.Machine.execVrep x y s
  | .vend x => Sys2Proof.Machine.execVend x s
  | .vwait => Sys2Proof.Machine.execVwait s
  | .sequencerIssue x y => Sys2Proof.Machine.execSequencerIssue x y s
  | .mfmt x => Sys2Proof.Machine.execMfmt x s
  | .mldb x => Sys2Proof.Machine.execMldb x s
  | .mmul x y z u v => Sys2Proof.Machine.execMmul x y z u v s
  | .mzero x => Sys2Proof.Machine.execMzero x s
  | .mwr x y => Sys2Proof.Machine.execMwr x y s
  | .mrd x y z => Sys2Proof.Machine.execMrd x y z s
  | .mdup x y => Sys2Proof.Machine.execMdup x y s
  | .mvld x => Sys2Proof.Machine.execMvld x s
  | .mvldR x => Sys2Proof.Machine.execMvldR x s
  | .mspec x => Sys2Proof.Machine.execMspec x s
  | .mcommit x => Sys2Proof.Machine.execMcommit x s
  | .mdiscard x => Sys2Proof.Machine.execMdiscard x s
  | .mbar => Sys2Proof.Machine.execMbar s
  | .mstat => Sys2Proof.Machine.execMstat s
  | .mslot x y => Sys2Proof.Machine.execMslot x y s
  | .mwgt x => Sys2Proof.Machine.execMwgt x s
  | .matrixGrant x => Sys2Proof.Machine.execMatrixGrant x s
  | .matrixCommandComplete x => Sys2Proof.Machine.execMatrixCommandComplete x s
  | .ldg x => Sys2Proof.Machine.execLdg x s
  | .stg x => Sys2Proof.Machine.execStg x s
  | .aadd x => Sys2Proof.Machine.execAadd x s
  | .aand x => Sys2Proof.Machine.execAand x s
  | .aor x => Sys2Proof.Machine.execAor x s
  | .axor x => Sys2Proof.Machine.execAxor x s
  | .amin x => Sys2Proof.Machine.execAmin x s
  | .amax x => Sys2Proof.Machine.execAmax x s
  | .aminn x => Sys2Proof.Machine.execAminn x s
  | .amaxn x => Sys2Proof.Machine.execAmaxn x s
  | .amaxf x => Sys2Proof.Machine.execAmaxf x s
  | .aswp x => Sys2Proof.Machine.execAswp x s
  | .acas x => Sys2Proof.Machine.execAcas x s
  | .aincW x => Sys2Proof.Machine.execAincW x s
  | .afaddB x => Sys2Proof.Machine.execAfaddB x s
  | .fence x y => Sys2Proof.Machine.execFence x y s
  | .push x y => Sys2Proof.Machine.execPush x y s
  | .pop x y => Sys2Proof.Machine.execPop x y s
  | .fstat x y => Sys2Proof.Machine.execFstat x y s
  | .start x y => Sys2Proof.Machine.execStart x y s
  | .hwait x => Sys2Proof.Machine.execHwait x s
  | .hexit => Sys2Proof.Machine.execHexit s
  | .hstat x y => Sys2Proof.Machine.execHstat x y s
  | .gang x => Sys2Proof.Machine.execGang x s
  | .split => Sys2Proof.Machine.execSplit s
  | .syncH x => Sys2Proof.Machine.execSyncH x s
  | .syncS x y => Sys2Proof.Machine.execSyncS x y s
  | .exch x => Sys2Proof.Machine.execExch x s
  | .dom x y => Sys2Proof.Machine.execDom x y s
  | .bstat x y z => Sys2Proof.Machine.execBstat x y z s
  | .evsig x => Sys2Proof.Machine.execEvsig x s
  | .cpy x => Sys2Proof.Machine.execCpy x s
  | .cpyq x y => Sys2Proof.Machine.execCpyq x y s
  | .uiret => Sys2Proof.Machine.execUiret s
  | .uien x y => Sys2Proof.Machine.execUien x y s
  | .crd x y => Sys2Proof.Machine.execCrd x y s
  | .cwr x y => Sys2Proof.Machine.execCwr x y s
  | .trap x => Sys2Proof.Machine.execTrap x s
  | .tret => Sys2Proof.Machine.execTret s
  | .halt => Sys2Proof.Machine.execHalt s
  | .wfe => Sys2Proof.Machine.execWfe s
  | .lgbind x y => Sys2Proof.Machine.execLgbind x y s
  | .lgunbind x => Sys2Proof.Machine.execLgunbind x s
  | .lgnext x y => Sys2Proof.Machine.execLgnext x y s
  | .lgok => Sys2Proof.Machine.execLgok s
  | .lgflag x => Sys2Proof.Machine.execLgflag x s
  | .lgemit x y => Sys2Proof.Machine.execLgemit x y s
  | .lglim x y => Sys2Proof.Machine.execLglim x y s
  | .contain => Sys2Proof.Machine.execContain s
  | .xreq x y => Sys2Proof.Machine.execXreq x y s
  | .xres x => Sys2Proof.Machine.execXres x s
  | .npost x y => Sys2Proof.Machine.execNpost x y s
  | .npoll x y => Sys2Proof.Machine.execNpoll x y s
  | .mcld x y z => Sys2Proof.Machine.execMcld x y z s
  | .mcst x y z => Sys2Proof.Machine.execMcst x y z s
  | .mcpush x y z => Sys2Proof.Machine.execMcpush x y z s
  | .mcgath x y z u => Sys2Proof.Machine.execMcgath x y z u s
  | .mcwait => Sys2Proof.Machine.execMcwait s
  | .mctlb x => Sys2Proof.Machine.execMctlb x s
  | .mcsig x => Sys2Proof.Machine.execMcsig x s
  | .transferComplete x y => Sys2Proof.Machine.execTransferComplete x y s
  | .mcCommandArrival x => Sys2Proof.Machine.execMcCommandArrival x s
  | .fifoPushStore x => Sys2Proof.Machine.execFifoPushStore x s
  | .fifoPopLoad x => Sys2Proof.Machine.execFifoPopLoad x s
  | .fifoFstatLoad x => Sys2Proof.Machine.execFifoFstatLoad x s
  | .controlWindowRegStore x => Sys2Proof.Machine.execControlWindowRegStore x s
  | .waitWordLoad x y => Sys2Proof.Machine.execWaitWordLoad x y s
  | .fireWordStore x => Sys2Proof.Machine.execFireWordStore x s
  | .bindWordStore x => Sys2Proof.Machine.execBindWordStore x s
  | .eventMessage x => Sys2Proof.Machine.execEventMessage x s
  | .lockWordLoad x y => Sys2Proof.Machine.execLockWordLoad x y s
  | .lockWordStore x => Sys2Proof.Machine.execLockWordStore x s
  | .arriveWordLoad x y => Sys2Proof.Machine.execArriveWordLoad x y s
  | .maskWordStore x => Sys2Proof.Machine.execMaskWordStore x s
  | .syncRelease x y => Sys2Proof.Machine.execSyncRelease x y s
  | .groupRelease => Sys2Proof.Machine.execGroupRelease s
  | .syncBreak x y => Sys2Proof.Machine.execSyncBreak x y s
  | .exchangeFlitInject x => Sys2Proof.Machine.execExchangeFlitInject x s
  | .exchangeCount x => Sys2Proof.Machine.execExchangeCount x s
  | .exchangeCombineEnd x => Sys2Proof.Machine.execExchangeCombineEnd x s
  | .meshArrivalWrite x => Sys2Proof.Machine.execMeshArrivalWrite x s
  | .remoteLoadServe x => Sys2Proof.Machine.execRemoteLoadServe x s
  | .remoteLoadReply x => Sys2Proof.Machine.execRemoteLoadReply x s
  | .storeAck x => Sys2Proof.Machine.execStoreAck x s
  | .atomicExecute x => Sys2Proof.Machine.execAtomicExecute x s
  | .atomicReply x => Sys2Proof.Machine.execAtomicReply x s
  | .userInterruptEntry x => Sys2Proof.Machine.execUserInterruptEntry x s
  | .faultEntry x => Sys2Proof.Machine.execFaultEntry x s
  | .copyAccept x => Sys2Proof.Machine.execCopyAccept x s
  | .copyPiece x y z => Sys2Proof.Machine.execCopyPiece x y z s
  | .copyDestAck x y => Sys2Proof.Machine.execCopyDestAck x y s
  | .copyComplete x => Sys2Proof.Machine.execCopyComplete x s
  | .blockHash x => Sys2Proof.Machine.execBlockHash x s
  | .snapshotDelta x => Sys2Proof.Machine.execSnapshotDelta x s
  | .fieldPack x => Sys2Proof.Machine.execFieldPack x s
  | .fieldUnpack x => Sys2Proof.Machine.execFieldUnpack x s
  | .crc32c x => Sys2Proof.Machine.execCrc32c x s
  | .transformComplete x => Sys2Proof.Machine.execTransformComplete x s
  | .recordCloseTimeout x => Sys2Proof.Machine.execRecordCloseTimeout x s
  | .recordRingWrite x => Sys2Proof.Machine.execRecordRingWrite x s
  | .recordDispatch x => Sys2Proof.Machine.execRecordDispatch x s
  | .bindMessage x => Sys2Proof.Machine.execBindMessage x s
  | .bindAck x => Sys2Proof.Machine.execBindAck x s
  | .unbindMessage x => Sys2Proof.Machine.execUnbindMessage x s
  | .unbindAck x => Sys2Proof.Machine.execUnbindAck x s
  | .publicationArrival x => Sys2Proof.Machine.execPublicationArrival x s
  | .flagArrival x => Sys2Proof.Machine.execFlagArrival x s
  | .limitMessage x => Sys2Proof.Machine.execLimitMessage x s
  | .preemptionRequest x => Sys2Proof.Machine.execPreemptionRequest x s
  | .contextSave x => Sys2Proof.Machine.execContextSave x s
  | .resume x => Sys2Proof.Machine.execResume x s
  | .quarantine x y => Sys2Proof.Machine.execQuarantine x y s
  | .bandRemap x => Sys2Proof.Machine.execBandRemap x s
  | .powerOn => Sys2Proof.Machine.execPowerOn s
  | .frameReceive x y => Sys2Proof.Machine.execFrameReceive x y s
  | .miliumData x => Sys2Proof.Machine.execMiliumData x s
  | .miliumAck x => Sys2Proof.Machine.execMiliumAck x s
  | .miliumConnect x => Sys2Proof.Machine.execMiliumConnect x s
  | .miliumClose x => Sys2Proof.Machine.execMiliumClose x s
  | .miliumReset x => Sys2Proof.Machine.execMiliumReset x s
  | .retransmitTimeout x y => Sys2Proof.Machine.execRetransmitTimeout x y s
  | .ackDelayExpiry x y => Sys2Proof.Machine.execAckDelayExpiry x y s
  | .peerWindowAccess x y => Sys2Proof.Machine.execPeerWindowAccess x y s
  | .portMessage x y => Sys2Proof.Machine.execPortMessage x y s
  | .allReduce x y => Sys2Proof.Machine.execAllReduce x y s
  | .allGather x y => Sys2Proof.Machine.execAllGather x y s
  | .setGroup x y => Sys2Proof.Machine.execSetGroup x y s
  | .collectiveChunkArrival x y => Sys2Proof.Machine.execCollectiveChunkArrival x y s
  | .collectiveStepTimeout x y => Sys2Proof.Machine.execCollectiveStepTimeout x y s
  | .collectiveResetArrival x y => Sys2Proof.Machine.execCollectiveResetArrival x y s
  | .portCommandComplete x y => Sys2Proof.Machine.execPortCommandComplete x y s
  | .ptmrExpiry x => Sys2Proof.Machine.execPtmrExpiry x s
  | .keySlotStore x => Sys2Proof.Machine.execKeySlotStore x s
  | .measExtend x => Sys2Proof.Machine.execMeasExtend x s
  | .sdigWrite x => Sys2Proof.Machine.execSdigWrite x s
  | .mwgtStore x => Sys2Proof.Machine.execMwgtStore x s
  | .mslotStore x => Sys2Proof.Machine.execMslotStore x s
  | .tlbInvalidateStore x => Sys2Proof.Machine.execTlbInvalidateStore x s
  | .rootWordStore x => Sys2Proof.Machine.execRootWordStore x s
  | .launch x y z => Sys2Proof.Machine.execLaunch x y z s
  | .privilegedWrite x => Sys2Proof.Machine.execPrivilegedWrite x s
  | .taskSubmit x y => Sys2Proof.Machine.execTaskSubmit x y s
  | .queuePrefetch x => Sys2Proof.Machine.execQueuePrefetch x s
  | .taskAdmit x => Sys2Proof.Machine.execTaskAdmit x s
  | .versionRetire x y => Sys2Proof.Machine.execVersionRetire x y s
  | .taskCompletion x => Sys2Proof.Machine.execTaskCompletion x s
  | .tokenBucketTick => Sys2Proof.Machine.execTokenBucketTick s
  | .budgetPeriod x => Sys2Proof.Machine.execBudgetPeriod x s
  | .shareRatioTick => Sys2Proof.Machine.execShareRatioTick s
  | .compactionHold x => Sys2Proof.Machine.execCompactionHold x s
  | .getVersion x y => Sys2Proof.Machine.execGetVersion x y s
  | .getCapabilities x y => Sys2Proof.Machine.execGetCapabilities x y s
  | .negotiateAlgorithms x y => Sys2Proof.Machine.execNegotiateAlgorithms x y s
  | .getDigests x y => Sys2Proof.Machine.execGetDigests x y s
  | .getCertificate x y => Sys2Proof.Machine.execGetCertificate x y s
  | .challenge x y => Sys2Proof.Machine.execChallenge x y s
  | .getMeasurements x y => Sys2Proof.Machine.execGetMeasurements x y s
  | .memoryError x y => Sys2Proof.Machine.execMemoryError x y s
  | .powerLoss => Sys2Proof.Machine.execPowerLoss s
  | .linkStateChange x y z => Sys2Proof.Machine.execLinkStateChange x y z s

end Sys2Proof.Machine
end

