-- ==== Sys2Proof/Machine/Firmware.lean ====
section
/-!
DEFINITION. What system software of the control complex does to the ports by means that the spec does not give (spec/23 R378, R380, spec/25
R411, R414): which acts it takes, and when, is free (log entry 56).
-/
namespace Sys2Proof.Machine

/-- One act. An act that the state of the connection does not allow changes nothing. -/
def portAct (s : State) : Config.PortAct → State
  | .number p n => if p < 2 then s.modPort p (fun q => { q with mport := n.toNat }) else s
  | .arm p u a => if p < 2 then s.modPort p (fun q => { q with armed := (u.toNat, a) :: q.armed.filter (fun e => e != (u.toNat, a)) }) else s
  | .disarm p u a => if p < 2 then s.modPort p (fun q => { q with armed := q.armed.filter (fun e => e != (u.toNat, a)) }) else s
  | .connect p c a i r v =>
    if p < 2 ∧ c < 1024 ∧ (s.connAt p c).isNone ∧ 4 ≤ r ∧ r ≤ 1000 ∧ v.all (fun t => decide (1 ≤ t.1.toNat) && decide (t.1.toNat ≤ 4094)) then
      sendConnect (s.setConn p c { st := .opening, addr := a, vtag := v.map (fun t => (t.1.toNat, t.2.toNat)), ipsn := i.toNat, nxt := i.toNat, rto := r, cur := r, deadline := s.cyc + r * usCyc }) p c
    else s
  | .close p c =>
    match s.connAt p c with
    | some k =>
      if p < 2 ∧ k.st = .opened ∧ k.una.isEmpty ∧ k.wait.isEmpty then
        emit (s.setConn p c { k with st := .closing, cur := k.rto, expiries := 0, deadline := s.cyc + k.rto * usCyc }) (k.ctlOut p 3 k.peer [])
      else s
    | none => s
  | .abort p c =>
    match s.connAt p c with
    | some k => if p < 2 ∧ k.open then failConn (sendReset s p k 3) p c else s
    | none => s
  | .bindQueue p c q => if p < 2 ∧ c < 1024 ∧ q < 4096 then { s with qbind := mset s.qbind (p * 1024 + c) q } else s
  | .manage p c => if p < 2 ∧ c < 1024 ∧ !s.mgmt.contains (p * 1024 + c) then { s with mgmt := (p * 1024 + c) :: s.mgmt } else s

/-- The act, if any, that follows a step of a powered device, with the signed responses that are ready. -/
def firmware (s : State) : State :=
  if s.powered then sendSigned (match Config.portAct s.stepNo with
    | some a => portAct s a
    | none => s) else s

end Sys2Proof.Machine
end

