-- ==== Sys2Proof/Machine/FetchStep.lean ====
section
/-!
DEFINITION. Fetching and decoding the instruction at a context's PC (spec/04 R68 to R73), the causes that a fetch raises,
the turn of a context, and the clock and turn that follow every step.
-/
namespace Sys2Proof.Machine

/-- What a fetch gives: an instruction with its fields, or a cause. -/
inductive FetchRes where
  | ok (i : Instr) (f : Fetched)
  | cause (c : Nat) (v : Word) (f : Fetched)
  deriving DecidableEq, Repr

/-- Fetch and decode at the context's PC. A halfword beyond the slice raises `window` with its address (R71); then the decode checks, which come
before every other cause (R70), the guard of a fetch (spec/06 R132) and an uncorrectable word. Checks that are made where the instruction stands
come before the guard too: the instruction is fetched as refused. The halfwords of an uncorrectable word cannot be
checked, so that word comes before a check that fails there (DEDUCED, log entry 13). -/
def fetch (s : State) (w : Who) : FetchRes :=
  let pc := (s.pcOf w).toNat
  let size := localSize w.i
  let hs := fetchRun s w 5 pc
  let lost (n : Nat) : Option Nat := badAt s.bad (localBase w.i + pc) (2 * n) (fun _ => false)
  let granted (n : Nat) : Bool := guardOk (s.coreAt w.i) .fetch pc (2 * n)
  let refused (n : Nat) : Option FetchRes :=
    if !granted n then some (.cause cPriv (w64 pc) {})
    else (lost n).map (fun k => .cause cDatauc (w64 ((pc + k) / 8 * 8)) {})
  match decode ⟨kindOf w.i, w.c != 0⟩ hs with
  | .short => .cause cWindow (if pc < size then w64 size else w64 pc) {}
  | .illegal rsn page npfx hw =>
    let illegal : FetchRes :=
      .cause cIllegal (w64 (page * 2 ^ 24 + rsn * 2 ^ 20 + npfx * 2 ^ 16 + hw.toNat)) ⟨npfx + 1, page, npfx, hw, none⟩
    if (lost (npfx + 1)).isNone then illegal else (refused (npfx + 1)).getD illegal
  | .ok i len page npfx hw =>
    let f : Fetched := ⟨len, page, npfx, hw, if granted len then none else some (cPriv, w64 pc)⟩
    if (lost len).isNone then .ok i f else (refused len).getD (.ok i f)

/-- The fetch buffer after an instruction of `len` halfwords: those halfwords and up to 64 more, each as the buffer or the
slice holds it now (spec/04 R73). -/
def refill (s : State) (w : Who) (len : Nat) : State :=
  let pc := (s.pcOf w).toNat
  let n := len + Config.fetchAhead s.stepNo % 65
  let hs := fetchRun s w n pc
  s.modCtx w (fun x => { x with fbuf := hs.zipIdx.map (fun e => (pc + 2 * e.2, e.1)) })

/-- Members at which the running context issues: its gang, or itself. -/
def members (s : State) : List Who :=
  match (s.coreAt s.curCore).gang with
  | some (l, n) => if s.curCtx = 0 then (List.range n).map (fun r => ⟨l + 64 * r, 0, l⟩) else []
  | none => [self s]

/-- A member would not issue: a cause of the fetch waits. -/
def fetchHeld (s : State) : Bool := (members s).any (fun w => !runs (s.coreAt w.i) w.c || (s.coreAt w.i).inSlip w.c)

/-- A cause of the fetch is taken at every member that would have issued, at the address that the leader fetches (spec/04 R70); in slipstream
it stalls (spec/08 R156). A member that traps keeps its `st.gf` (spec/03 R42). -/
def fetchTrap (s : State) (c : Nat) (v : Word) : State :=
  let ms := members s
  if fetchHeld s then s
  else match ms with
    | [w] => takeTrap s w c v (s.pcOf w)
    | _ =>
      let s := alignGang ms s
      keepGf s (ms.foldl (fun t w => takeTrap t w c v (s.pcOf w)) s) (ms.map (·.i))

/-- First boundary event among the members of the issuing context. -/
def boundaryHere (s : State) : Option State :=
  if s.curCtx = 0 then (members s).findSome? (fun w => boundary s w.i) else helperKept s s.curCore s.curCtx

/-- The control context of a gang's follower, which does not fetch (spec/03 R40). -/
def follows (s : State) : Bool := s.curCtx == 0 && (s.coreAt s.curCore).gang.any (fun g => g.1 != s.curCore)

/-- The value with which a lulled load completes whose event came in a freeze or a lag that is over (spec/03 R38, spec/21 R354). -/
def thawed (s : State) (i c : Nat) : Option Word :=
  let k := s.coreAt i
  if k.run == .running && (c == 0 || (vget k.helpers (c - 1) {}).live) then
    (k.ctx c).lull.bind (fun l => if lullGoes s (logAccess s ⟨i, c, i⟩ 0 2 (w64 l.on.addr) 4 0) i c then l.due else none)
  else none

/-- The rotation of the helpers stands at the helper that issues (spec/03 R38). -/
def turned (s : State) : State :=
  if s.curCtx = 0 then s else s.modCore s.curCore (fun k => { k with rot := s.curCtx - 1 })

/-- The context whose turn it is, with the instruction `f` in its fetch buffer, about to issue. -/
def prepared (s : State) (f : Fetched) : State := { turned (refill s (self s) f.len) with cur := f }

/-- The instruction of the context whose turn it is, or what its boundary takes before it; or what software of the control complex does by other
means. -/
def contextStep (s : State) : Outcome :=
  match softwareTurn s s.curCore with
  | some s' => .next s'
  | none =>
  match thawed s s.curCore s.curCtx with
  | some v => .next (completeLull s s.curCore s.curCtx v)
  | none =>
    if follows s then .next s
    else match boundaryHere s with
      | some s' => .next s'
      | none =>
        if !runs (s.coreAt s.curCore) s.curCtx then .next s
        else match fetch s (self s) with
          | .cause c v f => .next (fetchTrap { s with cur := f } c v)
          | .ok i f => exec i (prepared s f)

/-- The context whose turn it is would not wait: it issues, or its boundary takes something. -/
def acts (s : State) : Bool :=
  (thawed s s.curCore s.curCtx).isSome || (!follows s && ((boundaryHere s).isSome || (runs (s.coreAt s.curCore) s.curCtx &&
    (match fetch s (self s) with
      | .cause _ _ _ => !fetchHeld s
      | .ok i f => match exec i (prepared s f) with
        | .next t => decide (t ≠ prepared s f)
        | _ => true))))

/-- Contexts of a core in the order in which they may issue (spec/03 R38): the control context, and the helpers from the one after the helper
that issued last. -/
def turnOrder (k : Core) : List Nat := 0 :: (List.range 10).map (fun j => (k.rot + 1 + j) % 10 + 1)

/-- The context of the current core that has the turn (spec/03 R38, R58): one whose lulled load a freeze held back, or the first that is
ready. -/
def nextCtx (s : State) : Nat :=
  let order := turnOrder (s.coreAt s.curCore)
  match order.find? (fun c => (thawed s s.curCore c).isSome) with
  | some c => c
  | none => (order.find? (fun c => !Config.stalled s.stepNo c && acts { s with curCtx := c })).getD 0

/-- After a step: its number, the cycles that it took, and who acts next, which the spec fixes only within a core (log entries 4 and 5), and
what system software does to the ports, with the accesses, if any are in flight, that fail with a connection which it aborts (spec/23 R379, R382). -/
def tick (s : State) : State :=
  let f := firmware s
  let g := if s.sysOut.isEmpty then s else f
  let t : State := { s with
    ports := f.ports
    out := f.out
    sysOut := g.sysOut
    cores := g.cores
    copies := g.copies
    mesh := g.mesh
    nextId := g.nextId
    qbind := f.qbind
    mgmt := f.mgmt
    spdm := f.spdm
    stepNo := s.stepNo + 1
    cyc := s.cyc + Config.elapsed s.stepNo
    newCyc := Config.elapsed s.stepNo != 0
    event := Config.eventAt s.stepNo
    curCore := Config.coreAt s.stepNo }
  { t with curCtx := nextCtx t }

/-- The clock and the turn after an outcome. -/
def ticked : Outcome → Outcome
  | .next s => .next (tick s)
  | .fault f => .fault f
  | .refused r => .refused r

/-- Power comes first: without it nothing acts but POWER_ON (spec/25 R407). -/
def isPowerOn : Instr → Bool
  | .powerOn => true
  | _ => false

/-- Store bytes into a list of cells. -/
def halfBytes : List Half → List Byte
  | [] => []
  | h :: t => BitVec.ofNat 8 h.toNat :: BitVec.ofNat 8 (h.toNat / 256) :: halfBytes t

/-- The core that fetches a row of the opcode table: memory core 0 for page 6, otherwise worker (0, 0). -/
def tableCore (hs : List Half) : Nat :=
  match tableKind hs with
  | .memory => 4096
  | _ => 0

/-- The context that fetches it: helper 0 for `hexit`, otherwise the control context. -/
def tableCtx (hs : List Half) : Nat := if tableHelper hs then 1 else 0

/-- That context of a core, launched and with nothing in its fetch buffer. -/
def tableReady (k : Core) (c : Nat) : Core :=
  let k := if c = 0 then k else { k with helpers := vput k.helpers (c - 1) { vget k.helpers (c - 1) {} with live := true } }
  { (k.setCtx c { k.ctx c with fbuf := [] }) with run := .running }

end Sys2Proof.Machine
end

