-- ==== Sys2Proof/Machine/Step.lean ====
section
/-!
DEFINITION. One step of the device: a hardware event, or the next instruction of the context whose turn it is; then the clock
and the turn move on.
-/
namespace Sys2Proof.Machine

/-- One step: the hardware event that acts, or else the context whose turn it is. -/
def step (s : State) : Host.Outcome State Fault Refusal :=
  match s.event with
  | some e => if s.powered || isPowerOn e then ticked (exec e s) else .next (tick s)
  | none => if s.powered then ticked (contextStep s) else .next (tick s)

/-- `s` with a row's instruction, zeros after it, at the PC of a launched core's context whose turn it is. -/
def State.withFetchWord (s : State) (nbits w : Nat) : State :=
  let hs := tableHalves nbits w
  let i := tableCore hs
  let c := tableCtx hs
  let k := s.coreAt i
  { s.setCore i (tableReady k c) with
    powered := true, event := none, curCore := i, curCtx := c,
    mem := wrBs s.mem (localBase i + (k.ctx c).pc.toNat) (halfBytes hs) }

end Sys2Proof.Machine
end

