-- ==== Sys2Proof/Safety.lean ====
section
/-!
DEFINITION. The terms in which statements speak of the machine: when the context whose turn it is can issue an instruction, what an
instruction leaves unchanged, and the form that every run keeps.
-/
namespace Sys2Proof.Machine

/-- Nothing holds `i` at context `w`, which is bound to no lifeguard (that form has statements of its own): it runs, may execute `i` where it
stands (spec/04 Table 4.7), waits for no register that `i` names, for no acquire and for no divider (spec/05 R81), does not capture a body, and
neither the sequencer nor the slipstream holds `i` (spec/13 R248, spec/09 Table 9.2); the fetch of `i` was granted (spec/06 R132). -/
def unheld (s : State) (w : Who) (i : Instr) : Bool :=
  let k := s.coreAt w.i
  k.bound.isNone && runs k w.c && (permit w i).isNone &&
  !((k.ctx w.c).pend.any (fun r => (namedRegs w i).contains r)) && !divHolds s w i (namedRegs w i) && !acquiring s w && s.cur.refused.isNone &&
  !(w.c == 0 && k.seqr.toCap != 0) && !(k.seqr.busy && seqHolds i) && !(k.inSlip w.c && slipStalls i)

/-- The context whose turn it is can issue `i` by itself now: it is in no gang, and nothing holds `i`. -/
def ready (s : State) (i : Instr) : Bool := (s.coreAt s.curCore).gang.isNone && unheld s (self s) i

/-- The leader `lead` of a gang of `n`, whose turn it is, can issue `i` for every member (spec/03 R42): nothing holds `i` at any of them, and the
gang formed in an earlier cycle. -/
def gangReady (s : State) (lead n : Nat) (i : Instr) : Prop :=
  s.curCore = lead ∧ s.curCtx = 0 ∧ 0 < n ∧ lead + 64 * (n - 1) < 4096 ∧
  ∀ r, r < n → (s.coreAt (lead + 64 * r)).gang = some (lead, n) ∧ ganging s ⟨lead + 64 * r, 0, lead⟩ = false ∧
    unheld s ⟨lead + 64 * r, 0, lead⟩ i = true

/-- Nothing outside core `i` differs, and no byte of memory does. -/
def sameRest (s t : State) (i : Nat) : Prop :=
  { t with cores := s.cores } = s ∧ (∀ j, j ≠ i → t.coreAt j = s.coreAt j) ∧ (∀ a, rdB t.mem a = rdB s.mem a)

/-- Within a core only context `c` differs, the marks of an exchange that it did not join (spec/03 R45, R47), the division that stands in the divider
(spec/05 R81), and the plug-in timer (spec/25 R399). -/
def coreRest (k k' : Core) (c : Nat) : Prop :=
  k' = { k.setCtx c (k'.ctx c) with
    exReady := k'.exReady, exMiss := k'.exMiss, exEarly := k'.exEarly, div := k'.div, ptmr := k'.ptmr, ptmrDue := k'.ptmrDue }

/-- Within a context only g registers, PC and loop stack differ. -/
def ctxRest (x y : Ctx) : Prop := y = { x with g := y.g, pc := y.pc, loops := y.loops }

/-- Every register but those of `ds` keeps its value. -/
def regsExcept (s t : State) (w : Who) (ds : List Reg) : Prop := ∀ r, r ∉ ds → t.rd w r = s.rd w r

/-- The context goes on after its instruction, at a loop's end as spec/05 R91 says. -/
def fellOn (s t : State) (w : Who) : Prop :=
  (t.ctxAt w).pc = (loopEnd (s.ctxAt w).loops (s.fall w)).2 ∧ (t.ctxAt w).loops = (loopEnd (s.ctxAt w).loops (s.fall w)).1

/-- From `s` to `t` only context `w` differs, and there only g registers, PC and loop stack. -/
def onlyCtx (s t : State) (w : Who) : Prop :=
  ctxRest (s.ctxAt w) (t.ctxAt w) ∧ coreRest (s.coreAt w.i) (t.coreAt w.i) w.c ∧ sameRest s t w.i

/-- The instruction goes on, and from `s` to `t` nothing else differs. -/
def goesOn (s t : State) (w : Who) : Prop := regsExcept s t w [] ∧ fellOn s t w ∧ onlyCtx s t w

/-- The instruction writes `v` to register `d` (nothing, where `d` is `g0`) and goes on; from `s` to `t` nothing else differs. -/
def writesReg (s t : State) (w : Who) (d : Reg) (v : Word) : Prop :=
  t.rd w d = (if d = 0 then 0 else v) ∧ regsExcept s t w [d] ∧ fellOn s t w ∧ onlyCtx s t w

/-- The instruction moves the PC to `pc` with the loop stack `ls`; from `s` to `t` nothing else differs. -/
def jumpsTo (s t : State) (w : Who) (pc : Word) (ls : List Loop) : Prop :=
  regsExcept s t w [] ∧ (t.ctxAt w).pc = pc ∧ (t.ctxAt w).loops = ls ∧ onlyCtx s t w

/-- `i` is ready at `s`: then it answers a next state, writes `v` to register `d` and goes on, and nothing else differs. -/
def givesReg (s : State) (i : Instr) (d : Reg) (v : Word) : Prop :=
  ready s i = true → ∃ t, exec i s = .next t ∧ writesReg s t (self s) d v

/-- `i` is ready at `s`: then it answers a next state that differs from `s1` by nothing but that it goes on. -/
def givesState (s : State) (i : Instr) (s1 : State) : Prop :=
  ready s i = true → ∃ t, exec i s = .next t ∧ goesOn s1 t (self s)

/-- `i` is ready at `s`: then it answers a next state and moves the PC to `pc` with the loop stack `ls`; from `s1` nothing else differs. -/
def givesJump (s : State) (i : Instr) (s1 : State) (pc : Word) (ls : List Loop) : Prop :=
  ready s i = true → ∃ t, exec i s = .next t ∧ jumpsTo s1 t (self s) pc ls

/-- The control context of core `i` has taken `cause` with `val` and `trap.pc` := `pc` into the bank of level `lvl`: what spec/08 R151 and
spec/25 R397 say of the saved registers, the status, the level and the PC, the exchange-ready state ends (spec/03 R45), and the context's division has
landed (log entry 58); nothing else differs. -/
def trapTaken (s t : State) (i lvl cause : Nat) (val pc : Word) : Prop :=
  let k := s.coreAt i
  let k' := t.coreAt i
  let b := vget k.banks lvl {}
  sameRest s t i ∧
  k' = { k with
    lvl := BitVec.ofNat 2 lvl
    banks := vput k.banks lvl { b with
      pc := pc, cause := BitVec.ofNat 8 cause, val := val, plv := k.lvl, tn := true, ls := !k.ctl.loops.isEmpty, held := k.ctl.loops }
    ctl := { k.ctl with pc := w64 (bits b.vec 1 17 * 2), loops := [], fbuf := [], gated := false }
    exReady := none, exMiss := k.dropReady.exMiss, exEarly := k.dropReady.exEarly, gangWait := none
    div := if k.div.any (·.c == 0) then none else k.div, ptmr := k'.ptmr, ptmrDue := k'.ptmrDue }

/-- The bank that a trap of core `i` enters: its own level's, or the next lower one's on a control core (spec/25 R397). -/
def trapLevel (s : State) (i : Nat) : Nat :=
  if kindOf i = .control then (s.coreAt i).level - 1 else (s.coreAt i).level

/-- A trap can be entered: none is in progress, and traps are enabled (spec/08 R152). -/
def trapOpen (s : State) (i : Nat) : Prop :=
  let b := vget (s.coreAt i).banks (trapLevel s i) {}
  b.tn = false ∧ bit b.vec 0 = true

/-- `i` raises `cause` at its ready control context, outside slipstream, with no `quarantine` pending (spec/08 R155) and with traps open: then it answers
the state after trap entry. -/
def givesTrap (s : State) (i : Instr) (cause : Nat) (val pc : Word) : Prop :=
  ready s i = true → s.curCtx = 0 → (s.coreAt s.curCore).slip = none → (s.coreAt s.curCore).quar = none → trapOpen s s.curCore →
    ∃ t, exec i s = .next t ∧ trapTaken s t s.curCore (trapLevel s s.curCore) cause val pc

/-- `i` loads `n` bytes of the own slice (buffer, local memory) into `o.a`, extended by `ext`, with the post-increment that `o` asks for; the
bytes and the read mark are those of spec/09 R169 in slipstream. -/
def loadsOwn (s : State) (i : Instr) (o : Mem) (n : Nat) (ext : Nat → Word) : Prop :=
  let w := self s
  let a := s.rd w o.b
  let v := ext (leNat (sliceRd s w a.toNat n))
  let s1 := sliceMark s w a.toNat n
  ready s i = true → i.wf = true → a.toNat + n ≤ localSize w.i → guardOk (s.coreAt w.i) .load a.toNat n = true → a.toNat % n = 0 →
  sliceBad s w a.toNat n = none →
    ∃ t, exec i s = .next t ∧
      (o.pinc = false → writesReg s1 t w o.a v) ∧
      (o.pinc = true → writesReg (s1.wr w o.a v) t w o.b (a + BitVec.ofNat 64 n))

/-- `i` stores the low `n` bytes of `o.a` at the own slice, outside slipstream, with the post-increment that `o` asks for: exactly those bytes of
memory differ. -/
def storesOwn (s : State) (i : Instr) (o : Mem) (n : Nat) : Prop :=
  let w := self s
  let a := s.rd w o.b
  let f := localBase w.i + a.toNat
  let s1 := put s f (natLE n (s.rd w o.a).toNat) (0, 0)
  ready s i = true → slipOf (s.coreAt w.i) w.c = none → a.toNat + n ≤ localSize w.i →
  guardOk (s.coreAt w.i) .store a.toNat n = true → a.toNat % n = 0 →
    ∃ t, exec i s = .next t ∧
      (o.pinc = false → goesOn s1 t w) ∧
      (o.pinc = true → writesReg s1 t w o.b (a + BitVec.ofNat 64 n)) ∧
      ∀ x, rdB t.mem x = if f ≤ x ∧ x < f + n then BitVec.ofNat 8 ((s.rd w o.a).toNat / 256 ^ (x - f)) else rdB s.mem x

/-- `i` loads `v` from a window word of `n` bytes: from `s1` only `o.a` and a post-incremented `o.b` differ. -/
def loadsWin (s : State) (i : Instr) (o : Mem) (n : Nat) (s1 : State) (v : Word) : Prop :=
  let w := self s
  let a := s.rd w o.b
  ready s i = true → guardOk (s.coreAt w.i) .load a.toNat n = true → (s.coreAt w.i).inSlip w.c = false →
    ∃ t, exec i s = .next t ∧
      (o.pinc = false → writesReg s1 t w o.a v) ∧
      (o.pinc = true → o.a ≠ o.b → writesReg (s1.wr w o.a v) t w o.b (a + BitVec.ofNat 64 n))

/-- `i` stores to a window word of `n` bytes: from `s1` only a post-incremented `o.b` differs. -/
def storesWin (s : State) (i : Instr) (o : Mem) (n : Nat) (s1 : State) : Prop :=
  let w := self s
  let a := s.rd w o.b
  ready s i = true → guardOk (s.coreAt w.i) .store a.toNat n = true → (s.coreAt w.i).inSlip w.c = false →
    ∃ t, exec i s = .next t ∧
      (o.pinc = false → goesOn s1 t w) ∧
      (o.pinc = true → writesReg s1 t w o.b (s1.rd w o.b + BitVec.ofNat 64 n))

/-- `i` is ready and holds its context on `on`: it has not completed, and nothing else of the context differs from `s1`. -/
def lullsOn (s : State) (i : Instr) (o : Mem) (s1 : State) (on : LullOn) : Prop :=
  let w := self s
  let a := s.rd w o.b
  ready s i = true → guardOk (s.coreAt w.i) .load a.toNat 4 = true → (s.coreAt w.i).inSlip w.c = false →
    ∃ t, exec i s = .next t ∧ sameRest s1 t w.i ∧ regsExcept s t w [] ∧ t.pcOf w = s.pcOf w ∧
      (t.ctxAt w).lull = some { on := on, rd := o.a, inc := if o.pinc then some o.b else none, next := s.fall w }

/-- `i` writes lanes of type `t` of v register `d`: those that `m` selects take `f`, the others keep their bits, and what lies above the
lanes becomes 0 (spec/13 R219, spec/11 R191). From `s1` nothing else differs. -/
def givesLanes (s : State) (i : Instr) (s1 : State) (d : Reg) (t : ETy) (m : Nat → Bool) (f : Nat → Nat) : Prop :=
  ∃ v : VWord, givesState s i (s1.setV (self s) d v) ∧
    (∀ l, l < laneN t → lane v (laneW t) l = if m l then f l % 2 ^ laneW t else lane (s.vr (self s) d) (laneW t) l) ∧
    ∀ b, laneN t * laneW t ≤ b → v.getLsbD b = false

/-- Messages that a connection carries and that are not acknowledged, oldest first: those sent and those that wait (spec/23 R379). -/
def queuedOn (s : State) (p c : Nat) : List Msg :=
  match s.connAt p c with
  | some k => k.una.map (·.2) ++ k.wait
  | none => []

/-- The packets of a message on a connection: what does not fit one payload is cut (spec/23 R380). -/
def cutOn (s : State) (p c : Nat) (m : Msg) : List Msg :=
  match s.connAt p c with
  | some k => k.cut m
  | none => []

/-- Port `p` has a connection `c` that carries messages. -/
def carries (s : State) (p c : Nat) : Bool :=
  match s.connAt p c with
  | some k => k.live
  | none => false

/-! ## The decode checks of spec/04 Table 4.7, on the fields of an instruction -/

/-- The fields of an instruction's halfwords as numbers: page, op, a and b (spec/04 Table 4.1), the payloads of PFX.Q and PFX.R where they stand, and
those of the PFX.I in order (Table 4.4). -/
structure Fields where
  page : Nat
  op : Nat
  a : Nat
  b : Nat
  q : Option Nat
  r : Option Nat
  pays : List Nat
  deriving DecidableEq, Repr

/-- The fields of prefixes `ps` before the base word `h`. -/
def Fields.of (ps : List Half) (h : Half) : Fields :=
  let first (op : Nat) : Option Nat := (ps.find? (fun p => p.toNat / 1024 == op)).map (fun p => p.toNat % 1024)
  { page := (first 62).getD 0, op := h.toNat / 1024, a := h.toNat / 32 % 32, b := h.toNat % 32, q := first 63, r := first 61
    pays := (ps.filter (fun p => p.toNat / 1024 == 60)).map (fun p => p.toNat % 1024) }

namespace Fields
/-- PFX.Q's payload, read as 0 when absent (R64), and the fields that every page-1 instruction gives it (spec/13 Table 13.1). -/
def qv (f : Fields) : Nat := f.q.getD 0
def ty (f : Fields) : Nat := f.qv % 16
def mid (f : Fields) : Nat := f.qv / 16 % 8
def rnd (f : Fields) : Nat := f.qv / 32 % 4
/-- PFX.R's payload, read as 0 when absent, and its c, mask and size class. -/
def rv (f : Fields) : Nat := f.r.getD 0
def c (f : Fields) : Nat := f.rv / 32
def mask (f : Fields) : Nat := f.rv / 4 % 8
def sz (f : Fields) : Nat := f.rv % 4
/-- The immediate of an RI form (R60). -/
def imm (f : Fields) : Nat := f.pays.foldl (fun x p => x * 1024 + p) 0 * 32 + f.b

/-- `page` and one of `ops`. -/
def on (f : Fields) (page : Nat) (ops : List Nat) : Bool := f.page == page && ops.contains f.op

/-- The ops from `lo` to `hi`. -/
def span (lo hi : Nat) : List Nat := (List.range (hi + 1)).filter (fun n => lo ≤ n)

/-- The two forms of `vmov` that name a mask register (R224). -/
def maskMove (f : Fields) : Bool := f.on 1 [0] && f.rnd != 0

/-- Check 8: a reserved op, or a reserved value of a field that selects the operation. -/
def check8 (f : Fields) : Bool :=
  (f.page == 1 && !(span 0 18 ++ span 20 24 ++ span 28 38 ++ [40, 41, 42, 44, 45, 46, 48, 49, 50, 56, 57, 58]).contains f.op) ||
  (f.page == 2 && !(span 0 12 ++ [48, 49]).contains f.op) ||
  (f.page == 3 && !([1, 2] ++ span 6 22 ++ span 32 37 ++ span 39 44 ++ span 48 51).contains f.op) ||
  (f.page == 4 && 6 ≤ f.op) || (f.page == 5 && !(span 0 7 ++ [16, 17, 32, 33]).contains f.op) || (f.page == 6 && 7 ≤ f.op) ||
  (f.on 0 [0] && 6 ≤ f.b) || (f.on 0 [28] && 6 ≤ f.qv % 8) || (f.on 0 [51] && f.qv % 4 == 3) ||
  (f.on 1 [0] && f.rnd == 3) || (f.on 1 [16] && 5 ≤ f.mid) || (f.on 3 [43] && f.b / 8 == 3)

/-- Check 9: a prefix of a kind that the instruction does not accept. -/
def check9 (f : Fields) : Bool :=
  (f.q.isSome && !(f.on 0 ([28, 51] ++ span 40 50) || (f.page == 1 && f.op != 56) || f.on 2 [2, 5, 7] || f.on 3 ([1, 2, 40] ++ span 6 19) ||
    f.on 6 [3])) ||
  (f.r.isSome && !(f.on 0 (span 1 21 ++ [23] ++ span 25 31 ++ [39, 52, 53, 54]) || (f.page == 1 && !f.maskMove && f.op ≤ 50) || f.on 2 [0, 1, 2] ||
    f.on 3 ([1, 2] ++ span 6 18) || f.on 6 (span 0 3))) ||
  (!f.pays.isEmpty && !(f.on 0 (span 23 27 ++ span 30 39 ++ [52, 53] ++ span 55 59) || f.on 3 [32] || f.on 4 [0, 1, 2]))

/-- Types that a page-1 instruction accepts (spec/13 R220, Table 13.2, R245), by their codes. -/
def types (f : Fields) : List Nat :=
  let wide := span 0 3 ++ span 8 14
  if [4, 5, 20, 21, 22, 23, 24].contains f.op then [0, 1]
  else if [1, 2, 3, 6, 7, 8, 9].contains f.op then [0, 1] ++ span 8 14
  else if [13, 14, 15].contains f.op then span 8 14
  else if [29, 30, 31].contains f.op then [2, 3, 4, 5, 6, 9]
  else if [33, 34, 40, 42, 44, 46].contains f.op then wide
  else if [37, 38].contains f.op then span 0 3 ++ span 8 13
  else if [41, 45, 48].contains f.op then [15]
  else if f.op = 49 then [6, 8, 9, 10, 11]
  else if f.op = 50 then [8, 9]
  else if 57 ≤ f.op then [0]
  else span 0 14

/-- Roundings that a page-1 instruction accepts (spec/13 R220, R229, R230, R243): 3 is reserved, and an integer result takes 0 alone. -/
def roundings (f : Fields) : List Nat :=
  if f.op = 48 then [0, 2]
  else if [4, 5, 20, 21, 22, 23, 24, 30, 45].contains f.op || ([1, 2, 3].contains f.op && f.ty ≤ 1) || (f.op == 28 && [0, 1, 2, 3, 4, 5].contains f.ty) ||
    (f.op == 29 && [2, 3, 4, 5].contains f.ty) then [0, 1, 2]
  else [0]

/-- Whether a page-1 instruction accepts `.sat`. -/
def satOk (f : Fields) : Bool :=
  [1, 2, 3, 4, 5, 20, 21, 22, 23, 24, 28, 29, 32, 45, 48, 49].contains f.op || ([8, 9].contains f.op && 8 ≤ f.ty)

/-- Part of check 10 for the page-1 instructions whose PFX.Q is that of Table 13.1. -/
def vector10 (f : Fields) : Bool :=
  !f.types.contains f.ty ||
  -- bits [6:4]: a condition of `vcmp`, an operation of `vred` in [6:5], otherwise rounding and `.sat`
  (f.op == 16 && f.mid == 4 && 5 ≤ f.ty) || (f.op != 16 && f.op != 32 && !f.roundings.contains f.rnd) ||
  (f.op != 16 && f.mid % 2 == 1 && !f.satOk) ||
  -- stagger of a, b and c
  (f.qv / 512 == 1 && [16, 35, 57, 58].contains f.op) || (f.qv / 256 % 2 == 1 && [18, 36, 41, 45, 48, 50, 57, 58].contains f.op) ||
  (f.qv / 128 % 2 == 1 && (f.r.isNone ||
    !([1, 2, 3, 4, 5, 6, 7, 10, 11, 12, 13, 14, 15, 16, 17, 33, 38, 41, 42, 45, 46, 48, 49].contains f.op))) ||
  -- PFX.R
  (f.c != 0 && [0, 8, 9, 18, 20, 21, 22, 23, 24, 31, 32, 37, 40, 44].contains f.op) || (f.mask != 0 && [35, 36, 50].contains f.op) ||
  (f.sz != 0 && !([28, 29, 30, 31, 40, 41, 44, 45].contains f.op)) ||
  ([29, 30, 31].contains f.op && (f.sz == 3 || (f.sz != 0 && !([2, 3, 4].contains f.ty)))) ||
  (f.op == 28 && f.r.isSome && (f.c % 16 == 15 || f.c % 16 == f.ty))

/-- Check 10: an undefined bit, a reserved value, or one that the instruction does not accept, in a prefix. -/
def check10 (f : Fields) : Bool :=
  (f.page == 0 && f.op != 54 && f.rv % 32 != 0) || (f.on 0 [54] && f.mask != 0) || (f.on 0 [28] && 8 ≤ f.qv) || (f.on 0 [51] && 4 ≤ f.qv) ||
  (f.on 0 (span 40 50) && 2 ≤ f.qv) ||
  (f.page == 1 && f.op != 56 && !f.maskMove && f.vector10) || (f.maskMove && f.qv != 32 && f.qv != 64) ||
  (f.page == 2 && f.rv % 32 != 0) || (f.on 2 [2] && 4 ≤ f.qv) || (f.on 2 [5] && 32 ≤ f.qv) || (f.on 2 [7] && 2 ≤ f.qv) ||
  (f.on 3 [1, 2] && (4 ≤ f.rv || 32 ≤ f.qv || (f.qv != 0 && (f.qv / 4 != f.op || f.qv % 4 == 0)))) ||
  (f.on 3 (span 6 18) && (16 ≤ f.qv || f.mask != 0 || 2 ≤ f.sz || (f.op == 14 && f.r.isSome && f.sz == 0))) ||
  (f.on 3 [19] && (f.qv < 4 || 20 ≤ f.qv)) || (f.on 3 [40] && 2 ≤ f.qv) ||
  (f.page == 6 && (f.rv % 32 != 0 || 2 ≤ f.qv))

/-- The g registers that a, b and c fields of the instruction name. -/
def named (f : Fields) : List Nat :=
  let abc := [f.a, f.b, f.c]
  let ac := [f.a, f.c]
  let ab := [f.a, f.b]
  match f.page with
  | 0 =>
    if f.op = 0 then (if f.b = 3 ∨ f.b = 4 then [f.a] else [])
    else if f.op ≤ 21 ∨ [28, 29, 54].contains f.op then abc
    else if f.op = 22 ∨ f.op = 51 ∨ (span 40 50).contains f.op then ab
    else if [32, 38, 58].contains f.op then []
    else ac
  | 1 =>
    if f.op = 0 then (if f.rnd = 1 then [f.b] else if f.rnd = 2 then [f.a] else [])
    else if [18, 40, 42, 44, 46].contains f.op then [f.b]
    else if [29, 30, 34].contains f.op then [f.c]
    else if f.op = 35 then ac
    else if [36, 41, 45, 48].contains f.op then [f.b, f.c]
    else if f.op = 56 ∨ f.op = 57 then [f.a]
    else []
  | 2 => if f.op = 0 ∨ f.op = 1 then abc else if f.op = 2 then [f.b, f.c] else if f.op = 6 ∨ f.op = 48 then ab
    else if [4, 5, 7].contains f.op then [f.b] else if f.op = 49 then [f.a] else []
  | 3 => if (span 6 18).contains f.op then abc else if [1, 2, 35, 49].contains f.op then ab
    else if [20, 21, 22, 32, 33, 42, 43, 51].contains f.op then [f.a] else if f.op = 41 ∨ f.op = 48 then [f.b] else []
  | 4 => if f.op ≤ 1 then [f.a] else []
  | 5 => if [0, 2, 5, 6, 16, 32, 33].contains f.op then ab else if [1, 4, 17].contains f.op then [f.a] else []
  | _ => if f.op ≤ 3 then abc else if 5 ≤ f.op then [f.a] else []

/-- Part of check 11: the number of a control register (spec/06 Table 6.12, spec/18 R324, spec/25 R399). -/
def control11 (x : DecCtx) (f : Fields) : Bool :=
  57 ≤ f.imm || f.imm == 39 || (x.kind == .worker && f.imm == 56) ||
  (x.kind == .memory && !(span 0 12 ++ span 18 22 ++ span 31 38).contains f.imm) ||
  (f.op == 1 && (span 0 12 ++ [20, 24] ++ span 26 30 ++ span 32 34).contains f.imm)

/-- Elements of a type in a register (spec/11 Table 11.1), by its code. -/
def lanesOf (ty : Nat) : Nat := (ETy.ofCode ty).lanes

/-- Check 11: an operand value outside the entry's limits, as far as the halfwords tell. -/
def check11 (x : DecCtx) (f : Fields) : Bool :=
  (x.helper && f.named.any (16 ≤ ·)) ||
  (f.on 0 [0] && [0, 2, 5].contains f.b && f.a != 0) || (f.on 0 [30, 31, 39] && 64 ≤ f.imm) ||
  (f.on 0 [36] && (f.imm == 0 || 2 ^ (10 * f.pays.length + 4) ≤ f.imm)) ||
  (f.on 0 (span 40 46) && f.qv == 1 && f.a == f.b) ||
  (f.on 0 [52] && (64 ≤ f.imm % 64 + f.imm / 64 % 64 || 8192 ≤ f.imm)) || (f.on 0 [53] && (64 ≤ f.imm % 64 + f.imm / 64 % 64 || 4096 ≤ f.imm)) ||
  (f.on 0 (span 55 59) && (f.imm == 0 || 33 ≤ f.imm)) || (f.on 0 [58] && f.a != 0) ||
  (f.maskMove && f.rnd == 1 && (f.a == 0 || 8 ≤ f.a)) || (f.maskMove && f.rnd == 2 && 8 ≤ f.b) || (f.on 1 [16] && (f.a == 0 || 8 ≤ f.a)) ||
  (f.on 1 [28] && f.r.isSome && max (lanesOf f.ty) (lanesOf (f.c % 16)) ≤ (f.c / 16 * 4 + f.sz) * min (lanesOf f.ty) (lanesOf (f.c % 16))) ||
  (f.on 1 [48] && f.a % 2 == 1) || (f.on 1 [50] && (f.b != 0 || (f.r.isSome && (f.c == 0 || 7 ≤ f.c)))) ||
  (f.on 1 [56] && (f.b == 0 || 17 ≤ f.b)) || (f.on 1 [57] && f.b != 0) || (f.on 1 [58] && (f.a != 0 || f.b != 0)) ||
  (f.on 2 [2, 3, 4, 5, 8, 9, 10] && 4 ≤ f.a) || (f.on 2 [3, 8, 9, 10, 49] && f.b != 0) || (f.on 2 [7] && f.a != 0) ||
  (f.on 2 [11, 12] && (f.a != 0 || f.b != 0)) ||
  (f.on 3 [19, 34, 37, 50] && (f.a != 0 || f.b != 0)) || (f.on 3 [20, 21, 22] && 16 ≤ f.b) || (f.on 3 [33] && f.b != 0) ||
  (f.on 3 [36] && (f.a != 0 || !([2, 4, 8].contains f.b))) || (f.on 3 [39, 40, 41, 44, 48] && f.a != 0) ||
  (f.on 3 [39, 40, 42] && (f.b < 2 || 7 ≤ f.b)) || (f.on 3 [43] && (f.b % 8 < 2 || f.b % 8 == 7)) || (f.on 3 [51] && 2 ≤ f.b) ||
  (f.on 4 [0, 1] && f.control11 x) || (f.on 4 [2] && (f.a != 0 || 1024 ≤ f.imm)) || (f.on 4 [3, 4, 5] && (f.a != 0 || f.b != 0)) ||
  (f.on 5 [1, 4, 17] && f.b != 0) || (f.on 5 [2] && f.a == f.b) || (f.on 5 [3, 7] && (f.a != 0 || f.b != 0)) ||
  (f.on 6 [4] && (f.a != 0 || f.b != 0)) || (f.on 6 [5, 6] && f.b != 0)

/-- Check 12: no PFX.R where the entry requires one, an instruction that a helper (spec/03 R36, spec/06 R134, spec/08 R153, spec/18 R317, R319, spec/21
R363), the control context or this kind of core (spec/18 Table 18.4, spec/25 R396) may not issue, as far as the halfwords tell. -/
def check12 (x : DecCtx) (f : Fields) : Bool :=
  (f.r.isNone && (f.on 0 [29, 53, 54] || f.on 1 [4, 5, 16, 17, 28, 29, 30, 34, 41, 42, 45, 46, 48, 49, 50] || f.on 2 [2] || f.on 3 (span 6 18) ||
    f.on 6 (span 0 3))) ||
  (x.helper && (f.page == 1 || f.page == 2 || f.on 3 [32, 33, 36, 37, 39, 40, 41, 48, 49, 50, 51] || f.on 4 [1, 3, 4] || f.on 5 (span 0 7))) ||
  (!x.helper && f.on 3 [34]) || (x.kind != .worker && f.on 3 (span 32 44)) || (x.kind == .memory && f.on 3 ([20] ++ span 48 51)) ||
  (x.kind == .control && f.on 5 (span 0 17))

/-- The first of checks 8 to 12 that fails. -/
def failing (x : DecCtx) (f : Fields) : Option Nat :=
  if f.check8 then some 8 else if f.check9 then some 9 else if f.check10 then some 10 else if f.check11 x then some 11
  else if f.check12 x then some 12 else none
end Fields

/-- The form of memory that every run keeps. -/
def State.wf (s : State) : Prop := Memory.wf s.mem = true

end Sys2Proof.Machine
end

