-- ==== Sys2Proof/Certificates/Slice0/Obligations.lean ====
section
/-!
DEFINITION. The statements about the model, each formalising rules of spec/ that its docstring names.
-/
open Sys2Proof Sys2Proof.Machine

/-! ## Page 0: arithmetic, logic, fields (spec/05 R76 to R86) -/

/-- R77, R76: each RR instruction of Table 5.1 writes the table's result to register a, wrapped to 64 bits; a write to `g0` is discarded;
nothing else but the PC differs. R80: `div`, `divn`, `rem` and `remn`: quotient truncated toward zero, division by zero and the one overflow
without a trap. R78, R79: `mov`, `li` and the instructions with an immediate. -/
def Obligations.ScalarResults : Prop :=
  (∀ (s : State) (o : RR),
      let x := rrX s (self s) o
      let y := rrY s (self s) o
      let n := y.toNat % 64
      givesReg s (.add o) o.a (x + y) ∧
      givesReg s (.sub o) o.a (x - y) ∧
      givesReg s (.and o) o.a (x &&& y) ∧
      givesReg s (.or o) o.a (x ||| y) ∧
      givesReg s (.xor o) o.a (x ^^^ y) ∧
      givesReg s (.andn o) o.a (x &&& ~~~y) ∧
      givesReg s (.shl o) o.a (x <<< n) ∧
      givesReg s (.shr o) o.a (x >>> n) ∧
      givesReg s (.sra o) o.a (x.sshiftRight n) ∧
      givesReg s (.rot o) o.a ((x >>> n) ||| (x <<< ((64 - n) % 64))) ∧
      givesReg s (.mul o) o.a (BitVec.ofNat 64 (x.toNat * y.toNat)) ∧
      givesReg s (.mulh o) o.a (BitVec.ofInt 64 (x.toInt * y.toInt / 2 ^ 64)) ∧
      givesReg s (.mulhn o) o.a (BitVec.ofNat 64 (x.toNat * y.toNat / 2 ^ 64)) ∧
      givesReg s (.min o) o.a (if y.toInt < x.toInt then y else x) ∧
      givesReg s (.max o) o.a (if x.toInt < y.toInt then y else x) ∧
      givesReg s (.minn o) o.a (if y.toNat < x.toNat then y else x) ∧
      givesReg s (.maxn o) o.a (if x.toNat < y.toNat then y else x)) ∧
  (∀ (s : State) (o : RR),
      let x := rrX s (self s) o
      let y := rrY s (self s) o
      let wraps := x = 0x8000000000000000 ∧ y = 0xFFFFFFFFFFFFFFFF
      givesReg s (.div o) o.a (if y = 0 then 0xFFFFFFFFFFFFFFFF else if wraps then x else BitVec.ofInt 64 (x.toInt.tdiv y.toInt)) ∧
      givesReg s (.divn o) o.a (if y = 0 then 0xFFFFFFFFFFFFFFFF else BitVec.ofNat 64 (x.toNat / y.toNat)) ∧
      givesReg s (.rem o) o.a (if y = 0 then x else if wraps then 0
        else BitVec.ofInt 64 (x.toInt - x.toInt.tdiv y.toInt * y.toInt)) ∧
      givesReg s (.remn o) o.a (if y = 0 then x else BitVec.ofNat 64 (x.toNat - x.toNat / y.toNat * y.toNat))) ∧
  (∀ (s : State),
      (∀ a b : Reg, givesReg s (.mov a b) a (s.rd (self s) b)) ∧
      (∀ (a : Reg) (imm : BitVec 35), givesReg s (.li a imm) a (BitVec.ofInt 64 imm.toInt)) ∧
      (∀ o : RI,
        let x := s.rd (self s) (o.c.getD o.a)
        givesReg s (.addi o) o.a (x + BitVec.ofInt 64 o.imm.toInt) ∧
        givesReg s (.andi o) o.a (x &&& BitVec.ofInt 64 o.imm.toInt) ∧
        givesReg s (.ori o) o.a (x ||| BitVec.ofNat 64 o.imm.toNat) ∧
        givesReg s (.xori o) o.a (x ^^^ BitVec.ofNat 64 o.imm.toNat)) ∧
      (∀ o : ShI,
        let x := s.rd (self s) (o.c.getD o.a)
        givesReg s (.shli o) o.a (x <<< o.sh.toNat) ∧
        givesReg s (.shri o) o.a (x >>> o.sh.toNat) ∧
        givesReg s (.srai o) o.a (x.sshiftRight o.sh.toNat)))

/-- R82, R83: compares write 1 or 0, `sel` selects by gA. R84 to R86: bit counting by what the counts say of the bits, the bit-field
instructions bit by bit, and `lea`. -/
def Obligations.CompareAndBitFields : Prop :=
  (∀ (s : State),
      (∀ o : RR,
        let x := rrX s (self s) o
        let y := rrY s (self s) o
        givesReg s (.cmpeq o) o.a (if x = y then 1 else 0) ∧
        givesReg s (.cmpne o) o.a (if x ≠ y then 1 else 0) ∧
        givesReg s (.cmplt o) o.a (if x.toInt < y.toInt then 1 else 0) ∧
        givesReg s (.cmpltn o) o.a (if x.toNat < y.toNat then 1 else 0) ∧
        givesReg s (.cmple o) o.a (if x.toInt ≤ y.toInt then 1 else 0) ∧
        givesReg s (.cmplen o) o.a (if x.toNat ≤ y.toNat then 1 else 0)) ∧
      (∀ a b c : Reg, givesReg s (.sel a b c) a (if s.rd (self s) a ≠ 0 then s.rd (self s) b else s.rd (self s) c))) ∧
  (∀ (s : State),
      (∀ a b : Reg,
        let x := s.rd (self s) b
        givesReg s (.popc a b) a (BitVec.ofNat 64 ((List.range 64).filter (fun i => x.getLsbD i)).length) ∧
        (∃ n : Nat, givesReg s (.clz a b) a (BitVec.ofNat 64 n) ∧ n ≤ 64 ∧ (∀ i, 64 - n ≤ i → x.getLsbD i = false) ∧
          (n < 64 → x.getLsbD (63 - n) = true)) ∧
        (∃ n : Nat, givesReg s (.ctz a b) a (BitVec.ofNat 64 n) ∧ n ≤ 64 ∧ (∀ i, i < n → x.getLsbD i = false) ∧
          (n < 64 → x.getLsbD n = true))) ∧
      (∀ o : BF, bfOk o.p o.l = true →
        let x := s.rd (self s) (o.c.getD o.a)
        (∃ v : Word, givesReg s (.bfx o) o.a v ∧
          ∀ i, i < 64 → v.getLsbD i = (decide (i ≤ o.l.toNat) && x.getLsbD (o.p.toNat + i))) ∧
        (∃ v : Word, givesReg s (.bfxs o) o.a v ∧
          ∀ i, i < 64 → v.getLsbD i = x.getLsbD (o.p.toNat + min i o.l.toNat))) ∧
      (∀ (a c : Reg) (p l : BitVec 6), bfOk p l = true →
        ∃ v : Word, givesReg s (.bfi a c p l) a v ∧
          ∀ i, i < 64 → v.getLsbD i = (if p.toNat ≤ i ∧ i ≤ p.toNat + l.toNat then (s.rd (self s) c).getLsbD (i - p.toNat)
            else (s.rd (self s) a).getLsbD i)) ∧
      (∀ (a b c : Reg) (sh : BitVec 2), givesReg s (.lea a b c sh) a (s.rd (self s) b + (s.rd (self s) c <<< sh.toNat))))

/-! ## Page 0: control flow (spec/05 R87 to R93) -/

/-- R87, R88, R91, R92: a taken branch goes to its target and pops the loops that it leaves; one not taken goes on; `call` writes the link
register and pops nothing; `jr` and `ret` go to an even register value, and raise `align` for an odd one (R71). R90: `loop` with a count that is not 0 pushes an entry when the
stack has room and the new body ends within the one below; with a count of 0 it continues at the label; otherwise it fails check 12. R89:
`nop` does nothing. R91: at a body's end the count decides: above 1 it decreases and the PC goes to the body's start; otherwise the entry is
popped and the test repeats.
Clauses of it rest on readings and choices of the model: log entries 16 and 86. -/
def Obligations.BranchesAndLoops : Prop :=
  (∀ (s : State),
      let w := self s
      let ls := (s.ctxAt w).loops
      let link : Reg := if s.curCtx = 0 then 31 else 15
      (∀ off : BitVec 40,
        let t := s.fall w + 2 * BitVec.ofInt 64 off.toInt
        givesJump s (.b off) s t (popOutside ls t) ∧
        givesJump s (.call off) (s.wr w link (s.fall w)) t ls) ∧
      (∀ (a : Reg) (off : BitVec 35),
        let x := s.rd w a
        let t := s.fall w + 2 * BitVec.ofInt 64 off.toInt
        (x = 0 → givesJump s (.beqz a off) s t (popOutside ls t)) ∧ (x ≠ 0 → givesState s (.beqz a off) s) ∧
        (x ≠ 0 → givesJump s (.bnez a off) s t (popOutside ls t)) ∧ (x = 0 → givesState s (.bnez a off) s) ∧
        (x.toInt < 0 → givesJump s (.bltz a off) s t (popOutside ls t)) ∧ (0 ≤ x.toInt → givesState s (.bltz a off) s) ∧
        (0 ≤ x.toInt → givesJump s (.bgez a off) s t (popOutside ls t)) ∧ (x.toInt < 0 → givesState s (.bgez a off) s)) ∧
      (∀ a : Reg, (s.rd w a).getLsbD 0 = false → givesJump s (.jr a) s (s.rd w a) (popOutside ls (s.rd w a))) ∧
      ((s.rd w link).getLsbD 0 = false → givesJump s .ret s (s.rd w link) (popOutside ls (s.rd w link))) ∧
      (∀ a : Reg, (s.rd w a).getLsbD 0 = true → givesTrap s (.jr a) 3 (s.rd w a) (s.pcOf w)) ∧
      ((s.rd w link).getLsbD 0 = true → givesTrap s .ret 3 (s.rd w link) (s.pcOf w))) ∧
  (∀ (s : State),
      let w := self s
      let ls := (s.ctxAt w).loops
      let room := ls.length < (if s.curCtx = 0 then 4 else 2)
      (∀ (a : Reg) (off : BitVec 35),
        let n := s.rd w a
        let t := s.fall w + 2 * BitVec.ofInt 64 off.toInt
        let inside := ∀ l, ls.head? = some l → t.toNat ≤ l.fin.toNat
        (n = 0 → givesJump s (.loop a off) s t ls) ∧
        (n ≠ 0 → room → inside →
          givesJump s (.loop a off) (s.modCtx w (fun x => { x with loops := ⟨s.fall w, t, n⟩ :: x.loops })) (s.fall w)
            (⟨s.fall w, t, n⟩ :: ls)) ∧
        (n ≠ 0 → ¬(room ∧ inside) → givesTrap s (.loop a off) 1 (illegalVal s 12) (s.pcOf w))) ∧
      givesState s .nop s) ∧
  (∀ (l : Loop) (ls : List Loop) (pc : Word),
      (pc ≠ l.fin → loopEnd (l :: ls) pc = (l :: ls, pc)) ∧
      (pc = l.fin → 1 < l.left.toNat → loopEnd (l :: ls) pc = ({ l with left := l.left - 1 } :: ls, l.start)) ∧
      (pc = l.fin → l.left.toNat ≤ 1 → loopEnd (l :: ls) pc = loopEnd ls pc) ∧
      loopEnd [] pc = ([], pc) ∧
      popOutside (l :: ls) pc = (if l.start.toNat ≤ pc.toNat ∧ pc.toNat < l.fin.toNat then l :: ls else popOutside ls pc) ∧ popOutside [] pc = [])

/-! ## Traps (spec/08 R149 to R153, spec/25 R397) -/

/-- R151, R154, R397: taking a cause in the control context. `brk n` and `trap n` show it: the saved registers, status, level, held loop stack
and the PC at the handler, `trap.pc` here for `brk` and at the halfword after it for `trap`. R153, R397, R398: `tret` goes back to `trap.pc`
with the held loop stack, clears `st.tn` and `st.ls`, and on a control core takes the level from `st.plv`; with `st.tn` = 0 (and not on
levels 0 and 1 of a control core) it fails check 12.
Clauses of it rest on readings and choices of the model: log entry 88. -/
def Obligations.TrapEntryAndReturn : Prop :=
  (∀ (s : State),
      (∀ n : BitVec 5, givesTrap s (.brk n) 0x10 (BitVec.ofNat 64 n.toNat) (s.pcOf (self s))) ∧
      (∀ n : BitVec 10, givesTrap s (.trap n) 0x11 (BitVec.ofNat 64 n.toNat) (s.fall (self s)))) ∧
  (∀ (s : State),
      let i := s.curCore
      let k := s.coreAt i
      let b := k.bank
      (b.tn = true → givesJump s .tret (s.setCore i { k.setBank { b with tn := false, ls := false, held := [] } with
          lvl := if kindOf i = .control then b.plv else k.lvl
          ctl := { k.ctl with loops := b.held, fbuf := [] } }) (BitVec.ofNat 64 (b.pc.toNat / 2 * 2)) b.held) ∧
      (b.tn = false → kindOf i = .control → k.level ≤ 1 → givesJump s .tret (s.setCore i { k.setBank { b with ls := false, held := [] } with
          lvl := b.plv
          ctl := { k.ctl with fbuf := [] } }) (BitVec.ofNat 64 (b.pc.toNat / 2 * 2)) k.ctl.loops) ∧
      (b.tn = false → ¬(kindOf i = .control ∧ k.level ≤ 1) → givesTrap s .tret 1 (illegalVal s 12) (s.pcOf (self s))))

/-- R152: with a trap in progress or traps disabled, a cause is a fatal stop: the core stops with cause, value and PC, and its task keeps the
first report. R37, Table 5.8: a cause in a helper ends it; `hstat` finds `flt`, the cause and the address, and the control context takes no
trap; what the helper had in flight happens before what the control context does next, which is the model's reading of R147.
Clauses of it rest on readings and choices of the model: log entry 114. -/
def Obligations.FatalStops : Prop :=
  (∀ (s : State) (n : BitVec 5),
      let i := s.curCore
      let pc := s.pcOf (self s)
      ready s (.brk n) = true → s.curCtx = 0 → (s.coreAt i).slip = none → (s.coreAt i).quar = none → ¬trapOpen s i →
        ∃ t, exec (.brk n) s = .next t ∧
          t.coreAt i = { (s.coreAt i).dropReady with
            run := .stopped 0x10 (BitVec.ofNat 64 n.toNat) pc, ptmr := (t.coreAt i).ptmr, ptmrDue := (t.coreAt i).ptmrDue } ∧
          (∀ j, j ≠ i → t.coreAt j = s.coreAt j) ∧ t.mem = s.mem ∧
          (∀ e tk, i < 8192 → taskOf s (i % 4096) = some (e, tk) → tk.report = none →
            (mget t.tasks e).map (·.report) = some (some (0x10, (yOf (i % 4096) - tk.y0) * 64 + (xOf (i % 4096) - tk.x0), BitVec.ofNat 64 n.toNat, pc)))) ∧
  (∀ (s : State) (n : BitVec 5),
      let i := s.curCore
      let c := s.curCtx
      ready s (.brk n) = true → c ≠ 0 →
        ∃ t, exec (.brk n) s = .next t ∧
          (vget (t.coreAt i).helpers (c - 1) {}).live = false ∧ (vget (t.coreAt i).helpers (c - 1) {}).flt = true ∧
          (vget (t.coreAt i).helpers (c - 1) {}).cause = 0x10 ∧ (vget (t.coreAt i).helpers (c - 1) {}).fpc = s.pcOf (self s) ∧
          (t.coreAt i).ctl = { (s.coreAt i).ctl with latch := true, inh := (t.coreAt i).ctl.inh } ∧
          (∀ p ∈ s.mesh, p.core = i → p.ctx = c → p.kind.isStore = true → p.id ∈ (t.coreAt i).ctl.inh) ∧ (t.coreAt i).banks = (s.coreAt i).banks ∧
          (t.coreAt i).v = (s.coreAt i).v ∧ (t.coreAt i).k = (s.coreAt i).k ∧ (∀ j, j ≠ i → t.coreAt j = s.coreAt j) ∧ t.mem = s.mem)

/-! ## Local loads and stores (spec/06 R112 to R114) -/

/-- R112, R114: local loads of the own slice, zero- or sign-extended as Table 6.2 gives them, with post-increment. R113, Table 8.3: a local
access that no place takes raises `window`; one that a guard refuses raises `priv`; a misaligned one raises `align`; each with the address,
in this order, and without any other effect.
Clauses of it rest on readings and choices of the model: log entry 17. -/
def Obligations.OwnSliceLoads : Prop :=
  (∀ (s : State) (o : Mem),
      loadsOwn s (.ldN8 o) o 1 (fun v => BitVec.ofNat 64 v) ∧
      loadsOwn s (.ldS8 o) o 1 (fun v => (BitVec.ofNat 8 v).signExtend 64) ∧
      loadsOwn s (.ldN16 o) o 2 (fun v => BitVec.ofNat 64 v) ∧
      loadsOwn s (.ldS16 o) o 2 (fun v => (BitVec.ofNat 16 v).signExtend 64) ∧
      loadsOwn s (.ldN32 o) o 4 (fun v => BitVec.ofNat 64 v) ∧
      loadsOwn s (.ldS32 o) o 4 (fun v => (BitVec.ofNat 32 v).signExtend 64) ∧
      loadsOwn s (.ld64 o) o 8 (fun v => BitVec.ofNat 64 v)) ∧
  (∀ (s : State) (o : Mem),
      let w := self s
      let a := s.rd w o.b
      let k := s.coreAt w.i
      let pc := s.pcOf w
      (placeOf w.i a.toNat 8 = .none → givesTrap s (.ld64 o) 4 a pc ∧ givesTrap s (.st64 o) 4 a pc) ∧
      (a.toNat + 8 ≤ localSize w.i →
        (guardOk k .load a.toNat 8 = false → givesTrap s (.ld64 o) 2 a pc) ∧
        (guardOk k .store a.toNat 8 = false → givesTrap s (.st64 o) 2 a pc) ∧
        (a.toNat % 8 ≠ 0 → guardOk k .load a.toNat 8 = true → givesTrap s (.ld64 o) 3 a pc) ∧
        (a.toNat % 8 ≠ 0 → guardOk k .store a.toNat 8 = true → givesTrap s (.st64 o) 3 a pc)))

/-- R112, R114: local stores at the own slice write the low bytes of gA and nothing else; a post-increment store with a = b stores the old gB.
R169: in slipstream a local store goes to the store buffer: memory keeps every byte, and the core's own reads find the stored bytes.
Clauses of it rest on readings and choices of the model: log entry 17. -/
def Obligations.OwnSliceStores : Prop :=
  (∀ (s : State) (o : Mem), storesOwn s (.st8 o) o 1 ∧ storesOwn s (.st16 o) o 2 ∧ storesOwn s (.st32 o) o 4 ∧ storesOwn s (.st64 o) o 8) ∧
  (∀ (s : State) (o : Mem) (sl : Slip),
      let w := self s
      let a := s.rd w o.b
      ready s (.st64 o) = true → slipOf (s.coreAt w.i) w.c = some sl → a.toNat + 8 ≤ localSize w.i →
      guardOk (s.coreAt w.i) .store a.toNat 8 = true → a.toNat % 8 = 0 → sl.lines.length < 128 → o.pinc = false →
        ∃ t, exec (.st64 o) s = .next t ∧ t.mem = s.mem ∧ sliceRd t w a.toNat 8 = natLE 8 (s.rd w o.a).toNat ∧
          fellOn s t w ∧ regsExcept s t w [] ∧ ∀ j, j ≠ w.i → t.coreAt j = s.coreAt j)

/-! ## The bit buffer (spec/05 R94 to R98) -/

/-- R98, R95: taking a field from a buffer that holds enough bits, appending one that leaves fewer than 32 bits, setting the pointer, and the
flush of an empty buffer. R95, R96: a take from a buffer that holds too few bits first refills it with the slice's word at `ptr`; an append
that reaches 32 bits, and a flush, store a word at `ptr`. Outside slipstream. -/
def Obligations.BitBuffer : Prop :=
  (∀ (s : State) (a : Reg) (n : BitVec 6),
      let w := self s
      let b := (s.coreAt w.i).bb
      let setb (b' : BitBuf) : State := s.modCore w.i (fun k => { k with bb := b' })
      let f := b.d.toNat % 2 ^ n.toNat
      let fld := BitVec.ofNat 64 f
      let sx : Word := if f < 2 ^ (n.toNat - 1) then BitVec.ofNat 64 f else BitVec.ofNat 64 f - BitVec.ofNat 64 (2 ^ n.toNat)
      let taken : BitBuf := { b with d := b.d >>> n.toNat, cnt := b.cnt - n.toNat }
      (bbCount n = true → n.toNat ≤ b.cnt →
        (ready s (.bbget a n) = true → ∃ t, exec (.bbget a n) s = .next t ∧ writesReg (setb taken) t w a fld) ∧
        (ready s (.bbgets a n) = true → ∃ t, exec (.bbgets a n) s = .next t ∧ writesReg (setb taken) t w a sx) ∧
        givesReg s (.bbpeek a n) a fld ∧
        givesState s (.bbskip n) (setb taken)) ∧
      (bbCount n = true → b.cnt + n.toNat < 32 →
        givesState s (.bbput a n) (setb { b with
          d := b.d ||| (BitVec.ofNat 128 ((s.rd w a).toNat % 2 ^ n.toNat) <<< b.cnt), cnt := b.cnt + n.toNat })) ∧
      ((s.rd w a).toNat % 4 = 0 → givesState s (.bbset a) (setb { d := 0, cnt := 0, ptr := s.rd w a })) ∧
      ((s.rd w a).toNat % 4 ≠ 0 → givesTrap s (.bbset a) 3 (s.rd w a) (s.pcOf w)) ∧
      (127 < b.cnt + n.toNat → givesTrap s (.bbput a n) 1 (illegalVal s 12) (s.pcOf w)) ∧
      (b.cnt = 0 → givesState s .bbflush s)) ∧
  (∀ (s : State) (a : Reg) (n : BitVec 6),
      let w := self s
      let b := (s.coreAt w.i).bb
      let setb (s : State) (b' : BitBuf) : State := s.modCore w.i (fun k => { k with bb := b' })
      let d := b.d ||| (BitVec.ofNat 128 (leNat (rdBs s.mem (localBase w.i + b.ptr.toNat) 4)) <<< b.cnt)
      let put32 (d : BitVec 128) : State := put s (localBase w.i + b.ptr.toNat) (natLE 4 d.toNat) (0, 0)
      bbCount n = true → slipOf (s.coreAt w.i) w.c = none → b.ptr.toNat + 4 ≤ localSize w.i →
      guardOk (s.coreAt w.i) .load b.ptr.toNat 4 = true → guardOk (s.coreAt w.i) .store b.ptr.toNat 4 = true →
      sliceBad s w b.ptr.toNat 4 = none →
        (b.cnt < n.toNat → ready s (.bbget a n) = true → ∃ t, exec (.bbget a n) s = .next t ∧
          writesReg (setb s { d := d >>> n.toNat, cnt := b.cnt + 32 - n.toNat, ptr := b.ptr + 4 }) t w a
            (BitVec.ofNat 64 (d.toNat % 2 ^ n.toNat))) ∧
        (32 ≤ b.cnt + n.toNat → b.cnt + n.toNat ≤ 127 →
          let e := b.d ||| (BitVec.ofNat 128 ((s.rd w a).toNat % 2 ^ n.toNat) <<< b.cnt)
          givesState s (.bbput a n) (setb (put32 e) { d := e >>> 32, cnt := b.cnt + n.toNat - 32, ptr := b.ptr + 4 })) ∧
        (0 < b.cnt → givesState s .bbflush (setb (put32 b.d) { d := b.d >>> 32, cnt := b.cnt - 32, ptr := b.ptr + 4 })))

/-! ## Control registers, halt, wait, fence (spec/06 R124 to R135) -/

/-- R130, R131, Table 6.12: `crd` reads a control register that its level may read and raises `priv` with the number otherwise; `cwr` at level 2
writes `trap.pc`, `trap.val`, `trap.vec`, `ui.vec`, `ui.en`, `sr.seed` and the writable part of `st`, and leaves the other registers, as it does at levels
0 and 1, where `st.plv` is written too and a level below the current one, or above 2, raises `priv` (R398). At every level it writes `bb.lo`, `bb.hi`,
`bb.cnt` and `bb.ptr` (Tables 5.4 to 5.6). At levels 0 and 1 it writes the fields of `dm2` to `dm6` and `ptmr`, and at level 0 the region guards; at the
other levels these raise `priv`.
Clauses of it rest on readings and choices of the model: log entry 105. -/
def Obligations.ControlRegisters : Prop :=
  ∀ (s : State) (a : Reg) (n : BitVec 6),
    let w := self s
    let v := s.rd w a
    let st := ctlRead s w.i 18
    let k := s.coreAt w.i
    (ctlMayRead n.toNat k.level = true → givesReg s (.crd a n) a (ctlRead s w.i n.toNat)) ∧
    (ctlMayRead n.toNat k.level = false → givesTrap s (.crd a n) 2 (BitVec.ofNat 64 n.toNat) (s.pcOf w)) ∧
    (n.toNat ∈ [18, 19, 21, 22, 23, 25, 31] → k.level = 2 ∨ n.toNat ≠ 18 → ready s (.cwr a n) = true →
      ∃ s1 t, exec (.cwr a n) s = .next t ∧ goesOn s1 t w ∧ sameRest s s1 w.i ∧
        ctlRead s1 w.i n.toNat = (match n.toNat with
          | 18 => (st &&& 0xB8) ||| (v &&& 1) ||| (st &&& 2 &&& ~~~v)
          | 22 => v &&& 0x3FFFF
          | 23 => v &&& 0x3FFFE
          | 25 => (ctlRead s w.i 25 &&& ~~~1) ||| (v &&& 1)
          | _ => v) ∧
        ∀ m, m ≠ n.toNat → ctlRead s1 w.i m = ctlRead s w.i m) ∧
    ((13 ≤ n.toNat ∧ n.toNat ≤ 17) ∨ (40 ≤ n.toNat ∧ n.toNat ≤ 56) → k.level = 2 →
      givesTrap s (.cwr a n) 2 (BitVec.ofNat 64 n.toNat) (s.pcOf w)) ∧
    (40 ≤ n.toNat → n.toNat ≤ 55 → k.level = 1 → givesTrap s (.cwr a n) 2 (BitVec.ofNat 64 n.toNat) (s.pcOf w)) ∧
    (n = 18 → kindOf w.i = .control → k.level ≤ 1 →
      let p := v.toNat / 16 % 4
      let b := k.bank
      (p < k.level ∨ 2 < p → givesTrap s (.cwr a n) 2 18 (s.pcOf w)) ∧
      (k.level ≤ p → p ≤ 2 → givesState s (.cwr a n) (s.modCore w.i (fun k => k.setBank
        { b with f := v.getLsbD 0, gf := b.gf && !v.getLsbD 1, plv := BitVec.ofNat 2 p })))) ∧
    (35 ≤ n.toNat → n.toNat ≤ 38 → givesState s (.cwr a n) (s.modCore w.i (fun k =>
      let low (x c : Nat) : BitVec 128 := BitVec.ofNat 128 (x % 2 ^ c)
      { k with bb := match n.toNat with
        | 35 => { k.bb with d := low (k.bb.d.toNat / 2 ^ 64 * 2 ^ 64 + v.toNat) k.bb.cnt }
        | 36 => { k.bb with d := low (v.toNat * 2 ^ 64 + k.bb.d.toNat % 2 ^ 64) k.bb.cnt }
        | 37 => { k.bb with cnt := v.toNat % 128, d := low k.bb.d.toNat (v.toNat % 128) }
        | _ => { k.bb with ptr := BitVec.ofNat 64 (v.toNat / 4 * 4) } }))) ∧
    (13 ≤ n.toNat → n.toNat ≤ 17 → k.level ≤ 1 → givesState s (.cwr a n) (s.modCore w.i (fun k => { k with
      dm := vput k.dm (n.toNat - 13) (v &&& (if n.toNat = 17 then 0x8000FFFFFFFFFFFF else 0x37F7F3F3F)) }))) ∧
    (n.toNat = 56 → k.level ≤ 1 → ready s (.cwr a n) = true → ∃ t, exec (.cwr a n) s = .next t ∧ goesOn s t w ∧
      (t.coreAt w.i).ptmr = v.toNat % 2 ^ 32) ∧
    (40 ≤ n.toNat → n.toNat ≤ 55 → k.level = 0 → givesState s (.cwr a n) (s.modCore w.i (fun k => { k with grd := vput k.grd (n.toNat - 40) v })))

/-- R134: `halt` waits while something of the core is outstanding; then the core halts and its entries of the pending queue go, unless one is a
fault entry, which is taken with `trap.pc` at the `halt`. R135: `wfe` completes when the wake latch is set and clears it, which a checkpoint of slipstream remembers (R148); otherwise it gates its context. R124, R125: a `fence` completes
when what it orders is performed, and empties the fetch buffer; otherwise it waits.
Clauses of it rest on readings and choices of the model: log entries 33, 87, 104 and 114: a `fence` waits too for what the context inherits. -/
def Obligations.WaitsAndHalt : Prop :=
  (∀ (s : State),
      let w := self s
      let k := s.coreAt w.i
      ready s .halt = true → (kindOf w.i = .control → k.level = 0) → (s.ctxAt w).sysFail = none →
        (haltReady s w = false → exec .halt s = .next s) ∧
        (haltReady s w = true → (∀ e ∈ k.uiq, e.hnd ≠ 0) →
          ∃ t, exec .halt s = .next t ∧ sameRest s t w.i ∧ (t.coreAt w.i).run = .halted ∧ (t.coreAt w.i).uiq = [] ∧
            (t.coreAt w.i).ctl = k.ctl ∧ (t.coreAt w.i).banks = k.banks ∧ (t.coreAt w.i).v = k.v) ∧
        (∀ e q, haltReady s w = true → k.uiq.filter (fun e => e.hnd == 0) = e :: q → k.slip = none → k.quar = none → trapOpen s w.i →
          let cv : Nat × Word := match e.status.toNat / 2 ^ 60 with
            | 1 => (6, e.status)
            | 2 => (12, BitVec.ofNat 64 (e.status.toNat % 2 ^ 56))
            | 3 => (4, BitVec.ofNat 64 (e.status.toNat % 2 ^ 56))
            | _ => (0x13, e.status)
          ∃ t, exec .halt s = .next t ∧
            trapTaken (s.modCore w.i (fun k => { k with uiq := q })) t w.i (trapLevel s w.i) cv.1 cv.2 (s.pcOf w))) ∧
  (∀ (s : State),
      let w := self s
      ((s.ctxAt w).latch = true →
        let s1 := s.modCtx w (fun x => { x with latch := false, gated := false })
        ((s.coreAt w.i).inSlip w.c = false → givesState s .wfe s1) ∧
        ((s.coreAt w.i).inSlip w.c = true →
          givesState s .wfe (s1.modCore w.i (fun k => { k with slip := k.slip.map (fun sl => { sl with latch := true }) })))) ∧
      ((s.ctxAt w).latch = false → (s.coreAt w.i).inSlip w.c = false → ready s .wfe = true →
        exec .wfe s = .next (s.modCtx w (fun x => { x with gated := true }))) ∧
      (∀ (ord : FOrd) (sc : Scope), (sc = .sys → (s.ctxAt w).sysFail = none) →
        let done : Prop := if ord = .acq then (loadsOut s w) = [] else storesOut s w = [] ∧ loadsOut s w = [] ∧ sysStoresOut s w = false ∧
          ∀ d ∈ (s.ctxAt w).inh, outstanding s d = false
        (done → givesState s (.fence ord sc) (s.modCtx w (fun x => { x with fbuf := [] }))) ∧
        (¬done → ready s (.fence ord sc) = true → exec (.fence ord sc) s = .next s)))

/-! ## FIFO ports (spec/06 R126 to R129) -/

/-- R126 to R129: a plain `push` is taken by port 5 only, stalls there while the command FIFO is full, and raises `wedge` when the result FIFO is full
too or the memory core does not run (R333); `pop` moves the oldest element of a result FIFO into gA, at port 3 with the count of `lg.seq` and the end
of a drained binding (R365), at port 4 unless the element reports a failure, which raises `porttime` (R389); at an empty FIFO it waits while an
element will come and raises `wedge` otherwise; `fstat` gives the status word; other ports raise `fifoproto` with the port. Port 0 is as said where no
matrix-unit `datauc` is pending.
Clauses of it rest on readings and choices of the model: log entry 35. -/
def Obligations.FifoInstructions : Prop :=
  ∀ (s : State) (a : Reg) (p : BitVec 4),
    let w := self s
    let k := s.coreAt w.i
    let kind := kindOf w.i
    let P := BitVec.ofNat 64 p.toNat
    (¬(kind = .worker ∧ p = 5) → givesTrap s (.push a p) 0x15 P (s.pcOf w)) ∧
    (kind = .worker → p = 5 → (s.coreAt (mcOf w.i)).run = .running → cmdCount s w.i 5 < 4 →
      givesState s (.push a p) (s.modCore w.i (fun k => { k with q5 := k.q5 ++ [{ val := s.rd w a, deps := releaseDeps s w }] }))) ∧
    (resPort kind p.toNat = false → givesTrap s (.pop a p) 0x15 P (s.pcOf w)) ∧
    (kind = .worker → (∀ v t, p = 1 → k.r1 = v :: t →
      ready s (.pop a p) = true → ∃ u, exec (.pop a p) s = .next u ∧ writesReg (s.setCore w.i { k with r1 := t }) u w a v)) ∧
    (kind = .worker → p = 1 → k.r1 = [] → cmdCount s w.i 1 + pendCount s w.i 1 = 0 →
      givesTrap s (.pop a p) 7 0x101 (s.pcOf w)) ∧
    (kind = .worker → p = 5 → ((s.coreAt (mcOf w.i)).run ≠ .running ∨ (4 ≤ cmdCount s w.i 5 ∧ 4 ≤ k.r5.length) → givesTrap s (.push a p) 7 5 (s.pcOf w)) ∧
      ((s.coreAt (mcOf w.i)).run = .running → 4 ≤ cmdCount s w.i 5 → k.r5.length < 4 → ready s (.push a p) = true → exec (.push a p) s = .next s)) ∧
    (kind = .worker → ∀ v t, ready s (.pop a p) = true →
      (p = 0 → s.curCtx = 0 → k.mErr = none → k.r0 = v :: t →
        ∃ u, exec (.pop a p) s = .next u ∧ writesReg (s.setCore w.i { k with r0 := t }) u w a v) ∧
      (p = 5 → k.r5 = v :: t → ∃ u, exec (.pop a p) s = .next u ∧ writesReg (s.setCore w.i { k with r5 := t }) u w a v) ∧
      (p = 3 → k.r3 = v :: t →
        let k1 : Core := { k with r3 := t, lg := { k.lg with seq := k.lg.seq + 1 } }
        let done := k.guard.any (fun g => g.final == some (k.lg.seq + 1).toNat)
        ∃ u, exec (.pop a p) s = .next u ∧ writesReg (s.setCore w.i (if done then { k1 with guard := none, lg := {} } else k1)) u w a v)) ∧
    (kind ≠ .memory → p = 4 → ∀ (v : PElem) (t : List PElem), k.r4 = v :: t →
      let st := v.val.toNat / 2 ^ 52 % 16
      let s1 := s.setCore w.i { k with r4 := t }
      ((v.nt = true ∨ ¬(2 ≤ st ∧ st ≤ 4)) → ready s (.pop a p) = true → ∃ u, exec (.pop a p) s = .next u ∧ writesReg s1 u w a v.val) ∧
      (v.nt = false → 2 ≤ st → st ≤ 4 → ready s (.pop a p) = true → s.curCtx = 0 → k.slip = none → k.quar = none → trapOpen s w.i →
        ∃ u, exec (.pop a p) s = .next u ∧ trapTaken s1 u w.i (trapLevel s w.i) 0x13 v.val (s.pcOf w))) ∧
    (kind = .memory → p = 0 → s.curCtx = 0 → k.mErr = none →
      (∀ v t, k.inq = v :: t → ready s (.pop a p) = true → ∃ u, exec (.pop a p) s = .next u ∧ writesReg (s.setCore w.i { k with inq := t }) u w a v) ∧
      (k.inq = [] → ready s (.pop a p) = true → exec (.pop a p) s = .next s) ∧
      givesReg s (.fstat a p) a (BitVec.ofNat 64 (k.inq.length * 2 ^ 16))) ∧
    (kind ≠ .memory → resPort kind p.toNat = true → (p = 0 → s.curCtx = 0 ∧ k.mErr = none) → resCount w.i k p.toNat = 0 →
      (willProduce s w.i p.toNat = true → ready s (.pop a p) = true → exec (.pop a p) s = .next s) ∧
      (willProduce s w.i p.toNat = false → givesTrap s (.pop a p) 7 (BitVec.ofNat 64 (256 + p.toNat)) (s.pcOf w))) ∧
    (anyPort kind p.toNat = false → givesTrap s (.fstat a p) 0x15 P (s.pcOf w)) ∧
    (kind = .worker ∨ kind = .control ∧ p ∈ [(2 : BitVec 4), 4] → p ∈ [(0 : BitVec 4), 1, 2, 3, 4, 5] → (p = 0 → s.curCtx = 0 ∧ k.mErr = none) →
      givesReg s (.fstat a p) a
      (BitVec.ofNat 64 (pendCount s w.i p.toNat % 256 * 2 ^ 32 + resCount w.i k p.toNat % 256 * 2 ^ 16 +
        (if p = 3 then 0 else cmdDepth p.toNat - cmdCount s w.i p.toNat))))

/-! ## The control window and the cluster window (spec/06 Table 6.3, spec/09 Table 9.5) -/

/-- Table 6.3: a 64-bit access to a control register's window word is `crd` or `cwr`, an access to a port's words is `push`, `fstat` or `pop`;
the capability list is read. R115: the cluster atomic store is memory of the cluster.
Clauses of it rest on readings and choices of the model: log entry 103 (a helper's store to a register word). -/
def Obligations.ControlWindow : Prop :=
  ∀ (s : State) (o : Mem),
    let w := self s
    let a := (s.rd w o.b).toNat
    let k := s.coreAt w.i
    let wk := kindOf w.i = .worker
    (∀ r : Nat, r < 64 → a = 0x40000 + 8 * r → ctlOk (kindOf w.i) (BitVec.ofNat 6 r) = true →
      (ctlMayWrite r k.level = true → plvRefused k w.i r (s.rd w o.a) = false →
        storesWin s (.controlWindowRegStore o) o 8 (ctlWrite s w.i r (s.rd w o.a)) ∧
        storesWin s (.st64 o) o 8 (ctlWrite s w.i r (s.rd w o.a))) ∧
      (ctlMayRead r k.level = true → loadsWin s (.ld64 o) o 8 s (ctlRead s w.i r)) ∧
      (ctlMayWrite r k.level = false → givesTrap s (.st64 o) 2 (s.rd w o.b) (s.pcOf w))) ∧
    (wk → a = 0x41050 → (s.coreAt (mcOf w.i)).run = .running → cmdCount s w.i 5 < 4 →
      storesWin s (.fifoPushStore o) o 8
        (s.modCore w.i (fun k => { k with q5 := k.q5 ++ [{ val := s.rd w o.a, deps := releaseDeps s w }] }))) ∧
    (wk → a = 0x41018 → ∀ v t, k.r1 = v :: t → loadsWin s (.fifoPopLoad o) o 8 (s.setCore w.i { k with r1 := t }) v) ∧
    (wk → ∀ p : Nat, 1 ≤ p → p ≤ 5 → a = 0x41000 + 16 * p → loadsWin s (.fifoFstatLoad o) o 8 s (fstatWord s w.i p)) ∧
    (∀ off : Nat, off < 0x8000 → off % 4 = 0 → a = 0x48000 + off →
      loadsWin s (.ldN32 o) o 4 s (BitVec.ofNat 64 (capWord s off % 2 ^ 32))) ∧
    (wk → ∀ off : Nat, off + 8 ≤ 0x4000 → off % 8 = 0 → a = 0x54000 + off →
      storesWin s (.st64 o) o 8 (put s (atomBase (clusterOf w.i) + off) (natLE 8 (s.rd w o.a).toNat) (0, 0)) ∧
      (badAt s.bad (atomBase (clusterOf w.i) + off) 8 (fun _ => false) = none →
        loadsWin s (.ld64 o) o 8 s (BitVec.ofNat 64 (leNat (rdBs s.mem (atomBase (clusterOf w.i) + off) 8)))))

/-- R176, R177, R181, R187: a load of a wait word consumes the fired bit or lulls; a store to a fire word and `evsig` fire the line once what the
context did before is performed, and wait until then; a bind word is written; a forwarded message fires its line; a firing completes the
load of the first waiter, after the freeze where its context is frozen (R38). A line whose bind word has `en` sends the firing to its target, while
fewer than 8 forwards have brought it, and fires itself only with `keep`. R178, R179: a load of a lock word takes a free mutex, finds 0 at
its holder, and otherwise queues and lulls; the holder's store, under the same wait, passes it to the next loader or frees it. A load of an
arrive word, under that wait, marks the arrival and lulls, and the last arrival releases every waiter; a mask word is written between rounds, and keeps its value during one. -/
def Obligations.EventUnits : Prop :=
  (∀ (s : State) (o : Mem) (sgn : Bool) (n : Nat), n < 32 →
      let w := self s
      let a := (s.rd w o.b).toNat
      let cl := clusterOf w.i
      let k := s.clusterAt cl
      let bw := (s.rd w o.a).toNat &&& 0xC1FF001F
      let part := ((vmOf s w.i).bind (partOf s)).getD ⟨0, 0, 64, 64⟩
      let setFired (s : State) (b : Bool) : State := s.modCluster cl (fun k => { k with fired := vput k.fired n b })
      (kindOf w.i = .worker → a = 0x50000 + 4 * n →
        (vget k.fired n false = true → loadsWin s (.waitWordLoad o sgn) o 4 (setFired s false) 1) ∧
        (vget k.fired n false = false → lullsOn s (.waitWordLoad o sgn) o s (.line n))) ∧
      (kindOf w.i = .worker → a = 0x50080 + 4 * n → fireReady s w = true → storesWin s (.fireWordStore o) o 4 (fire s cl n 0)) ∧
      (kindOf w.i = .worker → a = 0x50080 + 4 * n → fireReady s w = false → ready s (.fireWordStore o) = true →
        guardOk (s.coreAt w.i) .store a 4 = true → (s.coreAt w.i).inSlip w.c = false → exec (.fireWordStore o) s = .next s) ∧
      (kindOf w.i = .worker → a = 0x50100 + 4 * n → (bw < 2 ^ 31 ∨ (bw / 2 ^ 16 % 64 < part.w ∧ bw / 2 ^ 22 % 8 * 8 < part.h)) →
        storesWin s (.bindWordStore o) o 4 (s.modCluster cl (fun k => { k with bind := vput k.bind n (BitVec.ofNat 32 bw) }))) ∧
      (∀ e : BitVec 5, (fireReady s w = true → givesState s (.evsig e) (fire s cl e.toNat 0)) ∧
        (fireReady s w = false → ready s (.evsig e) = true → exec (.evsig e) s = .next s)) ∧
      (∀ (j : Nat) (p : Packet) (c hops : Nat), s.mesh[j]? = some p → p.kind = .event c n hops → heldAtEdge s p.core (coreIn c 0) = false →
        exec (.eventMessage j) s = .next (fire (dropPkt s j) c n hops)) ∧
      (∀ hops, (vget k.bind n 0).getLsbD 31 = true →
        let b := (vget k.bind n 0).toNat
        let at_ := partCorner s (coreIn cl 0)
        let target := clusterOf ((b / 2 ^ 22 % 8 * 8 + at_.2) * 64 + b / 2 ^ 16 % 64 + at_.1)
        let sent := if hops < 7 then send s (coreIn cl 0) 0 0 (.event target (b % 32) (hops + 1)) else s
        (b / 2 ^ 30 % 2 = 0 → fire s cl n hops = sent) ∧
        (b / 2 ^ 30 % 2 = 1 → lulledOn s cl (.line n) = none → fire s cl n hops = setFired sent true) ∧
        (b / 2 ^ 30 % 2 = 1 → ∀ i c l, lulledOn s cl (.line n) = some (i, c) → c ≤ 10 → (s.coreAt i).bound = none →
          ((s.coreAt i).ctx c).lull = some l → l.inc = none → frozen (s.coreAt i) c = false →
          let t := fire s cl n hops
          (t.ctxAt ⟨i, c, i⟩).lull = none ∧ t.rd ⟨i, c, i⟩ l.rd = (if l.rd = 0 then 0 else 1) ∧ t.mesh = sent.mesh ∧ t.clusters = s.clusters)) ∧
      ((vget k.bind n 0).getLsbD 31 = false → lulledOn s cl (.line n) = none → fire s cl n 0 = setFired s true) ∧
      (∀ i c l, (vget k.bind n 0).getLsbD 31 = false → lulledOn s cl (.line n) = some (i, c) → c ≤ 10 → (s.coreAt i).bound = none →
        ((s.coreAt i).ctx c).lull = some l → l.inc = none →
        let t := fire s cl n 0
        (frozen (s.coreAt i) c = true → (t.ctxAt ⟨i, c, i⟩).lull = some { l with due := some 1 } ∧ t.pcOf ⟨i, c, i⟩ = s.pcOf ⟨i, c, i⟩ ∧
          t.clusters = s.clusters) ∧
        (frozen (s.coreAt i) c = false → (t.ctxAt ⟨i, c, i⟩).lull = none ∧ t.rd ⟨i, c, i⟩ l.rd = (if l.rd = 0 then 0 else 1) ∧
          (t.ctxAt ⟨i, c, i⟩).pc = (loopEnd ((s.coreAt i).ctx c).loops l.next).2 ∧ t.clusters = s.clusters))) ∧
  (∀ (s : State) (o : Mem) (sgn : Bool) (m : Nat),
      let w := self s
      let a := (s.rd w o.b).toNat
      let cl := clusterOf w.i
      let k := s.clusterAt cl
      let lk := vget k.locks m {}
      let br := vget k.bars m {}
      let arr := br.arr ||| BitVec.ofNat 8 (2 ^ rowOf w.i)
      let setLock (l : Lock) : State := s.modCluster cl (fun k => { k with locks := vput k.locks m l })
      kindOf w.i = .worker →
        (m < 8 → a = 0x50200 + 4 * m →
          (lk.holder = none → loadsWin s (.lockWordLoad o sgn) o 4 (setLock { lk with holder := some (w.i, w.c) }) 1) ∧
          (lk.holder = some (w.i, w.c) → loadsWin s (.lockWordLoad o sgn) o 4 s 0) ∧
          (∀ h, lk.holder = some h → h ≠ (w.i, w.c) →
            lullsOn s (.lockWordLoad o sgn) o (setLock { lk with queue := lk.queue ++ [(w.i, w.c)] }) (.lock m)) ∧
          (lk.holder ≠ some (w.i, w.c) → storesWin s (.lockWordStore o) o 4 s) ∧
          (lk.holder = some (w.i, w.c) → fireReady s w = true →
            (lk.queue = [] → storesWin s (.lockWordStore o) o 4 (setLock { holder := none, queue := [] })) ∧
            (∀ h q, lk.queue = h :: q → storesWin s (.lockWordStore o) o 4
              (completeLull (setLock { holder := some h, queue := q }) h.1 h.2 1))) ∧
          (lk.holder = some (w.i, w.c) → fireReady s w = false → ready s (.lockWordStore o) = true →
            guardOk (s.coreAt w.i) .store a 4 = true → (s.coreAt w.i).inSlip w.c = false → exec (.lockWordStore o) s = .next s)) ∧
        (m < 4 → a = 0x50300 + 4 * m →
          (br.mask.getLsbD (rowOf w.i) = false → loadsWin s (.arriveWordLoad o sgn) o 4 s 0) ∧
          (br.mask.getLsbD (rowOf w.i) = true → arr ≠ br.mask → fireReady s w = true →
            lullsOn s (.arriveWordLoad o sgn) o (s.modCluster cl (fun k => { k with bars := vput k.bars m { br with arr := arr } })) (.barrier m)) ∧
          (br.mask.getLsbD (rowOf w.i) = true → fireReady s w = false → ready s (.arriveWordLoad o sgn) = true →
            guardOk (s.coreAt w.i) .load a 4 = true → (s.coreAt w.i).inSlip w.c = false → exec (.arriveWordLoad o sgn) s = .next s) ∧
          (br.mask.getLsbD (rowOf w.i) = true → arr = br.mask → fireReady s w = true → ready s (.arriveWordLoad o sgn) = true →
            guardOk (s.coreAt w.i) .load a 4 = true → (s.coreAt w.i).inSlip w.c = false →
            ∃ t, exec (.arriveWordLoad o sgn) s = .next t ∧ (vget (t.clusterAt cl).bars m {}).arr = 0 ∧
              ∀ e ∈ clusterCtxs s cl, (t.ctxAt ⟨e.1, e.2, e.1⟩).lull.any (fun l => l.on == .barrier m && l.due.isNone) = false)) ∧
        (m < 4 → a = 0x50380 + 4 * m → br.arr = 0 → storesWin s (.maskWordStore o) o 4
          (s.modCluster cl (fun k => { k with bars := vput k.bars m { br with mask := BitVec.ofNat 8 (s.rd w o.a).toNat } }))) ∧
        (m < 4 → a = 0x50380 + 4 * m → br.arr ≠ 0 → storesWin s (.maskWordStore o) o 4 s))

/-! ## Helpers and gangs (spec/03 R35 to R42, spec/05 R100 to R106) -/

/-- R100 to R103: `start` gives the lowest free helper the target and its argument in `g1`, or −1; `hwait` goes on once the helper is not live;
`hexit` ends its helper and sets every wake latch; `hstat` gives the status word. R147: what the control context has in flight at `start`
happens before what the helper does, and what a helper has in flight at `hexit` before what the control context does next.
Clauses of it rest on readings and choices of the model: log entry 114 (the accesses that a context inherits). -/
def Obligations.HelperInstructions : Prop :=
  ∀ (s : State) (a b : Reg) (off : BitVec 35),
    let w := self s
    let k := s.coreAt w.i
    let n := (s.rd w a).toNat
    let m := (s.rd w b).toNat
    (freeHelper k = none → givesReg s (.start a off) a (BitVec.allOnes 64)) ∧
    (∀ h, freeHelper k = some h → ready s (.start a off) = true → ∃ t, exec (.start a off) s = .next t ∧
      writesReg (s.setCore w.i { k with helpers := vput k.helpers h { live := true, ctx := {
          pc := s.fall w + 2 * BitVec.ofInt 64 off.toInt, g := vput (Vector.replicate 32 0) 1 (s.rd w a), inh := inFlight s w } } })
        t w a (BitVec.ofNat 64 h)) ∧
    ((n ≤ 9 → (vget k.helpers n {}).live = false) → givesState s (.hwait a) s) ∧
    (n ≤ 9 → (vget k.helpers n {}).live = true → ready s (.hwait a) = true → exec (.hwait a) s = .next s) ∧
    (loadsOut s w = [] → ready s .hexit = true → ∃ t, exec .hexit s = .next t ∧
      vget (t.coreAt w.i).helpers (w.c - 1) {} = { ctx := { latch := true } } ∧
      (t.coreAt w.i).ctl = { k.ctl with latch := true, inh := (t.coreAt w.i).ctl.inh } ∧
      (∀ d ∈ inFlight s w, d ∈ (t.coreAt w.i).ctl.inh) ∧ t.mem = s.mem) ∧
    (m ≤ 9 → givesReg s (.hstat a b) a
      (let h := vget k.helpers m {}
       BitVec.ofNat 64 ((if h.live then 2 ^ 63 else 0) + (if h.flt then 2 ^ 62 else 0) + h.cause.toNat * 2 ^ 48 + h.fpc.toNat % 2 ^ 18))) ∧
    (9 < m → ∃ v : Word, givesReg s (.hstat a b) a v ∧ ∀ j, j < 64 → v.getLsbD j =
      ((decide (j < 10) && (vget k.helpers j {}).live) || (decide (16 ≤ j) && decide (j < 26) && (vget k.helpers (j - 16) {}).flt)))

/-- R40, R41, R106: a `gang` without conflict waits for the rest of its aligned group; when the whole group waits, every member is in the gang
with its rank in `id.gm`, and stands where the leader goes on; a conflict with a core that waits raises `gang`, and of cores that issue
conflicting ones in one cycle each takes it; `split` outside a gang does nothing. R40, R42: in a gang the leader issues and every member
performs the instruction on its own registers; a follower issues nothing; branch conditions, the count of `loop` and the targets of `jr` and `ret`
are the leader's, and `call` writes the link register of every member. R104, R41, R42: `start` in a gang fails check 12 at every member, and `gang`
raises `gang` at every member, at the address that the leader fetches, and none of them has `st.gf` set by it. R106: `split` in a gang ends it, and
every member goes on after it by itself. -/
def Obligations.Gangs : Prop :=
  (∀ (s : State) (n : BitVec 5), n.toNat ∈ [2, 4, 8] →
      let w := self s
      let lead := coreIn (clusterOf w.i) (gangRow (rowOf w.i) n.toNat)
      let conflict := (List.range 8).any (fun r => match (s.coreAt (coreIn (clusterOf w.i) r)).gangWait with
        | some (n', _) => gangConflict (rowOf w.i) n.toNat r n'
        | none => false)
      let helpers := (s.coreAt w.i).helpers.toList.any (·.live)
      let others := (List.range n.toNat).all (fun r => lead + 64 * r == w.i || ((s.coreAt (lead + 64 * r)).gangWait.map (·.1)) == some n.toNat)
      let now := (List.range 8).filter (fun r => (s.coreAt (coreIn (clusterOf w.i) r)).gangTry.any
        (fun t => t.at_ == s.cyc && gangConflict (rowOf w.i) n.toNat r t.n))
      (helpers = false → conflict = true → now = [] → ready s (.gang n) = true → s.curCtx = 0 → (s.coreAt w.i).slip = none →
        (s.coreAt w.i).quar = none → trapOpen s w.i →
        ∃ t, exec (.gang n) s = .next t ∧
          trapTaken (s.modCore w.i (fun k => { k with gangTry := some {
            n := n.toNat, at_ := s.cyc, pc := s.pcOf w, next := s.fall w, loops := k.ctl.loops } })) t w.i (trapLevel s w.i) 0x0E 0 (s.pcOf w)) ∧
      (helpers = false → now ≠ [] → ready s (.gang n) = true → s.curCtx = 0 → (s.coreAt w.i).slip = none → (s.coreAt w.i).quar = none → trapOpen s w.i →
        ∃ t, exec (.gang n) s = .next t ∧ (vget (t.coreAt w.i).banks (trapLevel s w.i) {}).cause = 0x0E ∧ (t.coreAt w.i).gangWait = none ∧
          ∀ r ∈ now, let j := coreIn (clusterOf w.i) r
            (s.coreAt j).gangWait.isSome = true → (s.coreAt j).gang = none → (s.coreAt j).quar = none → trapOpen s j →
              (vget (t.coreAt j).banks (trapLevel s j) {}).cause = 0x0E ∧ (t.coreAt j).gangWait = none) ∧
      (helpers = true → givesTrap s (.gang n) 1 (illegalVal s 12) (s.pcOf w)) ∧
      (helpers = false → conflict = false → now = [] → w.i < 4096 → ready s (.gang n) = true →
        (others = false → ∃ t, exec (.gang n) s = .next t ∧ (t.coreAt w.i).gangWait = some (n.toNat, s.fall w) ∧
          (t.coreAt w.i).gang = none ∧ t.pcOf w = s.pcOf w ∧ sameRest s t w.i) ∧
        (others = true → ∃ t, exec (.gang n) s = .next t ∧ ∀ r, r < n.toNat →
          (t.coreAt (lead + 64 * r)).gang = some (lead, n.toNat) ∧ (t.coreAt (lead + 64 * r)).gangWait = none ∧
          vget (t.coreAt (lead + 64 * r)).id 4 0 = BitVec.ofNat 64 r ∧
          (t.coreAt (lead + 64 * r)).ctl.pc = (t.coreAt lead).ctl.pc)) ∧
      givesState s .split s) ∧
  (∀ (s : State) (o : RR) (lead n : Nat),
      ((s.coreAt s.curCore).gang = some (lead, n) → lead ≠ s.curCore → exec (.add o) s = .next s) ∧
      (gangReady s lead n (.add o) → ∃ t, exec (.add o) s = .next t ∧ ∀ r, r < n →
          let w : Who := ⟨lead + 64 * r, 0, lead⟩
          t.rd w o.a = (if o.a = 0 then 0 else rrX s w o + rrY s w o) ∧
          (t.ctxAt w).pc = (loopEnd (s.ctxAt w).loops (s.fall ⟨lead, 0, lead⟩)).2)) ∧
  (∀ (s : State) (a : Reg) (off : BitVec 35) (m : BitVec 5) (lead n : Nat),
      let open_ := ∀ r, r < n → let k := s.coreAt (lead + 64 * r)
        k.slip = none ∧ k.quar = none ∧ trapOpen s (lead + 64 * r)
      let allTrap (i : Instr) (cause : Nat) (val : Word) : Prop := ∃ t, exec i s = .next t ∧ ∀ r, r < n →
        let j := lead + 64 * r
        let b := vget (t.coreAt j).banks (trapLevel s j) {}
        (t.coreAt j).gang = none ∧ b.cause = BitVec.ofNat 8 cause ∧ b.val = val ∧ b.pc = s.pcOf ⟨lead, 0, lead⟩ ∧
        (vget (t.coreAt j).banks 2 {}).gf = (vget (s.coreAt j).banks 2 {}).gf
      (gangReady s lead n (.start a off) → open_ → allTrap (.start a off) 1 (illegalVal s 12)) ∧
      (gangReady s lead n (.gang m) → open_ → (∀ r, r < n → (s.coreAt (lead + 64 * r)).helpers.toList.any (·.live) = false) →
        allTrap (.gang m) 0x0E 0)) ∧
  (∀ (s : State) (a : Reg) (off : BitVec 35) (offB : BitVec 40) (lead n : Nat),
      let leadW : Who := ⟨lead, 0, lead⟩
      let x := s.rd leadW a
      let near := s.fall leadW
      let dest := near + 2 * BitVec.ofInt 64 off.toInt
      let far := near + 2 * BitVec.ofInt 64 offB.toInt
      -- every member stands at `pc`, with `loops` of its own stack
      let stand (i : Instr) (loops : List Loop → List Loop) (pc : List Loop → Word) : Prop :=
        gangReady s lead n i → ∃ t, exec i s = .next t ∧ ∀ r, r < n →
          let w : Who := ⟨lead + 64 * r, 0, lead⟩
          (t.ctxAt w).pc = pc (s.ctxAt w).loops ∧ (t.ctxAt w).loops = loops (s.ctxAt w).loops ∧
          ∀ d, t.rd w d = if i = .call offB ∧ d = 31 then near else s.rd w d
      let jumps (i : Instr) (t : Word) : Prop := stand i (fun ls => popOutside ls t) (fun _ => t)
      let passes (i : Instr) : Prop := stand i (fun ls => (loopEnd ls near).1) (fun ls => (loopEnd ls near).2)
      (x = 0 → jumps (.beqz a off) dest ∧ passes (.bnez a off)) ∧ (x ≠ 0 → jumps (.bnez a off) dest ∧ passes (.beqz a off)) ∧
      (x.toInt < 0 → jumps (.bltz a off) dest ∧ passes (.bgez a off)) ∧ (0 ≤ x.toInt → jumps (.bgez a off) dest ∧ passes (.bltz a off)) ∧
      jumps (.b offB) far ∧ stand (.call offB) id (fun _ => far) ∧
      (x.getLsbD 0 = false → jumps (.jr a) x) ∧ ((s.rd leadW 31).getLsbD 0 = false → jumps .ret (s.rd leadW 31)) ∧
      (x = 0 → stand (.loop a off) id (fun _ => dest)) ∧
      (gangReady s lead n .split → ∃ t, exec .split s = .next t ∧ ∀ r, r < n →
        let w : Who := ⟨lead + 64 * r, 0, lead⟩
        (t.coreAt w.i).gang = none ∧ vget (t.coreAt w.i).id 4 0 = 0 ∧ (t.ctxAt w).pc = (loopEnd (s.ctxAt w).loops near).2 ∧
        ∀ d, t.rd w d = s.rd w d))

/-! ## Syncs and exchange phases (spec/03 R43 to R48, spec/09 R163 to R190) -/

/-- R164, R182, R183, R167: a sync waits until what it orders is performed; one that may arrive marks its member and its round; `sync.h`, and a
`sync.s` that may not run ahead, wait; another `sync.s` goes on in slipstream with the checkpoint of its registers.
Clauses of it rest on readings and choices of the model: log entries 14 and 85. -/
def Obligations.SyncArrival : Prop :=
  ∀ (s : State) (l : BitVec 3) (nos : Bool),
    let w := self s
    let k := s.coreAt w.i
    let lv := syncLvl k l.toNat
    let key := roundKey lv (domRect s w.i lv)
    let rd := s.roundAt key
    let mayArrive := arrivalReady s w = true ∧ roundOver s rd (wdLimit k lv) = false ∧ k.arrived.contains lv = false
    let arrivedAt (t : State) : Prop := (t.coreAt w.i).arrived = lv :: k.arrived ∧
      (t.roundAt key).first = some (rd.first.getD s.cyc) ∧ (t.roundAt key).last = s.cyc ∧ (t.roundAt key).ph = rd.ph ∧ t.mem = s.mem
    (arrivalReady s w = false → (ready s (.syncH l) = true → exec (.syncH l) s = .next s) ∧
      (ready s (.syncS l nos) = true → exec (.syncS l nos) s = .next s)) ∧
    (mayArrive →
      (ready s (.syncH l) = true → ∃ t, exec (.syncH l) s = .next t ∧ arrivedAt t ∧ t.pcOf w = s.pcOf w ∧
        (t.coreAt w.i).sync = some { lvl := lv, hard := true, pc := s.pcOf w, next := s.fall w }) ∧
      (ready s (.syncS l nos) = true → nos = true ∨ k.noSlip = some (s.pcOf w) ∨ lastArrival (arrive s w.i lv) w.i lv = true → ∃ t, exec (.syncS l nos) s = .next t ∧ arrivedAt t ∧ t.pcOf w = s.pcOf w ∧
        (t.coreAt w.i).sync = some { lvl := lv, hard := false, pc := s.pcOf w, next := s.fall w }) ∧
      (ready s (.syncS l nos) = true → nos = false → k.noSlip ≠ some (s.pcOf w) → lastArrival (arrive s w.i lv) w.i lv = false →
        ∃ t sl, exec (.syncS l nos) s = .next t ∧ arrivedAt t ∧ fellOn s t w ∧ (t.coreAt w.i).slip = some sl ∧
          sl.g = k.ctl.g ∧ sl.v = k.v ∧ sl.k = k.k ∧ sl.loops = k.ctl.loops ∧ sl.latch = k.ctl.latch ∧ sl.syncPc = s.pcOf w ∧ sl.buf = [] ∧
          sl.marks = []))

/-- R165, R54, R45: T cycles after the last arrival the domain releases: every member that waits goes on after its sync, no member counts as
arrived, and the round's number advances. R34: the release of a group acts on level 6 in the same way, within the round's limit, as the first event of its cycle. R166, R186: when the watchdog of a
round runs out, and at level 6 whoever has arrived here, the round breaks: the missing members are kept for `bstat`, nobody counts as arrived, and a member that waits takes
`synctime` at its sync.
Clauses of it rest on readings and choices of the model: log entries 14, 83 and 84. -/
def Obligations.SyncReleases : Prop :=
  (∀ (s : State) (i l : Nat),
      let r := domRect s i l
      let key := roundKey l r
      let released (t : State) (l : Nat) (r : Rect) : Prop :=
        (t.roundAt (roundKey l r)).ph = (s.roundAt (roundKey l r)).ph + 1 ∧ (t.roundAt (roundKey l r)).first = none ∧
        ∀ j ∈ r.cores, l ∉ (t.coreAt j).arrived ∧
          (∀ y, (s.coreAt j).sync = some y → y.lvl = l → (t.coreAt j).sync = none ∧
            (t.coreAt j).ctl.pc = (loopEnd (s.coreAt j).ctl.loops y.next).2 ∧ (t.coreAt j).exReady = (if y.hard then some l else none))
      (i < 4096 → 2 ≤ l → l ≤ 5 → (l = 5 → s.migRep = [] ∧ s.holds = [] ∧ s.moving = []) → inTime s i l = true → (s.roundAt key).last + relTime r ≤ s.cyc →
        domHalted s r = false → ∃ t, exec (.syncRelease i l) s = .next t ∧ released t l r) ∧
      (∀ (g : Rect) (rd : Round), g.x0 < 64 → g.y0 < 64 → g.w < 128 → g.h < 128 → s.migRep = [] → s.holds = [] → s.moving = [] →
        s.rounds.filter (fun e => e.1 / 2 ^ 32 == 6 && e.2.first.isSome) = [(roundKey 6 g, rd)] →
        missing s g 6 = [] → (∃ f, (s.roundAt (roundKey 6 g)).first = some f ∧ s.cyc ≤ f + wdLimit (s.coreAt (g.y0 * 64 + g.x0)) 6) →
        domHalted s g = false → s.newCyc = true → ∃ t, exec .groupRelease s = .next t ∧ released t 6 g)) ∧
  (∀ (s : State) (i l f : Nat),
      let r := domRect s i l
      let key := roundKey l r
      i < 4096 → 2 ≤ l → l ≤ 6 → (s.roundAt key).first = some f → f + wdLimit (s.coreAt i) l + relTime r ≤ s.cyc →
      (l = 6 ∨ inTime s i l = false) → domHalted s r = false →
        ∃ t, exec (.syncBreak i l) s = .next t ∧ (t.roundAt key).brk = true ∧ (t.roundAt key).first = none ∧
          (t.roundAt key).frozen = missing s r l ∧ (t.roundAt key).ph = (s.roundAt key).ph ∧
          ∀ j ∈ r.cores, l ∉ (t.coreAt j).arrived ∧
            (∀ y, l ∈ (s.coreAt j).arrived → (s.coreAt j).sync = some y → (s.coreAt j).slip = none → (s.coreAt j).quar = none → trapOpen s j →
              (t.coreAt j).sync = none ∧ (vget (t.coreAt j).banks (trapLevel s j) {}).cause = 9 ∧
              (vget (t.coreAt j).banks (trapLevel s j) {}).pc = y.pc ∧
              ((∀ j' ∈ r.cores, l ∈ (s.coreAt j').arrived → trapOpen s j') →
                (vget (t.coreAt j).banks (trapLevel s j) {}).val = synctimeVal s j l (missing s r l))))

/-- Tables 9.8 and 9.9: `dom` gives the domain word and `bstat` the three views of the missing members. R44 to R47, R184: `exch` in the
exchange-ready state enters the phase with its plan's header, and fails check 12 elsewhere; the sequencer sends each flit of a well-formed
entry at its plan cycle; the count is taken at plan cycle `span`; when the combine ends without a mismatch, every member goes on, and with one
(a member's count, its plan, or a member that missed the phase) each takes `exover` at its `exch`. R189, R166: a release and a break show
from their cycle on, and an arrival from the cycle after it.
Clauses of it rest on readings and choices of the model: log entries 14, 15, 34, 83, 94, 97 and 117. -/
def Obligations.DomainsAndExchange : Prop :=
  (∀ (s : State) (a : Reg) (l : BitVec 3),
      let w := self s
      let k := s.coreAt w.i
      let lv := syncLvl k l.toNat
      let r := domRect s w.i lv
      let raw := s.roundAt (roundKey lv r)
      let rd := seenRound s w.i lv
      let came := if rd.first.isSome then r.cores.filter (seenArrival s lv) else []
      let ms := if rd.first.isSome then missing s r lv else rd.frozen
      let n (b : Bool) : Nat := if b then 1 else 0
      (domHalted s r = true → rd = raw) ∧
      (domHalted s r = false →
        (willRelease s w.i lv = true → raw.last + relTime r ≤ s.cyc → rd.ph = raw.ph + 1 ∧ rd.first = none ∧ rd.brk = false) ∧
        (willRelease s w.i lv = true → s.cyc < raw.last + relTime r → rd = raw) ∧
        (∀ f, willRelease s w.i lv = false → raw.first = some f → f + wdLimit k lv < s.cyc →
          rd.ph = raw.ph ∧ rd.first = none ∧ rd.brk = true ∧ rd.frozen = missing s r lv) ∧
        (∀ f, willRelease s w.i lv = false → raw.first = some f → s.cyc ≤ f + wdLimit k lv → rd = raw) ∧
        (raw.first = none → rd = raw)) ∧
      givesReg s (.dom a l) a (BitVec.ofNat 64 (rd.ph.toNat * 2 ^ 32 + wdLimit k lv / 1024 % 2 ^ 16 * 2 ^ 16 + n rd.brk * 2 ^ 14 +
        n (came.contains w.i) * 2 ^ 13 + came.length)) ∧
      (∀ v : BView, rd.first = none → rd.brk = false → givesReg s (.bstat a v l) a 0) ∧
      (rd.first.isSome ∨ rd.brk = true →
        givesReg s (.bstat a .v0 l) a (BitVec.ofNat 64 (n rd.brk * 2 ^ 63 + missWord s w.i ms)) ∧
        (∃ v : Word, givesReg s (.bstat a .v1 l) a v ∧ ∀ y, y < 64 → v.getLsbD y = ms.any (fun j => yOf j == r.y0 + y)) ∧
        (∃ v : Word, givesReg s (.bstat a .v2 l) a v ∧ ∀ x, x < 64 → v.getLsbD x = ms.any (fun j => xOf j == r.x0 + x)))) ∧
  (∀ (s : State) (b : Reg) (i : Nat),
      let w := self s
      let a := (s.rd w b).toNat
      let k := s.coreAt i
      ((s.coreAt w.i).exReady = none → givesTrap s (.exch b) 1 (illegalVal s 12) (s.pcOf w)) ∧
      (∀ l, (s.coreAt w.i).exReady = some l → a % 64 = 0 → a + 16 ≤ 0x40000 → sliceNat s w.i a 4 ≤ 16383 → ready s (.exch b) = true →
        ∃ t, exec (.exch b) s = .next t ∧ t.mem = s.mem ∧ t.pcOf w = s.pcOf w ∧ (t.coreAt w.i).exReady = none ∧
          (t.coreAt w.i).exch = some {
            lvl := l, pc := s.pcOf w, next := s.fall w, plan := a, n := sliceNat s w.i a 4
            arr := sliceNat s w.i (a + 4) 4, span := sliceNat s w.i (a + 8) 4, t0 := s.cyc, cnt := (s.coreAt w.i).exEarly }) ∧
      (∀ x e, i < 4096 → k.run = .running → k.exch = some x → x.mal = none → x.ent < x.n →
        sendEntry s i (x.plan + 16 + 16 * x.ent) = some e → e.ok (domRect s i x.lvl) x.prevEnd x.span = true →
        x.t0 + e.t + x.flit ≤ s.cyc →
        ∃ t p, exec (.exchangeFlitInject i) s = .next t ∧ t.mesh = s.mesh ++ [p] ∧ t.mem = s.mem ∧
          p.kind = .flit (((domRect s i x.lvl).y0 + e.ty) * 64 + (domRect s i x.lvl).x0 + e.tx) (e.taddr + 64 * x.flit) x.lvl
            (rdBs s.mem (localBase i + e.laddr + 64 * x.flit) 64)) ∧
      (∀ x, i < 4096 → k.run ≠ .preempted → k.exch = some x → x.counted = false → x.sending = false → x.t0 + x.span ≤ s.cyc →
        ∃ t, exec (.exchangeCount i) s = .next t ∧ (t.coreAt i).exch = some { x with counted := true } ∧ sameRest s t i) ∧
      (∀ x, i < 4096 → k.exch = some x → i ∈ (domRect s i x.lvl).cores →
        (∀ j ∈ (domRect s i x.lvl).cores, x.lvl ∉ (s.coreAt j).exMiss ∧ (s.coreAt j).exReady = none ∧ (s.coreAt j).run ≠ .preempted ∧
          ∃ y, (s.coreAt j).exch = some y ∧ y.lvl = x.lvl ∧ y.counted = true ∧ y.mismatch = false ∧
            y.t0 + y.span + relTime (domRect s i x.lvl) ≤ s.cyc) →
        ∃ t, exec (.exchangeCombineEnd i) s = .next t ∧ t.mem = s.mem ∧ ∀ j ∈ (domRect s i x.lvl).cores, ∀ y, (s.coreAt j).exch = some y →
          (t.coreAt j).exch = none ∧ (t.coreAt j).ctl.pc = (loopEnd (s.coreAt j).ctl.loops y.next).2) ∧
      (∀ x, i < 4096 → k.exch = some x → i ∈ (domRect s i x.lvl).cores →
        (∀ j ∈ (domRect s i x.lvl).cores, (s.coreAt j).exReady = none ∧ (s.coreAt j).run ≠ .preempted ∧
          ∃ y, (s.coreAt j).exch = some y ∧ y.lvl = x.lvl ∧ y.counted = true ∧ y.t0 + y.span + relTime (domRect s i x.lvl) ≤ s.cyc) →
        (∃ j ∈ (domRect s i x.lvl).cores, x.lvl ∈ (s.coreAt j).exMiss ∨ ∃ y, (s.coreAt j).exch = some y ∧ y.mismatch = true) →
        ∃ t, exec (.exchangeCombineEnd i) s = .next t ∧ ∀ j ∈ (domRect s i x.lvl).cores, ∀ y, (s.coreAt j).exch = some y →
          (s.coreAt j).quar = none → trapOpen s j →
            let b := vget (t.coreAt j).banks (trapLevel s j) {}
            (t.coreAt j).exch = none ∧ b.cause = 8 ∧ b.pc = y.pc ∧ b.val = y.overVal))

/-! ## Remote accesses and atomics (spec/06 R116 to R123, spec/01 R12) -/

/-- R116 to R118: on a worker, `ldg` of an address whose home is its own slice gives the bytes, zero-extended; another home is sent a load, and gA
pends. `stg` writes its own slice at once; another home is sent a store. An ordered form waits for the stores and atomics before it, and is performed after the loads before it (R372, R140); an
access at the own home waits for one of its context to the same bytes that is still on its way there. An address with no
home raises `window`, a misaligned one `align`. R381, R382, R113: an `ldg` or `stg` of a system-window address that the core's window table
and grants admit leaves on the entry's connection with its remote address; the load holds its context until the answer, the store goes on. An
address without an entry or without its permission raises `window`, then come `priv` and `align`; on a connection that carries nothing the
load raises `porttime` and the store sets the pending failure, which the next `stg.sys` takes.
Clauses of it rest on readings and choices of the model: log entries 18, 61 and 98. -/
def Obligations.RemoteAccess : Prop :=
  (∀ (s : State) (o : Rem),
    let w := self s
    let a := s.rd w o.b
    let k := s.coreAt w.i
    let n := 8 / 2 ^ o.sz.toNat
    let v := s.rd w o.a
    let free : Prop := o.ord = some .sys → (s.ctxAt w).sysFail = none
    kindOf w.i = .worker →
      (∀ h off, home s w.i a.toNat = some (h, off) →
        (guardOk k .load a.toNat n = true → a.toNat % n = 0 →
          (h = w.i → ownClear s w off n true = true → badAt s.bad (localBase h + off) n (fun _ => false) = none →
            givesReg s (.ldg o) o.a (BitVec.ofNat 64 (leNat (rdBs s.mem (localBase h + off) n) % 2 ^ 64))) ∧
          (h = w.i → ownClear s w off n true = false → ready s (.ldg o) = true → exec (.ldg o) s = .next s) ∧
          (h ≠ w.i → (loadsOut s w).length < 16 →
            givesState s (.ldg o) ((send s w.i w.c a (.load o.a h off n) (0, 0) o.ord.isSome).modCtx w (fun x => addPend x o.a)))) ∧
        (guardOk k .load a.toNat n = true → a.toNat % n ≠ 0 → givesTrap s (.ldg o) 3 a (s.pcOf w)) ∧
        (guardOk k .load a.toNat n = false → givesTrap s (.ldg o) 2 a (s.pcOf w)) ∧
        (free → guardOk k .store a.toNat n = true → a.toNat % n = 0 → o.ord.isSome = true → storesDone s w = false → ready s (.stg o) = true →
          exec (.stg o) s = .next s) ∧
        (free → guardOk k .store a.toNat n = true → a.toNat % n = 0 → (o.ord.isSome = true → storesDone s w = true) →
          (h = w.i → (ownClear s w off n false = false ∨ (o.ord.isSome = true ∧ loadsBefore s w ≠ [])) → ready s (.stg o) = true →
            exec (.stg o) s = .next s) ∧
          (h = w.i → ownClear s w off n false = true → (o.ord.isSome = true → loadsBefore s w = []) → ready s (.stg o) = true →
            ∃ t, exec (.stg o) s = .next t ∧
            goesOn (put s (localBase h + off) (natLE n v.toNat) (0, 0)) t w ∧
            ∀ x, rdB t.mem x = if localBase h + off ≤ x ∧ x < localBase h + off + n then
              BitVec.ofNat 8 (v.toNat / 256 ^ (x - (localBase h + off))) else rdB s.mem x) ∧
          (h ≠ w.i → (storesOut s w).length + (s.sysOut.filter (fun o => o.core == w.i && o.ctx == w.c && o.store)).length < 64 →
            givesState s (.stg o) (send s w.i w.c a (.store h off n (BitVec.ofNat 64 (v.toNat % 2 ^ (8 * n))))
              (loads := if o.ord.isSome then loadsBefore s w else []))))) ∧
      (home s w.i a.toNat = none → isSys a.toNat = false →
        givesTrap s (.ldg o) 4 a (s.pcOf w) ∧ (free → givesTrap s (.stg o) 4 a (s.pcOf w)))) ∧
  (∀ (s : State) (o : Rem),
    let w := self s
    let a := s.rd w o.b
    let k := s.coreAt w.i
    let n := 8 / 2 ^ o.sz.toNat
    let v := s.rd w o.a
    let pc := s.pcOf w
    let p := b2n (Config.windowPort (a.toNat / 2 ^ 48 % 256))
    let free : Prop := o.ord = some .sys → (s.ctxAt w).sysFail = none
    let rest (t : State) : Prop := t.mem = s.mem ∧ t.mesh = s.mesh ∧ t.nextId = s.nextId + 1 ∧ regsExcept s t w [] ∧ ∀ j, j ≠ w.i → t.coreAt j = s.coreAt j
    kindOf w.i ≠ .memory → isSys a.toNat = true →
      (sysEntry s w.i a.toNat = none → givesTrap s (.ldg o) 4 a pc ∧ (free → givesTrap s (.stg o) 4 a pc)) ∧
      (∀ conn ra d0, sysEntry s w.i a.toNat = some (conn, ra, d0) →
        let out (st : Bool) : SysOut := { tag := s.nextId, core := w.i, ctx := w.c, conn := p * 1024 + conn, addr := a, store := st }
        (bit d0 3 = false → givesTrap s (.ldg o) 4 a pc) ∧
        (bit d0 3 = true → guardOk k .load a.toNat n = false → givesTrap s (.ldg o) 2 a pc) ∧
        (bit d0 3 = true → guardOk k .load a.toNat n = true → a.toNat % n ≠ 0 → givesTrap s (.ldg o) 3 a pc) ∧
        (bit d0 3 = true → guardOk k .load a.toNat n = true → a.toNat % n = 0 → (loadsOut s w).length < 16 →
          (carries s p conn = false → givesTrap s (.ldg o) 0x13 a pc) ∧
          (carries s p conn = true → ready s (.ldg o) = true → ∃ t, exec (.ldg o) s = .next t ∧ rest t ∧ t.pcOf w = pc ∧
            (t.ctxAt w).sys = some { tag := s.nextId, addr := a, rd := o.a, next := s.fall w, n := n } ∧ t.sysOut = s.sysOut ++ [out false] ∧
            queuedOn t p conn = queuedOn s p conn ++ [.ld (BitVec.ofNat 64 ra) n s.nextId])) ∧
        (free →
          (bit d0 4 = false → givesTrap s (.stg o) 4 a pc) ∧
          (bit d0 4 = true → guardOk k .store a.toNat n = false → givesTrap s (.stg o) 2 a pc) ∧
          (bit d0 4 = true → guardOk k .store a.toNat n = true → a.toNat % n ≠ 0 → givesTrap s (.stg o) 3 a pc) ∧
          (bit d0 4 = true → guardOk k .store a.toNat n = true → a.toNat % n = 0 →
            (o.ord.isSome = true → storesDone s w = true ∧ loadsBefore s w = []) → (storesOut s w).length + (s.sysOut.filter (fun o => o.core == w.i && o.ctx == w.c && o.store)).length < 64 →
            (carries s p conn = false → givesState s (.stg o) (s.modCtx w (fun x => { x with sysFail := some (x.sysFail.getD a) }))) ∧
            (carries s p conn = true → ready s (.stg o) = true → ∃ t, exec (.stg o) s = .next t ∧ rest t ∧ fellOn s t w ∧
              t.sysOut = s.sysOut ++ [out true] ∧
              queuedOn t p conn = queuedOn s p conn ++ [.st (BitVec.ofNat 64 ra) n s.nextId (BitVec.ofNat 64 (v.toNat % 2 ^ (8 * n)))])))) ∧
      (∀ f, o.ord = some .sys → (s.ctxAt w).sysFail = some f → ready s (.stg o) = true → s.curCtx = 0 → k.slip = none → k.quar = none → trapOpen s w.i →
        ∃ t, exec (.stg o) s = .next t ∧
          trapTaken (s.modCtx w (fun x => { x with sysFail := none })) t w.i (trapLevel s w.i) 0x13 f pc))

/-- R119 to R122, Tables 6.6 and 6.8: an atomic at its own slice or at its cluster's atomic store gives the old value, writes the new value of
Table 6.6, and sets or clears `st.f` where it is conditional; so does a device-scope atomic whose home is the core's own slice, where it is counted
(R123), once what its context has on its way to the same bytes is performed. R119, R122: a device-scope atomic whose home is another slice is sent there,
and gA pends; an atomic whose scope does not fit its address raises `scope`. R381 to R383: a system-scope atomic leaves on the connection of its
window entry and holds its context; without the entry's three permissions it raises `window`. R396, R401: on a control core cluster scope raises
`scope`, and an atomic on a listed word of the privileged window raises `priv` at level 2 and `align` otherwise.
Clauses of it rest on readings and choices of the model: log entries 18, 61 and 107. -/
def Obligations.Atomics : Prop :=
  (∀ (s : State) (o : At) (f : Nat),
      let w := self s
      let a := (s.rd w o.b).toNat
      let n := if o.w32 then 4 else 8
      let N := 2 ^ (8 * n)
      let old := leNat (rdBs s.mem f n)
      let e := (s.rd w o.a).toNat % N
      let y := (s.rd w o.c).toNat % N
      let table : List (Instr × Option Nat × Option Bool) := [
        (.aadd o, some ((old + y) % N), none), (.aand o, some (old &&& y), none), (.aor o, some (old ||| y), none),
        (.axor o, some (old ^^^ y), none), (.amin o, some (if sgn (8 * n) old ≤ sgn (8 * n) y then old else y), none),
        (.amax o, some (if sgn (8 * n) y ≤ sgn (8 * n) old then old else y), none), (.aminn o, some (min old y), none),
        (.amaxn o, some (max old y), none), (.amaxf o, some (fmax32 old y), none), (.aswp o, some y, none),
        (.acas o, if old = e then some y else none, some (old != e)),
        (.aincW o, some (if y ≤ old then 0 else old + 1), none),
        (.afaddB o, if old + e ≤ y then some (old + e) else none, some (decide (y < old + e)))]
      let does (count : State → State) : Prop := ∀ r ∈ table, ready s r.1 = true →
        ∃ t, exec r.1 s = .next t ∧
          (let s1 := count (r.2.1.elim s (fun v => put s f (natLE n v) (0, 0)))
           writesReg (r.2.2.elim s1 (setFlag s1 w)) t w o.a (BitVec.ofNat 64 old)) ∧
          ∀ x, rdB t.mem x = if f ≤ x ∧ x < f + n then r.2.1.elim (rdB s.mem x) (fun v => BitVec.ofNat 8 (v / 256 ^ (x - f))) else rdB s.mem x
      guardOk (s.coreAt w.i) .atomic a n = true → a % n = 0 → badAt s.bad f n (fun _ => false) = none →
      (o.ord = .rel ∨ o.ord = .ar → allDone s w = true) →
        (((o.scope = .core ∧ a + n ≤ localSize w.i ∧ f = localBase w.i + a) ∨
          (o.scope = .clus ∧ kindOf w.i = .worker ∧ 0x54000 ≤ a ∧ a + n ≤ 0x58000 ∧ f = atomBase (clusterOf w.i) + (a - 0x54000))) → does id) ∧
        (∀ off, o.scope = .dev → kindOf w.i = .worker → home s w.i a = some (w.i, off) → f = localBase w.i + off →
          (ownClear s w off n false = true → does (fun s => countPage s w.i w.i off)) ∧
          (ownClear s w off n false = false → ∀ r ∈ table, ready s r.1 = true → exec r.1 s = .next s))) ∧
  (∀ (s : State) (o : At),
      let w := self s
      let a := s.rd w o.b
      let n := if o.w32 then 4 else 8
      let table : List (Instr × AOp) := [(.aadd o, .add), (.aand o, .and), (.aor o, .or), (.axor o, .xor), (.amin o, .min), (.amax o, .max),
        (.aminn o, .minn), (.amaxn o, .maxn), (.amaxf o, .maxf), (.aswp o, .swp), (.acas o, .cas), (.aincW o, .incW), (.afaddB o, .faddB)]
      kindOf w.i = .worker →
        (∀ h off, o.scope = .dev → home s w.i a.toNat = some (h, off) → h ≠ w.i → guardOk (s.coreAt w.i) .atomic a.toNat n = true →
          a.toNat % n = 0 → (o.ord = .rel ∨ o.ord = .ar → allDone s w = true) → (loadsOut s w).length < 16 →
          ∀ r ∈ table, givesState s r.1
            ((send s w.i w.c a (.atom o.a h off o.w32 r.2 (s.rd w o.a) (s.rd w o.c)) (0, 0) (decide (o.ord = .acq ∨ o.ord = .ar))).modCtx w
              (fun x => addPend x o.a))) ∧
        (o.scope ≠ .core → a.toNat + n ≤ 0x40000 → ∀ r ∈ table, givesTrap s r.1 5 a (s.pcOf w))) ∧
  (∀ (s : State) (o : At),
      let w := self s
      let a := s.rd w o.b
      let k := s.coreAt w.i
      let n := if o.w32 then 4 else 8
      let p := b2n (Config.windowPort (a.toNat / 2 ^ 48 % 256))
      let table : List (Instr × AOp) := [(.aadd o, .add), (.aand o, .and), (.aor o, .or), (.axor o, .xor), (.amin o, .min), (.amax o, .max),
        (.aminn o, .minn), (.amaxn o, .maxn), (.amaxf o, .maxf), (.aswp o, .swp), (.acas o, .cas), (.aincW o, .incW), (.afaddB o, .faddB)]
      (kindOf w.i ≠ .memory → o.scope = .sys → isSys a.toNat = true →
        ((∀ conn ra d0, sysEntry s w.i a.toNat = some (conn, ra, d0) → ¬(bit d0 3 = true ∧ bit d0 4 = true ∧ bit d0 5 = true)) →
          ∀ r ∈ table, givesTrap s r.1 4 a (s.pcOf w)) ∧
        (∀ conn ra d0, sysEntry s w.i a.toNat = some (conn, ra, d0) → bit d0 3 = true → bit d0 4 = true → bit d0 5 = true →
          (guardOk k .atomic a.toNat n = false → ∀ r ∈ table, givesTrap s r.1 2 a (s.pcOf w)) ∧
          (guardOk k .atomic a.toNat n = true → a.toNat % n ≠ 0 → ∀ r ∈ table, givesTrap s r.1 3 a (s.pcOf w)) ∧
          (guardOk k .atomic a.toNat n = true → a.toNat % n = 0 → (o.ord = .rel ∨ o.ord = .ar → allDone s w = true) → (loadsOut s w).length < 16 →
            (carries s p conn = false → ∀ r ∈ table, givesTrap s r.1 0x13 a (s.pcOf w)) ∧
            (carries s p conn = true → ∀ r ∈ table, ready s r.1 = true → ∃ t, exec r.1 s = .next t ∧ t.mem = s.mem ∧ t.mesh = s.mesh ∧
              t.pcOf w = s.pcOf w ∧ regsExcept s t w [] ∧ (∀ j, j ≠ w.i → t.coreAt j = s.coreAt j) ∧
              (t.ctxAt w).sys = some { tag := s.nextId, addr := a, rd := o.a, next := s.fall w, n := n, atom := some (r.2, s.rd w o.a, s.rd w o.c) } ∧
              t.sysOut = s.sysOut ++ [{ tag := s.nextId, core := w.i, ctx := w.c, conn := p * 1024 + conn, addr := a, store := false }] ∧
              queuedOn t p conn = queuedOn s p conn ++ [.at (BitVec.ofNat 64 ra) o.w32 r.2 (s.rd w o.a) (s.rd w o.c) s.nextId])))) ∧
      (kindOf w.i = .control →
        (o.scope = .clus → ∀ r ∈ table, givesTrap s r.1 5 a (s.pcOf w)) ∧
        (o.scope ≠ .clus → a.toNat / 2 ^ 40 = 0x20000 → privListed (a.toNat % 2 ^ 40 / 8 * 8) = true →
          ∀ r ∈ table, givesTrap s r.1 (if 1 < k.level ∨ guardOk k .atomic a.toNat n = false then 2 else 3) a (s.pcOf w))))

/-- R12, R118, R111, R122: a store packet writes its bytes at its home and becomes the acknowledgement, which ends it; a load packet reads its
home, and its reply writes the register that pends; an atomic packet is performed at its home as Table 6.6 says. R37: the replies of a helper that
has ended write nothing.
Clauses of it rest on readings and choices of the model: log entries 20, 28 and 114. -/
def Obligations.MeshPackets : Prop :=
  ∀ (s : State) (j : Nat) (p : Packet), s.mesh[j]? = some p →
    let w : Who := ⟨p.core, p.ctx, p.core⟩
    (∀ h off n v, p.kind = .store h off n v → mayPerform s j p = true →
      ∃ t, exec (.meshArrivalWrite j) s = .next t ∧ t.mesh[j]? = some { p with kind := .ack } ∧
        ∀ x, rdB t.mem x = if localBase h + off ≤ x ∧ x < localBase h + off + n then BitVec.ofNat 8 (v.toNat / 256 ^ (x - (localBase h + off)))
          else rdB s.mem x) ∧
    (p.kind = .ack → exec (.storeAck j) s = .next (dropPkt s j)) ∧
    (∀ rd h off n, p.kind = .load rd h off n → mayPerform s j p = true → badAt s.bad (localBase h + off) n (fun _ => false) = none →
      ∃ t, exec (.remoteLoadServe j) s = .next t ∧ { t with mesh := s.mesh } = s ∧
        (t.mesh[j]?.map (·.kind)) = some (.loadRep rd n (BitVec.ofNat 64 (leNat (rdBs s.mem (localBase h + off) n))) none) ∧
        ∀ i, i ≠ j → t.mesh[i]? = s.mesh[i]?) ∧
    (∀ rd n v, p.kind = .loadRep rd n v none → p.ctx ≤ 10 → (s.coreAt p.core).bound = none →
      ∃ t, exec (.remoteLoadReply j) s = .next t ∧ t.mesh = s.mesh.eraseIdx j ∧ t.rd w rd = (if rd = 0 then 0 else v) ∧
        regsExcept s t w [rd] ∧ (t.ctxAt w).pend = (s.ctxAt w).pend.erase rd ∧ t.pcOf w = s.pcOf w ∧ t.mem = s.mem ∧
        ∀ i, i ≠ p.core → t.coreAt i = s.coreAt i) ∧
    (100 ≤ p.ctx → (s.coreAt p.core).bound = none →
      (∀ rd n v g, p.kind = .loadRep rd n v g → exec (.remoteLoadReply j) s = .next (dropPkt s j)) ∧
      (∀ rd w32 v fl g, p.kind = .atomRep rd w32 v fl g → exec (.atomicReply j) s = .next (dropPkt s j))) ∧
    (∀ rd n v g, p.kind = .loadRep rd n v (some g) → p.ctx ≤ 10 →
      ∃ t, exec (.remoteLoadReply j) s = .next t ∧ (t.ctxAt w).kept = (s.ctxAt w).kept ++ [(0x0C, g, some p.pc)] ∧
        regsExcept s t w [] ∧ t.mem = s.mem) ∧
    (∀ rd h off w32 op e y, p.kind = .atom rd h off w32 op e y → mayPerform s j p = true →
      let n := if w32 then 4 else 8
      let f := localBase h + off
      let old := leNat (rdBs s.mem f n)
      let new := (atomStep op (8 * n) old (e.toNat % 2 ^ (8 * n)) (y.toNat % 2 ^ (8 * n)))
      badAt s.bad f n (fun _ => false) = none →
      ∃ t, exec (.atomicExecute j) s = .next t ∧
        (t.mesh[j]?.map (·.kind)) = some (.atomRep rd w32 (BitVec.ofNat 64 old) new.2 none) ∧
        ∀ x, rdB t.mem x = if f ≤ x ∧ x < f + n then new.1.elim (rdB s.mem x) (fun v => BitVec.ofNat 8 (v / 256 ^ (x - f))) else rdB s.mem x) ∧
    (∀ rd w32 v fl, p.kind = .atomRep rd w32 v fl none → p.ctx ≤ 10 → (s.coreAt p.core).bound = none →
      ∃ t, exec (.atomicReply j) s = .next t ∧ t.mesh = s.mesh.eraseIdx j ∧ t.rd w rd = (if rd = 0 then 0 else v) ∧
        regsExcept s t w [rd] ∧ (t.ctxAt w).pend = (s.ctxAt w).pend.erase rd ∧ t.mem = s.mem ∧
        (∀ b, fl = some b → (s.coreAt p.core).level ≤ 2 → (t.coreAt p.core).bank.f = b) ∧
        (fl = none → (t.coreAt p.core).banks = (s.coreAt p.core).banks))

/-! ## The privileged window (spec/25 R401 to R406, R410) -/

/-- Table 25.2: at level 0 or 1, a control core's `ldg` and `stg` of a listed doubleword read and write the unit's register; at level 2 they
raise `priv`; an offset that no row lists raises `window`. R401, R410, R406, R291, R330, R301: what stores to key slots, the extend port of
a measurement register, `sdig`, the weights and slots of a matrix unit, a TLB's invalidate word and a root word do.
Clauses of it rest on readings and choices of the model: log entries 32 and 59. -/
def Obligations.PrivilegedWindow : Prop :=
  (∀ (s : State) (o : Rem) (off : Nat),
      let w := self s
      let a := s.rd w o.b
      let k := s.coreAt w.i
      let v := s.rd w o.a
      kindOf w.i = .control → w.i < 8200 → a.toNat = 2 ^ 57 + off → off < 2 ^ 40 → off % 8 = 0 → o.sz = 0 → o.ord = none →
        (privListed off = true →
          (privMay true k.level off = true → guardOk k .store a.toNat 8 = true → ready s (.stg o) = true → privUnit off ≠ 0 →
            ∃ t, exec (.stg o) s = .next t ∧ exec (.privilegedWrite o) s = .next t ∧ goesOn (privWrite s off v) t w) ∧
          (privMay false k.level off = true → guardOk k .load a.toNat 8 = true → (privRead s off).2 = s →
            givesReg s (.ldg o) o.a (privRead s off).1) ∧
          (1 < k.level → givesTrap s (.stg o) 2 a (s.pcOf w) ∧ givesTrap s (.ldg o) 2 a (s.pcOf w))) ∧
        (privListed off = false → givesTrap s (.stg o) 4 a (s.pcOf w) ∧ givesTrap s (.ldg o) 4 a (s.pcOf w))) ∧
  (∀ (s : State) (o : Rem),
      let w := self s
      let a := (s.rd w o.b).toNat
      let k := s.coreAt w.i
      let v := s.rd w o.a
      let goes (i : Instr) (s1 : State) : Prop := ready s (.stg o) = true → ∃ t, exec i s = .next t ∧ goesOn s1 t w
      kindOf w.i = .control → w.i < 8200 → guardOk k .store a 8 = true → o.sz = 0 → o.ord = none →
        (∀ j n, j < 512 → n < 8 → a = 2 ^ 57 + 3 * 2 ^ 36 + 64 * j + 8 * n → k.level = 0 →
          let q := (mget s.keys j).getD {}
          let q' : KeySlot := { ws := vput q.ws n v,
                                nextW := if n = 0 then 1 else if n = q.nextW then (n + 1) % 8 else 0,
                                loaded := if n = 0 then false else q.loaded || (n == q.nextW && n == 7) }
          goes (.keySlotStore o) { s with keys := mset s.keys j q' }) ∧
        (∀ j, j < 8 → a = 2 ^ 57 + 9 * 2 ^ 36 + 0x1000 + 64 * j + 48 → k.level = 0 → ∀ ws : List Word, ws.length = 6 →
          vget s.ext j [] = (List.range 6).zip ws →
          goes (.measExtend o) { s with
            ext := vput s.ext j []
            meas := vput s.meas j (BitVec.ofNat 384 (leNat (sha384 (measBytes (vget s.meas j 0) ++ ws.flatMap (fun d => natLE 8 d.toNat))))) }) ∧
        (∀ n, n < 6 → a = 2 ^ 57 + 9 * 2 ^ 36 + 0x2000 + 8 * n → k.level = 0 →
          goes (.sdigWrite o) (if n = s.sdigN then
            { s with sdig := s.sdig ||| (BitVec.ofNat 384 (v.toNat * 2 ^ (64 * n))), sdigN := n + 1 } else s)) ∧
        (∀ cl, cl < 512 → k.level ≤ 1 →
          (a = 2 ^ 57 + 2 ^ 36 + 0x1000 * cl + 0x100 →
            goes (.mwgtStore o) (s.modCluster cl (fun k => { k with wgt := BitVec.ofNat 32 v.toNat, cr := Vector.replicate 8 0, w0 := 7 }))) ∧
          (∀ q, q < 4 → a = 2 ^ 57 + 2 ^ 36 + 0x1000 * cl + 0x110 + 8 * q → ready s (.stg o) = true →
            ∃ s1 t, exec (.mslotStore o) s = .next t ∧ goesOn s1 t w ∧ { s1 with clusters := s.clusters } = s ∧
              ∀ e, e < 64 → vget (s1.clusterAt cl).slots e 0 =
                if e / 16 = q then BitVec.ofNat 4 (v.toNat / 2 ^ (4 * (e % 16))) else vget (s.clusterAt cl).slots e 0)) ∧
        (∀ tile, tile < 4096 →
          (a = 2 ^ 57 + 2 * 2 ^ 36 + 0x1000 * tile + 8 → k.level = 1 →
            let ten := (s.coreAt (mcOf tile)).root.toNat % 512
            goes (.tlbInvalidateStore o)
              ((s.modCore (mcOf tile) (fun k => { k with tlb := k.tlb.filter (fun e => e.ten != ten) })).modCluster (clusterOf tile)
                (fun k => { k with wcache := k.wcache.filter (fun e => e.ten != ten) }))) ∧
          (a = 2 ^ 57 + 2 * 2 ^ 36 + 0x1000 * tile → k.level = 0 →
            goes (.rootWordStore o) (s.modCore (mcOf tile) (fun k => { k with root := v &&& 0x000FFFFFFFFFF1FF })))))

/-! ## User interrupts and boundary events (spec/18 R316 to R322, spec/08 R155, spec/25 R399) -/

/-- R321, R322: `uiret` returns to `ui.vec` with the held loop stack, and raises `illegal` when no handler runs; `uien` gives the old `ui.en`
and writes its `en`. R317: at a boundary that allows it, the head of the pending queue enters its handler: `ui.vec` and the loop stack are
held, `ui.id` names the copy, and registers and memory stay. R318, Table 8.3: an entry without handler traps with the cause of its status.
R399: the plug-in timer traps. R155: what a boundary of the control context takes comes in this order: the quarantine of its domain, the
head of the pending queue, a kept cause, the plug-in timer; and without any of them the next instruction issues. In slipstream, in a sync or
an exchange phase, and while an access or an exchange with a lifeguard holds it, a context stands at no boundary.
Clauses of it rest on readings and choices of the model: log entries 20, 84 and 89. -/
def Obligations.BoundaryEntries : Prop :=
  (∀ (s : State) (a : Reg) (n : Bool),
      let w := self s
      let k := s.coreAt w.i
      (k.uiAct = false → givesTrap s .uiret 1 (illegalVal s 12) (s.pcOf w)) ∧
      (k.uiAct = true → s.curCtx = 0 → givesJump s .uiret
        (s.setCore w.i { k with uiAct := false, uiLs := false, uiHeld := [], ctl := { k.ctl with loops := k.uiHeld, fbuf := [] } })
        (BitVec.ofNat 64 (k.uiVec.toNat % 2 ^ 18 / 2 * 2)) k.uiHeld) ∧
      (ready s (.uien a n) = true → ∃ t, exec (.uien a n) s = .next t ∧
        writesReg (s.modCore w.i (fun k => { k with uiEn := n })) t w a (ctlRead s w.i 25))) ∧
  (∀ (s : State) (i : Nat) (e : UiEntry) (q : List UiEntry), i < 8200 →
      let k := s.coreAt i
      k.quar = none → k.ctl.gated = false → k.ctl.lull = none →
        (k.uiq = e :: q → uiBoundary k = true →
          (e.hnd ≠ 0 → k.uiEn = true → k.uiAct = false →
            ∃ t, exec (.userInterruptEntry i) s = .next t ∧ sameRest s t i ∧
              let k' := t.coreAt i
              k'.uiVec = BitVec.ofNat 64 (k.ctl.pc.toNat % 2 ^ 18 / 2 * 2) ∧ k'.uiId = uiIdOf e ∧ k'.uiq = q ∧ k'.uiAct = true ∧
              k'.uiHeld = k.ctl.loops ∧ k'.uiLs = !k.ctl.loops.isEmpty ∧ k'.ctl = { k.ctl with pc := e.hnd, loops := [], latch := true } ∧
              k'.uiEn = true ∧ k'.banks = k.banks ∧ k'.v = k.v ∧ k'.k = k.k ∧ k'.bb = k.bb) ∧
          (e.hnd = 0 → k.bound = none → trapOpen s i →
            let s1 := wake (s.modCore i (fun k => { k with uiq := q })) i
            let cv : Nat × Word := match e.status.toNat / 2 ^ 60 with
              | 1 => (6, e.status)
              | 2 => (12, BitVec.ofNat 64 (e.status.toNat % 2 ^ 56))
              | 3 => (4, BitVec.ofNat 64 (e.status.toNat % 2 ^ 56))
              | _ => (0x13, e.status)
            ∃ t, exec (.faultEntry i) s = .next t ∧ trapTaken s1 t i (trapLevel s i) cv.1 cv.2 k.ctl.pc)) ∧
        (8192 ≤ i → k.ptmrDue = true → standsAt k = true → k.uiq = [] → k.ctl.kept = [] → k.gang = none → k.bound = none → trapOpen s i →
           ∃ t, exec (.ptmrExpiry (i - 8192)) s = .next t ∧
            trapTaken (s.modCore i (fun k => { k with ptmrDue := false })) t i (trapLevel s i) 0x11 0x400 k.ctl.pc)) ∧
  (∀ (s : State) (i : Nat),
      let k := s.coreAt i
      k.run = .running → k.slip = none → k.sync = none → k.exch = none → k.lgWait = none → k.ctl.sys = none → k.seqr.toCap = 0 →
        (∀ v, k.quar = some v → boundary s i = some (takeTrap (s.modCore i (fun k => { k with quar := none })) ⟨i, 0, i⟩ 0x0D v k.ctl.pc)) ∧
        (∀ e, k.quar = none → takenEntry k = some e → boundary s i = some (if e.hnd = 0 then enterFault s i e else enterUi s i e)) ∧
        (∀ c v p t, k.quar = none → takenEntry k = none → k.ctl.kept = (c, v, p) :: t → boundary s i = some
          (takeTrap (s.modCore i (fun k => { k with ctl := { k.ctl with kept := t } })) ⟨i, 0, i⟩ c v (p.getD k.ctl.pc))) ∧
        (k.quar = none → takenEntry k = none → k.ctl.kept = [] → (boundary s i).isSome = k.ptmrDue)) ∧
  (∀ (s : State) (i : Nat),
      let k := s.coreAt i
      k.run ≠ .running ∨ k.slip.isSome ∨ k.sync.isSome ∨ k.exch.isSome ∨ k.lgWait.isSome ∨ k.ctl.sys.isSome ∨ k.seqr.toCap ≠ 0 → boundary s i = none)

/-! ## Copies (spec/18 R316, R319, R320, spec/17 R306 to R312) -/

/-- R319: `cpy` takes its block and both tensor descriptors as they stand, and queues the copy at port 2, or waits while the port is full; a
misaligned block raises `align`, and a copy that level 2 of a control core may not make raises `priv` (R395). R320:
`cpyq` gives all ones while the newest copy of the id is in flight, its status word once it has completed, and the word of no copy else.
Clauses of it rest on readings and choices of the model: log entries 46 and 106. -/
def Obligations.CopyInstructions : Prop :=
  ∀ (s : State) (a b : Reg),
    let w := self s
    let gb := s.rd w b
    let k := s.coreAt w.i
    let x : BitVec 32 := BitVec.ofNat 32 (s.rd w b).toNat
    let blk (o n : Nat) : Nat := leNat (rdBs s.mem (localBase w.i + gb.toNat + o) n)
    (∀ c x, cpyCmd s w gb = .ok c → copyDenied s w c = some x → givesTrap s (.cpy b) 2 (BitVec.ofNat 64 x) (s.pcOf w)) ∧
    (∀ c, cpyCmd s w gb = .ok c → copyDenied s w c = none → ready s (.cpy b) = true → cmdDepth 2 ≤ cmdCount s w.i 2 → exec (.cpy b) s = .next s) ∧
    (∀ c, cpyCmd s w gb = .ok c → copyDenied s w c = none → ready s (.cpy b) = true → cmdCount s w.i 2 < cmdDepth 2 →
      c.blk = gb ∧ c.hnd.toNat = blk 0x10 8 ∧ c.xid.toNat = blk 0x18 4 ∧ c.mbase.toNat = blk 0x20 8 ∧
      c.std = parseTd (BitVec.ofNat 64 (blk 0 8)) (rdBs s.mem (localBase w.i + blk 0 8) 128) ∧
      c.dtd = parseTd (BitVec.ofNat 64 (blk 8 8)) (rdBs s.mem (localBase w.i + blk 8 8) 128) ∧
      ∃ t, exec (.cpy b) s = .next t ∧
        goesOn { s.setCore w.i { k with q2 := k.q2 ++ [{ c with deps := releaseDeps s w, no := s.nextId }] } with nextId := s.nextId + 1 } t w) ∧
    (gb.toNat + 64 ≤ localSize w.i → guardOk k .load gb.toNat 64 = true → gb.toNat % 64 ≠ 0 → givesTrap s (.cpy b) 3 gb (s.pcOf w)) ∧
    (copiesWith s w.i x = [] → givesReg s (.cpyq a b) a 0xF000000000000000) ∧
    (∀ n st, (n, st) ∈ copiesWith s w.i x → (∀ e ∈ copiesWith s w.i x, e.1 < n ∨ e = (n, st)) →
      givesReg s (.cpyq a b) a (st.getD (BitVec.allOnes 64)))

/-- R309, R310: the head accepts the oldest command once the stores that it released are performed, with every unit still to move, but not
while its core is in an exchange phase; a home's acknowledgement is taken off once no exchange phase holds it. R307, R308, R311: moving a unit of byte elements between places of the own slice writes each element's source
byte at its destination, and no other byte of memory; of a unit with a piece that has stopped, or that meets a fault, no byte is written. R310, R316, R318: a copy with nothing left to move or to be acknowledged completes:
its status word is 0, or that of its fault of least source address; an entry joins the pending queue when it has a handler or failed; a full
queue keeps it.
Clauses of it rest on readings and choices of the model: log entries 41, 43, 45, 47 and 101. -/
def Obligations.CopyProgress : Prop :=
  (∀ (s : State) (i : Nat) (c : CopyCmd) (q : List CopyCmd), i < 8200 → (s.coreAt i).q2 = c :: q →
      (depsDone s c.deps = true → (copiesOf s i).length < 16 → (i < 4096 → inPhase s i = false ∧ ∀ m ∈ movesWithMasks c,
          ∀ a ∈ m.src.elim [] (fun b => bytesOf b m.w) ++ bytesOf m.dst m.w, isDramVa a = true → walkHeld s i (a % 2 ^ 48 / 65536 * 65536) = false) →
        ∃ t ps, exec (.copyAccept i) s = .next t ∧ (t.coreAt i).q2 = q ∧ t.mem = s.mem ∧ t.nextId = s.nextId + 1 ∧
          t.copies = s.copies ++ [{ id := s.nextId, core := i, cmd := c, pages := ps, todo := copyUnits c }]) ∧
      (depsDone s c.deps = false ∨ (i < 4096 ∧ inPhase s i = true) → exec (.copyAccept i) s = .next s) ∧
      (∀ id h, ∃ t, exec (.copyDestAck id h) s = .next t ∧ { t with copies := s.copies } = s ∧ t.copies.length = s.copies.length ∧
        ∀ d ∈ t.copies, d.id = id → ackHeld s d.core h = false → h ∉ d.acks) ∧
      (∀ id h, (∀ d ∈ s.copies, d.id = id → ackHeld s d.core h = true) → exec (.copyDestAck id h) s = .next s)) ∧
  (∀ (s : State) (c : Copy) (j n : Nat),
      let ms := unitMoves c.cmd (.word n)
      let loc := fun (a : Nat) => localBase c.core + a
      s.copies.find? (fun d => d.id == c.id) = some c → c.todo[j]? = some (.word n) → c.dead = [] →
      unitFaults s c (.word n) = [] → (∀ m ∈ ms, mvHeld s c c.core m = false ∧ m.w = 8 ∧ m.dst % 8 = 0 ∧ byteOf m.dst < 0x40000 ∧
        ∃ b, m.src = some b ∧ b % 8 = 0 ∧ byteOf b < 0x40000) → (ms.map (fun m => byteOf m.dst)).Nodup →
        ∃ t, exec (.copyPiece c.id j (j + 1)) s = .next t ∧
          (∀ m ∈ ms, ∀ b, m.src = some b → rdB t.mem (loc (byteOf m.dst)) = rdB s.mem (loc (byteOf b))) ∧
          (∀ x, (∀ m ∈ ms, x ≠ loc (byteOf m.dst)) → rdB t.mem x = rdB s.mem x) ∧
          (t.copies.find? (fun d => d.id == c.id)).map (·.todo) = some (c.todo.filter (· != .word n))) ∧
  (∀ (s : State) (c : Copy) (j : Nat) (u : CUnit), s.copies.find? (fun d => d.id == c.id) = some c → c.todo[j]? = some u →
      ((∃ m ∈ unitPieces s c u, m.2 ∈ c.dead) ∨ ((∀ m ∈ unitPieces s c u, m.2 ∉ c.dead ∧ mvHeld s c m.2 m.1 = false) ∧ unitFaults s c u ≠ [])) →
        ∃ t, exec (.copyPiece c.id j (j + 1)) s = .next t ∧ t.mem = s.mem ∧ t.cores = s.cores ∧
          (t.copies.find? (fun d => d.id == c.id)).map (·.todo) = some (c.todo.filter (· != u))) ∧
  (∀ (s : State) (c : Copy), s.copies.find? (fun d => d.id == c.id) = some c → copyReady s c = true →
      let k := s.coreAt c.core
      let done (t : State) (st : Word) : Prop := exec (.copyComplete c.id) s = .next t ∧ (∀ d ∈ t.copies, d.id ≠ c.id) ∧ t.mem = s.mem ∧
        (t.coreAt c.core).cdone = ((c.cmd.no, c.cmd.xid, st) :: k.cdone).take 64
      (c.faults = [] → c.cmd.hnd = 0 → ∃ t, done t 0 ∧ (t.coreAt c.core).uiq = k.uiq) ∧
      (c.faults = [] → c.cmd.hnd ≠ 0 → k.uiq.length < 64 → ∃ t, done t 0 ∧ (t.coreAt c.core).uiq = k.uiq ++ [⟨c.cmd.hnd, c.cmd.xid, 0⟩]) ∧
      (∀ f ∈ c.faults, f.word = none → f.status ≠ 0 → (∀ g ∈ c.faults, g = f ∨ f.src < g.src) → k.uiq.length < 64 →
        ∃ t, done t f.status ∧ (t.coreAt c.core).uiq = k.uiq ++ [⟨c.cmd.hnd, c.cmd.xid, f.status⟩]) ∧
      (c.faults = [] → c.cmd.hnd ≠ 0 → 64 ≤ k.uiq.length → exec (.copyComplete c.id) s = .next s))

/-! ## Vector registers (spec/13 R219 to R237, R244) -/

/-- R219, R223, Table 13.3: elementwise arithmetic, logic and shifts on the unmasked lanes; floating-point results are the exact values rounded
once, integer results wrap, or clamp with `.sat`. R244: the integer dot product. -/
def Obligations.VectorArithmetic : Prop :=
  ∀ (s : State) (o : VOp),
    let w := self s
    let fm := fmtOf o.ty
    let ww := laneW o.ty
    let m := maskBit ((s.coreAt w.i).kr o.k) (laneN o.ty)
    let at_ (r : Reg) (l : Nat) : Nat := lane (s.vr w r) ww l
    let x := at_ (if o.c.isSome then o.b else o.a)
    let y := at_ (o.c.getD o.b)
    let ub := at_ o.b
    let how (l : Nat) : How := ⟨vPick o.rnd false (s.coreAt w.i).seed 0 l, o.sat⟩
    let gives (i : Instr) (f : Nat → Nat) : Prop := givesLanes s i s o.a o.ty m f
    (fm.isFloat = true →
      gives (.vadd o) (fun l => fm.narrow (how l) ((fm.val (x l)).add (fm.val (y l)))) ∧
      gives (.vsub o) (fun l => fm.narrow (how l) ((fm.val (x l)).sub (fm.val (y l)))) ∧
      gives (.vmul o) (fun l => fm.narrow (how l) ((fm.val (x l)).mul (fm.val (y l)))) ∧
      gives (.vmin o) (fun l => if (fm.val (x l)).isNan || (fm.val (y l)).isNan then fm.narrow {} .nan
        else if (fm.val (y l)).below (fm.val (x l)) then y l else x l) ∧
      gives (.vmax o) (fun l => if (fm.val (x l)).isNan || (fm.val (y l)).isNan then fm.narrow {} .nan
        else if (fm.val (x l)).below (fm.val (y l)) then y l else x l) ∧
      gives (.vabs o) (fun l => ub l % 2 ^ (ww - 1)) ∧
      gives (.vneg o) (fun l => (ub l + 2 ^ (ww - 1)) % 2 ^ ww) ∧
      (∀ c, o.c = some c →
        gives (.vfma o) (fun l => fm.narrow (how l) ((fm.val (at_ o.a l)).add ((fm.val (ub l)).mul (fm.val (at_ c l))))) ∧
        gives (.vfms o) (fun l => fm.narrow (how l) ((fm.val (at_ o.a l)).sub ((fm.val (ub l)).mul (fm.val (at_ c l))))))) ∧
    (∀ n sg, fm = .int n sg →
      let ix (l : Nat) : Int := intOf n sg (x l)
      let iy (l : Nat) : Int := intOf n sg (y l)
      let res (v : Int) : Nat := intBits n (if o.sat then max (intMin n sg) (min (intMax n sg) v) else v)
      gives (.vadd o) (fun l => res (ix l + iy l)) ∧
      gives (.vsub o) (fun l => res (ix l - iy l)) ∧
      gives (.vmul o) (fun l => res (ix l * iy l)) ∧
      gives (.vmin o) (fun l => if iy l < ix l then y l else x l) ∧
      gives (.vmax o) (fun l => if ix l < iy l then y l else x l) ∧
      gives (.vabs o) (fun l => res (intOf n sg (ub l)).natAbs) ∧
      gives (.vneg o) (fun l => res (-(intOf n sg (ub l)))) ∧
      (∀ c, o.c = some c → n ∈ [4, 8, 16] →
        givesLanes s (.vdot o) s o.a .n32 (maskBit ((s.coreAt w.i).kr o.k) 16) (fun l =>
          let e (r : Reg) (j : Nat) : Int := intOf n sg (at_ r j)
          let total := (List.range (32 / n)).foldl (fun t k => t + e o.b (l * (32 / n) + k) * e c (l * (32 / n) + k))
            (intOf 32 sg (lane (s.vr w o.a) 32 l))
          intBits 32 (if o.sat then max (intMin 32 sg) (min (intMax 32 sg) total) else total)))) ∧
    gives (.vand o) (fun l => x l &&& y l) ∧ gives (.vor o) (fun l => x l ||| y l) ∧ gives (.vxor o) (fun l => x l ^^^ y l) ∧
    gives (.vshl o) (fun l => if ww ≤ y l then 0 else x l * 2 ^ y l) ∧
    gives (.vshr o) (fun l => if ww ≤ y l then 0 else x l / 2 ^ y l) ∧
    gives (.vsra o) (fun l => if ww ≤ y l then (if 2 ^ (ww - 1) ≤ x l then 2 ^ ww - 1 else 0)
      else intBits ww (intOf ww true (x l) / 2 ^ y l))

/-- R224 to R228: moves, comparison, select, splat, and the special functions with Table 13.4's inputs.
Clauses of it rest on readings and choices of the model: log entries 11 (`vcmp.64` compares signed) and 24. -/
def Obligations.VectorMovesAndFunctions : Prop :=
  (∀ (s : State) (o : VOp),
    let w := self s
    let fm := fmtOf o.ty
    let ww := laneW o.ty
    let n := laneN o.ty
    let mk := (s.coreAt w.i).kr o.k
    let at_ (r : Reg) (l : Nat) : Nat := lane (s.vr w r) ww l
    let how (l : Nat) : How := ⟨vPick o.rnd false (s.coreAt w.i).seed 0 l, o.sat⟩
    let gives (i : Instr) (f : Nat → Nat) : Prop := givesLanes s i s o.a o.ty (maskBit mk n) f
    let fn (i : Instr) (f : Val → Val) : Prop := gives i (fun l => fm.narrow (how l) (f (fm.val (at_ o.b l))))
    gives (.vmov o) (at_ o.b) ∧ gives (.vsplat o) (fun _ => (s.rd w o.b).toNat) ∧
    fn (.vrcp o) rcpFn ∧ fn (.vrsq o) rsqFn ∧ fn (.vexp2 o) exp2Fn ∧ fn (.vlog2 o) log2Fn ∧ fn (.vtanh o) tanhFn ∧
    (∀ r, o.c = some r →
      givesLanes s (.vsel o) s o.a o.ty (fun _ => true) (fun l => if maskBit mk n l then at_ o.b l else at_ r l) ∧
      ∀ cond : VCond, ∃ v : Word, givesState s (.vcmp o cond) (s.setK w (BitVec.ofNat 3 o.a.toNat) v) ∧
        let hold (l : Nat) : Bool :=
          let a := fm.val (at_ o.b l)
          let b := fm.val (at_ r l)
          match cond with
          | .eq => a.eqv b
          | .ne => !a.eqv b
          | .lt => a.lt b
          | .le => a.lt b || a.eqv b
          | .un => a.isNan || b.isNan
        ∀ l, l < 64 → v.getLsbD l = (decide (l < n) &&
          if mk.getLsbD l then (if n = 128 then hold (2 * l) && hold (2 * l + 1) else hold l)
          else ((s.coreAt w.i).kr (BitVec.ofNat 3 o.a.toNat)).getLsbD l))) ∧
  (∀ (s : State) (g : Reg) (k : KReg),
    givesState s (.vmovToMask k g) (s.setK (self s) k (s.rd (self s) g)) ∧
    givesReg s (.vmovFromMask g k) g ((s.coreAt s.curCore).kr k)) ∧
  (∀ (sg : Bool) (z : Int),
    rcpFn (.fin sg 0 z) = .inf sg ∧ rsqFn (.fin sg 0 z) = .inf sg ∧ exp2Fn (.fin sg 0 z) = .fin false 1 0 ∧ log2Fn (.fin sg 0 z) = .inf true ∧
    tanhFn (.fin sg 0 z) = .fin sg 0 0 ∧
    rcpFn (.inf sg) = .fin sg 0 0 ∧ rsqFn (.inf sg) = (if sg then .nan else .fin false 0 0) ∧
    exp2Fn (.inf sg) = (if sg then .fin false 0 0 else .inf false) ∧ log2Fn (.inf sg) = (if sg then .nan else .inf false) ∧
    tanhFn (.inf sg) = .fin sg 1 0 ∧
    (∀ f ∈ [rcpFn, rsqFn, exp2Fn, log2Fn, tanhFn], f .nan = .nan) ∧
    (∀ m, 0 < m → rsqFn (.fin true m z) = .nan ∧ log2Fn (.fin true m z) = .nan) ∧
    (∀ n : Nat, log2Fn (.fin false (2 ^ n) z) = .ofInt (z + n)) ∧
    (∀ n : Nat, n < 2048 → exp2Fn (.ofInt n) = .fin false 1 n ∧ exp2Fn (.ofInt (-n)) = .fin false 1 (-n)))

/-- R229 to R232: conversions between types, block quantisation with its scale byte and its inverse, and the fold of a block's largest
magnitude with the least scale that holds it.
Clauses of it rest on readings and choices of the model: log entries 11 (integer to integer, and `.64` signed) and 21. -/
def Obligations.VectorConversions : Prop :=
  ∀ (s : State) (o : VOp),
    let w := self s
    let mk := (s.coreAt w.i).kr o.k
    let how (l : Nat) : How := ⟨vPick o.rnd false (s.coreAt w.i).seed 0 l, o.sat⟩
    let nd := laneN o.ty
    (∀ (st : ETy) (p : BitVec 3),
      let ns := laneN st
      let src (l : Nat) : Nat := lane (s.vr w o.b) (laneW st) (if ns ≤ nd then l - p.toNat * ns else p.toNat * nd + l)
      let conv (l : Nat) : Nat := match fmtOf st, fmtOf o.ty with
        | .int a sg, .int b sg' => intBits b (if o.sat then max (intMin b sg') (min (intMax b sg') (intOf a sg (src l))) else intOf a sg (src l))
        | f, f' => f'.narrow (how l) (f.val (src l))
      givesLanes s (.vcvt o st p) s o.a o.ty
        (fun l => (decide (nd < ns) || (decide (p.toNat * ns ≤ l) && decide (l < p.toNat * ns + ns))) && maskBit mk nd l) conv) ∧
    (∀ (rd : Reading) (gc : Reg), o.c = some gc →
      let c := (s.rd w gc).toNat % 256
      let p := (s.rd w gc).toNat / 256 % 8 % (nd / 16)
      givesLanes s (.vqnt o rd) s o.a o.ty (fun l => decide (l / 16 = p) && maskBit mk nd l) (fun l => (fmtOf o.ty rd).narrow (how l)
        (if c = 0xFF then .nan else (val32 (lane (s.vr w o.b) 32 (l % 16))).scale (127 - c))) ∧
      givesLanes s (.vdqt o rd) s o.a .f32 (maskBit mk 16) (fun l => ff32.narrow .ieee { how l with sat := false }
        (if c = 0xFF then .nan else ((fmtOf o.ty rd).val (lane (s.vr w o.b) (laneW o.ty) (p * 16 + l))).scale (c - 127)))) ∧
    (∀ (rd : Reading),
      let x (l : Nat) : Val := val32 (lane (s.vr w o.b) 32 l)
      let a0 := val32 (lane (s.vr w o.a) 32 0)
      let top := (fmtOf o.ty rd).top
      let nan := a0.isNan || (List.range 16).any (fun l => mk.getLsbD l && (x l).isNan)
      ∃ a c : Nat, givesLanes s (.vamax o rd) s o.a .f32 (fun l => decide (l < 2)) (fun l => if l = 0 then a else c) ∧
        (nan = true → a = 0x7FC00000 ∧ c = 0xFF) ∧
        (nan = false → (val32 a).lt a0 = false ∧ (∀ l, l < 16 → mk.getLsbD l = true → (val32 a).lt (x l).abs = false) ∧ (val32 a).lt .zero = false ∧
          (a = lane (s.vr w o.a) 32 0 ∨ a = 0 ∨ ∃ l, l < 16 ∧ mk.getLsbD l = true ∧ a = lane (s.vr w o.b) 32 l % 2 ^ 31) ∧
          c ≤ 0xFE ∧ (∀ c' : Nat, c' < c → top.lt ((val32 a).scale (127 - c')) = true) ∧
          (c < 0xFE → top.lt ((val32 a).scale (127 - c)) = false)))

/-- R233 to R237: reductions, permutations, insertion and extraction, transpose and table lookup. -/
def Obligations.VectorPermutes : Prop :=
  ∀ (s : State) (o : VOp),
    let w := self s
    let ww := laneW o.ty
    let n := laneN o.ty
    let mk := (s.coreAt w.i).kr o.k
    let at_ (r : Reg) (l : Nat) : Nat := lane (s.vr w r) ww l
    let x := at_ (if o.c.isSome then o.b else o.a)
    let y := at_ (o.c.getD o.b)
    let pos : Nat := o.c.elim 0 (fun c => (s.rd w c).toNat % n)
    let gives (i : Instr) (f : Nat → Nat) : Prop := givesLanes s i s o.a o.ty (maskBit mk n) f
    gives (.vperm o) (fun l => x (y l % n)) ∧
    gives (.vlut o) (fun l => y (lane (s.vr w (if o.c.isSome then o.b else o.a)) 8 l % n)) ∧
    (∀ c, o.c = some c → gives (.vrot o) (fun l => at_ o.b ((l + (s.rd w c).toNat) % n))) ∧
    (let R := if ww = 8 then 8 else 4
     let C := if ww = 32 then 4 else 8
     gives (.vtrn o) (fun l => at_ o.b (l % R * C + l / R))) ∧
    givesReg s (.vext o) o.a (if o.ty ∈ [ETy.s4, .s8, .s16, .s32] ∧ 2 ^ (ww - 1) ≤ at_ o.b pos
      then BitVec.ofNat 64 (at_ o.b pos) - BitVec.ofNat 64 (2 ^ ww) else BitVec.ofNat 64 (at_ o.b pos)) ∧
    givesLanes s (.vins o) s o.a o.ty (fun l => l == pos) (fun _ => (s.rd w o.b).toNat) ∧
    (∀ bw sg, fmtOf o.ty = .int bw sg →
      let vs : List Int := (List.range n).filterMap (fun l => if maskBit mk n l then some (intOf bw sg (at_ o.b l)) else none)
      let red (op : RedOp) (v : Int) : Prop := givesState s (.vred o op) (s.setV w o.a (BitVec.ofNat 512 (v % 2 ^ 64).toNat))
      red .add (if bw = 64 ∧ o.sat = true then max (intMin 64 true) (min (intMax 64 true) vs.sum) else vs.sum) ∧
      red .min (vs.foldl min (intMax bw sg)) ∧ red .max (vs.foldl max (intMin bw sg)) ∧ red .amax (vs.foldl (fun a v => max a v.natAbs) 0)) ∧
    ((fmtOf o.ty).isFloat = true → ∀ op : RedOp,
      let vs := (List.range n).map (fun l =>
        let v := (fmtOf o.ty).val (at_ o.b l)
        if maskBit mk n l then (if op = .amax then v.abs else v)
        else match op with
          | .add => .fin true 0 0
          | .min => .inf false
          | .max => .inf true
          | .amax => .fin false 0 0)
      givesState s (.vred o op) (s.setV w o.a (BitVec.ofNat 512
        (if vs.any Val.isNan then 0x7FC00000 else round32 (treeRed (redStep op) 7 vs)))))

/-! ## Vector memory and the sequencer (spec/13 R238 to R252, spec/14 R253) -/

/-- R238, R239, R222: vector loads and stores, gather and scatter at the own slice, outside slipstream; in a scatter the higher lane remains; the
first lane that fails a check decides the cause.
Clauses of it rest on readings and choices of the model: log entry 96. -/
def Obligations.VectorMemory : Prop :=
  ∀ (s : State) (o : VOp) (sz : BitVec 2),
    let w := self s
    let k := s.coreAt w.i
    let mk := k.kr o.k
    let ww := laneW o.ty
    let n := laneN o.ty
    let base := localBase w.i
    let a := s.rd w o.b
    slipOf k w.c = none →
      (a.toNat + 64 ≤ localSize w.i → a.toNat % 64 = 0 →
        (guardOk k .load a.toNat 64 = true → sliceBad s w a.toNat 64 = none →
          givesLanes s (.vld o sz) s o.a o.ty (maskBit mk n) (fun l => leNat (rdBs s.mem (base + a.toNat) 64) / 2 ^ (ww * l))) ∧
        (guardOk k .store a.toNat 64 = true → ready s (.vst o sz) = true →
          ∃ s1 t, exec (.vst o sz) s = .next t ∧ goesOn s1 t w ∧ { s1 with mem := s.mem, bad := s.bad, tags := s.tags } = s ∧
            ∀ x, rdB t.mem x = if base + a.toNat ≤ x ∧ x < base + a.toNat + 64 ∧ maskBit mk n (8 * (x - (base + a.toNat)) / ww) = true
              then BitVec.ofNat 8 (lane (s.vr w o.a) 8 (x - (base + a.toNat))) else rdB s.mem x)) ∧
      (a.toNat + 64 ≤ localSize w.i → guardOk k .load a.toNat 64 = true → a.toNat % 64 ≠ 0 →
        givesTrap s (.vld o sz) 3 a (s.pcOf w)) ∧
      (∀ c, o.c = some c → ww % 8 = 0 →
        let b := ww / 8
        let ls := (List.range (min 16 n)).filter (maskBit mk n)
        let ad (l : Nat) : Word := a + BitVec.ofNat 64 (lane (s.vr w c) 32 l)
        ((∀ l ∈ ls, sliceCheck s w .load (ad l) b b = none ∧ sliceBad s w (ad l).toNat b = none) →
          givesLanes s (.vgath o) s o.a o.ty (fun l => ls.contains l) (fun l => leNat (rdBs s.mem (base + (ad l).toNat) b))) ∧
        ((∀ l ∈ ls, sliceCheck s w .store (ad l) b b = none) → ready s (.vscat o) = true →
          ∃ t, exec (.vscat o) s = .next t ∧ regsExcept s t w [] ∧ fellOn s t w ∧ (t.coreAt w.i).v = k.v ∧
            (∀ l ∈ ls, ∀ j, j < b → (∀ l' ∈ ls, l < l' → (ad l').toNat + b ≤ (ad l).toNat + j ∨ (ad l).toNat + j < (ad l').toNat) →
              rdB t.mem (base + (ad l).toNat + j) = BitVec.ofNat 8 (lane (s.vr w o.a) ww l / 256 ^ j)) ∧
            ∀ x, (∀ l ∈ ls, x < base + (ad l).toNat ∨ base + (ad l).toNat + b ≤ x) → rdB t.mem x = rdB s.mem x) ∧
        (∀ l cs v, l ∈ ls → sliceCheck s w .load (ad l) b b = some (.cause cs v) →
          (∀ l' ∈ ls, l' < l → sliceCheck s w .load (ad l') b b = none ∧ sliceBad s w (ad l').toNat b = none) →
            givesTrap s (.vgath o) cs v (s.pcOf w)))

/-- R240 to R243, R222: `vldp` gives the k-plane values of 16 elements; `vstp` and `vpupd` write the plane group that R214 to R216 give, and no
other byte; a descriptor of another format raises `planefmt`. Outside slipstream.
Clauses of it rest on readings and choices of the model: log entries 22 and 96. -/
def Obligations.PlaneMemory : Prop :=
  ∀ (s : State) (o : VOp) (np : BitVec 2) (gc : Reg), o.c = some gc →
    let w := self s
    let k := s.coreAt w.i
    let mk := k.kr o.k
    let ta := s.rd w o.b
    let td := parseTd ta (rdBs s.mem (localBase w.i + ta.toNat) 128)
    let i0 := (s.rd w gc).toNat % 2 ^ 32
    let row := (s.rd w gc).toNat / 2 ^ 32
    let rdr := sliceReader s w
    let kp := if np = 0 then td.prd else np.toNat
    let inTd : Prop := td.ty = .np ∧ np.toNat ≤ td.pst ∧ i0 < td.e 0 ∧ row < td.rows
    let wrote (t : State) (bs : List (Int × Byte)) : Prop :=
      (∀ x, (∀ e ∈ bs, x ≠ localBase w.i + e.1.toNat) → rdB t.mem x = rdB s.mem x) ∧
      ∀ e ∈ bs, (∀ e' ∈ bs, e'.1 = e.1 → e' = e) → rdB t.mem (localBase w.i + e.1.toNat) = e.2
    slipOf k w.c = none → s.bad = [] → sliceCheck s w .load ta 128 64 = none →
      (td.ok = false ∨ td.ty ≠ .np → givesTrap s (.vldp o np) 0x14 ta (s.pcOf w)) ∧
      (td.ok = true → inTd → groupCheck s w .load (td.groupBytes i0 row) = none → i0 % 16 = 0 →
        givesLanes s (.vldp o np) s o.a .f32 (maskBit mk 16) (fun l => if i0 + l < td.e 0
          then round32 (td.value rdr (i0 + l) row (if td.lowok then max 1 (min kp s.cap) else kp)) else 0)) ∧
      (td.ok = true → inTd → groupCheck s w .atomic (td.groupBytes i0 row) = none →
        (i0 % 16 = 0 → ready s (.vstp o np) = true → ∃ t, exec (.vstp o np) s = .next t ∧ regsExcept s t w [] ∧ fellOn s t w ∧
          (t.coreAt w.i).v = k.v ∧ wrote t (td.groupPut rdr i0 row kp
            (fun i => if i0 ≤ i ∧ i < i0 + 16 ∧ mk.getLsbD (i - i0) = true then some (val32 (lane (s.vr w o.a) 32 (i - i0))) else none)
            (fun i => ⟨vPick o.rnd td.srnd k.seed td.stream (td.lin i row), o.sat⟩)).bytes) ∧
        (i0 % 32 = 0 → o.a.toNat % 2 = 0 → ready s (.vpupd o) = true →
          let z (i : Nat) : Val :=
            let l := i - i0
            let old := td.value rdr i row td.pst
            if mk.getLsbD l = true then old.add (val32 (if l < 16 then lane (s.vr w o.a) 32 l else lane (s.vr w (o.a + 1)) 32 (l - 16))) else old
          let g := td.groupUpd rdr i0 row z (fun i => ⟨vPick o.rnd td.srnd k.seed td.stream (td.lin i row), o.sat⟩)
          ∃ t, exec (.vpupd o) s = .next t ∧ regsExcept s t w [] ∧ fellOn s t w ∧ wrote t g.bytes ∧
            (∀ l, l < 32 → lane (t.vr w (if l < 16 then o.a else o.a + 1)) 32 (l % 16) = (g.vals[l]?).elim 0 round32) ∧
            ∀ r, r ≠ o.a → r ≠ o.a + 1 → t.vr w r = s.vr w r))

/-- R246 to R252: `vrep` sets the sequencer up to capture, and with a count of 0 passes over its body (R28); a captured instruction keeps the g
values that it reads, `vend` stops new repetitions and gives the number started, `vwait` waits for the sequencer; and the sequencer issues an
eligible body instruction, what it does being what that instruction does with the registers of its repetition, and none while a lower
repetition goes first. R245: `bbgetv` takes fields of the bit buffer, after the refills that they need, outside slipstream.
Clauses of it rest on readings and choices of the model: log entry 23. -/
def Obligations.Sequencer : Prop :=
  ∀ (s : State) (a : Reg) (n : BitVec 5),
    let w := self s
    let k := s.coreAt w.i
    let cnt := (s.rd w a).toNat
    (cnt ≠ 0 → givesState s (.vrep a n) (s.setCore w.i { k with
      seqr := { n := n.toNat, count := cnt, toCap := n.toNat, seed := k.seed } })) ∧
    (cnt = 0 → let past := loopEnd (s.ctxAt w).loops (afterBody s w n.toNat)
      givesJump s (.vrep a n) (s.setCore w.i { k with seqr := { n := n.toNat, count := 0, toCap := 0, seed := k.seed } }) past.2 past.1 ∧
      ((∀ m, m < n.toNat → (fetchHalf s w ((s.fall w).toNat + 2 * m)).toNat / 1024 < 60) →
        afterBody s w n.toNat = BitVec.ofNat 64 ((s.fall w).toNat + 2 * n.toNat))) ∧
    (ready s (.vend a) = true → ∃ t, exec (.vend a) s = .next t ∧
      writesReg (s.setCore w.i { k with seqr := { k.seqr with stopNew := true } }) t w a (BitVec.ofNat 64 k.seqr.started)) ∧
    (k.seqr.busy = false → givesState s .vwait s) ∧
    (k.seqr.busy = true → ready s .vwait = true → exec .vwait s = .next s) ∧
    (∀ o : VOp, k.gang = none → k.bound = none → s.curCtx = 0 → runs k 0 = true → permit w (.vadd o) = none → k.ctl.pend = [] →
      acquiring s w = false → s.cur.refused = none → 0 < k.seqr.toCap →
      ∃ t, exec (.vadd o) s = .next t ∧ fellOn s t w ∧ (t.coreAt w.i).v = k.v ∧ (t.coreAt w.i).seqr = { k.seqr with
        body := k.seqr.body ++ [{ ins := .vadd o, gb := 0, gc := 0, pc := s.pcOf w }], toCap := k.seqr.toCap - 1 }) ∧
    (∀ (i j sl : Nat) (o : VOp) (e : BodyI), i < 4096 →
      let q := s.coreAt i
      q.gang = none → q.bound = none → seqRuns q = true → nextSlot q.seqr j = some sl → repEligible s ⟨i, 0, i⟩ j sl = true →
      lowerFirst s [⟨i, 0, i⟩] j = false → q.seqr.body[sl]? = some e → e.ins = .vand o → o.c = none → o.k = 0 →
      let st (r : Reg) (b : Bool) : Reg := if b then r + BitVec.ofNat 5 j else r
      let d := st o.a o.sa
      ∃ t, exec (.sequencerIssue i j) s = .next t ∧ sameRest s t i ∧ (t.coreAt i).ctl = q.ctl ∧ (t.coreAt i).seqr = q.seqr.issued j ∧
        (∀ l, l < laneN o.ty → lane ((t.coreAt i).vr d) (laneW o.ty) l =
          lane (q.vr d) (laneW o.ty) l &&& lane (q.vr (st o.b o.sb)) (laneW o.ty) l) ∧
        ∀ r, r ≠ d → (t.coreAt i).vr r = q.vr r) ∧
    (∀ (i j sl : Nat) (e : BodyI) (t0 : State), i < 4096 →
      let q := s.coreAt i
      q.gang = none → q.bound = none → seqRuns q = true → nextSlot q.seqr j = some sl → q.seqr.body[sl]? = some e →
      bodyOf e.ins (e.arg ⟨i, 0, i⟩ j s) s = .ok t0 →
        (lowerFirst s [⟨i, 0, i⟩] j = true → exec (.sequencerIssue i j) s = .next s) ∧
        (lowerFirst s [⟨i, 0, i⟩] j = false → repEligible s ⟨i, 0, i⟩ j sl = true →
          exec (.sequencerIssue i j) s = .next (t0.modCore i (fun c => { c with seqr := c.seqr.issued j })))) ∧
    (∀ (ty : ETy) (sa : Bool) (wr : Reg), 1 ≤ wr.toNat → wr.toNat ≤ 6 →
      let m := if wr.toNat ≤ 3 then 32 else 16
      let b := k.bb
      let words := if b.cnt < m * wr.toNat then (m * wr.toNat - b.cnt + 31) / 32 else 0
      let d := b.d ||| (BitVec.ofNat 128 (leNat (rdBs s.mem (localBase w.i + b.ptr.toNat) (4 * words))) <<< b.cnt)
      let f (l : Nat) : Nat := d.toNat / 2 ^ (wr.toNat * l) % 2 ^ wr.toNat
      slipOf k w.c = none → b.ptr.toNat + 4 * words ≤ localSize w.i →
      (∀ j, j < words → guardOk k .load (b.ptr.toNat + 4 * j) 4 = true ∧ sliceBad s w (b.ptr.toNat + 4 * j) 4 = none) →
      givesLanes s (.bbgetv ty sa a wr)
        (s.setCore w.i { k with bb := { d := d >>> (m * wr.toNat), cnt := b.cnt + 32 * words - m * wr.toNat, ptr := b.ptr + BitVec.ofNat 64 (4 * words) } }) a
        .n8 (fun _ => true)
        (fun l => if m ≤ l then 0 else if ty = .s8 ∧ 2 ^ (wr.toNat - 1) ≤ f l then 256 + f l - 2 ^ wr.toNat else f l))

/-! ## The matrix unit (spec/15 R256 to R272, spec/16 R274 to R291) -/

/-- R274 to R276, R279 to R291: a matrix command whose operands pass its checks joins its core's queue with what it reads at issue; `mfmt` also
sets the issue-side context; a bad operand word raises `illegal`, and the two commands of levels 0 and 1 raise `priv` at level 2.
Clauses of it rest on readings and choices of the model: log entries 12 and 38. -/
def Obligations.MatrixIssue : Prop :=
  ∀ (s : State) (o : RR) (t : BitVec 2) (a b c : Reg) (z d : Bool) (nr : BitVec 5),
    let w := self s
    let k := s.coreAt w.i
    let u : State := { s with freeNo := s.freeNo + 1 }
    let ga := s.rd w a
    let gb := s.rd w b
    let queued (i : Instr) (op : MOp) : Prop := givesState s i
      (u.setCore w.i { k with q0 := k.q0 ++ [{ op := op, deps := releaseDeps s w, at_ := s.cyc }] })
    let free (r : Reg) (n al : Nat) : Prop := sliceCheck s w .load (s.rd w r) n al = none ∧ sliceBad s w (s.rd w r).toNat n = none
    let td (r : Reg) : TD := parseTd (s.rd w r) (sliceRd s w (s.rd w r).toNat 128)
    kindOf w.i = .worker → k.mErr = none → cmdCount s w.i 0 < cmdDepth 0 →
      queued (.mzero t) (.mzero t.toNat) ∧ queued (.mspec t) (.mspec t.toNat) ∧ queued (.mcommit t) (.mcommit t.toNat) ∧
      queued (.mdiscard t) (.mdiscard t.toNat) ∧ queued .mbar .mbar ∧ queued .mstat .mstat ∧
      queued (.mvldR b) (.mvld (BitVec.ofNat 32 gb.toNat)) ∧
      (free b 4 4 → queued (.mvld b) (.mvld (BitVec.ofNat 32 (leNat (sliceRd s w gb.toNat 4))))) ∧
      (free b 16384 64 → queued (.mwr t b) (.mwr t.toNat gb.toNat)) ∧
      (let n := if nr = 0 then 32 else nr.toNat
       sliceCheck s w .store gb (512 * n) 128 = none → queued (.mrd t b nr) (.mrd t.toNat gb.toNat n)) ∧
      (∀ n, 0 < n → n ≤ 16 → ga.toNat % 256 = n → ga.toNat / 256 < 2 → free b (4 * n) 64 →
        queued (.mdup a b) (.mdup (ga.toNat / 256 == 1) ((List.range n).map (fun p =>
          let v := leNat (((sliceRd s w gb.toNat (4 * n)).drop (4 * p)).take 4)
          (v % 2 ^ 16, v / 2 ^ 16))))) ∧
      (32 ≤ ga.toNat % 256 → givesTrap s (.mdup a b) 1 (illegalVal s 11) (s.pcOf w)) ∧
      (k.level ≤ 1 → (ga.toNat < 4 → queued (.mslot a b) (.mslot ga.toNat gb)) ∧
        (ga.toNat < 2 ^ 32 → queued (.mwgt a) (.mwgt (BitVec.ofNat 32 ga.toNat)))) ∧
      (1 < k.level → (ga.toNat < 4 → givesTrap s (.mslot a b) 2 0 (s.pcOf w)) ∧
        (ga.toNat < 2 ^ 32 → givesTrap s (.mwgt a) 2 0 (s.pcOf w))) ∧
      (∀ r, o.c = some r → (s.rd w r).toNat < 2 ^ 13 → free o.a 128 64 → free o.b 128 64 →
        let ta := td o.a
        let tb := td o.b
        let ka := ta.planesRead s.cap
        let kb := tb.planesRead s.cap
        ta.ok = true → tb.ok = true → ka ≠ 3 → kb ≠ 3 →
          ((mpair ta.ty ka tb.ty kb).isSome = true → givesState s (.mfmt o) (u.setCore w.i { k with
            q0 := k.q0 ++ [{ op := .mfmt ta tb ka kb (s.rd w r).toNat, deps := releaseDeps s w, at_ := s.cyc }]
            mctx := ⟨true, ta, tb, ka, kb, (s.rd w r).toNat⟩ })) ∧
          (mpair ta.ty ka tb.ty kb = none → givesTrap s (.mfmt o) 0x14 (s.rd w o.a) (s.pcOf w))) ∧
      (∀ r km off soff, o.c = some r → (s.rd w o.a).toNat = off + soff * 2 ^ 16 → off < 2 ^ 13 → soff < 2 ^ 13 → off % 64 = 0 →
        free o.b 128 64 →
        let x := td o.b
        let i0 := (s.rd w r).toNat % 2 ^ 32
        let row := (s.rd w r).toNat / 2 ^ 32
        let kn := min (x.e 0 - i0) km
        x.ok = true → kmax x.ty = some km → i0 < x.e 0 → row < x.rows → i0 % 32 = 0 → ldFits x off soff kn = true →
        elemCheck s w x (ldPlanes x) x.scaled (elemGrid (min 128 (x.rows - row)) kn row i0) = none →
          queued (.mldb o) (.mldb x off soff i0 row)) ∧
      (∀ K m boff, 0 < K → K ≤ 16384 → 0 < m → m ≤ 32 → boff < 2 ^ 13 → boff % 64 = 0 →
        (s.rd w c).toNat = K + (m - 1) * 2 ^ 16 + boff * 2 ^ 32 →
        let x := k.mctx
        let i0 := gb.toNat % 2 ^ 32
        let row := gb.toNat / 2 ^ 32
        (x.set = false → givesTrap s (.mmul t b c z d) 1 (illegalVal s 12) (s.pcOf w)) ∧
        (x.set = true → mulFits x m K boff = true →
          elemCheck s w x.ta x.ka x.ta.scaled (elemGrid (min m (x.ta.rows - row)) (min K (x.ta.e 0 - i0)) row i0) = none →
            queued (.mmul t b c z d) (.mmul t.toNat i0 row boff m K z d)))

/-- R263, R264: a free unit grants the slot's owner when it is eligible; the grant takes the command off its queue and counts it; a unit with a
command in its array grants none. R277, R286: the command in the array makes its slice writes, and then its element enters the core's result
FIFO once there is room. R261, R262: what one pass gives for NaN, infinities and no terms.
Clauses of it rest on readings and choices of the model: log entry 90. -/
def Obligations.MatrixProgress : Prop :=
  (∀ (s : State) (cl : Nat), cl < 512 →
      let k := s.clusterAt cl
      let slot := vget k.slots (s.cyc / 16 % 64) 0
      let owner := slot.toNat % 8
      (k.run.isSome = true → exec (.matrixGrant cl) s = .next s) ∧
      ((∀ r, r < 8 → eligCmd s cl r = none) → exec (.matrixGrant cl) s = .next s) ∧
      (∀ c, k.run = none → slot.getLsbD 3 = true → eligCmd s cl owner = some c → (s.coreAt (coreIn cl owner)).gang = none →
        ∃ t r, exec (.matrixGrant cl) s = .next t ∧ (t.clusterAt cl).run = some r ∧ r.row = owner ∧ r.op = c.op ∧
          (t.clusterAt cl).cr = (match c.op with
            | .mwgt _ => Vector.replicate 8 0
            | _ => k.cr) ∧
          (t.coreAt (coreIn cl owner)).q0 = (s.coreAt (coreIn cl owner)).q0.tail ∧
          vget (t.clusterAt cl).seqs owner 0 = (vget k.seqs owner 0 + 1) % 2 ^ 32)) ∧
  ((∀ (s : State) (cl : Nat) (r : MRun), cl < 512 → r.row < 8 → (s.clusterAt cl).run = some r →
      let i := coreIn cl r.row
      (∀ a bs ws, r.writes = (a, bs) :: ws → ∃ t, exec (.matrixCommandComplete cl) s = .next t ∧
        (t.clusterAt cl).run = some { r with writes := ws } ∧
        (∀ j, j < bs.length → rdB t.mem (localBase i + a + j) = bs.getD j 0) ∧
        ∀ x, x < localBase i + a ∨ localBase i + a + bs.length ≤ x → rdB t.mem x = rdB s.mem x) ∧
      (r.writes = [] → r.op.gives = true → (s.coreAt i).r0.length < 8 → ∃ t, exec (.matrixCommandComplete cl) s = .next t ∧
        (t.clusterAt cl).run = none ∧ (t.coreAt i).r0 = (s.coreAt i).r0 ++ [r.elem] ∧ (t.coreAt i).ctl.latch = true ∧ t.mem = s.mem) ∧
      (r.writes = [] → r.op.gives = true → 8 ≤ (s.coreAt i).r0.length → exec (.matrixCommandComplete cl) s = .next s) ∧
      (r.writes = [] → r.op.gives = false → ∃ t, exec (.matrixCommandComplete cl) s = .next t ∧ (t.clusterAt cl).run = none ∧
        t.mem = s.mem ∧ t.cores = s.cores)) ∧
    (∀ (exact : Bool) (ts : List Val),
      (ts.any Val.isNan = true → passOf exact ts = 0x7FC00000) ∧
      (ts.any Val.isNan = false → Val.inf false ∈ ts → Val.inf true ∈ ts → passOf exact ts = 0x7FC00000) ∧
      (ts.any Val.isNan = false → Val.inf false ∈ ts → Val.inf true ∉ ts → passOf exact ts = 0x7F800000) ∧
      (ts.any Val.isNan = false → Val.inf true ∈ ts → Val.inf false ∉ ts → passOf exact ts = 0xFF800000) ∧
      ((∀ t ∈ ts, ∃ sg e, t = Val.fin sg 0 e) → passOf exact ts = 0)))

/-- R258 to R269, R280 to R291: what the commands do at their grant, where no word is uncorrectable: masks, pairs and speculation; tiles zeroed,
read from the slice, copied to and from their shadows; and the passes of `mmul` over the products of A and B. -/
def Obligations.MatrixEffects : Prop :=
  ∀ (s : State) (cl r : Nat) (c : MCmd), cl < 512 → r < 8 →
    let i := coreIn cl r
    let k := s.clusterAt cl
    let f := vget k.fctx r {}
    let tile (t : Nat) (sh : Bool) (e : Nat) : Nat := tileBase i + (if sh then 0x10000 else 0) + t * 16384 + 4 * e
    let elem (m : List Host.Cell) (a : Nat) : Nat := leNat (rdBs m a 4)
    k.run = none → eligCmd s cl r = some c → (∀ r', r' < 8 → r' ≠ r → eligCmd s cl r' = none) → s.bad = [] → k.badNan = [] →
      ∃ u, exec (.matrixGrant cl) s = .next u ∧
        let f' := vget (u.clusterAt cl).fctx r {}
        (∀ m, c.op = .mvld m → f' = { f with vmask := m } ∧ u.mem = s.mem) ∧
        (∀ sd ps, c.op = .mdup sd ps → f' = { f with dside := sd, dpairs := ps } ∧ u.mem = s.mem) ∧
        (∀ ta tb ka kb so, c.op = .mfmt ta tb ka kb so → f' = { f with mc := ⟨true, ta, tb, ka, kb, so⟩ } ∧ u.mem = s.mem) ∧
        (c.op = .mbar ∨ c.op = .mstat → f' = f ∧ u.mem = s.mem) ∧
        (∀ v, c.op = .mwgt v → (u.clusterAt cl).wgt = v ∧ (u.clusterAt cl).cr = Vector.replicate 8 0) ∧
        (∀ q v, c.op = .mslot q v → ∀ e, e < 64 → vget (u.clusterAt cl).slots e 0 =
          if e / 16 = q then BitVec.ofNat 4 (v.toNat / 2 ^ (4 * (e % 16))) else vget k.slots e 0) ∧
        (∀ t, t < 4 →
          let sp := f.specm.getLsbD t
          let only (sh : Bool) (g : Nat → Nat) : Prop := (∀ e, e < 4096 → elem u.mem (tile t sh e) = g e) ∧
            ∀ x, x < tile t sh 0 ∨ tile t sh 4096 ≤ x → rdB u.mem x = rdB s.mem x
          (c.op = .mzero t → only sp (fun _ => 0)) ∧
          (∀ a, c.op = .mwr t a → only sp (fun e => elem s.mem (localBase i + a + 4 * e))) ∧
          (c.op = .mspec t → only true (fun e => elem s.mem (tile t false e)) ∧ f'.specm.getLsbD t = true) ∧
          (c.op = .mcommit t → (sp = true → only false (fun e => elem s.mem (tile t true e))) ∧ (sp = false → u.mem = s.mem) ∧
            f'.specm.getLsbD t = false) ∧
          (c.op = .mdiscard t → u.mem = s.mem ∧ f'.specm.getLsbD t = false) ∧
          (∀ a n, c.op = .mrd t a n → u.mem = s.mem ∧ (u.clusterAt cl).run.map (·.writes) = some ((List.range (4 * n)).map (fun p =>
            (a + 128 * p, rdBs s.mem (tile t sp (32 * p)) 128)))) ∧
          (∀ i0 row boff m K z, c.op = .mmul t i0 row boff m K z false → m ≤ 32 →
            let kind := ((mpair f.mc.ta.ty f.mc.ka f.mc.tb.ty f.mc.kb).getD (128, .flt)).2
            ∀ i', i' < 32 → ∀ j, j < 128 → elem u.mem (tile t sp (128 * i' + j)) =
              if i' < m ∧ f.vmask.getLsbD i' = true then
                accumulate (kind != .flt) (if z then 0 else elem s.mem (tile t sp (128 * i' + j)))
                  ((List.range K).map (fun q => prodOf kind (opdA s i f.mc (row + i') (i0 + q)) (opdB s cl f.mc boff j q)))
              else elem s.mem (tile t sp (128 * i' + j))))

/-! ## Memory cores (spec/17 R296 to R305, spec/18 R324 to R333) -/

/-- R326 to R331: a memory core's transfer whose range, alignment and translation hold is put in flight unit by unit, and a bad length raises
`illegal`; one whose walk reads a table that an exchange phase keeps from it waits (R296); `mcwait` waits for every transfer; `mctlb` invalidates; `mcsig` signals the worker.
Clauses of it rest on readings and choices of the model: log entry 39. -/
def Obligations.MemoryCoreInstructions : Prop :=
  ∀ (s : State) (a b c : Reg) (vm : Bool),
    let w := self s
    let k := s.coreAt w.i
    let ga := (s.rd w a).toNat
    let gb := (s.rd w b).toNat
    let n := (s.rd w c).toNat
    let tile := w.i % 4096
    let flies (s2 : State) (mv : List (XSide × XSide)) (ms : List (XSide × List Byte)) : State :=
      { (s2.modCore w.i (fun k => { k with xfers := k.xfers ++ [{ id := s2.nextId, moves := mv.map (fun m => { src := m.1, dst := m.2 }), masks := ms }] })) with nextId := s2.nextId + 1 }
    let units := List.range (n / 64)
    let okLen : Prop := 64 ≤ n ∧ n ≤ 65536 ∧ n % 64 = 0 ∧ ga + n ≤ 0x10000 ∧ ga % 64 = 0 ∧ gb % 64 = 0
    let va := gb % 2 ^ 48
    let xl (need : Need) := translateAll tile need (pagesOf va n) s
    let reach (vas : List Nat) : Prop := ∀ v ∈ vas, walkHeld s tile v = false
    kindOf w.i = .memory → k.slip = none → k.xfers.length < 8 →
      (okLen → dramIn (s.rd w b) n = true → ¬reach (pagesOf va n) →
        (ready s (.mcld a b c) = true → exec (.mcld a b c) s = .next s) ∧ (ready s (.mcst a b c) = true → exec (.mcst a b c) s = .next s)) ∧
      (okLen → dramIn (s.rd w b) n = true → reach (pagesOf va n) →
        (∀ s2 ps, xl ⟨true, false⟩ = (s2, .ok ps) → givesState s (.mcld a b c)
          (flies s2 (units.map (fun u => (paAt ps (va + 64 * u), .buf (ga + 64 * u)))) [])) ∧
        (∀ s2 ps, xl ⟨false, true⟩ = (s2, .ok ps) → givesState s (.mcst a b c)
          (flies s2 (units.map (fun u => (.buf (ga + 64 * u), paAt ps (va + 64 * u)))) [])) ∧
        (∀ s2 p rsn, xl ⟨true, false⟩ = (s2, .error (p, rsn)) → ready s (.mcld a b c) = true → s.curCtx = 0 → k.quar = none → trapOpen s w.i →
          ∃ t, exec (.mcld a b c) s = .next t ∧ trapTaken s2 t w.i (trapLevel s w.i) 6 (BitVec.ofNat 64 (2 ^ 60 + rsn * 2 ^ 56 + p % 2 ^ 48)) (s.pcOf w))) ∧
      (okLen → globIn s w.i (s.rd w b) n = true → givesState s (.mcpush a b c)
        (flies s (units.map (fun u => (.buf (ga + 64 * u), globAt s w.i (gb + 64 * u)))) [])) ∧
      ((n < 64 ∨ 65536 < n ∨ n % 64 ≠ 0) → givesTrap s (.mcld a b c) 1 (illegalVal s 11) (s.pcOf w) ∧
        givesTrap s (.mcst a b c) 1 (illegalVal s 11) (s.pcOf w) ∧ givesTrap s (.mcpush a b c) 1 (illegalVal s 11) (s.pcOf w)) ∧
      (∀ (t : BlockTab), gathTab s w.i (s.rd w b) (s.rd w c) = .ok t →
        let cnt := n / 2 ^ 32 % 2 ^ 12 + 1
        let rows := (List.range cnt).map (fun j => t.token s w.i (n % 2 ^ 32 + j))
        let nm := if vm then (cnt + 31) / 32 else 0
        let vas := rows.flatMap (fun r => r.elim [] (fun a => pagesOf (a.toNat % 2 ^ 48) t.tb))
        let mask (q : Nat) : List Byte := natLE 4 (maskWord (rows.map Option.isSome) q).toNat
        gathCheck s w.i (s.rd w a) (s.rd w b) (cnt * t.tb + 4 * nm) t.tb rows = none →
          (¬reach vas → ready s (.mcgath a b c vm) = true → exec (.mcgath a b c vm) s = .next s) ∧
          ∀ s2 ps, reach vas → translateAll tile ⟨true, false⟩ vas s = (s2, .ok ps) →
            givesState s (.mcgath a b c vm) (flies s2
              (rows.zipIdx.flatMap (fun r => (List.range (t.tb / 64)).map (fun u =>
                (r.1.elim XSide.zero (fun a => paAt ps (a.toNat % 2 ^ 48 + 64 * u)), gathDst s w.i (ga + r.2 * t.tb + 64 * u)))))
              ((List.range ((nm + 1) / 2)).map (fun q => (gathDst s w.i (ga + cnt * t.tb + 8 * q),
                mask (2 * q) ++ (if 2 * q + 1 < nm then mask (2 * q + 1) else [])))))) ∧
      (k.xfers = [] → k.xbad = none → givesState s .mcwait s) ∧
      (k.xfers ≠ [] → ready s .mcwait = true → exec .mcwait s = .next s) ∧
      (∀ v, k.xfers = [] → k.xbad = some v → ready s .mcwait = true → s.curCtx = 0 → trapOpen s w.i →
        ∃ t, exec .mcwait s = .next t ∧
          trapTaken (s.modCore w.i (fun k => { k with xbad := none })) t w.i (trapLevel s w.i) 12 (BitVec.ofNat 64 v) (s.pcOf w)) ∧
      (let ten := (s.coreAt (mcOf tile)).root.toNat % 512
       let flush (keepT : TlbE → Bool) (keepW : WalkE → Bool) : State :=
        (s.modCore (mcOf tile) (fun k => { k with tlb := k.tlb.filter keepT })).modCluster (clusterOf tile) (fun k => { k with wcache := k.wcache.filter keepW })
       (ga = 0 → givesState s (.mctlb a) (flush (fun e => e.ten != ten) (fun e => e.ten != ten))) ∧
       (ga / 2 ^ 48 = 1 → givesState s (.mctlb a) (flush (fun e => !(e.ten == ten && e.va == vaTag e.lvl (ga % 2 ^ 48)))
          (fun e => !(e.ten == ten && e.vpn == vaTag e.lvl (ga % 2 ^ 48))))) ∧
       (ga ≠ 0 → ga / 2 ^ 48 ≠ 1 → givesTrap s (.mctlb a) 1 (illegalVal s 11) (s.pcOf w))) ∧
      (k.xfers = [] → storesOut s w = [] → loadsOut s w = [] → (s.coreAt tile).r5.length < 4 →
        givesState s (.mcsig a) (wake (s.modCore tile (fun k => { k with r5 := k.r5 ++ [s.rd w a] })) tile))

/-- R324, R327, R332, R302, R303, R329, R333: a transfer moves its units word by word in any order, a DRAM unit being read whole with its first
word and written whole with its last, under XTS with its PA as the tweak; a unit that cannot be read leaves its destination and is reported; two mask words are one word of the memory; a command of port 5 arrives at the memory core and wakes it.
Clauses of it rest on readings and choices of the model: log entries 39 and 40. -/
def Obligations.TransfersAndCommands : Prop :=
  (∀ (s : State) (mc j u q : Nat) (x : Xfer), mc < 4096 → j < 8 → q < 8 →
    let i := 4096 + mc
    let k := s.coreAt i
    let base := localBase i
    let e := Instr.transferComplete mc (64 * u + 8 * q + j)
    k.xfers[j]? = some x →
      let only (t : State) (f : Nat) (bs : List Byte) : Prop :=
        (∀ n, n < bs.length → rdB t.mem (f + n) = bs.getD n 0) ∧ ∀ y, y < f ∨ f + bs.length ≤ y → rdB t.mem y = rdB s.mem y
      (∀ m : XMove, x.moves[u]? = some m →
        let more := m.left.filter (· != q)
        let rest (got : List (Nat × List Byte)) : Option XMove := if more = [] then none else some { m with got := got, left := more }
        let moved (t : State) (r : Option XMove) : Prop := exec e s = .next t ∧ (t.coreAt i).xfers = (k.xfers.set j { x with moves := match r with
          | some m' => x.moves.set u m'
          | none => x.moves.eraseIdx u }).filter (fun x => !(x.moves.isEmpty && x.masks.isEmpty))
        (q ∉ m.left ∨ dramFirst (k.xfers.take j) m = true ∨ sideHeld s i m.dst = true → exec e s = .next s) ∧
        (q ∈ m.left → dramFirst (k.xfers.take j) m = false → sideHeld s i m.dst = false → (m.got = [] → sideHeld s i m.src = false) →
          let gives (bs : List Byte) (got : List (Nat × List Byte)) : Prop :=
            (∀ f, m.dst = .glob f → f % 64 = 0 → f < 0x40000000 → ∃ t, moved t (rest got) ∧ only t (f + 8 * q) bs) ∧
            (∀ a, m.dst = .buf a → ∃ t, moved t (rest got) ∧ only t (base + a + 8 * q) bs)
          (∀ bs, mget m.got q = some bs → gives bs m.got) ∧
          (s.bad = [] → mget m.got q = none →
            (∀ a, m.src = .buf a → let bs := rdBs s.mem (base + a + 8 * q) 8
              gives bs (m.got ++ [(q, bs)]) ∧
              ∀ va pa key ks, m.dst = .dram va pa key → keyOf s key = some ks →
                (more ≠ [] → ∃ t, moved t (rest (m.got ++ [(q, bs)])) ∧ t.mem = s.mem) ∧
                (more = [] → ∃ t, moved t none ∧ t.mem = wrBs s.mem (dramBase + pa / 64 * 64)
                  (xtsEnc ks (pa / 64) ((List.range 8).flatMap (fun r => (mget (m.got ++ [(q, bs)]) r).getD []))))) ∧
            (m.src = .zero → gives (List.replicate 8 0) (m.got ++ [(q, List.replicate 8 0)])) ∧
            (∀ va pa key ks, m.src = .dram va pa key → keyOf s key = some ks → m.got = [] →
              let word (r : Nat) : List Byte := ((xtsDec ks (pa / 64) (rdBs s.mem (dramBase + pa / 64 * 64) 64)).drop (8 * r)).take 8
              gives (word q) ((List.range 8).map (fun r => (r, word r))))) ∧
          (∀ va pa key, m.src = .dram va pa key → m.got = [] → unitOk s pa = false →
            ∃ t, moved t none ∧ t.mem = s.mem ∧ (t.coreAt i).xbad = some (min va (k.xbad.getD va))))) ∧
      (∀ d v, x.moves.length ≤ u → x.masks[u - x.moves.length]? = some (d, v) →
        (∀ a, d = .buf a → ∃ t, exec e s = .next t ∧ only t (base + a) v) ∧
        (∀ f, d = .glob f → f < 0x40000000 → sideHeld s i d = false → ∃ t, exec e s = .next t ∧ only t f v) ∧
        (sideHeld s i d = true → exec e s = .next s))) ∧
  (∀ (s : State) (i : Nat) (c : WCmd) (q : List WCmd), i < 4096 → (s.coreAt i).q5 = c :: q →
    let m := 4096 + i
    (depsDone s c.deps = true → (s.coreAt m).inq.length < 4 → ∃ t, exec (.mcCommandArrival i) s = .next t ∧ (t.coreAt i).q5 = q ∧
      (t.coreAt m).inq = (s.coreAt m).inq ++ [c.val] ∧ (t.coreAt m).ctl.latch = true ∧ t.mem = s.mem) ∧
    (depsDone s c.deps = false ∨ 4 ≤ (s.coreAt m).inq.length → exec (.mcCommandArrival i) s = .next s))

/-! ## The transform coprocessor (spec/20 R335 to R346) -/

/-- R345, R346: `xreq` checks its block's address and appends it, or says that the port is busy, or wedges; `xres` takes a result if there is
one. R336 to R343: the coprocessor takes the next request, whose form and ranges are checked, and performs its function: the digest, the
changed blocks, the packed and the unpacked fields, the CRC; the element enters the result FIFO at completion. Without an uncorrectable
word.
Clauses of it rest on readings and choices of the model: log entries 25 and 48. -/
def Obligations.Transforms : Prop :=
  (∀ (s : State) (a b : Reg),
      let w := self s
      let k := s.coreAt w.i
      let gb := s.rd w b
      kindOf w.i = .worker →
        (gb.toNat + 64 ≤ 0x40000 → gb.toNat % 64 = 0 → guardOk k .load gb.toNat 64 = true →
          (k.q1.length < 2 → ready s (.xreq a b) = true → ∃ t, exec (.xreq a b) s = .next t ∧
            writesReg (s.setCore w.i { k with q1 := k.q1 ++ [{ val := gb, deps := releaseDeps s w, at_ := s.cyc }] }) t w a 0) ∧
          (2 ≤ k.q1.length → k.r1.length < 4 → givesReg s (.xreq a b) a 1) ∧
          (2 ≤ k.q1.length → 4 ≤ k.r1.length → givesTrap s (.xreq a b) 7 1 (s.pcOf w))) ∧
        (0x40000 < gb.toNat + 64 → givesTrap s (.xreq a b) 4 gb (s.pcOf w)) ∧
        (∀ v t, k.r1 = v :: t → ready s (.xres a) = true →
          ∃ u, exec (.xres a) s = .next u ∧ writesReg (s.setCore w.i { k with r1 := t }) u w a v) ∧
        (k.r1 = [] → givesReg s (.xres a) a (BitVec.allOnes 64))) ∧
  (∀ (s : State) (cl row b : Nat), cl < 512 → row < 8 →
      let i := coreIn cl row
      let base := localBase i
      let by_ (m : List Host.Cell) (a n : Nat) : List Byte := rdBs m (base + a) n
      let r := parseX (by_ s.mem b 64)
      let bw := r.par % 64 + 1
      let words := (r.len * bw + 31) / 32
      let ev (fn : Nat) : Instr := match fn with
        | 0 => .blockHash cl
        | 1 => .snapshotDelta cl
        | 2 => .fieldPack cl
        | 3 => .fieldUnpack cl
        | _ => .crc32c cl
      let done (t : State) (st v : Nat) : Prop := exec (ev r.fn) s = .next t ∧ (t.coreAt i).q1 = (s.coreAt i).q1.tail ∧
        (t.clusterAt cl).xrun = some ⟨row, BitVec.ofNat 64 (r.fn * 2 ^ 56 + st * 2 ^ 52 + r.tag * 2 ^ 32 + v % 2 ^ 32)⟩ ∧
        (t.clusterAt cl).xlast = row
      let keeps (t : State) (a n : Nat) : Prop := ∀ x, x < base + a ∨ base + a + n ≤ x → rdB t.mem x = rdB s.mem x
      (s.bad = [] → xNext s cl = some (row, b) → r.fn ≤ 4 →
        (r.form = false → ∃ t, done t 1 0 ∧ t.mem = s.mem) ∧
        (∀ a, r.form = true → r.outside = some a → ∃ t, done t 2 a ∧ t.mem = s.mem) ∧
        (r.form = true → r.outside = none →
          (r.fn = 0 → ∃ t, done t 0 0 ∧ by_ t.mem r.dst 16 = blake2s (by_ s.mem r.src r.len) ∧ keeps t r.dst 16) ∧
          (r.fn = 1 → (r.dst + (r.len + 31) / 32 * 4 ≤ r.aux ∨ r.aux + 16 * r.len ≤ r.dst) →
              (r.src + r.len * 2 ^ r.par ≤ r.aux ∨ r.aux + 16 * r.len ≤ r.src) →
            let h (j : Nat) : List Byte := blake2s (by_ s.mem (r.src + j * 2 ^ r.par) (2 ^ r.par))
            let ch (j : Nat) : Bool := h j != by_ s.mem (r.aux + 16 * j) 16
            ∃ t, done t 0 (((List.range r.len).filter ch).length) ∧
              (∀ j, j < r.len → by_ t.mem (r.aux + 16 * j) 16 = h j ∧
                leNat (by_ t.mem r.dst ((r.len + 31) / 32 * 4)) / 2 ^ j % 2 = b2n (ch j)) ∧
              leNat (by_ t.mem r.dst ((r.len + 31) / 32 * 4)) < 2 ^ r.len) ∧
          (r.fn = 2 → ∃ t, done t 0 words ∧ keeps t r.dst (4 * words) ∧ leNat (by_ t.mem r.dst (4 * words)) < 2 ^ (r.len * bw) ∧
            ∀ e, e < r.len → leNat (by_ t.mem r.dst (4 * words)) / 2 ^ (bw * e) % 2 ^ bw = leNat (by_ s.mem (r.src + 8 * e) 8) % 2 ^ bw) ∧
          (r.fn = 3 → ∃ t, done t 0 r.len ∧ keeps t r.dst (8 * r.len) ∧ ∀ e, e < r.len →
            let f := leNat (by_ s.mem r.src (4 * words)) / 2 ^ (bw * e) % 2 ^ bw
            leNat (by_ t.mem (r.dst + 8 * e) 8) = if 64 ≤ r.par ∧ 2 ^ (bw - 1) ≤ f then 2 ^ 64 + f - 2 ^ bw else f) ∧
          (r.fn = 4 → ∃ t, done t 0 (~~~((by_ s.mem r.src r.len).foldl crcByte (~~~(BitVec.ofNat 32 r.aux)))).toNat ∧ t.mem = s.mem))) ∧
      (∀ x, (s.clusterAt cl).xrun = some x → x.row = row → x.elem.toNat / 2 ^ 52 % 16 ≠ 3 → ∃ t, exec (.transformComplete cl) s = .next t ∧
        (t.clusterAt cl).xrun = none ∧ (t.coreAt i).r1 = (s.coreAt i).r1 ++ [x.elem] ∧ (t.coreAt i).ctl.latch = true ∧ t.mem = s.mem))

/-! ## The lifeguard (spec/21, spec/22) -/

/-- R363 to R371: the statuses with which `lgbind` is turned away, and its bind message; `lgunbind`; `lgnext` takes a record and goes to its
handler; `lgok`, `lgflag` and `lglim` send their messages; a core in no binding keeps everything.
Clauses of it rest on readings and choices of the model: log entry 49. -/
def Obligations.LifeguardInstructions : Prop :=
  ∀ (s : State) (a b : Reg),
    let w := self s
    let k := s.coreAt w.i
    let gb := s.rd w b
    kindOf w.i = .worker → s.curCtx = 0 →
      (∀ bs, blockRead s w gb 128 = .ok bs →
        (lgBlockOk bs = false → givesReg s (.lgbind a b) a 1) ∧
        (lgBlockOk bs = true → lgTarget s w.i bs = none → givesReg s (.lgbind a b) a 2) ∧
        (∀ j, lgBlockOk bs = true → lgTarget s w.i bs = some j →
          ((s.coreAt j).belongs = true → givesReg s (.lgbind a b) a 3) ∧
          ((s.coreAt j).belongs = false → k.belongs = true → givesReg s (.lgbind a b) a 4) ∧
          ((s.coreAt j).belongs = false → k.belongs = false → ready s (.lgbind a b) = true →
            ∃ t, exec (.lgbind a b) s = .next t ∧ (t.coreAt w.i).lgWait = some ⟨true, a, s.fall w⟩ ∧
              (t.coreAt w.i).guard.map (fun g => (g.peer, g.accepted, g.dispatched)) = some (j, 0, 0) ∧ t.mem = s.mem ∧ t.pcOf w = s.pcOf w ∧
              t.mesh.length = s.mesh.length + 1 ∧ (t.mesh.getLast?.map (·.core)) = some w.i))) ∧
      (k.guard = none →
        givesReg s (.lgunbind a) a (BitVec.allOnes 64) ∧
        (ready s (.lgnext a b) = true → ∃ t, exec (.lgnext a b) s = .next t ∧ writesReg (s.wr w a (BitVec.allOnes 64)) t w b 0) ∧
        givesState s .lgok s ∧ givesState s (.lgflag a) s ∧ givesReg s (.lglim a b) a 0) ∧
      givesState s (.lgemit a b) s ∧ givesState s .contain s ∧
      (∀ g, k.guard = some g → k.lg.v = true → k.lg.role = true →
        (∀ n, g.final = some n → givesReg s (.lgunbind a) a (BitVec.ofNat 64 n)) ∧
        (g.final = none → ready s (.lgunbind a) = true → ∃ t, exec (.lgunbind a) s = .next t ∧
          (t.coreAt w.i).lgWait = some ⟨false, a, s.fall w⟩ ∧ (t.mesh.getLast?.map (fun p => (p.core, p.kind))) = some (w.i, .unbind g.peer)) ∧
        (allDone s w = true →
          givesState s .lgok (send (s.setCore w.i { k with lg := { k.lg with cons := k.lg.seq } }) w.i 0 0 (.publish g.peer k.lg.seq)) ∧
          givesState s (.lgflag a) (send s w.i 0 0 (.flag g.peer (BitVec.ofNat 32 (s.rd w a).toNat)))) ∧
        (let n := min (max gb.toNat 16) 65535
         ready s (.lglim a b) = true → ∃ t, exec (.lglim a b) s = .next t ∧
          writesReg (send (s.setCore w.i { k with lg := { k.lg with lim := n } }) w.i 0 0 (.limit g.peer n)) t w a (BitVec.ofNat 64 k.lg.lim)) ∧
        (∀ v rest, k.r3 = v :: rest → g.final = none → s.bad = [] → ready s (.lgnext a b) = true → a ≠ b →
          let n := (k.lg.seq + 1).toNat
          let adr := BitVec.ofNat 64 (leNat (rdBs s.mem (localBase w.i + (g.ring + 16 * (n % (2 ^ g.lring / 16)) + 8)) 8))
          let h := g.hs.getD (v.toNat / 2 ^ 60) 0
          ∃ t, exec (.lgnext a b) s = .next t ∧ (t.coreAt w.i).r3 = rest ∧ (t.coreAt w.i).lg.seq = k.lg.seq + 1 ∧ t.mem = s.mem ∧
            t.rd w a = (if a = 0 then 0 else v) ∧ t.rd w b = (if b = 0 then 0 else adr) ∧ regsExcept s t w [a, b] ∧
            (h ≠ 0 → t.pcOf w = h) ∧ (h = 0 → fellOn s t w)))

/-- R349 to R351, R354, R358, R369: a bound worker's `lgemit` sends its record under the next number; at a containment point it sends a CONTAIN
record and waits, goes on once the lifeguard has published that record, and takes `guard` where a violation was flagged; either way the wait
ends. At the lag limit `lgemit` does not issue.
Clauses of it rest on readings and choices of the model: log entry 95. -/
def Obligations.BoundWorker : Prop :=
  ∀ (s : State) (a b : Reg) (bd : Bound),
    let w := self s
    let k := s.coreAt w.i
    kindOf w.i = .worker → s.curCtx = 0 → k.bound = some bd → k.gang = none → runs k 0 = true → k.ctl.pend = [] →
    acquiring s w = false → divHolds s w (.lgemit a b) (namedRegs w (.lgemit a b)) = false → s.cur.refused = none → k.seqr.toCap = 0 → k.slip = none → bd.openRec = none →
    permit w (.lgemit a b) = none → permit w .contain = none →
      (bd.mask.getLsbD 12 = true → lagFull k = false → ∃ t, exec (.lgemit a b) s = .next t ∧ (t.coreAt w.i).lg.seq = k.lg.seq + 1 ∧
        t.mem = s.mem ∧ regsExcept s t w [] ∧ fellOn s t w ∧ (t.mesh.getLast?.map (·.kind)) = some (.record bd.peer (k.lg.seq + 1).toNat
          (recHdr 12 false 0 0 0 ((s.rd w b).toNat % 2 ^ 44)) (s.rd w a))) ∧
      (bd.mask.getLsbD 12 = true → lagFull k = true → exec (.lgemit a b) s = .next s) ∧
      (mget bd.waits 0 = none → ∃ t, exec .contain s = .next t ∧ t.pcOf w = s.pcOf w ∧ t.mem = s.mem ∧ regsExcept s t w [] ∧
        (t.coreAt w.i).lg.seq = k.lg.seq + 1 ∧ ((t.coreAt w.i).bound.bind (fun b => mget b.waits 0)) = some (k.lg.seq + 1).toNat ∧
        (t.mesh.getLast?.map (·.kind)) = some (.record bd.peer (k.lg.seq + 1).toNat (recHdr 11 false 0 0 0 2) (s.pcOf w))) ∧
      (∀ n, mget bd.waits 0 = some n →
        let reached := (k.lg.cons - BitVec.ofNat 32 n).toNat < 2 ^ 31
        (¬reached → exec .contain s = .next s) ∧
        (reached → k.lg.gp = false → ∃ t, exec .contain s = .next t ∧ regsExcept s t w [] ∧ fellOn s t w ∧ t.mem = s.mem ∧
          ((t.coreAt w.i).bound.bind (fun b => mget b.waits 0)) = none) ∧
        (reached → k.lg.gp = true → k.quar = none → trapOpen s w.i → ∃ t, exec .contain s = .next t ∧ (t.coreAt w.i).lg.gp = false ∧
          ((t.coreAt w.i).bound.bind (fun b => mget b.waits 0)) = none ∧
          (vget (t.coreAt w.i).banks (trapLevel s w.i) {}).cause = 0x0B ∧
          (vget (t.coreAt w.i).banks (trapLevel s w.i) {}).val = BitVec.ofNat 64 bd.flagSeq ∧
          (vget (t.coreAt w.i).banks (trapLevel s w.i) {}).pc = s.pcOf w))

/-- R348, R352, R359, R364, R365, R367, R370: what the messages between the two cores of a binding do on arrival, in the order in which they were
sent, and not into a domain in an exchange phase (R48). R351, R353, R355, R356, R374: an open record whose first access has landed closes on the
eighth cycle after its last access; a record is written into the ring in sequence order, and dropped after the final one; the dispatcher places
the next record, whose stamp holds it back or not, in port 3, and a ring of records that hold one another goes whole.
Clauses of it rest on readings and choices of the model: log entries 50, 51 and 95. -/
def Obligations.LifeguardMessages : Prop :=
  (∀ (s : State) (j : Nat) (p : Packet), s.mesh[j]? = some p →
    ((lgFirst s j p = false ∨ p.kind.lgTo.any (heldAtEdge s p.core) = true) →
      ∀ e ∈ [Instr.bindMessage j, .bindAck j, .unbindMessage j, .unbindAck j, .publicationArrival j, .flagArrival j, .limitMessage j],
        exec e s = .next s) ∧
    (lgFirst s j p = true → p.kind.lgTo.any (heldAtEdge s p.core) = false →
      (∀ i mask ring lring zone lim, p.kind = .bind i mask ring lring zone lim →
        let c := s.coreAt i
        ∃ t, exec (.bindMessage j) s = .next t ∧ t.mem = s.mem ∧
          (t.mesh.getLast?.map (fun q => (q.core, q.kind))) = some (i, .bindAck p.core (if c.dead then 5 else if c.belongs then 3 else 0)) ∧
          (c.dead = false → c.belongs = false → (t.coreAt i).bound = some { peer := p.core, mask, ring, lring } ∧
            (t.coreAt i).lg.v = true ∧ (t.coreAt i).lg.role = false ∧ (t.coreAt i).lg.lim = lim ∧ (t.coreAt i).lg.seq = 0 ∧ (t.coreAt i).lg.cons = 0) ∧
          (c.dead = true ∨ c.belongs = true → t.cores = s.cores)) ∧
      (∀ i st x, p.kind = .bindAck i st → (s.coreAt i).lgWait = some x →
        let w : Who := ⟨i, 0, i⟩
        ∃ t, exec (.bindAck j) s = .next t ∧ (t.coreAt i).lgWait = none ∧ t.rd w x.rd = (if x.rd = 0 then 0 else BitVec.ofNat 64 st) ∧
          regsExcept s t w [x.rd] ∧ (t.ctxAt w).pc = (loopEnd (s.ctxAt w).loops x.next).2 ∧ t.mem = s.mem ∧
          (st ≠ 0 → (t.coreAt i).guard = none) ∧
          (st = 0 → (s.coreAt p.core).bound.isSome = true → (t.coreAt i).lg.v = true ∧ (t.coreAt i).lg.role = true)) ∧
      (∀ i b, p.kind = .unbind i → (s.coreAt i).bound = some b → (s.coreAt i).dead = false → recsOut s i = false → b.openRec = none →
        (s.coreAt i).lg.gp = false → ∃ t, exec (.unbindMessage j) s = .next t ∧ (t.coreAt i).bound = none ∧ (t.coreAt i).lg.v = false ∧
          (t.mesh.getLast?.map (fun q => (q.core, q.kind))) = some (i, .unbindAck p.core (some (s.coreAt i).lg.seq.toNat)) ∧ t.mem = s.mem ∧
          (∀ e ∈ t.tags, e.2.1 = i → e.2 = (0, 0)) ∧ ∀ q ∈ t.mesh, q.core = i → q.tag.1 = i → q.tag = (0, 0)) ∧
      (∀ i b, p.kind = .unbind i → (s.coreAt i).bound = some b → (s.coreAt i).dead = false → recsOut s i = true →
        exec (.unbindMessage j) s = .next s) ∧
      (∀ i, p.kind = .unbind i → ((s.coreAt i).bound = none ∨ (s.coreAt i).dead = true) →
        ∃ t, exec (.unbindMessage j) s = .next t ∧ (t.coreAt i).bound = none ∧ t.mem = s.mem ∧
          (t.mesh.getLast?.map (fun q => (q.core, q.kind))) = some (i, .unbindAck p.core none)) ∧
      (∀ i fin x g, p.kind = .unbindAck i fin → (s.coreAt i).lgWait = some x → (s.coreAt i).guard = some g →
        let w : Who := ⟨i, 0, i⟩
        let n := fin.getD g.accepted
        ∃ t, exec (.unbindAck j) s = .next t ∧ (t.coreAt i).lgWait = none ∧ t.mem = s.mem ∧
          t.rd w x.rd = (if x.rd = 0 then 0 else BitVec.ofNat 64 n) ∧ regsExcept s t w [x.rd] ∧
          (n ≠ (s.coreAt i).lg.seq.toNat → (t.coreAt i).lg.drn = true ∧ (t.coreAt i).guard = some { g with final := some n }) ∧
          (n = (s.coreAt i).lg.seq.toNat → (t.coreAt i).lg.v = false ∧ (t.coreAt i).guard = none)) ∧
      (∀ i b, (s.coreAt i).bound = some b → b.peer = p.core →
        let c := s.coreAt i
        (∀ n, p.kind = .publish i n → exec (.publicationArrival j) s = .next ((dropPkt s j).setCore i { c with lg := { c.lg with cons := n } })) ∧
        (∀ n, p.kind = .flag i n → exec (.flagArrival j) s = .next ((dropPkt s j).setCore i (if c.lg.gp then c
          else { c with lg := { c.lg with gp := true }, bound := some { b with flagSeq := n.toNat } }))) ∧
        (∀ n, p.kind = .limit i n → exec (.limitMessage j) s = .next ((dropPkt s j).setCore i { c with lg := { c.lg with lim := n } }))))) ∧
  ((∀ (s : State) (i : Nat) (b : Bound) (r : OpenRec), i < 4096 → (s.coreAt i).bound = some b → b.openRec = some r →
      (r.tagged = true → r.cyc + 8 ≤ s.cyc → ∃ t, exec (.recordCloseTimeout i) s = .next t ∧ (t.coreAt i).bound = some { b with openRec := none } ∧ t.mem = s.mem ∧
        (t.mesh.getLast?.map (·.kind)) = some (.record b.peer r.seq (recHdr r.typ r.sp r.ctx r.sz r.rep r.info) r.addr)) ∧
      (r.tagged = false ∨ s.cyc < r.cyc + 8 → exec (.recordCloseTimeout i) s = .next s)) ∧
    (∀ (s : State) (j l n : Nat) (hdr addr : Word) (p : Packet) (g : Guardian), s.mesh[j]? = some p → p.kind = .record l n hdr addr →
      (s.coreAt l).guard = some g → g.peer = p.core → heldAtEdge s p.core l = false →
      (g.final = some g.accepted → exec (.recordRingWrite j) s = .next (dropPkt s j)) ∧
      (g.final ≠ some g.accepted →
      let f := localBase l + (g.ring + 16 * (n % (2 ^ g.lring / 16)))
      ((g.accepted + 1) % 2 ^ 32 = n → ∃ t, exec (.recordRingWrite j) s = .next t ∧ (t.coreAt l).guard = some { g with accepted := n } ∧
        (∀ e, e < 8 → rdB t.mem (f + e) = BitVec.ofNat 8 (hdr.toNat / 256 ^ e) ∧ rdB t.mem (f + 8 + e) = BitVec.ofNat 8 (addr.toNat / 256 ^ e)) ∧
        ∀ x, x < f ∨ f + 16 ≤ x → rdB t.mem x = rdB s.mem x) ∧
      ((g.accepted + 1) % 2 ^ 32 ≠ n → exec (.recordRingWrite j) s = .next s))) ∧
    (∀ (s : State) (l : Nat) (g : Guardian) (hdr : Word), l < 4096 → nextHdr s l = some (g, hdr) →
      (inPhase s l = true → exec (.recordDispatch l) s = .next s) ∧
      (inPhase s l = false →
      (stampOf s l g hdr = .free → ∃ t, exec (.recordDispatch l) s = .next t ∧ (t.coreAt l).r3 = (s.coreAt l).r3 ++ [hdr] ∧
        (t.coreAt l).guard = some { g with dispatched := (g.dispatched + 1) % 2 ^ 32, holding := false } ∧ (t.coreAt l).ctl.latch = true ∧ t.mem = s.mem) ∧
      (stampOf s l g hdr = .held → exec (.recordDispatch l) s = .next (s.setCore l { s.coreAt l with guard := some { g with holding := true } })) ∧
      (∀ m, stampOf s l g hdr = .unordered m → ∃ t, exec (.recordDispatch l) s = .next t ∧ t.mem = s.mem ∧
        (t.coreAt l).r3 = (s.coreAt l).r3 ++ [hdr ||| BitVec.ofNat 64 (2 ^ 58)] ∧ (t.coreAt l).ctl.latch = true ∧
        ((s.cores.map (·.1)).Nodup → ∀ e ∈ ringOf (hold s l) l,
          (t.coreAt e.1).r3 = (s.coreAt e.1).r3 ++ [e.2 ||| BitVec.ofNat 64 (2 ^ 58)] ∧
          (t.coreAt e.1).guard.map (·.holding) = some false))) ∧
      (hdr.toNat / 2 ^ 60 ≠ 0 → hdr.toNat / 2 ^ 60 ≠ 2 → stampOf s l g hdr = .free)))

/-! ## Port engines (spec/23 R377 to R394) -/

/-- R390, R391, R389, R127: `npost` reads its block, pushes the command with the next tag and returns the tag, stalls or wedges when full, and
raises `window`, `priv`, `align` in this order; `npoll` takes the oldest element of a tag, raises `porttime` for a failure without `nt`, and
else says whether the command is still under way.
Clauses of it rest on readings and choices of the model: log entry 35. -/
def Obligations.PortInstructions : Prop :=
  ∀ (s : State) (a b : Reg),
    let w := self s
    let k := s.coreAt w.i
    let gb := s.rd w b
    let pc := s.pcOf w
    let tag := if k.ntag + 1 = 65536 then 1 else k.ntag + 1
    let want := gb.toNat % 65536
    let tagOf (e : PElem) := e.val.toNat / 2 ^ 32 % 2 ^ 16
    (kindOf w.i ≠ .memory →
      (0x40000 < gb.toNat + 64 → givesTrap s (.npost a b) 4 gb pc) ∧
      (gb.toNat + 64 ≤ 0x40000 → guardOk k .load gb.toNat 64 = false → givesTrap s (.npost a b) 2 gb pc) ∧
      (gb.toNat + 64 ≤ 0x40000 → guardOk k .load gb.toNat 64 = true → gb.toNat % 64 ≠ 0 → givesTrap s (.npost a b) 3 gb pc) ∧
      (gb.toNat + 64 ≤ 0x40000 → guardOk k .load gb.toNat 64 = true → gb.toNat % 64 = 0 → sliceBad s w gb.toNat 64 = none →
        (k.q4.length < 4 → ready s (.npost a b) = true → ∃ t, exec (.npost a b) s = .next t ∧
          writesReg (s.modCore w.i (fun k => { k with
              ntag := tag
              q4 := k.q4 ++ [{ blk := sliceRd s w gb.toNat 64, tag := tag, deps := releaseDeps s w }] })) t w a (BitVec.ofNat 64 tag)) ∧
        (4 ≤ k.q4.length → k.r4.length < 4 → ready s (.npost a b) = true → exec (.npost a b) s = .next s) ∧
        (4 ≤ k.q4.length → 4 ≤ k.r4.length → givesTrap s (.npost a b) 7 4 pc))) ∧
    (∀ j e, k.r4[j]? = some e → tagOf e = want → (∀ e' ∈ k.r4.take j, tagOf e' ≠ want) →
      let s1 := s.modCore w.i (fun k => { k with r4 := k.r4.eraseIdx j })
      let st := e.val.toNat / 2 ^ 52 % 16
      (e.nt = true ∨ st < 2 ∨ 4 < st → ready s (.npoll a b) = true → ∃ t, exec (.npoll a b) s = .next t ∧ writesReg s1 t w a e.val) ∧
      (e.nt = false → 2 ≤ st → st ≤ 4 → ready s (.npoll a b) = true → s.curCtx = 0 → k.slip = none → k.quar = none → trapOpen s w.i →
        ∃ t, exec (.npoll a b) s = .next t ∧ trapTaken s1 t w.i (trapLevel s w.i) 0x13 e.val pc)) ∧
    ((∀ e ∈ k.r4, tagOf e ≠ want) →
      givesReg s (.npoll a b) a (BitVec.ofNat 64 (2 ^ 64 - (if portBusy s w.i want then 1 else 2))))

/-- R388, R385, R386, R394: a port engine checks form, group and window in this order, a group number that names no entry being status 6; a message
and a chunk leave in packets that keep the other side's `mss` (R380); a collective takes the next round of its group since the launch and sends
chunk `rank`; a group entry is installed; the element of a finished command enters the result FIFO and wakes the core. No payload of a later round
waits when a collective starts.
Clauses of it rest on readings and choices of the model: log entries 30, 61 and 62. -/
def Obligations.PortCommands : Prop :=
  (∀ (s : State) (p i : Nat) (c : PCmd) (q : List PCmd), p < 2 → i < 8200 → (s.coreAt i).q4 = c :: q → b2n (Config.commandPort i) = p →
    depsDone s c.deps = true → pendCount s i 4 < 16 → heldAtEdge s 9000 i = false →
    (c.coll = true → runningOn s p c.gid = none ∧ ∀ e ∈ (s.portAt p).conns, e.2.held = []) →
    let s1 := s.modCore i (fun k => { k with q4 := q })
    let row : Instr := if c.op = 1 then .allReduce p i else if c.op = 2 then .allGather p i else if c.op = 3 then .setGroup p i else .portMessage p i
    let ends (st : Nat) : Prop := exec row s = .next (s1.modPort p (fun q => { q with cmds := q.cmds ++ [{ core := i, cmd := c, fin := some (st, 0) }] }))
    let src := portRead s i c.srcA (c.len * c.esz)
    (c.form = false → ends 1) ∧
    (c.form = true →
      (c.op = 0 → 0x40000 < c.srcA + c.len → ends 5) ∧
      (c.op = 0 → c.srcA + c.len ≤ 0x40000 → carries s p c.conn = false → ends 4) ∧
      (∀ k, c.op = 0 → c.srcA + c.len ≤ 0x40000 → s.connAt p c.conn = some k → k.live = true →
        let sz := if k.st = .opened then k.mss else 256
        let ps := pieces sz c.len (portRead s i c.srcA c.len)
        ∃ t, exec row s = .next t ∧ queuedOn t p c.conn = queuedOn s p c.conn ++ ps.map Msg.raw ∧ t.cores = s1.cores ∧ t.mem = s.mem ∧
          (t.portAt p).cmds = (s.portAt p).cmds ++ [{ core := i, cmd := c, lastPsn := psnAdd k.nxt (k.wait.length + ps.length - 1) }]) ∧
      (c.op = 3 → 0x40000 < c.srcA + 64 → ends 5) ∧
      (c.op = 3 → c.srcA + 64 ≤ 0x40000 → parseGroup c.gid (portRead s i c.srcA 64) = none → ends 1) ∧
      (c.op = 3 → c.srcA + 64 ≤ 0x40000 → 64 ≤ c.gid → ends 1) ∧
      (∀ g, c.op = 3 → c.srcA + 64 ≤ 0x40000 → parseGroup c.gid (portRead s1 i c.srcA 64) = some g →
        exec row s = .next (s1.modPort p (fun q => { q with
          groups := mset q.groups c.gid g
          cmds := q.cmds ++ [{ core := i, cmd := c, fin := some (0, 0) }] }))) ∧
      (c.coll = true → mget (s.portAt p).groups c.gid = none → ends 6) ∧
      (∀ g, c.coll = true → mget (s.portAt p).groups c.gid = some g → 2 ≤ g.n → g.rank < g.n →
        let n := c.len * c.esz
        let span := if c.op = 2 then g.n * n else n
        let nx := (g.rank + 1) % g.n
        let conn := g.peers.getD nx 0
        let launch := (taskOf s i).map (fun e => (e.2.vm, e.2.num))
        let rd := 1 + (s.portAt p).started c.gid launch
        (0x40000 < c.srcA + n ∨ 0x40000 < c.dstA + span → ends 5) ∧
        (c.srcA + n ≤ 0x40000 → c.dstA + span ≤ 0x40000 → s.bad = [] → (s.coreAt i).slip = none → carries s p conn = true →
          let o := min (g.rank * ((c.len + g.n - 1) / g.n)) c.len
          let o' := min ((g.rank + 1) * ((c.len + g.n - 1) / g.n)) c.len
          let data := if c.op = 2 then src else (src.drop (o * c.esz)).take ((o' - o) * c.esz)
          ∃ t r, exec row s = .next t ∧ (t.portAt p).cmds = (s.portAt p).cmds ++ [r] ∧
            r.core = i ∧ r.cmd = c ∧ r.group = some g ∧ r.round = rd ∧ r.step = 0 ∧ r.stepAt = s.cyc ∧ r.fin = none ∧
            (t.portAt p).started c.gid launch = rd ∧ (t.portAt p).rounds.head? = some (c.gid, launch, rd) ∧
            (∀ gid o, (gid, o) ≠ (c.gid, launch) → (t.portAt p).started gid o = (s.portAt p).started gid o) ∧ t.cores = s1.cores ∧ r.part = [] ∧
            queuedOn t p conn = queuedOn s p conn ++ cutOn s p conn (.chunk c.gid rd 0 data) ∧
            ∀ x, x < localBase i + c.dstA ∨ localBase i + c.dstA + span ≤ x → rdB t.mem x = rdB s.mem x)))) ∧
  (∀ (s : State) (p j : Nat) (r : PRun) (f : Nat × Nat), p < 2 → (s.portAt p).cmds[j]? = some r →
    (r.fin = some f ∨ (r.fin = none ∧ r.cmd.op = 0 ∧ f = (0, 0) ∧ ∃ k, s.connAt p r.cmd.conn = some k ∧ k.acked r.lastPsn = true)) →
    let kind := if 3 < r.cmd.op then 0xFE else r.cmd.op
    let e : PElem := { val := BitVec.ofNat 64 (kind * 2 ^ 56 + f.1 * 2 ^ 52 + r.cmd.tag * 2 ^ 32 + f.2 % 2 ^ 32), nt := r.cmd.nt }
    ((s.coreAt r.core).r4.length < 4 → exec (.portCommandComplete p j) s = .next (wake ((s.modPort p (fun q => { q with cmds := q.cmds.eraseIdx j })).modCore
      r.core (fun k => { k with r4 := k.r4 ++ [e] })) r.core)) ∧
    (4 ≤ (s.coreAt r.core).r4.length → exec (.portCommandComplete p j) s = .next s))

/-- R386, R387, R393, R394: the chunk of the step that runs, once all its parts are there, is reduced, received operand on the left, or stored, and the
next step starts, the packets of one connection being taken in order; a chunk or reset of another round or step is held or dropped, as is one from another connection or of another size; a step that times out, or a neighbour's reset, ends the command and tells both neighbours.
Clauses of it rest on readings and choices of the model: log entry 62. -/
def Obligations.CollectiveRounds : Prop :=
  ∀ (s : State) (p gid : Nat) (r : PRun) (g : Group), p < 2 →
    let q := s.portAt p
    let pv := (g.rank + g.n - 1) % g.n
    let nx := (g.rank + 1) % g.n
    let cp := g.peers.getD pv 0
    let cn := g.peers.getD nx 0
    let erased (j : Nat) : State := s.modPort p (fun q => { q with inbox := q.inbox.eraseIdx j })
    let tells (t : State) (lost : Nat) : Prop := ∀ c, c = cp ∨ c = cn → carries s p c = true → Msg.creset r.cmd.gid r.round lost ∈ queuedOn t p c
    let finds (f : Nat × Nat) (l : List PRun) := l.map (fun x => if x.fin.isNone && x.cmd.coll && x.cmd.gid == gid then { r with fin := some f } else x)
    (∀ j c rd st data, q.inbox[j]? = some (c, .chunk gid rd st data) → collFirst q j c = false → exec (.collectiveChunkArrival p j) s = .next s) ∧
    (∀ j c rd lost, q.inbox[j]? = some (c, .creset gid rd lost) → collFirst q j c = false → exec (.collectiveResetArrival p j) s = .next s) ∧
    (∀ j c rd st data, q.inbox[j]? = some (c, .chunk gid rd st data) → collFirst q j c = true →
      (runningOn s p gid = some r → r.group = some g →
        let (o, n) := r.cmd.chunk g (r.cmd.writes g r.step)
        let f := localBase r.core + r.cmd.dstA
        (rd < r.round → exec (.collectiveChunkArrival p j) s = .next (erased j)) ∧
        (r.round < rd ∨ r.step < st → r.round ≤ rd → exec (.collectiveChunkArrival p j) s = .next s) ∧
        let all := r.part ++ data
        let mine : Prop := rd = r.round ∧ st = r.step ∧ c = cp ∧ (data ≠ [] ∨ n = 0)
        (rd = r.round → st ≤ r.step → (st < r.step ∨ c ≠ cp ∨ n < all.length ∨ (data = [] ∧ n ≠ 0)) →
          exec (.collectiveChunkArrival p j) s = .next (erased j)) ∧
        (mine → all.length ≤ n → heldAtEdge s 9000 r.core = true → exec (.collectiveChunkArrival p j) s = .next s) ∧
        (mine → all.length < n → heldAtEdge s 9000 r.core = false → exec (.collectiveChunkArrival p j) s = .next
          ((erased j).modPort p (fun q => { q with cmds := q.cmds.map (fun x =>
            if x.fin.isNone && x.cmd.coll && x.cmd.gid == gid then { r with part := all } else x) }))) ∧
        (mine → all.length = n → heldAtEdge s 9000 r.core = false → s.bad = [] → (s.coreAt r.core).slip = none →
          let own := portRead (copyLate s r (touches r.cmd.dstA o n)).1 r.core (r.cmd.dstA + o) n
          let new := if r.cmd.op = 1 ∧ r.step < g.n - 1 then reduceBytes r.cmd.ty r.cmd.rop r.cmd.esz all own else all
          ∃ t r', exec (.collectiveChunkArrival p j) s = .next t ∧ (t.portAt p).inbox = q.inbox.eraseIdx j ∧
            (t.portAt p).cmds = q.cmds.map (fun x => if x.fin.isNone && x.cmd.coll && x.cmd.gid == gid then r' else x) ∧
            r'.core = r.core ∧ r'.cmd = r.cmd ∧ r'.round = r.round ∧ r'.step = r.step + 1 ∧ r'.part = [] ∧
            (r.cmd.steps g ≤ r.step + 1 → r'.fin = some (0, 0)) ∧ (r.step + 1 < r.cmd.steps g → carries s p cn = true → r'.fin = none) ∧
            ∀ e, e < new.length → e < n → rdB t.mem (f + o + e) = new.getD e 0)) ∧
      (runningOn s p gid = none → rd ≤ roundOf s p gid → exec (.collectiveChunkArrival p j) s = .next (erased j)) ∧
      (runningOn s p gid = none → roundOf s p gid < rd → exec (.collectiveChunkArrival p j) s = .next s)) ∧
    (∀ j, q.cmds[j]? = some r → r.group = some g → r.fin = none → r.stepAt + g.gto * 600 ≤ s.cyc →
      let ws := waiting s p r g
      (ws ≠ [] → r.want g ≤ r.part.length + ws.flatten.length → exec (.collectiveStepTimeout p j) s = .next s) ∧
      ((ws = [] ∨ r.part.length + ws.flatten.length < r.want g) →
      ∃ t, exec (.collectiveStepTimeout p j) s = .next t ∧ t.mem = s.mem ∧ t.cores = s.cores ∧ tells t pv ∧
        (t.portAt p).cmds = q.cmds.set j { r with fin := some (2, r.step * 2 ^ 16 + pv * 2 ^ 8 + pv) })) ∧
    (∀ j c lost, q.inbox[j]? = some (c, .creset gid r.round lost) → collFirst q j c = true → runningOn s p gid = some r → r.group = some g →
      (c = cp ∨ c = cn →
        ∃ t, exec (.collectiveResetArrival p j) s = .next t ∧ t.mem = s.mem ∧ t.cores = s.cores ∧ tells t lost ∧
          (t.portAt p).cmds = finds (3, r.step * 2 ^ 16 + lost % 256 * 2 ^ 8 + (if c = cp then pv else nx)) q.cmds) ∧
      (c ≠ cp → c ≠ cn → exec (.collectiveResetArrival p j) s = .next (erased j))) ∧
    (∀ x y, reduceElem 0x05 0 x y = intBits 32 (intOf 32 true x + intOf 32 true y) ∧
      reduceElem 0x05 1 x y = (if intOf 32 true y < intOf 32 true x then y else x) ∧
      reduceElem 0x05 2 x y = (if intOf 32 true x < intOf 32 true y then y else x))

/-- R377, R378, R379: a frame that Table 23.1 or 23.2 does not allow is dropped, and an admitted Milium packet waits; data is delivered in `psn`
order and once, what lies ahead is kept, as is a collective packet of a later round (R394), and acks are sent as R379 says; the answer to a load
of the system window lands at its width and completes it (R382); `cack` removes what it covers and sets `rto` back, and the last ack lets a close
that the peer asked for be answered (R380); an expiry sends again and doubles `rto`, and the eighth fails the connection with a reset; a link
changes.
Clauses of it rest on readings and choices of the model: log entries 52, 55 and 62. -/
def Obligations.MiliumData : Prop :=
  ∀ (s : State) (p : Nat), p < 2 →
    let q := s.portAt p
    (∀ f, q.up.any id = true →
      (f.length < 64 ∨ 9216 < f.length ∨ frameParse f = none → exec (.frameReceive p f) s = .next (s.modPort p (fun q => { q with drops := q.drops + 1 }))) ∧
      (∀ src dport pl, frameParse f = some (src, dport, pl) →
        (q.mport = 0 ∨ dport ≠ q.mport ∨ pl.length < 24 ∨ 24 + 8192 < pl.length ∨ beNat (pl.take 1) ≠ 1 ∨ 4 < beNat ((pl.drop 1).take 1) →
          exec (.frameReceive p f) s = .next s) ∧
        (∀ m, q.mport ≠ 0 → dport = q.mport → miliumParse src pl = some m →
          exec (.frameReceive p f) s = .next (s.modPort p (fun q => { q with rxq := q.rxq ++ [m] }))))) ∧
    (∀ l (up : Bool), l < 2 → (l = 0 ∨ Config.fuseSplit p = true) →
      exec (.linkStateChange p l up) s = .next (s.modPort p (fun q => { q with up := q.up.set l up }))) ∧
    (∀ m r, q.rxq = m :: r →
      let s1 := s.modPort p (fun q => { q with rxq := r })
      let c := m.cid
      let unknown : Out := { port := p, dest := m.from_, hdr := { typ := 4, cid := 0xFFFFFFFF }, body := .bytes (natLE 4 2) }
      ((∀ k, s.connAt p c = some k → k.open = false) →
        (m.typ = 0 → exec (.miliumData p) s = .next (emit s1 unknown)) ∧ (m.typ = 1 → exec (.miliumAck p) s = .next (emit s1 unknown))) ∧
      (∀ k, s.connAt p c = some k → k.open = true → k.closeReq = true → m.typ = 1 → k.wait = [] → k.held = [] →
        (∀ e ∈ k.una, psnSub m.cack e.1 < 2 ^ 31) → ∃ t, exec (.miliumAck p) s = .next t ∧ t.connAt p c = none ∧
          { port := p, dest := k.addr, vtag := k.vtag, hdr := { typ := 3, cid := k.peer } : Out } ∈ t.out) ∧
      (∀ k, s.connAt p c = some k → k.open = true → k.closeReq = false →
        let fresh := psnSub m.psn k.exp < 1024 ∧ ∀ e ∈ k.ahead, e.1 ≠ m.psn
        (m.typ = 0 →
          (m.psn = k.exp → k.ahead = [] → k.held = [] → ∃ t k', exec (.miliumData p) s = .next t ∧ t.connAt p c = some k' ∧ k'.exp = psnAdd k.exp 1 ∧ k'.ahead = [] ∧
            (m.ackReq = true ∨ 7 ≤ k.unacked → k'.unacked = 0 ∧ k'.ackDue = none ∧
              { port := p, dest := k.addr, vtag := k.vtag, hdr := { typ := 1, cid := k.peer, cack := psnSub (psnAdd k.exp 1) 1 } : Out } ∈ t.out) ∧
            (m.ackReq = false → k.unacked < 7 → k'.unacked = k.unacked + 1 ∧ k'.ackDue = some (k.ackDue.getD (s.cyc + 1200))) ∧
            (∀ msg, readMsg s (p * 1024 + c) m.payload = msg →
              (ahead? s p msg = true → k'.held = [m.payload] ∧ (t.portAt p).inbox = q.inbox) ∧
              (ahead? s p msg = false → k'.held = [] ∧ ((∀ g v, msg ≠ .reply g v) → (∀ g, msg ≠ .refused g) →
                (t.portAt p).inbox = q.inbox ++ [(c, msg)])))) ∧
          (∀ tag v o x, m.psn = k.exp → k.ahead = [] → k.held = [] → readMsg s (p * 1024 + c) m.payload = .reply tag v →
            s.sysOut.find? (fun o => o.tag == tag) = some o → o.conn = p * 1024 + c → o.copy = none → o.store = false → o.ctx ≤ 10 →
            let w : Who := ⟨o.core, o.ctx, o.core⟩
            (s.ctxAt w).sys = some x → x.atom = none → (s.coreAt o.core).bound = none →
              ∃ t, exec (.miliumData p) s = .next t ∧ (t.ctxAt w).sys = none ∧ t.mem = s.mem ∧ (∀ o' ∈ t.sysOut, o'.tag ≠ tag) ∧
                t.rd w x.rd = (if x.rd = 0 then 0 else BitVec.ofNat 64 (v.toNat % 2 ^ (8 * x.n))) ∧ regsExcept s t w [x.rd] ∧
                (t.ctxAt w).pc = (loopEnd (s.ctxAt w).loops x.next).2) ∧
          (m.psn ≠ k.exp → k.held = [] → (∀ e ∈ k.ahead, e.1 ≠ k.exp) → ∃ t k', exec (.miliumData p) s = .next t ∧ t.connAt p c = some k' ∧ k'.exp = k.exp ∧
            (t.portAt p).inbox = q.inbox ∧ (fresh → k'.ahead = k.ahead ++ [(m.psn, m.payload)]) ∧ (¬fresh → k'.ahead = k.ahead))) ∧
        (m.typ = 1 → k.wait = [] → ∃ t k', exec (.miliumAck p) s = .next t ∧ t.connAt p c = some k' ∧ t.cores = s.cores ∧ t.mem = s.mem ∧
          k'.una = k.una.filter (fun e => !decide (psnSub m.cack e.1 < 2 ^ 31)) ∧ k'.exp = k.exp ∧ k'.ahead = k.ahead ∧
          (k'.una.length < k.una.length → k'.cur = k.rto ∧ k'.expiries = 0 ∧ k'.deadline = s.cyc + 600 * k.rto) ∧
          (k'.una = k.una → k'.cur = k.cur ∧ k'.expiries = k.expiries ∧ k'.deadline = k.deadline)))) ∧
    (∀ c k, s.connAt p c = some k →
      (k.st = .opened → k.una ≠ [] → k.deadline ≤ s.cyc →
        (k.expiries < 7 → ∃ t, exec (.retransmitTimeout p c) s = .next t ∧ t.cores = s.cores ∧ t.mem = s.mem ∧
          t.connAt p c = some { k with expiries := k.expiries + 1, cur := 2 * k.cur, deadline := s.cyc + 600 * (2 * k.cur) } ∧
          ∀ e ∈ k.una, e.1 ∉ k.sacked → ∃ ask : Bool, Out.mk p none k.addr k.vtag
            { typ := 0, flg := b2n ask, cid := k.peer, psn := e.1, cack := k.cack, sack := k.sack } (.msg e.2) ∈ t.out) ∧
        (7 ≤ k.expiries → ∃ t k', exec (.retransmitTimeout p c) s = .next t ∧
          { port := p, dest := k.addr, vtag := k.vtag, hdr := { typ := 4, cid := k.peer }, body := .bytes (natLE 4 1) : Out } ∈ t.out ∧
          t.connAt p c = some k' ∧ k'.st = .failed ∧ ∀ o ∈ t.sysOut, o.conn ≠ p * 1024 + c)) ∧
      (k.ackDue.isSome = true → k.open = true → exec (.ackDelayExpiry p c) s = .next
        ((emit s { port := p, dest := k.addr, vtag := k.vtag, hdr := { typ := 1, cid := k.peer, cack := k.cack, sack := k.sack } }).setConn p c { k with unacked := 0, ackDue := none })))

/-- R380, R379, R382: an armed request to open is accepted and answered, an unarmed one is not, a repeated one is answered again and changes nothing,
and the answer opens the side that asked; a close is answered and frees once this side has nothing unacknowledged and all is delivered, and is
kept until then; a reset fails the connection and every access on it.
Clauses of it rest on readings and choices of the model: log entries 54 and 61. -/
def Obligations.MiliumConnections : Prop :=
  ∀ (s : State) (p : Nat) (m : MPkt) (r : List MPkt), p < 2 → (s.portAt p).rxq = m :: r →
    let q := s.portAt p
    let s1 := s.modPort p (fun q => { q with rxq := r })
    let gone (t : State) : Prop := ∀ o ∈ t.sysOut, o.conn ≠ p * 1024 + m.cid
    let ctl (k : Conn) (typ cid : Nat) (o : List Byte) : Out := { port := p, dest := k.addr, vtag := k.vtag, hdr := { typ := typ, cid := cid }, body := .bytes o }
    (∀ scid ipsn rto mss, m.typ = 2 → connectOf m.payload = some (scid, ipsn, rto, mss) →
      let known := q.conns.find? (fun e => e.2.addr == m.from_ && e.2.peer == scid && e.2.open)
      (m.cid = 0xFFFFFFFF → known = none → q.armed.contains (q.mport, m.from_) = false → exec (.miliumConnect p) s = .next s1) ∧
      (∀ e, m.cid = 0xFFFFFFFF → known = some e → ∃ t o, exec (.miliumConnect p) s = .next t ∧ { t with out := s.out } = s1 ∧
        (∀ k, s.connAt p e.1 = some k → k.st ≠ .opening → t.out = ctl k 2 k.peer o :: s.out ∧ o.take 8 = natLE 4 e.1 ++ natLE 4 k.ipsn)) ∧
      (∀ c, m.cid = 0xFFFFFFFF → known = none → q.armed.contains (q.mport, m.from_) = true → c < 1024 → s.connAt p c = none →
        (∀ d, d < c → (s.connAt p d).isSome = true) →
        ∃ t k o, exec (.miliumConnect p) s = .next t ∧ t.connAt p c = some k ∧ k.st = .opened ∧ k.peer = scid ∧ k.exp = ipsn ∧ k.mss = mss ∧
          k.addr = m.from_ ∧ k.nxt = k.ipsn ∧ k.una = [] ∧ 4 ≤ k.rto ∧ k.rto ≤ 1000 ∧
          t.out = ctl k 2 scid o :: s.out ∧ k.held = [] ∧ k.closeReq = false ∧ o = natLE 4 c ++ natLE 4 k.ipsn ++ natLE 2 k.rto ++ natLE 2 8192 ++ natLE 4 0 ∧
          ∀ d, d ≠ c → t.connAt p d = s.connAt p d) ∧
      (∀ k, m.cid ≠ 0xFFFFFFFF → s.connAt p m.cid = some k →
        (k.st = .opening → ∃ t k', exec (.miliumConnect p) s = .next t ∧ t.connAt p m.cid = some k' ∧ k'.st = .opened ∧ k'.peer = scid ∧
          k'.exp = ipsn ∧ k'.mss = mss ∧ k'.ahead = k.ahead ∧ queuedOn t p m.cid = queuedOn s p m.cid) ∧
        (k.st ≠ .opening → exec (.miliumConnect p) s = .next s1))) ∧
    (connectOf m.payload = none → m.typ = 2 → exec (.miliumConnect p) s = .next s1) ∧
    (∀ k, m.typ = 3 → s.connAt p m.cid = some k →
      (k.st = .opened → k.una = [] → k.wait = [] → k.held = [] →
        ∃ t, exec (.miliumClose p) s = .next t ∧ t.connAt p m.cid = none ∧ ctl k 3 k.peer [] ∈ t.out ∧ gone t) ∧
      (k.st = .opened → k.una ≠ [] ∨ k.wait ≠ [] ∨ k.held ≠ [] →
        exec (.miliumClose p) s = .next (s1.setConn p m.cid { k with closeReq := true })) ∧
      (k.st = .closing → ∃ t, exec (.miliumClose p) s = .next t ∧ t.connAt p m.cid = none ∧ gone t)) ∧
    (∀ k, m.typ = 4 → s.connAt p m.cid = some k →
      ∃ t k', exec (.miliumReset p) s = .next t ∧ t.connAt p m.cid = some k' ∧ k'.st = .failed ∧ gone t ∧
        (∀ o ∈ s.sysOut, o.conn = p * 1024 + m.cid → o.copy = none → o.ctx ≤ 10 → o.store = false →
          ∃ e ∈ (t.ctxAt ⟨o.core, o.ctx, o.core⟩).kept, e.1 = 0x13 ∧ e.2.1 = o.addr)) ∧
    (m.typ = 3 → (∀ k, s.connAt p m.cid = some k → k.st ≠ .opened ∧ k.st ≠ .closing) → exec (.miliumClose p) s = .next
      (emit s1 { port := p, dest := m.from_, hdr := { typ := 4, cid := 0xFFFFFFFF }, body := .bytes (natLE 4 2) })) ∧
    (m.typ = 4 → s.connAt p m.cid = none → exec (.miliumReset p) s = .next s1)

/-- R384, R383, R122: a peer's access is performed at its home slice in the coordinates of the VM bound to its connection and answered, those of one
connection in order; one outside the VM's rectangle, on a connection bound to no VM or by an entry that is not valid, outside the SRAM window or misaligned
is refused and changes no memory; one whose home slice is in an exchange phase waits (R48).
Clauses of it rest on readings and choices of the model: log entry 53. -/
def Obligations.PeerAccesses : Prop :=
  ∀ (s : State) (p j c : Nat) (m : Msg) (a : Word) (n tag : Nat), p < 2 → (s.portAt p).inbox[j]? = some (c, m) → m.access = some (a, n, tag) →
    let vm := bits ((mget s.cbind (p * 1024 + c)).getD 0) 0 8
    let refuses : Prop := mget s.cbind (p * 1024 + c) = none ∨ (∃ b, mget s.cbind (p * 1024 + c) = some b ∧ bit b 63 = false) ∨ a.toNat < 0x100000000 ∨
      0x140000000 ≤ a.toNat ∨ a.toNat % n ≠ 0 ∨ homeVm s vm (a.toNat - 0x100000000) = none
    (peerFirst (s.portAt p) j c = false → exec (.peerWindowAccess p j) s = .next s) ∧
    (peerFirst (s.portAt p) j c = true → refuses → carries s p c = false →
      exec (.peerWindowAccess p j) s = .next (s.modPort p (fun q => { q with inbox := q.inbox.eraseIdx j }))) ∧
    (peerFirst (s.portAt p) j c = true → carries s p c = true →
    let answers (t : State) (r : Msg) : Prop := exec (.peerWindowAccess p j) s = .next t ∧ (t.portAt p).inbox = (s.portAt p).inbox.eraseIdx j ∧
      queuedOn t p c = queuedOn s p c ++ [r]
    (refuses →
      ∃ t, answers t (.refused tag) ∧ t.mem = s.mem ∧ t.cores = s.cores) ∧
    (∀ b h off, mget s.cbind (p * 1024 + c) = some b → bit b 63 = true → 0x100000000 ≤ a.toNat → a.toNat < 0x140000000 → a.toNat % n = 0 →
      homeVm s (bits b 0 8) (a.toNat - 0x100000000) = some (h, off) →
      (heldAtEdge s peerAgent h = true → exec (.peerWindowAccess p j) s = .next s) ∧
      (heldAtEdge s peerAgent h = false →
      let f := localBase h + off
      (m = .ld a n tag → badAt s.bad f n (fun _ => false) = none →
        ∃ t, answers t (.reply tag (BitVec.ofNat 64 (leNat (rdBs s.mem f n)))) ∧ t.mem = s.mem ∧ t.cores = s.cores) ∧
      (∀ v, m = .st a n tag v → ∃ t, answers t (.reply tag 0) ∧
        ∀ x, rdB t.mem x = if f ≤ x ∧ x < f + n then BitVec.ofNat 8 (v.toNat / 256 ^ (x - f)) else rdB s.mem x) ∧
      (∀ w32 op e y, m = .at a w32 op e y tag → badAt s.bad f n (fun _ => false) = none →
        let old := leNat (rdBs s.mem f n)
        let new := atomStep op (8 * n) old (e.toNat % 2 ^ (8 * n)) (y.toNat % 2 ^ (8 * n))
        ∃ t, answers t (.reply tag (BitVec.ofNat 64 old)) ∧
          ∀ x, rdB t.mem x = if f ≤ x ∧ x < f + n then new.1.elim (rdB s.mem x) (fun v => BitVec.ofNat 8 (v / 256 ^ (x - f))) else rdB s.mem x) ∧
      (∀ e, badAt s.bad f n (fun _ => false) = some e → (∀ v, m ≠ .st a n tag v) →
        ∃ t, answers t (.refused tag) ∧ t.mem = s.mem))))

/-! ## Pre-emption, quarantine, power (spec/08 R157 to R162, spec/01 R11, spec/25 R407 to R410, R428) -/

/-- R159, R160, R161, R162: the request halts every core of the domain, which keeps its registers and leaves slipstream; a division that stands in
the divider is cancelled (R81); the save starts once nothing of the domain is in flight and frees its cores, a quarantined core's slice and
registers being no part of it (R157); a halted domain is released as it was, its exchange at the saved plan cycle, unless it is to leave its place
(R422, R423); a saved one that comes back to its place has its registers and its memory back, and one that finds no place beside a held region
returns to its queue.
Clauses of it rest on readings and choices of the model: log entries 58, 63 and 111. -/
def Obligations.PreemptionKeepsContexts : Prop :=
  ∀ (s : State) (e : Nat) (t : Task), mget s.tasks e = some t →
    (t.st = .placed → ∃ u, exec (.preemptionRequest e) s = .next u ∧ u.mem = s.mem ∧
      mget u.tasks e = some { t with st := .preempted, haltAt := s.cyc } ∧
      ∀ i ∈ t.agents, (u.coreAt i).run ≠ .running ∧
        ((s.coreAt i).run = .running → (∀ j ∈ t.agents, ∀ c l, ((s.coreAt j).ctx c).lull = some l → l.due = none) →
          (u.coreAt i).run = .preempted ∧ (u.coreAt i).slip = none ∧
          (∀ d, (s.coreAt i).div = some d → (s.coreAt i).slip = none → d.c = 0 → s.cyc < d.at_ + 20 →
            (u.coreAt i).ctl.pc = d.pc ∧ (u.coreAt i).ctl.loops = d.loops ∧ (u.coreAt i).ctl.rd d.rd = (if d.rd = 0 then 0 else d.old) ∧
            ∀ r, r ≠ d.rd → (u.coreAt i).ctl.rd r = (s.coreAt i).ctl.rd r) ∧
          ((s.coreAt i).slip = none → (∀ d, (s.coreAt i).div = some d → d.c ≠ 0 ∨ d.at_ + 20 ≤ s.cyc) → (u.coreAt i).ctl.g = (s.coreAt i).ctl.g ∧ (u.coreAt i).ctl.pc = (s.coreAt i).ctl.pc ∧
            (u.coreAt i).ctl.loops = (s.coreAt i).ctl.loops ∧ (u.coreAt i).v = (s.coreAt i).v ∧ (u.coreAt i).k = (s.coreAt i).k ∧
            (u.coreAt i).banks = (s.coreAt i).banks ∧ (u.coreAt i).exReady = (s.coreAt i).exReady ∧ (u.coreAt i).seqr = (s.coreAt i).seqr) ∧
          ∀ sl, (s.coreAt i).slip = some sl → (s.coreAt i).gang = none →
            (u.coreAt i).ctl.pc = sl.syncPc ∧ (u.coreAt i).ctl.g = sl.g ∧ (u.coreAt i).v = sl.v)) ∧
    (t.st = .preempted → agentsQuiet s t.rect = false → exec (.contextSave e) s = .next s) ∧
    (t.st = .preempted → agentsQuiet s t.rect = true →
      let lost (i : Nat) : Prop := (s.coreAt i).run = .quarantined
      let s1 := clearPre (saveTask s e t) t.vm
      let back := t.mig && s.heldFor e t.vm t.rect && !anyPlace s1 e { t with st := .saved }
      let d := s.queueAt t.qid
      (back = false → ∃ u sv, exec (.contextSave e) s = .next u ∧
        mget u.saved e = some sv ∧ mget u.tasks e = some { t with st := .saved } ∧ u.mem = s.mem ∧
        sv.cores = t.agents.map (fun i => (i, if (s.coreAt i).run = .quarantined then { run := .quarantined } else s.coreAt i)) ∧
        (∀ c, c ∈ sv.cells ↔ c ∈ s.mem ∧ inSaved t.rect c.1 = true ∧ ¬(c.1 < 0x40000000 ∧ lost (c.1 / 0x40000))) ∧
        ∀ i ∈ t.agents, (u.coreAt i).run = .idle) ∧
      (back = true → d.used < 2 ^ d.lq → ∀ s2, ringPut s1 (s1.queueAt t.qid) ((s1.queueAt t.qid).head - 1).toNat t.trec = (s2, true) →
        ∃ u, exec (.contextSave e) s = .next u ∧ mget u.tasks e = none ∧ mget u.saved e = none ∧ (u.queueAt t.qid).head = d.head - 1 ∧
          (∃ r ∈ u.returned, r.task = { t with st := .saved }) ∧ u.mem = s2.mem)) ∧
    (t.st = .preempted → s.mustLeave e t = true → exec (.resume e) s = .next s) ∧
    (t.st = .preempted → s.mustLeave e t = false → ∃ u, exec (.resume e) s = .next u ∧ u.mem = s.mem ∧ mget u.tasks e = some { t with st := .placed } ∧
      (∀ i ∈ t.agents, u.coreAt i = (if (s.coreAt i).run = .preempted then
        { s.coreAt i with run := .running, exch := (s.coreAt i).exch.map (fun x => { x with t0 := x.t0 + (s.cyc - t.haltAt) }) } else s.coreAt i)) ∧
      ∀ i, i ∉ t.agents → u.coreAt i = s.coreAt i) ∧
    (∀ u, t.st = .preempted → agentsQuiet s t.rect = true → s.wf → (∀ i ∈ t.agents, (s.coreAt i).run ≠ .quarantined) → leNat ((t.trec.drop 7).take 1) % 2 = 0 → exec (.contextSave e) s = .next u →
      mayPlace u e { t with st := .saved } t.rect = true →
      ∃ v, exec (.resume e) u = .next v ∧ mget v.tasks e = some { t with st := .placed } ∧ (∀ x, rdB v.mem x = rdB s.mem x) ∧
        ∀ i ∈ t.agents, ∃ dm lg, v.coreAt i = { releaseCore (s.cyc - t.haltAt) (s.coreAt i) with dm := dm, lg := lg })

/-- R157, R11, R158: a quarantined worker stops and every other core of its domain has a pending `quarantine` with Table 8.4's value; the remap of a
band, which waits for its tasks, moves the columns above the retired one, and with them clusters that wait; with the spare in use a second
quarantined cluster's column is withheld and with a third the band, at once, one that is withheld already adding nothing.
Clauses of it rest on readings and choices of the model: log entries 64, 65 and 99. -/
def Obligations.QuarantineAndRemap : Prop :=
  (∀ (s : State) (j : Nat), j < 4096 → (s.coreAt j).run ≠ .quarantined → ∃ u, exec (.quarantine j 0) s = .next u ∧
    (u.coreAt j).run = .quarantined ∧ u.mem = s.mem ∧ (∃ b, mget u.bands (bandOf j) = some b ∧ colOf j ∈ b.quar) ∧
    ∀ e t i, taskOf s j = some (e, t) → i ∈ t.rect.cores → i ≠ j →
      (u.coreAt i).quar = some ((s.coreAt i).quar.getD (BitVec.ofNat 64 (partY s j j * 64 + partX s j j)))) ∧
  (∀ (s u : State) (j : Nat) (d : Band), j < 4096 → (s.coreAt j).run ≠ .quarantined → mget s.bands (bandOf j) = some d →
    exec (.quarantine j 0) s = .next u →
      let q := d.quar ++ [colOf j]
      (d.remapped = true → colOf j ∈ d.quar.drop 1 → mget u.bands (bandOf j) = some d) ∧
      (d.remapped = true → colOf j ∉ d.quar.drop 1 →
        mget u.bands (bandOf j) = some { d with quar := q, held := (q.drop 1).take 1, whole := d.whole || decide (3 ≤ q.length) }) ∧
      (d.remapped = false → colOf j ∉ d.quar → mget u.bands (bandOf j) = some { d with quar := q })) ∧
  (∀ (s : State) (b : Nat) (d : Band) (c : Nat), mget s.bands b = some d → d.quar.head? = some c →
    let busy := s.tasks.any (fun e => e.2.placed && e.2.rect.cores.any (fun i => bandOf i == b))
    let rest := d.quar.tail.map (fun x => if c < x then x - 1 else x)
    (busy = true ∨ d.remapped = true → exec (.bandRemap b) s = .next s) ∧
    (busy = false → d.remapped = false → (s.cores.map (·.1)).Nodup → s.wf → ∃ u, exec (.bandRemap b) s = .next u ∧
      mget u.bands b = some { d with remapped := true, quar := c :: rest, held := rest.take 1, whole := d.whole || decide (3 ≤ d.quar.length) } ∧
      (∀ i, i < 4096 → bandOf i = b → c ≤ colOf i → colOf i < 15 → u.coreAt i = s.coreAt (i + 1) ∧
        ∀ a, a < 0x40000 → rdB u.mem (localBase i + a) = rdB s.mem (localBase (i + 1) + a)) ∧
      ∀ i, i < 4096 → (bandOf i ≠ b ∨ colOf i < c) → u.coreAt i = s.coreAt i ∧
        ∀ a, a < 0x40000 → rdB u.mem (localBase i + a) = rdB s.mem (localBase i + a)))

/-- R407 to R410, R428, R406, R111: at power-on the ROM starts control core 0 at level 0 at the entry of the first slot that passes, with the body in
its local memory and `meas0` extended, or drives BOOTFAIL; from the boot server it solicits the server's address and reads over a connection that
ends with the ROM; loss of power leaves reset values; a correctable error is counted; an uncorrectable one stays with its word, poisons a queue, or
stops the scheduler's core, whose pair takes the role when the image that it reloads has the digest of `sdig`.
Clauses of it rest on readings and choices of the model: log entries 2, 75, 76, 77 and 79. -/
def Obligations.PowerAndErrors : Prop :=
  let passes (s : State) (slot : Nat) (h body : List Byte) : Prop := ∃ s1 s2, romRead s slot 0 0x1000 = (s1, some h) ∧ headerOk h = true ∧
    headerSigned h = true ∧ romRead s1 slot 0x1000 (recAt h 0xC 4) = (s2, some body) ∧ sha384 body = (h.drop 0x20).take 48
  let turned_ (s s1 : State) (slot : Nat) : Prop := ∃ r, romRead s slot 0 0x1000 = (s1, r) ∧
    ∀ h, r = some h → headerOk h = false ∨ headerSigned h = false
  (∀ (s : State), s.powered = true → exec .powerOn s = .next s) ∧
  (∀ (s : State), s.powered = false → ∃ u, exec .powerOn s = .next u ∧ u.powered = true ∧ (u.coreAt 8192).lvl = 0 ∧
    ((u.coreAt 8192).run = .running ∧ u.bootfail = s.bootfail ∨ (u.coreAt 8192).run = .halted ∧ u.bootfail = true) ∧
    (∀ i, i ≠ 8192 → u.coreAt i = s.coreAt i) ∧
    let s0 : State := if Config.fuseBsrc = true then bootLink { s with powered := true } else { s with powered := true }
    (Config.fuseBsrc = false → u.out = s.out ∧ ∀ slot off n, romRead s slot off n =
      (s, some ((List.range n).map (fun k => Config.flash (slot * 0x400000 + off + k))))) ∧
    (Config.fuseBsrc = true → (u.portAt 0).mport = Config.fuseBport.toNat ∧ u.connAt 0 0 = none ∧
      ∃ o ∈ u.out, o.body = .solicit (beNat Config.fuseBsrv) ∧ o.src = some linkLocal ∧ o.vtag = bootTag) ∧
    (∀ h body : List Byte, (passes s0 0 h body ∨ ∃ s1, turned_ s0 s1 0 ∧ passes s1 1 h body) →
      u.bootfail = s.bootfail ∧ (u.coreAt 8192).run = .running ∧ (u.coreAt 8192).ctl.pc = BitVec.ofNat 64 (recAt h 0x10 4) ∧
      (∀ a, a < body.length → rdB u.mem (localBase 8192 + a) = body.getD a 0) ∧
      (∀ a, (a < localBase 8192 ∨ localBase 8192 + body.length ≤ a) → rdB u.mem a = rdB s.mem a) ∧
      vget u.meas 0 0 = BitVec.ofNat 384 (leNat (sha384 (measBytes (vget s.meas 0 0) ++ sha384 (h ++ body))))) ∧
    (∀ s1 s2, turned_ s0 s1 0 → turned_ s1 s2 1 → u.bootfail = true ∧ (u.coreAt 8192).run = .halted ∧ u.mem = s.mem ∧ u.meas = s.meas)) ∧
  (∀ (s : State), ∃ u, exec .powerLoss s = .next u ∧ u.powered = false ∧ u.mem = [] ∧ u.out = s.out ∧ u.meas = Vector.replicate 8 0 ∧
    (∀ i, u.coreAt i = {}) ∧ { u with stepNo := 0, freeNo := 0, out := [] } = State.reset) ∧
  (∀ (s : State) (f : Nat), exec (.memoryError f false) s = .next { s with corrected := s.corrected + 1 }) ∧
  (∀ (s : State) (f : Nat), f < 0x200000000 → ∃ u, exec (.memoryError f true) s = .next u ∧ { u with bad := s.bad } = s ∧
    ∀ w, w ∈ u.bad ↔ w ∈ s.bad ∨ w = f / 8) ∧
  (∀ (s : State) (k a : Nat), k < 8 → a < 0x40000 → k = s.sched → ∃ u, exec (.memoryError (localBase (8192 + k) + a) true) s = .next u ∧
    (u.coreAt (8192 + k)).run = .stopped 0x0C (BitVec.ofNat 64 (a / 8 * 8)) (s.coreAt (8192 + k)).ctl.pc ∧
    let mate := if k % 2 = 0 then k + 1 else k - 1
    let up : Prop := (s.coreAt (8192 + mate)).run ≠ .halted ∧ ∀ x y z, (s.coreAt (8192 + mate)).run ≠ .stopped x y z
    (∀ img, schedCopy s = some img → sha384 img = measBytes s.sdig → up → u.sched = mate ∧ u.pairLost = s.pairLost ∧
      ∀ x, x < img.length → Config.schedAt.toNat + x < 0x40000 → rdB u.mem (localBase (8192 + mate) + Config.schedAt.toNat + x) = img.getD x 0) ∧
    ((¬up ∨ ∀ img, schedCopy s = some img → sha384 img ≠ measBytes s.sdig) → u.sched = k ∧ u.pairLost = true ∧ u.mem = s.mem)) ∧
  (∀ (s : State) (q b : Nat), q < 4096 → b < 32 → ∃ u, exec (.memoryError (0xF00000000 + 32 * q + b) true) s = .next u ∧ (u.queueAt q).psn = true ∧
    ∀ r d, mget s.queues r = some d → d.vm = (s.queueAt q).vm → ∃ d', (r, d') ∈ u.queues ∧ d'.frz = true)

/-! ## Tasks (spec/25 R413 to R426) -/

/-- R414, R415, R417, R413, R418, R423: submitted records are appended in order of arrival, a full queue discards one with `cst` 4; a slot prefetches
ahead of `head`; the oldest record passes into the lowest free entry of the dependence table, one that breaks Table 25.6a is discarded with `cst` 3,
and one of a task that was saved and returned takes its context up again; a task waits for the earlier ones of its tenant whose ranges it meets; a
renamed range becomes the only version once no task reads the older one, and its old frames are in the pool.
Clauses of it rest on readings and choices of the model: log entries 68, 69, 71 and 111. -/
def Obligations.TaskQueues : Prop :=
  let reports (s t : State) (q : Nat) (c : Completion) : Prop :=
    let p := b2n (Config.queuePort q)
    let n := (s.queueAt q).cconn
    carries s p n = true → queuedOn t p n = queuedOn s p n ++ cutOn s p n (.raw c.bytes)
  (∀ (s : State) (p j c q : Nat) (bs : List Byte), p < 2 → (s.portAt p).inbox[j]? = some (c, .raw bs) → mget s.qbind (p * 1024 + c) = some q →
    let s1 := s.modPort p (fun x => { x with inbox := x.inbox.eraseIdx j })
    let d := s.queueAt q
    (submitWaits s p j q = true → exec (.taskSubmit p j) s = .next s) ∧
    (submitWaits s p j q = false →
    (bs.length ≠ 256 → exec (.taskSubmit p j) s = .next s1) ∧
    (bs.length = 256 → d.v = false → ∃ t, exec (.taskSubmit p j) s = .next t ∧ reports s t q { tid := recAt bs 0 4, cst := 3 } ∧
      t.queues = s.queues ∧ t.mem = s.mem) ∧
    (bs.length = 256 → d.v = true → 2 ^ d.lq ≤ d.used → ∃ t, exec (.taskSubmit p j) s = .next t ∧ reports s t q { tid := recAt bs 0 4, cst := 4 } ∧
      t.queues = s.queues ∧ t.mem = s.mem) ∧
    (bs.length = 256 → d.v = true → d.used < 2 ^ d.lq → ∀ tile s2 ok, vmTile s d.vm = some tile →
      writeUnits tile (unitChunks (d.w0.toNat % 2 ^ 48 + d.tail.toNat % 2 ^ d.lq * 256) bs) s1 = (s2, ok) →
        (ok = true → exec (.taskSubmit p j) s = .next (s2.modQueue q (fun d => { d with tail := d.tail + 1 }))) ∧
        (ok = false → ∃ t, exec (.taskSubmit p j) s = .next t ∧ reports s t q { tid := recAt bs 0 4, cst := 3 } ∧ t.queues = s.queues)))) ∧
  (∀ (s : State) (q : Nat), q < 4096 →
    let d := s.queueAt q
    (d.serves = true → d.pre.length < 4 → d.pre.length < d.used → vmPlaced s d.vm = true → ∀ s2 bs,
      ringRec s d (d.head.toNat + d.pre.length) = (s2, some bs) →
        exec (.queuePrefetch q) s = .next (s2.modQueue q (fun d => { d with pre := d.pre ++ [bs] }))) ∧
    (d.serves = true → 0 < d.used → pairDown s = false → ∀ bs rest, d.pre = bs :: rest →
      (∀ e, e < 512 → mget s.tasks e = none → (∀ e', e' < e → (mget s.tasks e').isSome = true) →
        let took := s.modQueue q (fun d => { d with head := d.head + 1, pre := rest })
        let again := s.returned.find? (fun r => r.task.qid == q && r.task.trec == bs)
        (∀ r, again = some r → exec (.taskAdmit q) s = .next
          { took with tasks := mset s.tasks e r.task, saved := mset s.saved e r.ctx, returned := s.returned.erase r }) ∧
        (again = none → trecOk bs = false → ∃ t, exec (.taskAdmit q) s = .next t ∧ t.queues = took.queues ∧ t.tasks = s.tasks ∧
          reports s t q { tid := recAt bs 0 4, cst := 3 }) ∧
        (again = none → trecOk bs = true → ∃ t n, exec (.taskAdmit q) s = .next t ∧ t.queues = took.queues ∧ mget t.tasks e = some n ∧
          n.trec = bs ∧ n.vm = d.vm ∧ n.qid = q ∧ n.num = (mget s.admitted d.vm).getD 0 ∧ n.st = .admitted ∧ n.w = recAt bs 8 1 ∧ n.h = recAt bs 9 1 ∧
          mget t.admitted d.vm = some (n.num + 1) ∧ (recAt bs 7 1 < 2 → n.renIdx = [] ∧ t.vers = s.vers) ∧ (launchable t n = true → n.eligAt = some s.cyc) ∧
          ∀ i, i ∈ n.renIdx → ∃ r, (i, r) ∈ n.writes)) ∧
      ((∀ e', e' < 512 → (mget s.tasks e').isSome = true) → exec (.taskAdmit q) s = .next s))) ∧
  (∀ (s : State) (n e : Task), n.renIdx = [] →
    (dependsOn n e = true ↔ (∃ r ∈ n.reads, ∃ w ∈ e.writeRanges, overlaps r w = true) ∨
      (∃ w ∈ n.writeRanges, (∃ r ∈ e.reads, overlaps w r = true) ∨ ∃ x ∈ e.writeRanges, overlaps w x = true)) ∧
    (launchable s n = true ↔ n.st = .admitted ∧ (∀ k u, (k, u) ∈ s.tasks → u.vm = n.vm → u.num < n.num → u.unfinished = true → dependsOn n u = false) ∧
      ∀ r ∈ s.returned, r.task.vm = n.vm → r.task.num < n.num → r.task.unfinished = true → dependsOn n r.task = false)) ∧
  (∀ (s : State) (vm k tile : Nat) (v : Version), (s.vers.filter (fun v => v.vm == vm))[k]? = some v → vmTile s vm = some tile →
    (retirable s v = false → exec (.versionRetire vm k) s = .next s) ∧
    (retirable s v = true → ∀ s2 old,
      rewriteLeaves vm (bits (s.coreAt (mcOf tile)).root 12 40 * 4096) (v.pages.map (fun e => (e.1, e.2.2))) s = some (s2, old) →
        ∃ t, exec (.versionRetire vm k) s = .next t ∧ t.mem = s2.mem ∧ t.vers = s.vers.filter (· != v) ∧
          (((mget s.pools vm).getD {}).n ≠ 0 → ∀ f ∈ old, f ∈ ((mget t.pools vm).getD {}).free) ∧ ∀ e u, mget t.tasks e = some u → u.vm = vm → ∀ o ∈ u.overlays, o ∉ v.pages))

/-- R419, R420, R426, R416, R421, R422, R376: a task whose entry is at the launch unit, with credit, power and a free place, and before which no other
is offered that could be placed, is launched from its record: each worker runs from the record's entry with every register that R420 names at 0 and
its identity, the rest of its slice and its tiles hold zeros; a record that breaks its limits or an image that cannot be read or written ends the
task with `cst` 3; a task that has ended, every worker and memory core having halted, reports how and leaves the table, its bindings and their
tags with it.
Clauses of it rest on readings and choices of the model: log entries 66, 67, 68, 70, 73 and 109. -/
def Obligations.LaunchAndCompletion : Prop :=
  (∀ (s : State) (e x y : Nat) (t : Task), mget s.tasks e = some t →
    let may := s.launchQ.contains e && mayLaunch s t && !pairDown s && mayPlace s e t ⟨x, y, t.w, t.h⟩ && takesHeld s e t x y && !outOffered s e t
    let s0 := { s with launchQ := s.launchQ.filter (· != e), holds := s.holds.filter (fun h => h.1 != e) }
    let ended := { s0 with tasks := mset s0.tasks e { t with st := .ended 3 } }
    let t1 := { t with st := .placed, x0 := x, y0 := y, placedAt := s.cyc, overlays := (versionsOf s t).flatMap Version.pages }
    let s1 := t1.rect.cores.foldl (fun s i => s.modCore (mcOf i) (fun k => { k with overlays := t1.overlays })) { s0 with tasks := mset s0.tasks e t1 }
    (may = false → exec (.launch e x y) s = .next s) ∧
    (may = true →
      (∀ s2, dramBytes s1 (y * 64 + x) t.lrec 256 = (s2, none) →
        exec (.launch e x y) s = .next { s0 with tasks := mset s0.tasks e { t with st := .ended 3 } }) ∧
      (∀ s2 lr, dramBytes s1 (y * 64 + x) t.lrec 256 = (s2, some lr) →
        (lrecOk lr = false → exec (.launch e x y) s = .next { s0 with tasks := mset s0.tasks e { t with st := .ended 3 } }) ∧
        (lrecOk lr = true →
          let t2 := { t1 with mfr := recAt lr 0x1A 1, blk := recAt lr 0x1C 4 }
          ∀ s3 ps, patchesOf { s2 with tasks := mset s2.tasks e t2 } t2 (y * 64 + x) lr = (s3, some ps) →
            let loaded := (loadImages (recAt lr 0 8) (recAt lr 8 4) (recAt lr 0x10 8) (recAt lr 0xC 4) t2.rect.cores s3).bind
              (loadParts (y * 64 + x) (if recAt lr 0xC 4 = 0 then [] else Config.dramParts lr))
            (loaded = none → exec (.launch e x y) s = .next ended) ∧
            (loaded.isSome = true → ∃ u, exec (.launch e x y) s = .next u ∧ u.launchQ = s0.launchQ ∧ mget u.tasks e = some t2 ∧
              ∀ i ∈ t2.rect.cores, let k := u.coreAt i
                k.run = .running ∧ k.ctl.pc = BitVec.ofNat 64 (recAt lr 0x70 4) ∧ k.seed = BitVec.ofNat 64 (recAt lr 0x78 8) ∧ k.lvl = 2 ∧
                (∀ r, k.ctl.rd r = 0) ∧ k.ctl.loops = [] ∧ k.v = Vector.replicate 32 0 ∧ k.k = Vector.replicate 8 0 ∧ k.banks = Vector.replicate 3 {} ∧
                k.uiVec = 0 ∧ k.uiId = 0 ∧ k.uiEn = false ∧ k.uiq = [] ∧ k.ncom = 0 ∧ k.nrb = 0 ∧ k.specRb = 0 ∧ k.bb = {} ∧ k.grd = Vector.replicate 16 0 ∧
                k.lg = {} ∧ k.ntag = 0 ∧ k.q0 = [] ∧ k.q1 = [] ∧ k.q2 = [] ∧ k.q4 = [] ∧ k.q5 = [] ∧ k.r0 = [] ∧ k.r1 = [] ∧ k.r3 = [] ∧ k.r4 = [] ∧
                k.r5 = [] ∧ k.helpers = Vector.replicate 10 {} ∧ k.slip = none ∧ k.gang = none ∧
                vget k.id 0 0 = BitVec.ofNat 64 (xOf i - x) ∧ vget k.id 1 0 = BitVec.ofNat 64 (yOf i - y) ∧
                vget k.id 2 0 = BitVec.ofNat 64 t.w ∧ vget k.id 3 0 = BitVec.ofNat 64 t.h ∧ vget k.id 4 0 = 0 ∧
                (u.coreAt (mcOf i)).run = (if recAt lr 0xC 4 = 0 then .halted else .running) ∧
                (ps = [] → ∀ a, recAt lr 8 4 ≤ a → a < 0x40000 → rdB u.mem (localBase i + a) = 0) ∧
                (∀ a, a < 0x20000 → rdB u.mem (tileBase i + a) = 0)))))) ∧
  (∀ (s : State) (e : Nat) (t : Task), mget s.tasks e = some t →
    (endOf s t = none → exec (.taskCompletion e) s = .next s) ∧
    (∀ c, endOf s t = some c → ∃ u, exec (.taskCompletion e) s = .next u ∧ mget u.tasks e = none ∧
      (let p := b2n (Config.queuePort t.qid)
       let n := (s.queueAt t.qid).cconn
       carries s p n = true → queuedOn u p n = queuedOn s p n ++ cutOn s p n (.raw (natLE 4 t.tid ++ natLE 1 c.cst ++ natLE 1 c.cause ++
         natLE 2 c.core ++ natLE 8 c.val.toNat ++ natLE 8 c.pc.toNat ++ natLE 4 c.bound ++ natLE 4 0))) ∧
      (t.placed = true → ∀ i ∈ t.rect.cores, (u.coreAt i).bound = none ∧ (u.coreAt i).guard = none ∧ (u.coreAt i).lg.v = false ∧
        ∀ x ∈ u.tags, x.2.1 = i → x.2 = (0, 0))) ∧
    (t.st = .placed → pairDown s = false → (∀ i ∈ t.rect.cores, (s.coreAt i).run ≠ .quarantined) →
      (t.report = none → ((endOf s t).map (·.cst) = some 0 ↔ ∀ i ∈ t.rect.cores, (s.coreAt i).run = .halted ∧ (s.coreAt (mcOf i)).run = .halted)) ∧
      ∀ r, t.report = some r → endOf s t = some { tid := t.tid, cst := 1, cause := r.1, core := r.2.1, val := r.2.2.1, pc := r.2.2.2 }))

/-- R416, R425, R422, R423: every 10 µs each bucket takes `level` := max(min(level + fill − charge, depth), −depth) and no queue of a VM without credit,
nor more than 64, stay mapped; `cap` falls when a period exceeds `lim`, at most once in 30 µs, and rises after 10 periods below 0.95 × `lim`;
every 1 ms the ratios are R / S, 0 or 1, and a border that starts to move goes toward a tenant of q < 0.9 that has an unplaced eligible task from one
of q at least 1.25, whose tasks in the way are migratable and are to leave; a task unplaced `pdl` after it became eligible gets a hold on the region with the fewest occupied
clusters, reported with `cst` 6, and is offered at once where that is free. R427: a plug-in is called at level 2 with its candidate list, which may be empty,
guards and `ptmr`; the candidate that it names by `trap 1`
is stored to the launch unit when it is still eligible, and otherwise the one of highest `prio`, then greatest age, the rejection counted.
Clauses of it rest on readings and choices of the model: log entries 70, 74, 112 and 113. -/
def Obligations.PeriodicControllers : Prop :=
  (∀ (s : State), (s.nTok + 1) * 6000 ≤ s.cyc → ∃ t, exec .tokenBucketTick s = .next t ∧ t.nTok = s.nTok + 1 ∧ t.cores = s.cores ∧ t.mem = s.mem ∧
    (∀ v ∈ knownVms s, let b := (mget s.buckets v).getD {}
      ∃ b', mget t.buckets v = some b' ∧ b'.depth = b.depth ∧ b'.fill = b.fill ∧
        b'.level.toInt = max (min (b.level.toInt + b.fill.toNat - 10 * (clustersHeld s v : Int)) b.depth.toNat) (-(b.depth.toNat : Int))) ∧
    (∀ q d, (q, d) ∈ t.queues → d.map = true → vmMapped t d.vm = true) ∧ (t.queues.filter (·.2.map)).length ≤ 64 ∧
    t.queues.map (fun e => (e.1, { e.2 with map := false })) = s.queues.map (fun e => (e.1, { e.2 with map := false }))) ∧
  (∀ (s : State), s.cyc < (s.nTok + 1) * 6000 → exec .tokenBucketTick s = .next s) ∧
  (∀ (s : State) (pw : Nat), pw < 65536 → (s.nBud + 1) * 6000 ≤ s.cyc → ∃ t, exec (.budgetPeriod pw) s = .next t ∧
    { t with nBud := s.nBud, pw := s.pw, cap := s.cap, lowRun := s.lowRun, sinceLow := s.sinceLow } = s ∧ t.nBud = s.nBud + 1 ∧ t.pw = pw ∧
    t.cap = (if s.plim < pw then (if 2 ≤ s.sinceLow then max (s.cap - 1) 1 else s.cap)
      else if pw * 100 < 95 * s.plim ∧ 9 ≤ s.lowRun then min (s.cap + 1) 3 else s.cap) ∧
    t.sinceLow = (if s.plim < pw ∧ 2 ≤ s.sinceLow then 0 else s.sinceLow + 1) ∧
    t.lowRun = (if pw * 100 < 95 * s.plim ∧ ¬s.plim < pw ∧ s.lowRun < 9 then s.lowRun + 1 else 0)) ∧
  (∀ (s : State), (s.nRat + 1) * 600000 ≤ s.cyc → ∃ t, exec .shareRatioTick s = .next t ∧ t.nRat = s.nRat + 1 ∧
    t.ratios = (knownVms s).map (fun v => (v, shareOf s v)) ∧ (∀ e u, (e, u) ∈ t.tasks → u.rel5 = 0) ∧
    t.rects = s.rects ∧ ∀ m ∈ t.borders, m ∉ s.borders →
      let qa := (mget t.ratios m.grow).getD (1, 1)
      let qb := (mget t.ratios m.give).getD (1, 1)
      qa.1 * 10 < 9 * qa.2 ∧ 5 * qb.2 ≤ 4 * qb.1 ∧ (∃ e u, (e, u) ∈ t.tasks ∧ u.vm = m.grow ∧ launchable t u = true) ∧
      ∀ e u, (e, u) ∈ t.tasks → u.vm = m.give → u.placed = true → u.rect.within (rectOfWord m.giveTo) = false → u.mig = true ∧ e ∈ t.moving) ∧
  (∀ (s : State), s.cyc < (s.nRat + 1) * 600000 → exec .shareRatioTick s = .next s) ∧
  (∀ (s : State) (e at_ : Nat) (t : Task) (p r : Rect), mget s.tasks e = some t → t.eligAt = some at_ → partOf s t.vm = some p → t.st = .admitted →
    at_ + 6000 * t.pdl ≤ s.cyc → (∀ h ∈ s.holds, ∀ n, mget s.tasks h.1 = some n → n.vm ≠ t.vm) → holdRegion s p t.w t.h = some r →
    (∃ u, exec (.compactionHold e) s = .next u ∧ u.holds = s.holds ++ [(e, r.x0, r.y0)] ∧ u.tasks = s.tasks ∧
      ((∀ e' n, (e', n) ∈ s.tasks → n.placed = true → n.rect.meets ⟨r.x0, r.y0, t.w, t.h⟩ = false) → e ∈ u.launchQ) ∧
      (let p := b2n (Config.queuePort t.qid)
       let n := (s.queueAt t.qid).cconn
       carries s p n = true → queuedOn u p n = queuedOn s p n ++ cutOn s p n (.raw (Completion.bytes { tid := t.tid, cst := 6, bound := holdBound s t r })))) ∧
    (r.w = t.w ∧ r.h = t.h ∧ p.x0 ≤ r.x0 ∧ p.y0 ≤ r.y0 ∧ r.x0 + r.w ≤ p.x0 + p.w ∧ r.y0 + r.h ≤ p.y0 + p.h ∧
      ∀ k j, k + t.w ≤ p.w → 8 * j + t.h ≤ p.h → 1 ≤ t.w → 8 ≤ t.h →
        occupied s r ≤ occupied s ⟨p.x0 + k, p.y0 + 8 * j, t.w, t.h⟩)) ∧
  (∀ (s : State) (a : Config.PlugAct),
    let i := 8192 + a.cc
    let k := s.coreAt i
    let es := candidates s a.vm
    let n := 8 * (es.length + 1)
    let gl := guardFor a.list.toNat a.lsize.toNat 1
    let gc := guardFor a.code.toNat a.csize.toNat 4
    let f := localBase i + a.list.toNat
    a.cc = s.sched → a.cc < 8 → s.plug = none → k.run = .running → k.level = 1 → a.list.toNat % 8 = 0 → a.code.toNat % 2 = 0 →
    a.list.toNat + n ≤ 0x40000 → guardMatches gl = true → guardMatches gc = true → guardGrants gl .load a.list.toNat n = true →
    guardGrants gc .fetch a.code.toNat 2 = true →
      let t := callPlugin s a
      let c := t.coreAt i
      c.level = 2 ∧ c.ptmr = 4096 ∧ c.ctl.rd 1 = BitVec.ofNat 64 a.list.toNat ∧ c.ctl.pc = BitVec.ofNat 64 a.code.toNat ∧ t.plug = some ⟨a.cc, es⟩ ∧
      guardOk c .load a.list.toNat n = true ∧ guardOk c .fetch a.code.toNat 2 = true ∧ (∀ x m, guardOk c .store x m = false) ∧
      leNat (rdBs t.mem f 8) = es.length ∧
      (∀ j e u, es[j]? = some e → mget s.tasks e = some u → leNat (rdBs t.mem (f + 8 + 8 * j) 8) =
        u.prio * 2 ^ 48 + min 0xFFFF ((s.cyc - u.eligAt.getD s.cyc) / 6000) * 2 ^ 32 + u.tid) ∧
      ∀ x, x < f ∨ f + n ≤ x → rdB t.mem x = rdB s.mem x) ∧
  (∀ (s : State) (p : PlugCall), s.plug = some p → p.cc < 8 →
    let i := 8192 + p.cc
    let k := s.coreAt i
    let eligible (e : Nat) : Prop := ∃ u, mget s.tasks e = some u ∧ launchable s u = true
    let named (e : Nat) : Prop := k.run = .running ∧ k.level = 1 ∧ k.bank.cause.toNat = 0x11 ∧ k.bank.val = 1 ∧
      p.cands[(k.ctl.rd 2).toNat]? = some e ∧ eligible e
    let stores (e rej : Nat) : Prop := ∃ t, softwareTurn s i = some t ∧ t.plug = none ∧ t.plugRej = s.plugRej + rej ∧ t.cores = s.cores ∧
      t.mem = s.mem ∧ t.launchQ = (if e ∈ s.launchQ then s.launchQ else s.launchQ ++ [e])
    (k.run = .running → k.level = 2 → softwareTurn s i = none) ∧
    (∀ e, named e → stores e 0) ∧
    ((k.run ≠ .running ∨ k.level ≠ 2) → (∀ e ∈ p.cands, ¬eligible e) → ∃ t, softwareTurn s i = some t ∧ t.plug = none ∧ t.plugRej = s.plugRej + 1 ∧
      t.cores = s.cores ∧ t.launchQ = s.launchQ) ∧
    ((k.run ≠ .running ∨ k.level ≠ 2) → (∀ e, ¬named e) → (∃ e ∈ p.cands, eligible e) → ∃ e ∈ p.cands, stores e 1 ∧
      ∃ u, mget s.tasks e = some u ∧ launchable s u = true ∧ ∀ e' ∈ p.cands, ∀ u', mget s.tasks e' = some u' → launchable s u' = true →
        u'.prio < u.prio ∨ u'.prio = u.prio ∧ u'.age s ≤ u.age s))

/-! ## Attestation (spec/25 R411, R412) -/

/-- R411, R412, Table 25.5: each request of the table, in its place in the order, is answered on its management connection with its response, a signed
one once its signature is done; one of another version, out of order or absent from the table, and one that comes while an earlier one is being
signed, is answered with ERROR and its code, and the transcript stays.
Clauses of it rest on readings and choices of the model: log entry 78. -/
def Obligations.AttestationRequests : Prop :=
  ∀ (s : State) (p j c : Nat) (m : List Byte), p < 2 → (s.portAt p).inbox[j]? = some (c, .raw m) → s.mgmt.contains (p * 1024 + c) = true →
    carries s p c = true →
    let d := (mget s.spdm (p * 1024 + c)).getD {}
    let answers (i : Instr) (r : List Byte) (ph : Nat) : Prop := ∃ t, exec i s = .next t ∧ (t.portAt p).inbox = (s.portAt p).inbox.eraseIdx j ∧
      queuedOn t p c = queuedOn s p c ++ cutOn s p c (.raw r) ∧ t.mem = s.mem ∧ t.cores = s.cores ∧
      ∃ d', mget t.spdm (p * 1024 + c) = some d' ∧ d'.phase = ph ∧ d'.signing = none
    let signs (i : Instr) (r : List Byte) : Prop := ∃ t, exec i s = .next t ∧ (t.portAt p).inbox = (s.portAt p).inbox.eraseIdx j ∧
      queuedOn t p c = queuedOn s p c ∧ t.mem = s.mem ∧ t.cores = s.cores ∧
      ∃ d' at_, mget t.spdm (p * 1024 + c) = some d' ∧ d'.phase = d.phase ∧ d'.signing = some (at_, r) ∧ s.cyc ≤ at_
    let errs (i : Instr) (code data : Nat) : Prop := ∃ t, exec i s = .next t ∧ (t.portAt p).inbox = (s.portAt p).inbox.eraseIdx j ∧
      queuedOn t p c = queuedOn s p c ++ cutOn s p c (.raw [0x12, 0x7F, BitVec.ofNat 8 code, BitVec.ofNat 8 data]) ∧ t.spdm = s.spdm
    let v := recAt m 0 1
    let ver (n ph : Nat) : Prop := v = 0x12 ∧ n ≤ m.length ∧ (if ph < 3 then d.phase = ph else 3 ≤ d.phase)
    let cc := Config.certChain
    (d.signing.isSome = true → (reqCode m = 0x84 → errs (.getVersion p j) 3 0) ∧ (reqCode m = 0xE1 → errs (.getCapabilities p j) 3 0) ∧
      (reqCode m = 0xE3 → errs (.negotiateAlgorithms p j) 3 0) ∧ (reqCode m = 0x81 → errs (.getDigests p j) 3 0) ∧
      (reqCode m = 0x82 → errs (.getCertificate p j) 3 0) ∧ (reqCode m = 0x83 → errs (.challenge p j) 3 0) ∧
      (reqCode m = 0xE0 → errs (.getMeasurements p j) 3 0)) ∧
    (∀ at_ r, s.spdm = [(p * 1024 + c, d)] → d.signing = some (at_, r) → c < 1024 →
      (s.cyc < at_ → sendSigned s = s) ∧
      (at_ ≤ s.cyc → queuedOn (sendSigned s) p c = queuedOn s p c ++ cutOn s p c (.raw r) ∧
        (sendSigned s).spdm = [(p * 1024 + c, { d with signing := none })])) ∧
    (d.signing = none →
    (reqCode m = 0x84 → v = 0x10 → answers (.getVersion p j) [0x10, 0x04, 0, 0, 0, 1, 0x00, 0x12] 1) ∧
    (reqCode m = 0x84 → v ≠ 0x10 → errs (.getVersion p j) 0x41 0) ∧
    (reqCode m = 0xE1 → ver 20 1 →
      answers (.getCapabilities p j) ([0x12, 0x61, 0, 0, 0, Config.spdmExponent, 0, 0] ++ natLE 4 0x16 ++ natLE 4 4096 ++ natLE 4 4096) 2) ∧
    (reqCode m = 0xE3 → ver 32 2 → recAt m 6 1 % 2 = 1 → recAt m 8 4 / 2 ^ 7 % 2 = 1 → recAt m 12 4 / 2 % 2 = 1 →
      answers (.negotiateAlgorithms p j) ([0x12, 0x63, 0, 0] ++ natLE 2 36 ++ [1, 0] ++ natLE 4 4 ++ natLE 4 0x80 ++ natLE 4 2 ++ List.replicate 16 0) 3) ∧
    (reqCode m = 0x81 → ver 4 3 → answers (.getDigests p j) ([0x12, 0x01, 0, 1] ++ sha384 cc) d.phase) ∧
    (reqCode m = 0x82 → ver 8 3 → reqP1 m % 16 = 0 →
      let o := recAt m 4 2
      let n := min (min (recAt m 6 2) 1024) (cc.length - o)
      if o < cc.length then
        answers (.getCertificate p j) ([0x12, 0x02, 0, 0] ++ natLE 2 n ++ natLE 2 (cc.length - o - n) ++ (cc.drop o).take n) d.phase
      else errs (.getCertificate p j) 0x01 0) ∧
    (reqCode m = 0x82 → ver 8 3 → reqP1 m % 16 ≠ 0 → errs (.getCertificate p j) 0x01 0) ∧
    (reqCode m = 0x83 → ver 36 3 → reqP1 m = 0 → (reqP2 m = 0 ∨ reqP2 m = 1 ∨ reqP2 m = 0xFF) → ∃ nonce sig, nonce.length = 32 ∧
      signs (.challenge p j) ([0x12, 0x03, 0, 1] ++ sha384 cc ++ nonce ++ summaryHash s (reqP2 m) ++ natLE 2 0 ++ sig)) ∧
    (reqCode m = 0xE0 → ver 37 3 → reqP1 m % 2 = 1 → recAt m 36 1 % 16 = 0 → ∃ nonce sig, nonce.length = 32 ∧
      (reqP2 m = 0 → signs (.getMeasurements p j) ([0x12, 0x60, 8, 0, 0] ++ natLE 3 0 ++ nonce ++ natLE 2 0 ++ sig)) ∧
      (1 ≤ reqP2 m → reqP2 m ≤ 8 → signs (.getMeasurements p j) ([0x12, 0x60, 0, 0, 1] ++ natLE 3 55 ++ measBlock s (reqP2 m - 1) ++
        nonce ++ natLE 2 0 ++ sig))) ∧
    (reqCode m = 0xE0 → ver 4 3 → reqP1 m % 2 = 0 → ∃ nonce, nonce.length = 32 ∧
      (reqP2 m = 0 → answers (.getMeasurements p j) ([0x12, 0x60, 8, 0, 0] ++ natLE 3 0 ++ nonce ++ natLE 2 0) d.phase) ∧
      (1 ≤ reqP2 m → reqP2 m ≤ 8 → answers (.getMeasurements p j) ([0x12, 0x60, 0, 0, 1] ++ natLE 3 55 ++ measBlock s (reqP2 m - 1) ++
        nonce ++ natLE 2 0) d.phase) ∧
      (9 ≤ reqP2 m → reqP2 m ≠ 0xFF → errs (.getMeasurements p j) 0x01 0)) ∧
    (v ≠ 0x12 → (reqCode m = 0xE1 → errs (.getCapabilities p j) 0x41 0) ∧ (reqCode m = 0xE3 → errs (.negotiateAlgorithms p j) 0x41 0) ∧
      (reqCode m = 0x81 → errs (.getDigests p j) 0x41 0) ∧ (reqCode m = 0x82 → errs (.getCertificate p j) 0x41 0) ∧
      (reqCode m = 0x83 → errs (.challenge p j) 0x41 0) ∧ (reqCode m = 0xE0 → errs (.getMeasurements p j) 0x41 0)) ∧
    (v = 0x12 → d.phase < 3 → (reqCode m = 0x81 → errs (.getDigests p j) 0x04 0) ∧ (reqCode m = 0x82 → errs (.getCertificate p j) 0x04 0) ∧
      (reqCode m = 0x83 → errs (.challenge p j) 0x04 0) ∧ (reqCode m = 0xE0 → errs (.getMeasurements p j) 0x04 0)) ∧
    (v = 0x12 → reqCode m ∉ [0x84, 0xE1, 0xE3, 0x81, 0x82, 0x83, 0xE0] → errs (.getVersion p j) 0x07 (reqCode m)))

/-! ## Decoding, steps, reset, memory -/

/-- R64 to R70: for every well-formed instruction that its core and context may execute, decoding its encoding, whatever follows, gives the instruction
with its length, page and number of prefixes. -/
def Obligations.DecodeOfEncode : Prop :=
  ∀ (x : DecCtx) (i : Instr) (rest : List Half), i.wf = true → (toEnc i).isSome = true → allowed x i = true →
    ∃ hw, decode x (encode i ++ rest) = .ok i (encode i).length (pageOf i) ((encode i).length - 1) hw

/-- R68, Table 4.7: prefix halfwords are read until one with an op below 60, at most five halfwords; five prefixes fail check 1 and the fifth is
recorded; then checks 2 to 7 in order: the order P, Q, R, I, a repeated PFX.P, PFX.Q or PFX.R, four PFX.I, a reserved page, page 0, and a page that this
kind of core does not execute; then checks 8 to 12 in order, as far as the halfwords, the kind of core and the context decide them (`Fields.failing` gives
each check's table); an instruction that fails none decodes. R69, Table 4.8: an encoding that fails a check traps with `illegal`, `trap.pc` at its first
halfword and the fields in `trap.val`, and has no other effect, whatever the guards (R70). R71: a PC at or beyond the end of the slice, and prefixes that
reach it, trap with `window`. R132: a fetch that no guard grants traps with `priv`, unless the instruction fails a check 11 or 12 that is made where it
stands (R70); R111: an uncorrectable word with `datauc`.
Clauses of it rest on readings and choices of the model: log entries 8, 10, 13 and 19. -/
def Obligations.IllegalInstructions : Prop :=
  (∀ (x : DecCtx) (ps rest : List Half) (h : Half), (∀ p ∈ ps, 60 ≤ p.toNat / 1024) → ps.length ≤ 4 →
      let rank (p : Half) : Nat := if p.toNat / 1024 = 62 then 0 else if p.toNat / 1024 = 63 then 1 else if p.toNat / 1024 = 61 then 2 else 3
      let n (r : Nat) : Nat := (ps.map rank).count r
      let page := ((ps ++ [h]).find? (fun p => p.toNat / 1024 == 62)).elim 0 (fun p => p.toNat % 1024)
      let fails (r : Nat) : Prop := decode x (ps ++ h :: rest) = .illegal r page ps.length h
      let ordered : Prop := (ps.map rank).Pairwise (· ≤ ·)
      let once : Prop := n 0 ≤ 1 ∧ n 1 ≤ 1 ∧ n 2 ≤ 1
      (60 ≤ h.toNat / 1024 → ps.length = 4 → fails 1) ∧
      (h.toNat / 1024 < 60 →
        (¬ordered → fails 2) ∧ (ordered → ¬once → fails 3) ∧ (ordered → once → 4 ≤ n 3 → fails 4) ∧
        (ordered → once → n 3 ≤ 3 → n 0 = 1 → (7 ≤ page → fails 5) ∧ (page = 0 → fails 6)) ∧
        (ordered → once → n 3 ≤ 3 → ((x.kind = .worker ∧ page = 6) ∨ (x.kind = .memory ∧ page ∈ [1, 2, 5]) ∨ (x.kind = .control ∧ page ∈ [1, 2, 6])) →
          fails 7) ∧
        (ordered → once → n 3 ≤ 3 → (n 0 = 1 → 1 ≤ page ∧ page ≤ 6) →
          ¬((x.kind = .worker ∧ page = 6) ∨ (x.kind = .memory ∧ page ∈ [1, 2, 5]) ∨ (x.kind = .control ∧ page ∈ [1, 2, 6])) →
          (∀ r, (Fields.of ps h).failing x = some r → fails r) ∧
          ((Fields.of ps h).failing x = none → ∃ i, decode x (ps ++ h :: rest) = .ok i (ps.length + 1) page ps.length h)))) ∧
  (∀ (s : State),
      let w := self s
      let k := s.coreAt w.i
      let pc := (s.pcOf w).toNat
      let hs := rdBs s.mem (localBase w.i + pc) 10
      let bad (n : Nat) : Option Nat := badAt s.bad (localBase w.i + pc) (2 * n) (fun _ => false)
      let traps (s1 : State) (cause : Nat) (val : Word) : Prop :=
        ∃ t, step s = .next (tick t) ∧ trapTaken s1 t w.i (trapLevel s w.i) cause val (s.pcOf w)
      s.event = none → s.powered = true → runs k 0 = true → boundaryHere s = none → softwareTurn s s.curCore = none → s.curCtx = 0 → k.ctl.fbuf = [] →
      k.gang = none → k.bound = none → k.slip = none → k.seqr.toCap = 0 → trapOpen s w.i →
        (∀ rsn page n hw, pc + 10 ≤ localSize w.i → decodeBytes ⟨kindOf w.i, false⟩ hs = .illegal rsn page n hw → bad (n + 1) = none →
          traps { s with cur := ⟨n + 1, page, n, hw, none⟩ } 1 (BitVec.ofNat 64 (page * 2 ^ 24 + rsn * 2 ^ 20 + n * 2 ^ 16 + hw.toNat))) ∧
        (localSize w.i ≤ pc → traps { s with cur := {} } 4 (w64 pc)) ∧
        (∀ m, 1 ≤ m → m ≤ 4 → pc + 2 * m = localSize w.i →
          (∀ j, j < m → 60 ≤ (leNat (rdBs s.mem (localBase w.i + pc + 2 * j) 2)) / 1024) →
          traps { s with cur := {} } 4 (w64 (localSize w.i))) ∧
        (∀ i len page n hw, pc + 10 ≤ localSize w.i → decodeBytes ⟨kindOf w.i, false⟩ hs = .ok i len page n hw →
          (guardOk k .fetch pc (2 * len) = false → bad len ≠ none → traps { s with cur := {} } 2 (w64 pc)) ∧
          (guardOk k .fetch pc (2 * len) = false → bad len = none → unheld { s with cur := ⟨len, page, n, hw, none⟩ } w i = true →
            let s1 := { s with cur := ⟨len, page, n, hw, some (2, w64 pc)⟩ }
            traps s1 2 (w64 pc) ∨ traps s1 1 (illegalVal s1 11) ∨ traps s1 1 (illegalVal s1 12)) ∧
          (∀ o, i = .add o → guardOk k .fetch pc (2 * len) = false → bad len = none → unheld { s with cur := ⟨len, page, n, hw, none⟩ } w i = true →
            traps { s with cur := ⟨len, page, n, hw, some (2, w64 pc)⟩ } 2 (w64 pc)) ∧
          (guardOk k .fetch pc (2 * len) = true → ∀ j, bad len = some j →
            let fw := (localBase w.i + pc + j) / 8
            s.reported.contains fw = false →
              traps { s with cur := {}, reported := if w.i < 4096 then fw :: s.reported else s.reported } 0x0C (w64 ((pc + j) / 8 * 8)))))

/-- Words written out from the encodings of spec/04, spec/05, spec/06, spec/13, spec/19, spec/23 decode to the instructions that the spec gives for
them.
Clauses of it rest on readings and choices of the model: log entry 10. -/
def Obligations.DecodedWords : Prop :=
  decode ⟨.worker, false⟩ [0x60A7] = .ok (.li 5 7) 1 0 0 0x60A7 ∧
  decode ⟨.worker, false⟩ [0xF008, 0x6080] = .ok (.li 4 0x100) 2 0 1 0x6080 ∧
  decode ⟨.worker, false⟩ [0xF801, 0xE800] = .ok .vwait 2 1 1 0xE800 ∧
  decode ⟨.worker, false⟩ [0xF801, 0xE064] = .ok (.vrep 3 4) 2 1 1 0xE064 ∧
  decode ⟨.worker, false⟩ [0xF805, 0x4064] = .ok (.xreq 3 4) 2 5 1 0x4064 ∧
  decode ⟨.worker, false⟩ [0xF805, 0x44C0] = .ok (.xres 6) 2 5 1 0x44C0 ∧
  decode ⟨.worker, false⟩ [0xF805, 0x8064] = .ok (.npost 3 4) 2 5 1 0x8064 ∧
  decode ⟨.worker, false⟩ [0xF805, 0x84C7] = .ok (.npoll 6 7) 2 5 1 0x84C7 ∧
  decode ⟨.worker, false⟩ [0xF803, 0x54C4] = .ok (.pop 6 4) 2 3 1 0x54C4

/-- The instruction whose bytes stand at the PC, with an empty fetch buffer, is the one that a step of its context executes, after the fetch buffer is
filled; then the clock and the turn move on. A hardware event is performed likewise, and without power only POWER_ON acts (R73, R407). Before its
instruction, what software of the control complex does on a turn (R409, R427), a lulled load that a freeze held back (R38) and what the boundary takes
come first. R38: the turn passes to a core's control context whenever that is ready.
Clauses of it rest on readings and choices of the model: log entries 4, 5, 8, 56 and 113. -/
def Obligations.StepRunsDecoded : Prop :=
  ∀ (s : State),
    let w := self s
    let pc := (s.pcOf w).toNat
    let fs (f : Fetched) : State := { turned (refill s w f.len) with cur := f }
    let fetched (len page n : Nat) (hw : Half) : State := fs ⟨len, page, n, hw, none⟩
    let own : Prop := s.event = none ∧ s.powered = true ∧ softwareTurn s s.curCore = none ∧ thawed s s.curCore s.curCtx = none ∧ follows s = false
    (∀ i len page n hw, own → runs (s.coreAt s.curCore) s.curCtx = true → boundaryHere s = none → w.c ≤ 10 →
      (s.ctxAt w).fbuf = [] → pc + 10 ≤ localSize w.i →
      decodeBytes ⟨kindOf w.i, w.c != 0⟩ (rdBs s.mem (localBase w.i + pc) 10) = .ok i len page n hw →
      guardOk (s.coreAt w.i) .fetch pc (2 * len) = true → badAt s.bad (localBase w.i + pc) (2 * len) (fun _ => false) = none →
        step s = ticked (exec i (fetched len page n hw)) ∧
        (fetched len page n hw).mem = s.mem ∧ (∀ r, (fetched len page n hw).rd w r = s.rd w r) ∧ (fetched len page n hw).pcOf w = s.pcOf w ∧
        (fetched len page n hw).curCore = s.curCore ∧ (fetched len page n hw).curCtx = s.curCtx ∧
        (s.curCtx ≠ 0 → ((fetched len page n hw).coreAt s.curCore).rot = s.curCtx - 1) ∧
        ∀ j, j ≠ w.i → (fetched len page n hw).coreAt j = s.coreAt j) ∧
    (∀ s', own → boundaryHere s = some s' → step s = .next (tick s')) ∧
    (own → boundaryHere s = none → runs (s.coreAt s.curCore) s.curCtx = false → step s = .next (tick s)) ∧
    (∀ s', s.event = none → s.powered = true → softwareTurn s s.curCore = some s' → step s = .next (tick s')) ∧
    (∀ v, s.event = none → s.powered = true → softwareTurn s s.curCore = none → thawed s s.curCore s.curCtx = some v →
      step s = .next (tick (completeLull s s.curCore s.curCtx v))) ∧
    (∀ e, s.event = some e → s.powered = true → step s = ticked (exec e s)) ∧
    (∀ e, s.event = some e → s.powered = false → isPowerOn e = false → step s = .next (tick s)) ∧
    (s.event = some .powerOn → s.powered = false → step s = ticked (exec .powerOn s)) ∧
    (∀ t, ticked (.next t) = .next (tick t) ∧ (tick t).mem = t.mem ∧ (t.sysOut = [] → (tick t).cores = t.cores) ∧ ((tick t).cores = t.cores ∨ ∃ p c, Config.portAct t.stepNo = some (.abort p c)) ∧ t.cyc ≤ (tick t).cyc ∧
      (tick t).stepNo = t.stepNo + 1 ∧
      (tick t).curCtx = nextCtx (tick t)) ∧
    ((∀ c, thawed s s.curCore c = none) → Config.stalled s.stepNo 0 = false → acts { s with curCtx := 0 } = true → nextCtx s = 0)

/-- The memory's canonical form holds of every state that a step reaches from a state that has it.
Clauses of it rest on readings and choices of the model: log entry 1. -/
def Obligations.MemoryFormKept : Prop :=
  ∀ (s t : State), s.wf → step s = .next t → t.wf

/-- Reset: the memory's form holds; no power, no task; the registers to which the spec gives a reset value hold it: `st`, `trap.pc`, `trap.cause`,
`trap.val`, `trap.vec` (R149, R150), `ui.vec`, `ui.id`, `ui.en`, `spec.st`, `spec.rb`, `lg.peer`, `lg.lim`, `lg.seq`, the region guards, `sr.seed`,
`ptmr`, the Milium port number (R378), the window table, `plim`, `pcap` (Tables 25.10, 25.11) and the measurement registers (R410).
Clauses of it rest on readings and choices of the model: log entries 1 (memory), 2 (cores idle, tables, queues and lists empty) and 3. -/
def Obligations.ResetValues : Prop :=
  let s := State.reset
  s.wf ∧ s.powered = false ∧ s.tasks = [] ∧ s.mem = [] ∧ s.bad = [] ∧ s.mesh = [] ∧ s.wtab = [] ∧ s.plim = 2800 ∧ s.cap = 3 ∧ s.pw = 0 ∧ s.cyc = 0 ∧
  (∀ j, vget s.meas j 0 = 0) ∧ (∀ p, (s.portAt p).mport = 0 ∧ (s.portAt p).conns = []) ∧
  ∀ i, let k := s.coreAt i
    (∀ l, vget k.banks l {} = {}) ∧ k.uiVec = 0 ∧ k.uiId = 0 ∧ k.uiEn = false ∧ k.uiAct = false ∧ k.uiLs = false ∧ k.ncom = 0 ∧ k.nrb = 0 ∧
    k.spLv = 0 ∧ k.spRb = false ∧ k.specRb = 0 ∧ k.lg = {} ∧ k.seed = 0 ∧ k.ptmr = 0 ∧ (∀ j, vget k.grd j 0 = 0) ∧ k.root = 0 ∧ k.run = .idle
end

