-- ==== Sys2Proof/Laws/State.lean ====
section
/-!
SUPPORT. One lemma per field per update of the state record, of a core and of a context.
-/
namespace Sys2Proof.Machine


/-! Fields of the state under `setCore` -/

@[simp] theorem State.setCore_powered (s : State) (i : Nat) (k : Core) : (s.setCore i k).powered = s.powered := rfl
@[simp] theorem State.setCore_clusters (s : State) (i : Nat) (k : Core) : (s.setCore i k).clusters = s.clusters := rfl
@[simp] theorem State.setCore_mem (s : State) (i : Nat) (k : Core) : (s.setCore i k).mem = s.mem := rfl
@[simp] theorem State.setCore_bad (s : State) (i : Nat) (k : Core) : (s.setCore i k).bad = s.bad := rfl
@[simp] theorem State.setCore_reported (s : State) (i : Nat) (k : Core) : (s.setCore i k).reported = s.reported := rfl
@[simp] theorem State.setCore_corrected (s : State) (i : Nat) (k : Core) : (s.setCore i k).corrected = s.corrected := rfl
@[simp] theorem State.setCore_tags (s : State) (i : Nat) (k : Core) : (s.setCore i k).tags = s.tags := rfl
@[simp] theorem State.setCore_rounds (s : State) (i : Nat) (k : Core) : (s.setCore i k).rounds = s.rounds := rfl
@[simp] theorem State.setCore_mesh (s : State) (i : Nat) (k : Core) : (s.setCore i k).mesh = s.mesh := rfl
@[simp] theorem State.setCore_copies (s : State) (i : Nat) (k : Core) : (s.setCore i k).copies = s.copies := rfl
@[simp] theorem State.setCore_pageCnt (s : State) (i : Nat) (k : Core) : (s.setCore i k).pageCnt = s.pageCnt := rfl
@[simp] theorem State.setCore_migRep (s : State) (i : Nat) (k : Core) : (s.setCore i k).migRep = s.migRep := rfl
@[simp] theorem State.setCore_ports (s : State) (i : Nat) (k : Core) : (s.setCore i k).ports = s.ports := rfl
@[simp] theorem State.setCore_sysOut (s : State) (i : Nat) (k : Core) : (s.setCore i k).sysOut = s.sysOut := rfl
@[simp] theorem State.setCore_out (s : State) (i : Nat) (k : Core) : (s.setCore i k).out = s.out := rfl
@[simp] theorem State.setCore_rects (s : State) (i : Nat) (k : Core) : (s.setCore i k).rects = s.rects := rfl
@[simp] theorem State.setCore_redirs (s : State) (i : Nat) (k : Core) : (s.setCore i k).redirs = s.redirs := rfl
@[simp] theorem State.setCore_wtab (s : State) (i : Nat) (k : Core) : (s.setCore i k).wtab = s.wtab := rfl
@[simp] theorem State.setCore_grants (s : State) (i : Nat) (k : Core) : (s.setCore i k).grants = s.grants := rfl
@[simp] theorem State.setCore_cbind (s : State) (i : Nat) (k : Core) : (s.setCore i k).cbind = s.cbind := rfl
@[simp] theorem State.setCore_qbind (s : State) (i : Nat) (k : Core) : (s.setCore i k).qbind = s.qbind := rfl
@[simp] theorem State.setCore_mgmt (s : State) (i : Nat) (k : Core) : (s.setCore i k).mgmt = s.mgmt := rfl
@[simp] theorem State.setCore_queues (s : State) (i : Nat) (k : Core) : (s.setCore i k).queues = s.queues := rfl
@[simp] theorem State.setCore_tasks (s : State) (i : Nat) (k : Core) : (s.setCore i k).tasks = s.tasks := rfl
@[simp] theorem State.setCore_admitted (s : State) (i : Nat) (k : Core) : (s.setCore i k).admitted = s.admitted := rfl
@[simp] theorem State.setCore_buckets (s : State) (i : Nat) (k : Core) : (s.setCore i k).buckets = s.buckets := rfl
@[simp] theorem State.setCore_pools (s : State) (i : Nat) (k : Core) : (s.setCore i k).pools = s.pools := rfl
@[simp] theorem State.setCore_keys (s : State) (i : Nat) (k : Core) : (s.setCore i k).keys = s.keys := rfl
@[simp] theorem State.setCore_meas (s : State) (i : Nat) (k : Core) : (s.setCore i k).meas = s.meas := rfl
@[simp] theorem State.setCore_ext (s : State) (i : Nat) (k : Core) : (s.setCore i k).ext = s.ext := rfl
@[simp] theorem State.setCore_sdig (s : State) (i : Nat) (k : Core) : (s.setCore i k).sdig = s.sdig := rfl
@[simp] theorem State.setCore_sdigN (s : State) (i : Nat) (k : Core) : (s.setCore i k).sdigN = s.sdigN := rfl
@[simp] theorem State.setCore_plim (s : State) (i : Nat) (k : Core) : (s.setCore i k).plim = s.plim := rfl
@[simp] theorem State.setCore_pw (s : State) (i : Nat) (k : Core) : (s.setCore i k).pw = s.pw := rfl
@[simp] theorem State.setCore_cap (s : State) (i : Nat) (k : Core) : (s.setCore i k).cap = s.cap := rfl
@[simp] theorem State.setCore_lowRun (s : State) (i : Nat) (k : Core) : (s.setCore i k).lowRun = s.lowRun := rfl
@[simp] theorem State.setCore_sinceLow (s : State) (i : Nat) (k : Core) : (s.setCore i k).sinceLow = s.sinceLow := rfl
@[simp] theorem State.setCore_launchQ (s : State) (i : Nat) (k : Core) : (s.setCore i k).launchQ = s.launchQ := rfl
@[simp] theorem State.setCore_holds (s : State) (i : Nat) (k : Core) : (s.setCore i k).holds = s.holds := rfl
@[simp] theorem State.setCore_ratios (s : State) (i : Nat) (k : Core) : (s.setCore i k).ratios = s.ratios := rfl
@[simp] theorem State.setCore_borders (s : State) (i : Nat) (k : Core) : (s.setCore i k).borders = s.borders := rfl
@[simp] theorem State.setCore_moving (s : State) (i : Nat) (k : Core) : (s.setCore i k).moving = s.moving := rfl
@[simp] theorem State.setCore_leaving (s : State) (i : Nat) (k : Core) : (s.setCore i k).leaving = s.leaving := rfl
@[simp] theorem State.setCore_returned (s : State) (i : Nat) (k : Core) : (s.setCore i k).returned = s.returned := rfl
@[simp] theorem State.setCore_plug (s : State) (i : Nat) (k : Core) : (s.setCore i k).plug = s.plug := rfl
@[simp] theorem State.setCore_plugRej (s : State) (i : Nat) (k : Core) : (s.setCore i k).plugRej = s.plugRej := rfl
@[simp] theorem State.setCore_bands (s : State) (i : Nat) (k : Core) : (s.setCore i k).bands = s.bands := rfl
@[simp] theorem State.setCore_saved (s : State) (i : Nat) (k : Core) : (s.setCore i k).saved = s.saved := rfl
@[simp] theorem State.setCore_spdm (s : State) (i : Nat) (k : Core) : (s.setCore i k).spdm = s.spdm := rfl
@[simp] theorem State.setCore_vers (s : State) (i : Nat) (k : Core) : (s.setCore i k).vers = s.vers := rfl
@[simp] theorem State.setCore_sched (s : State) (i : Nat) (k : Core) : (s.setCore i k).sched = s.sched := rfl
@[simp] theorem State.setCore_pairLost (s : State) (i : Nat) (k : Core) : (s.setCore i k).pairLost = s.pairLost := rfl
@[simp] theorem State.setCore_nTok (s : State) (i : Nat) (k : Core) : (s.setCore i k).nTok = s.nTok := rfl
@[simp] theorem State.setCore_nBud (s : State) (i : Nat) (k : Core) : (s.setCore i k).nBud = s.nBud := rfl
@[simp] theorem State.setCore_nRat (s : State) (i : Nat) (k : Core) : (s.setCore i k).nRat = s.nRat := rfl
@[simp] theorem State.setCore_bootfail (s : State) (i : Nat) (k : Core) : (s.setCore i k).bootfail = s.bootfail := rfl
@[simp] theorem State.setCore_nextId (s : State) (i : Nat) (k : Core) : (s.setCore i k).nextId = s.nextId := rfl
@[simp] theorem State.setCore_cyc (s : State) (i : Nat) (k : Core) : (s.setCore i k).cyc = s.cyc := rfl
@[simp] theorem State.setCore_stepNo (s : State) (i : Nat) (k : Core) : (s.setCore i k).stepNo = s.stepNo := rfl
@[simp] theorem State.setCore_newCyc (s : State) (i : Nat) (k : Core) : (s.setCore i k).newCyc = s.newCyc := rfl
@[simp] theorem State.setCore_event (s : State) (i : Nat) (k : Core) : (s.setCore i k).event = s.event := rfl
@[simp] theorem State.setCore_curCore (s : State) (i : Nat) (k : Core) : (s.setCore i k).curCore = s.curCore := rfl
@[simp] theorem State.setCore_curCtx (s : State) (i : Nat) (k : Core) : (s.setCore i k).curCtx = s.curCtx := rfl
@[simp] theorem State.setCore_cur (s : State) (i : Nat) (k : Core) : (s.setCore i k).cur = s.cur := rfl
@[simp] theorem State.setCore_freeNo (s : State) (i : Nat) (k : Core) : (s.setCore i k).freeNo = s.freeNo := rfl

/-! Fields of the state under `setCluster` -/

@[simp] theorem State.setCluster_powered (s : State) (i : Nat) (k : Cluster) : (s.setCluster i k).powered = s.powered := rfl
@[simp] theorem State.setCluster_cores (s : State) (i : Nat) (k : Cluster) : (s.setCluster i k).cores = s.cores := rfl
@[simp] theorem State.setCluster_mem (s : State) (i : Nat) (k : Cluster) : (s.setCluster i k).mem = s.mem := rfl
@[simp] theorem State.setCluster_bad (s : State) (i : Nat) (k : Cluster) : (s.setCluster i k).bad = s.bad := rfl
@[simp] theorem State.setCluster_reported (s : State) (i : Nat) (k : Cluster) : (s.setCluster i k).reported = s.reported := rfl
@[simp] theorem State.setCluster_corrected (s : State) (i : Nat) (k : Cluster) : (s.setCluster i k).corrected = s.corrected := rfl
@[simp] theorem State.setCluster_tags (s : State) (i : Nat) (k : Cluster) : (s.setCluster i k).tags = s.tags := rfl
@[simp] theorem State.setCluster_rounds (s : State) (i : Nat) (k : Cluster) : (s.setCluster i k).rounds = s.rounds := rfl
@[simp] theorem State.setCluster_mesh (s : State) (i : Nat) (k : Cluster) : (s.setCluster i k).mesh = s.mesh := rfl
@[simp] theorem State.setCluster_copies (s : State) (i : Nat) (k : Cluster) : (s.setCluster i k).copies = s.copies := rfl
@[simp] theorem State.setCluster_pageCnt (s : State) (i : Nat) (k : Cluster) : (s.setCluster i k).pageCnt = s.pageCnt := rfl
@[simp] theorem State.setCluster_migRep (s : State) (i : Nat) (k : Cluster) : (s.setCluster i k).migRep = s.migRep := rfl
@[simp] theorem State.setCluster_ports (s : State) (i : Nat) (k : Cluster) : (s.setCluster i k).ports = s.ports := rfl
@[simp] theorem State.setCluster_sysOut (s : State) (i : Nat) (k : Cluster) : (s.setCluster i k).sysOut = s.sysOut := rfl
@[simp] theorem State.setCluster_out (s : State) (i : Nat) (k : Cluster) : (s.setCluster i k).out = s.out := rfl
@[simp] theorem State.setCluster_rects (s : State) (i : Nat) (k : Cluster) : (s.setCluster i k).rects = s.rects := rfl
@[simp] theorem State.setCluster_redirs (s : State) (i : Nat) (k : Cluster) : (s.setCluster i k).redirs = s.redirs := rfl
@[simp] theorem State.setCluster_wtab (s : State) (i : Nat) (k : Cluster) : (s.setCluster i k).wtab = s.wtab := rfl
@[simp] theorem State.setCluster_grants (s : State) (i : Nat) (k : Cluster) : (s.setCluster i k).grants = s.grants := rfl
@[simp] theorem State.setCluster_cbind (s : State) (i : Nat) (k : Cluster) : (s.setCluster i k).cbind = s.cbind := rfl
@[simp] theorem State.setCluster_qbind (s : State) (i : Nat) (k : Cluster) : (s.setCluster i k).qbind = s.qbind := rfl
@[simp] theorem State.setCluster_mgmt (s : State) (i : Nat) (k : Cluster) : (s.setCluster i k).mgmt = s.mgmt := rfl
@[simp] theorem State.setCluster_queues (s : State) (i : Nat) (k : Cluster) : (s.setCluster i k).queues = s.queues := rfl
@[simp] theorem State.setCluster_tasks (s : State) (i : Nat) (k : Cluster) : (s.setCluster i k).tasks = s.tasks := rfl
@[simp] theorem State.setCluster_admitted (s : State) (i : Nat) (k : Cluster) : (s.setCluster i k).admitted = s.admitted := rfl
@[simp] theorem State.setCluster_buckets (s : State) (i : Nat) (k : Cluster) : (s.setCluster i k).buckets = s.buckets := rfl
@[simp] theorem State.setCluster_pools (s : State) (i : Nat) (k : Cluster) : (s.setCluster i k).pools = s.pools := rfl
@[simp] theorem State.setCluster_keys (s : State) (i : Nat) (k : Cluster) : (s.setCluster i k).keys = s.keys := rfl
@[simp] theorem State.setCluster_meas (s : State) (i : Nat) (k : Cluster) : (s.setCluster i k).meas = s.meas := rfl
@[simp] theorem State.setCluster_ext (s : State) (i : Nat) (k : Cluster) : (s.setCluster i k).ext = s.ext := rfl
@[simp] theorem State.setCluster_sdig (s : State) (i : Nat) (k : Cluster) : (s.setCluster i k).sdig = s.sdig := rfl
@[simp] theorem State.setCluster_sdigN (s : State) (i : Nat) (k : Cluster) : (s.setCluster i k).sdigN = s.sdigN := rfl
@[simp] theorem State.setCluster_plim (s : State) (i : Nat) (k : Cluster) : (s.setCluster i k).plim = s.plim := rfl
@[simp] theorem State.setCluster_pw (s : State) (i : Nat) (k : Cluster) : (s.setCluster i k).pw = s.pw := rfl
@[simp] theorem State.setCluster_cap (s : State) (i : Nat) (k : Cluster) : (s.setCluster i k).cap = s.cap := rfl
@[simp] theorem State.setCluster_lowRun (s : State) (i : Nat) (k : Cluster) : (s.setCluster i k).lowRun = s.lowRun := rfl
@[simp] theorem State.setCluster_sinceLow (s : State) (i : Nat) (k : Cluster) : (s.setCluster i k).sinceLow = s.sinceLow := rfl
@[simp] theorem State.setCluster_launchQ (s : State) (i : Nat) (k : Cluster) : (s.setCluster i k).launchQ = s.launchQ := rfl
@[simp] theorem State.setCluster_holds (s : State) (i : Nat) (k : Cluster) : (s.setCluster i k).holds = s.holds := rfl
@[simp] theorem State.setCluster_ratios (s : State) (i : Nat) (k : Cluster) : (s.setCluster i k).ratios = s.ratios := rfl
@[simp] theorem State.setCluster_borders (s : State) (i : Nat) (k : Cluster) : (s.setCluster i k).borders = s.borders := rfl
@[simp] theorem State.setCluster_moving (s : State) (i : Nat) (k : Cluster) : (s.setCluster i k).moving = s.moving := rfl
@[simp] theorem State.setCluster_leaving (s : State) (i : Nat) (k : Cluster) : (s.setCluster i k).leaving = s.leaving := rfl
@[simp] theorem State.setCluster_returned (s : State) (i : Nat) (k : Cluster) : (s.setCluster i k).returned = s.returned := rfl
@[simp] theorem State.setCluster_plug (s : State) (i : Nat) (k : Cluster) : (s.setCluster i k).plug = s.plug := rfl
@[simp] theorem State.setCluster_plugRej (s : State) (i : Nat) (k : Cluster) : (s.setCluster i k).plugRej = s.plugRej := rfl
@[simp] theorem State.setCluster_bands (s : State) (i : Nat) (k : Cluster) : (s.setCluster i k).bands = s.bands := rfl
@[simp] theorem State.setCluster_saved (s : State) (i : Nat) (k : Cluster) : (s.setCluster i k).saved = s.saved := rfl
@[simp] theorem State.setCluster_spdm (s : State) (i : Nat) (k : Cluster) : (s.setCluster i k).spdm = s.spdm := rfl
@[simp] theorem State.setCluster_vers (s : State) (i : Nat) (k : Cluster) : (s.setCluster i k).vers = s.vers := rfl
@[simp] theorem State.setCluster_sched (s : State) (i : Nat) (k : Cluster) : (s.setCluster i k).sched = s.sched := rfl
@[simp] theorem State.setCluster_pairLost (s : State) (i : Nat) (k : Cluster) : (s.setCluster i k).pairLost = s.pairLost := rfl
@[simp] theorem State.setCluster_nTok (s : State) (i : Nat) (k : Cluster) : (s.setCluster i k).nTok = s.nTok := rfl
@[simp] theorem State.setCluster_nBud (s : State) (i : Nat) (k : Cluster) : (s.setCluster i k).nBud = s.nBud := rfl
@[simp] theorem State.setCluster_nRat (s : State) (i : Nat) (k : Cluster) : (s.setCluster i k).nRat = s.nRat := rfl
@[simp] theorem State.setCluster_bootfail (s : State) (i : Nat) (k : Cluster) : (s.setCluster i k).bootfail = s.bootfail := rfl
@[simp] theorem State.setCluster_nextId (s : State) (i : Nat) (k : Cluster) : (s.setCluster i k).nextId = s.nextId := rfl
@[simp] theorem State.setCluster_cyc (s : State) (i : Nat) (k : Cluster) : (s.setCluster i k).cyc = s.cyc := rfl
@[simp] theorem State.setCluster_stepNo (s : State) (i : Nat) (k : Cluster) : (s.setCluster i k).stepNo = s.stepNo := rfl
@[simp] theorem State.setCluster_newCyc (s : State) (i : Nat) (k : Cluster) : (s.setCluster i k).newCyc = s.newCyc := rfl
@[simp] theorem State.setCluster_event (s : State) (i : Nat) (k : Cluster) : (s.setCluster i k).event = s.event := rfl
@[simp] theorem State.setCluster_curCore (s : State) (i : Nat) (k : Cluster) : (s.setCluster i k).curCore = s.curCore := rfl
@[simp] theorem State.setCluster_curCtx (s : State) (i : Nat) (k : Cluster) : (s.setCluster i k).curCtx = s.curCtx := rfl
@[simp] theorem State.setCluster_cur (s : State) (i : Nat) (k : Cluster) : (s.setCluster i k).cur = s.cur := rfl
@[simp] theorem State.setCluster_freeNo (s : State) (i : Nat) (k : Cluster) : (s.setCluster i k).freeNo = s.freeNo := rfl

/-! Fields of the state under `modCore` -/

@[simp] theorem State.modCore_powered (s : State) (i : Nat) (f : Core → Core) : (s.modCore i f).powered = s.powered := rfl
@[simp] theorem State.modCore_clusters (s : State) (i : Nat) (f : Core → Core) : (s.modCore i f).clusters = s.clusters := rfl
@[simp] theorem State.modCore_mem (s : State) (i : Nat) (f : Core → Core) : (s.modCore i f).mem = s.mem := rfl
@[simp] theorem State.modCore_bad (s : State) (i : Nat) (f : Core → Core) : (s.modCore i f).bad = s.bad := rfl
@[simp] theorem State.modCore_reported (s : State) (i : Nat) (f : Core → Core) : (s.modCore i f).reported = s.reported := rfl
@[simp] theorem State.modCore_corrected (s : State) (i : Nat) (f : Core → Core) : (s.modCore i f).corrected = s.corrected := rfl
@[simp] theorem State.modCore_tags (s : State) (i : Nat) (f : Core → Core) : (s.modCore i f).tags = s.tags := rfl
@[simp] theorem State.modCore_rounds (s : State) (i : Nat) (f : Core → Core) : (s.modCore i f).rounds = s.rounds := rfl
@[simp] theorem State.modCore_mesh (s : State) (i : Nat) (f : Core → Core) : (s.modCore i f).mesh = s.mesh := rfl
@[simp] theorem State.modCore_copies (s : State) (i : Nat) (f : Core → Core) : (s.modCore i f).copies = s.copies := rfl
@[simp] theorem State.modCore_pageCnt (s : State) (i : Nat) (f : Core → Core) : (s.modCore i f).pageCnt = s.pageCnt := rfl
@[simp] theorem State.modCore_migRep (s : State) (i : Nat) (f : Core → Core) : (s.modCore i f).migRep = s.migRep := rfl
@[simp] theorem State.modCore_ports (s : State) (i : Nat) (f : Core → Core) : (s.modCore i f).ports = s.ports := rfl
@[simp] theorem State.modCore_sysOut (s : State) (i : Nat) (f : Core → Core) : (s.modCore i f).sysOut = s.sysOut := rfl
@[simp] theorem State.modCore_out (s : State) (i : Nat) (f : Core → Core) : (s.modCore i f).out = s.out := rfl
@[simp] theorem State.modCore_rects (s : State) (i : Nat) (f : Core → Core) : (s.modCore i f).rects = s.rects := rfl
@[simp] theorem State.modCore_redirs (s : State) (i : Nat) (f : Core → Core) : (s.modCore i f).redirs = s.redirs := rfl
@[simp] theorem State.modCore_wtab (s : State) (i : Nat) (f : Core → Core) : (s.modCore i f).wtab = s.wtab := rfl
@[simp] theorem State.modCore_grants (s : State) (i : Nat) (f : Core → Core) : (s.modCore i f).grants = s.grants := rfl
@[simp] theorem State.modCore_cbind (s : State) (i : Nat) (f : Core → Core) : (s.modCore i f).cbind = s.cbind := rfl
@[simp] theorem State.modCore_qbind (s : State) (i : Nat) (f : Core → Core) : (s.modCore i f).qbind = s.qbind := rfl
@[simp] theorem State.modCore_mgmt (s : State) (i : Nat) (f : Core → Core) : (s.modCore i f).mgmt = s.mgmt := rfl
@[simp] theorem State.modCore_queues (s : State) (i : Nat) (f : Core → Core) : (s.modCore i f).queues = s.queues := rfl
@[simp] theorem State.modCore_tasks (s : State) (i : Nat) (f : Core → Core) : (s.modCore i f).tasks = s.tasks := rfl
@[simp] theorem State.modCore_admitted (s : State) (i : Nat) (f : Core → Core) : (s.modCore i f).admitted = s.admitted := rfl
@[simp] theorem State.modCore_buckets (s : State) (i : Nat) (f : Core → Core) : (s.modCore i f).buckets = s.buckets := rfl
@[simp] theorem State.modCore_pools (s : State) (i : Nat) (f : Core → Core) : (s.modCore i f).pools = s.pools := rfl
@[simp] theorem State.modCore_keys (s : State) (i : Nat) (f : Core → Core) : (s.modCore i f).keys = s.keys := rfl
@[simp] theorem State.modCore_meas (s : State) (i : Nat) (f : Core → Core) : (s.modCore i f).meas = s.meas := rfl
@[simp] theorem State.modCore_ext (s : State) (i : Nat) (f : Core → Core) : (s.modCore i f).ext = s.ext := rfl
@[simp] theorem State.modCore_sdig (s : State) (i : Nat) (f : Core → Core) : (s.modCore i f).sdig = s.sdig := rfl
@[simp] theorem State.modCore_sdigN (s : State) (i : Nat) (f : Core → Core) : (s.modCore i f).sdigN = s.sdigN := rfl
@[simp] theorem State.modCore_plim (s : State) (i : Nat) (f : Core → Core) : (s.modCore i f).plim = s.plim := rfl
@[simp] theorem State.modCore_pw (s : State) (i : Nat) (f : Core → Core) : (s.modCore i f).pw = s.pw := rfl
@[simp] theorem State.modCore_cap (s : State) (i : Nat) (f : Core → Core) : (s.modCore i f).cap = s.cap := rfl
@[simp] theorem State.modCore_lowRun (s : State) (i : Nat) (f : Core → Core) : (s.modCore i f).lowRun = s.lowRun := rfl
@[simp] theorem State.modCore_sinceLow (s : State) (i : Nat) (f : Core → Core) : (s.modCore i f).sinceLow = s.sinceLow := rfl
@[simp] theorem State.modCore_launchQ (s : State) (i : Nat) (f : Core → Core) : (s.modCore i f).launchQ = s.launchQ := rfl
@[simp] theorem State.modCore_holds (s : State) (i : Nat) (f : Core → Core) : (s.modCore i f).holds = s.holds := rfl
@[simp] theorem State.modCore_ratios (s : State) (i : Nat) (f : Core → Core) : (s.modCore i f).ratios = s.ratios := rfl
@[simp] theorem State.modCore_borders (s : State) (i : Nat) (f : Core → Core) : (s.modCore i f).borders = s.borders := rfl
@[simp] theorem State.modCore_moving (s : State) (i : Nat) (f : Core → Core) : (s.modCore i f).moving = s.moving := rfl
@[simp] theorem State.modCore_leaving (s : State) (i : Nat) (f : Core → Core) : (s.modCore i f).leaving = s.leaving := rfl
@[simp] theorem State.modCore_returned (s : State) (i : Nat) (f : Core → Core) : (s.modCore i f).returned = s.returned := rfl
@[simp] theorem State.modCore_plug (s : State) (i : Nat) (f : Core → Core) : (s.modCore i f).plug = s.plug := rfl
@[simp] theorem State.modCore_plugRej (s : State) (i : Nat) (f : Core → Core) : (s.modCore i f).plugRej = s.plugRej := rfl
@[simp] theorem State.modCore_bands (s : State) (i : Nat) (f : Core → Core) : (s.modCore i f).bands = s.bands := rfl
@[simp] theorem State.modCore_saved (s : State) (i : Nat) (f : Core → Core) : (s.modCore i f).saved = s.saved := rfl
@[simp] theorem State.modCore_spdm (s : State) (i : Nat) (f : Core → Core) : (s.modCore i f).spdm = s.spdm := rfl
@[simp] theorem State.modCore_vers (s : State) (i : Nat) (f : Core → Core) : (s.modCore i f).vers = s.vers := rfl
@[simp] theorem State.modCore_sched (s : State) (i : Nat) (f : Core → Core) : (s.modCore i f).sched = s.sched := rfl
@[simp] theorem State.modCore_pairLost (s : State) (i : Nat) (f : Core → Core) : (s.modCore i f).pairLost = s.pairLost := rfl
@[simp] theorem State.modCore_nTok (s : State) (i : Nat) (f : Core → Core) : (s.modCore i f).nTok = s.nTok := rfl
@[simp] theorem State.modCore_nBud (s : State) (i : Nat) (f : Core → Core) : (s.modCore i f).nBud = s.nBud := rfl
@[simp] theorem State.modCore_nRat (s : State) (i : Nat) (f : Core → Core) : (s.modCore i f).nRat = s.nRat := rfl
@[simp] theorem State.modCore_bootfail (s : State) (i : Nat) (f : Core → Core) : (s.modCore i f).bootfail = s.bootfail := rfl
@[simp] theorem State.modCore_nextId (s : State) (i : Nat) (f : Core → Core) : (s.modCore i f).nextId = s.nextId := rfl
@[simp] theorem State.modCore_cyc (s : State) (i : Nat) (f : Core → Core) : (s.modCore i f).cyc = s.cyc := rfl
@[simp] theorem State.modCore_stepNo (s : State) (i : Nat) (f : Core → Core) : (s.modCore i f).stepNo = s.stepNo := rfl
@[simp] theorem State.modCore_newCyc (s : State) (i : Nat) (f : Core → Core) : (s.modCore i f).newCyc = s.newCyc := rfl
@[simp] theorem State.modCore_event (s : State) (i : Nat) (f : Core → Core) : (s.modCore i f).event = s.event := rfl
@[simp] theorem State.modCore_curCore (s : State) (i : Nat) (f : Core → Core) : (s.modCore i f).curCore = s.curCore := rfl
@[simp] theorem State.modCore_curCtx (s : State) (i : Nat) (f : Core → Core) : (s.modCore i f).curCtx = s.curCtx := rfl
@[simp] theorem State.modCore_cur (s : State) (i : Nat) (f : Core → Core) : (s.modCore i f).cur = s.cur := rfl
@[simp] theorem State.modCore_freeNo (s : State) (i : Nat) (f : Core → Core) : (s.modCore i f).freeNo = s.freeNo := rfl

/-! Fields of the state under `modCluster` -/

@[simp] theorem State.modCluster_powered (s : State) (i : Nat) (f : Cluster → Cluster) : (s.modCluster i f).powered = s.powered := rfl
@[simp] theorem State.modCluster_cores (s : State) (i : Nat) (f : Cluster → Cluster) : (s.modCluster i f).cores = s.cores := rfl
@[simp] theorem State.modCluster_mem (s : State) (i : Nat) (f : Cluster → Cluster) : (s.modCluster i f).mem = s.mem := rfl
@[simp] theorem State.modCluster_bad (s : State) (i : Nat) (f : Cluster → Cluster) : (s.modCluster i f).bad = s.bad := rfl
@[simp] theorem State.modCluster_reported (s : State) (i : Nat) (f : Cluster → Cluster) : (s.modCluster i f).reported = s.reported := rfl
@[simp] theorem State.modCluster_corrected (s : State) (i : Nat) (f : Cluster → Cluster) : (s.modCluster i f).corrected = s.corrected := rfl
@[simp] theorem State.modCluster_tags (s : State) (i : Nat) (f : Cluster → Cluster) : (s.modCluster i f).tags = s.tags := rfl
@[simp] theorem State.modCluster_rounds (s : State) (i : Nat) (f : Cluster → Cluster) : (s.modCluster i f).rounds = s.rounds := rfl
@[simp] theorem State.modCluster_mesh (s : State) (i : Nat) (f : Cluster → Cluster) : (s.modCluster i f).mesh = s.mesh := rfl
@[simp] theorem State.modCluster_copies (s : State) (i : Nat) (f : Cluster → Cluster) : (s.modCluster i f).copies = s.copies := rfl
@[simp] theorem State.modCluster_pageCnt (s : State) (i : Nat) (f : Cluster → Cluster) : (s.modCluster i f).pageCnt = s.pageCnt := rfl
@[simp] theorem State.modCluster_migRep (s : State) (i : Nat) (f : Cluster → Cluster) : (s.modCluster i f).migRep = s.migRep := rfl
@[simp] theorem State.modCluster_ports (s : State) (i : Nat) (f : Cluster → Cluster) : (s.modCluster i f).ports = s.ports := rfl
@[simp] theorem State.modCluster_sysOut (s : State) (i : Nat) (f : Cluster → Cluster) : (s.modCluster i f).sysOut = s.sysOut := rfl
@[simp] theorem State.modCluster_out (s : State) (i : Nat) (f : Cluster → Cluster) : (s.modCluster i f).out = s.out := rfl
@[simp] theorem State.modCluster_rects (s : State) (i : Nat) (f : Cluster → Cluster) : (s.modCluster i f).rects = s.rects := rfl
@[simp] theorem State.modCluster_redirs (s : State) (i : Nat) (f : Cluster → Cluster) : (s.modCluster i f).redirs = s.redirs := rfl
@[simp] theorem State.modCluster_wtab (s : State) (i : Nat) (f : Cluster → Cluster) : (s.modCluster i f).wtab = s.wtab := rfl
@[simp] theorem State.modCluster_grants (s : State) (i : Nat) (f : Cluster → Cluster) : (s.modCluster i f).grants = s.grants := rfl
@[simp] theorem State.modCluster_cbind (s : State) (i : Nat) (f : Cluster → Cluster) : (s.modCluster i f).cbind = s.cbind := rfl
@[simp] theorem State.modCluster_qbind (s : State) (i : Nat) (f : Cluster → Cluster) : (s.modCluster i f).qbind = s.qbind := rfl
@[simp] theorem State.modCluster_mgmt (s : State) (i : Nat) (f : Cluster → Cluster) : (s.modCluster i f).mgmt = s.mgmt := rfl
@[simp] theorem State.modCluster_queues (s : State) (i : Nat) (f : Cluster → Cluster) : (s.modCluster i f).queues = s.queues := rfl
@[simp] theorem State.modCluster_tasks (s : State) (i : Nat) (f : Cluster → Cluster) : (s.modCluster i f).tasks = s.tasks := rfl
@[simp] theorem State.modCluster_admitted (s : State) (i : Nat) (f : Cluster → Cluster) : (s.modCluster i f).admitted = s.admitted := rfl
@[simp] theorem State.modCluster_buckets (s : State) (i : Nat) (f : Cluster → Cluster) : (s.modCluster i f).buckets = s.buckets := rfl
@[simp] theorem State.modCluster_pools (s : State) (i : Nat) (f : Cluster → Cluster) : (s.modCluster i f).pools = s.pools := rfl
@[simp] theorem State.modCluster_keys (s : State) (i : Nat) (f : Cluster → Cluster) : (s.modCluster i f).keys = s.keys := rfl
@[simp] theorem State.modCluster_meas (s : State) (i : Nat) (f : Cluster → Cluster) : (s.modCluster i f).meas = s.meas := rfl
@[simp] theorem State.modCluster_ext (s : State) (i : Nat) (f : Cluster → Cluster) : (s.modCluster i f).ext = s.ext := rfl
@[simp] theorem State.modCluster_sdig (s : State) (i : Nat) (f : Cluster → Cluster) : (s.modCluster i f).sdig = s.sdig := rfl
@[simp] theorem State.modCluster_sdigN (s : State) (i : Nat) (f : Cluster → Cluster) : (s.modCluster i f).sdigN = s.sdigN := rfl
@[simp] theorem State.modCluster_plim (s : State) (i : Nat) (f : Cluster → Cluster) : (s.modCluster i f).plim = s.plim := rfl
@[simp] theorem State.modCluster_pw (s : State) (i : Nat) (f : Cluster → Cluster) : (s.modCluster i f).pw = s.pw := rfl
@[simp] theorem State.modCluster_cap (s : State) (i : Nat) (f : Cluster → Cluster) : (s.modCluster i f).cap = s.cap := rfl
@[simp] theorem State.modCluster_lowRun (s : State) (i : Nat) (f : Cluster → Cluster) : (s.modCluster i f).lowRun = s.lowRun := rfl
@[simp] theorem State.modCluster_sinceLow (s : State) (i : Nat) (f : Cluster → Cluster) : (s.modCluster i f).sinceLow = s.sinceLow := rfl
@[simp] theorem State.modCluster_launchQ (s : State) (i : Nat) (f : Cluster → Cluster) : (s.modCluster i f).launchQ = s.launchQ := rfl
@[simp] theorem State.modCluster_holds (s : State) (i : Nat) (f : Cluster → Cluster) : (s.modCluster i f).holds = s.holds := rfl
@[simp] theorem State.modCluster_ratios (s : State) (i : Nat) (f : Cluster → Cluster) : (s.modCluster i f).ratios = s.ratios := rfl
@[simp] theorem State.modCluster_borders (s : State) (i : Nat) (f : Cluster → Cluster) : (s.modCluster i f).borders = s.borders := rfl
@[simp] theorem State.modCluster_moving (s : State) (i : Nat) (f : Cluster → Cluster) : (s.modCluster i f).moving = s.moving := rfl
@[simp] theorem State.modCluster_leaving (s : State) (i : Nat) (f : Cluster → Cluster) : (s.modCluster i f).leaving = s.leaving := rfl
@[simp] theorem State.modCluster_returned (s : State) (i : Nat) (f : Cluster → Cluster) : (s.modCluster i f).returned = s.returned := rfl
@[simp] theorem State.modCluster_plug (s : State) (i : Nat) (f : Cluster → Cluster) : (s.modCluster i f).plug = s.plug := rfl
@[simp] theorem State.modCluster_plugRej (s : State) (i : Nat) (f : Cluster → Cluster) : (s.modCluster i f).plugRej = s.plugRej := rfl
@[simp] theorem State.modCluster_bands (s : State) (i : Nat) (f : Cluster → Cluster) : (s.modCluster i f).bands = s.bands := rfl
@[simp] theorem State.modCluster_saved (s : State) (i : Nat) (f : Cluster → Cluster) : (s.modCluster i f).saved = s.saved := rfl
@[simp] theorem State.modCluster_spdm (s : State) (i : Nat) (f : Cluster → Cluster) : (s.modCluster i f).spdm = s.spdm := rfl
@[simp] theorem State.modCluster_vers (s : State) (i : Nat) (f : Cluster → Cluster) : (s.modCluster i f).vers = s.vers := rfl
@[simp] theorem State.modCluster_sched (s : State) (i : Nat) (f : Cluster → Cluster) : (s.modCluster i f).sched = s.sched := rfl
@[simp] theorem State.modCluster_pairLost (s : State) (i : Nat) (f : Cluster → Cluster) : (s.modCluster i f).pairLost = s.pairLost := rfl
@[simp] theorem State.modCluster_nTok (s : State) (i : Nat) (f : Cluster → Cluster) : (s.modCluster i f).nTok = s.nTok := rfl
@[simp] theorem State.modCluster_nBud (s : State) (i : Nat) (f : Cluster → Cluster) : (s.modCluster i f).nBud = s.nBud := rfl
@[simp] theorem State.modCluster_nRat (s : State) (i : Nat) (f : Cluster → Cluster) : (s.modCluster i f).nRat = s.nRat := rfl
@[simp] theorem State.modCluster_bootfail (s : State) (i : Nat) (f : Cluster → Cluster) : (s.modCluster i f).bootfail = s.bootfail := rfl
@[simp] theorem State.modCluster_nextId (s : State) (i : Nat) (f : Cluster → Cluster) : (s.modCluster i f).nextId = s.nextId := rfl
@[simp] theorem State.modCluster_cyc (s : State) (i : Nat) (f : Cluster → Cluster) : (s.modCluster i f).cyc = s.cyc := rfl
@[simp] theorem State.modCluster_stepNo (s : State) (i : Nat) (f : Cluster → Cluster) : (s.modCluster i f).stepNo = s.stepNo := rfl
@[simp] theorem State.modCluster_newCyc (s : State) (i : Nat) (f : Cluster → Cluster) : (s.modCluster i f).newCyc = s.newCyc := rfl
@[simp] theorem State.modCluster_event (s : State) (i : Nat) (f : Cluster → Cluster) : (s.modCluster i f).event = s.event := rfl
@[simp] theorem State.modCluster_curCore (s : State) (i : Nat) (f : Cluster → Cluster) : (s.modCluster i f).curCore = s.curCore := rfl
@[simp] theorem State.modCluster_curCtx (s : State) (i : Nat) (f : Cluster → Cluster) : (s.modCluster i f).curCtx = s.curCtx := rfl
@[simp] theorem State.modCluster_cur (s : State) (i : Nat) (f : Cluster → Cluster) : (s.modCluster i f).cur = s.cur := rfl
@[simp] theorem State.modCluster_freeNo (s : State) (i : Nat) (f : Cluster → Cluster) : (s.modCluster i f).freeNo = s.freeNo := rfl

/-! Fields of the state under `modCtx` -/

@[simp] theorem State.modCtx_powered (s : State) (w : Who) (f : Ctx → Ctx) : (s.modCtx w f).powered = s.powered := rfl
@[simp] theorem State.modCtx_clusters (s : State) (w : Who) (f : Ctx → Ctx) : (s.modCtx w f).clusters = s.clusters := rfl
@[simp] theorem State.modCtx_mem (s : State) (w : Who) (f : Ctx → Ctx) : (s.modCtx w f).mem = s.mem := rfl
@[simp] theorem State.modCtx_bad (s : State) (w : Who) (f : Ctx → Ctx) : (s.modCtx w f).bad = s.bad := rfl
@[simp] theorem State.modCtx_reported (s : State) (w : Who) (f : Ctx → Ctx) : (s.modCtx w f).reported = s.reported := rfl
@[simp] theorem State.modCtx_corrected (s : State) (w : Who) (f : Ctx → Ctx) : (s.modCtx w f).corrected = s.corrected := rfl
@[simp] theorem State.modCtx_tags (s : State) (w : Who) (f : Ctx → Ctx) : (s.modCtx w f).tags = s.tags := rfl
@[simp] theorem State.modCtx_rounds (s : State) (w : Who) (f : Ctx → Ctx) : (s.modCtx w f).rounds = s.rounds := rfl
@[simp] theorem State.modCtx_mesh (s : State) (w : Who) (f : Ctx → Ctx) : (s.modCtx w f).mesh = s.mesh := rfl
@[simp] theorem State.modCtx_copies (s : State) (w : Who) (f : Ctx → Ctx) : (s.modCtx w f).copies = s.copies := rfl
@[simp] theorem State.modCtx_pageCnt (s : State) (w : Who) (f : Ctx → Ctx) : (s.modCtx w f).pageCnt = s.pageCnt := rfl
@[simp] theorem State.modCtx_migRep (s : State) (w : Who) (f : Ctx → Ctx) : (s.modCtx w f).migRep = s.migRep := rfl
@[simp] theorem State.modCtx_ports (s : State) (w : Who) (f : Ctx → Ctx) : (s.modCtx w f).ports = s.ports := rfl
@[simp] theorem State.modCtx_sysOut (s : State) (w : Who) (f : Ctx → Ctx) : (s.modCtx w f).sysOut = s.sysOut := rfl
@[simp] theorem State.modCtx_out (s : State) (w : Who) (f : Ctx → Ctx) : (s.modCtx w f).out = s.out := rfl
@[simp] theorem State.modCtx_rects (s : State) (w : Who) (f : Ctx → Ctx) : (s.modCtx w f).rects = s.rects := rfl
@[simp] theorem State.modCtx_redirs (s : State) (w : Who) (f : Ctx → Ctx) : (s.modCtx w f).redirs = s.redirs := rfl
@[simp] theorem State.modCtx_wtab (s : State) (w : Who) (f : Ctx → Ctx) : (s.modCtx w f).wtab = s.wtab := rfl
@[simp] theorem State.modCtx_grants (s : State) (w : Who) (f : Ctx → Ctx) : (s.modCtx w f).grants = s.grants := rfl
@[simp] theorem State.modCtx_cbind (s : State) (w : Who) (f : Ctx → Ctx) : (s.modCtx w f).cbind = s.cbind := rfl
@[simp] theorem State.modCtx_qbind (s : State) (w : Who) (f : Ctx → Ctx) : (s.modCtx w f).qbind = s.qbind := rfl
@[simp] theorem State.modCtx_mgmt (s : State) (w : Who) (f : Ctx → Ctx) : (s.modCtx w f).mgmt = s.mgmt := rfl
@[simp] theorem State.modCtx_queues (s : State) (w : Who) (f : Ctx → Ctx) : (s.modCtx w f).queues = s.queues := rfl
@[simp] theorem State.modCtx_tasks (s : State) (w : Who) (f : Ctx → Ctx) : (s.modCtx w f).tasks = s.tasks := rfl
@[simp] theorem State.modCtx_admitted (s : State) (w : Who) (f : Ctx → Ctx) : (s.modCtx w f).admitted = s.admitted := rfl
@[simp] theorem State.modCtx_buckets (s : State) (w : Who) (f : Ctx → Ctx) : (s.modCtx w f).buckets = s.buckets := rfl
@[simp] theorem State.modCtx_pools (s : State) (w : Who) (f : Ctx → Ctx) : (s.modCtx w f).pools = s.pools := rfl
@[simp] theorem State.modCtx_keys (s : State) (w : Who) (f : Ctx → Ctx) : (s.modCtx w f).keys = s.keys := rfl
@[simp] theorem State.modCtx_meas (s : State) (w : Who) (f : Ctx → Ctx) : (s.modCtx w f).meas = s.meas := rfl
@[simp] theorem State.modCtx_ext (s : State) (w : Who) (f : Ctx → Ctx) : (s.modCtx w f).ext = s.ext := rfl
@[simp] theorem State.modCtx_sdig (s : State) (w : Who) (f : Ctx → Ctx) : (s.modCtx w f).sdig = s.sdig := rfl
@[simp] theorem State.modCtx_sdigN (s : State) (w : Who) (f : Ctx → Ctx) : (s.modCtx w f).sdigN = s.sdigN := rfl
@[simp] theorem State.modCtx_plim (s : State) (w : Who) (f : Ctx → Ctx) : (s.modCtx w f).plim = s.plim := rfl
@[simp] theorem State.modCtx_pw (s : State) (w : Who) (f : Ctx → Ctx) : (s.modCtx w f).pw = s.pw := rfl
@[simp] theorem State.modCtx_cap (s : State) (w : Who) (f : Ctx → Ctx) : (s.modCtx w f).cap = s.cap := rfl
@[simp] theorem State.modCtx_lowRun (s : State) (w : Who) (f : Ctx → Ctx) : (s.modCtx w f).lowRun = s.lowRun := rfl
@[simp] theorem State.modCtx_sinceLow (s : State) (w : Who) (f : Ctx → Ctx) : (s.modCtx w f).sinceLow = s.sinceLow := rfl
@[simp] theorem State.modCtx_launchQ (s : State) (w : Who) (f : Ctx → Ctx) : (s.modCtx w f).launchQ = s.launchQ := rfl
@[simp] theorem State.modCtx_holds (s : State) (w : Who) (f : Ctx → Ctx) : (s.modCtx w f).holds = s.holds := rfl
@[simp] theorem State.modCtx_ratios (s : State) (w : Who) (f : Ctx → Ctx) : (s.modCtx w f).ratios = s.ratios := rfl
@[simp] theorem State.modCtx_borders (s : State) (w : Who) (f : Ctx → Ctx) : (s.modCtx w f).borders = s.borders := rfl
@[simp] theorem State.modCtx_moving (s : State) (w : Who) (f : Ctx → Ctx) : (s.modCtx w f).moving = s.moving := rfl
@[simp] theorem State.modCtx_leaving (s : State) (w : Who) (f : Ctx → Ctx) : (s.modCtx w f).leaving = s.leaving := rfl
@[simp] theorem State.modCtx_returned (s : State) (w : Who) (f : Ctx → Ctx) : (s.modCtx w f).returned = s.returned := rfl
@[simp] theorem State.modCtx_plug (s : State) (w : Who) (f : Ctx → Ctx) : (s.modCtx w f).plug = s.plug := rfl
@[simp] theorem State.modCtx_plugRej (s : State) (w : Who) (f : Ctx → Ctx) : (s.modCtx w f).plugRej = s.plugRej := rfl
@[simp] theorem State.modCtx_bands (s : State) (w : Who) (f : Ctx → Ctx) : (s.modCtx w f).bands = s.bands := rfl
@[simp] theorem State.modCtx_saved (s : State) (w : Who) (f : Ctx → Ctx) : (s.modCtx w f).saved = s.saved := rfl
@[simp] theorem State.modCtx_spdm (s : State) (w : Who) (f : Ctx → Ctx) : (s.modCtx w f).spdm = s.spdm := rfl
@[simp] theorem State.modCtx_vers (s : State) (w : Who) (f : Ctx → Ctx) : (s.modCtx w f).vers = s.vers := rfl
@[simp] theorem State.modCtx_sched (s : State) (w : Who) (f : Ctx → Ctx) : (s.modCtx w f).sched = s.sched := rfl
@[simp] theorem State.modCtx_pairLost (s : State) (w : Who) (f : Ctx → Ctx) : (s.modCtx w f).pairLost = s.pairLost := rfl
@[simp] theorem State.modCtx_nTok (s : State) (w : Who) (f : Ctx → Ctx) : (s.modCtx w f).nTok = s.nTok := rfl
@[simp] theorem State.modCtx_nBud (s : State) (w : Who) (f : Ctx → Ctx) : (s.modCtx w f).nBud = s.nBud := rfl
@[simp] theorem State.modCtx_nRat (s : State) (w : Who) (f : Ctx → Ctx) : (s.modCtx w f).nRat = s.nRat := rfl
@[simp] theorem State.modCtx_bootfail (s : State) (w : Who) (f : Ctx → Ctx) : (s.modCtx w f).bootfail = s.bootfail := rfl
@[simp] theorem State.modCtx_nextId (s : State) (w : Who) (f : Ctx → Ctx) : (s.modCtx w f).nextId = s.nextId := rfl
@[simp] theorem State.modCtx_cyc (s : State) (w : Who) (f : Ctx → Ctx) : (s.modCtx w f).cyc = s.cyc := rfl
@[simp] theorem State.modCtx_stepNo (s : State) (w : Who) (f : Ctx → Ctx) : (s.modCtx w f).stepNo = s.stepNo := rfl
@[simp] theorem State.modCtx_newCyc (s : State) (w : Who) (f : Ctx → Ctx) : (s.modCtx w f).newCyc = s.newCyc := rfl
@[simp] theorem State.modCtx_event (s : State) (w : Who) (f : Ctx → Ctx) : (s.modCtx w f).event = s.event := rfl
@[simp] theorem State.modCtx_curCore (s : State) (w : Who) (f : Ctx → Ctx) : (s.modCtx w f).curCore = s.curCore := rfl
@[simp] theorem State.modCtx_curCtx (s : State) (w : Who) (f : Ctx → Ctx) : (s.modCtx w f).curCtx = s.curCtx := rfl
@[simp] theorem State.modCtx_cur (s : State) (w : Who) (f : Ctx → Ctx) : (s.modCtx w f).cur = s.cur := rfl
@[simp] theorem State.modCtx_freeNo (s : State) (w : Who) (f : Ctx → Ctx) : (s.modCtx w f).freeNo = s.freeNo := rfl

/-! Fields of the state under `wr` -/

@[simp] theorem State.wr_powered (s : State) (w : Who) (r : Reg) (v : Word) : (s.wr w r v).powered = s.powered := rfl
@[simp] theorem State.wr_clusters (s : State) (w : Who) (r : Reg) (v : Word) : (s.wr w r v).clusters = s.clusters := rfl
@[simp] theorem State.wr_mem (s : State) (w : Who) (r : Reg) (v : Word) : (s.wr w r v).mem = s.mem := rfl
@[simp] theorem State.wr_bad (s : State) (w : Who) (r : Reg) (v : Word) : (s.wr w r v).bad = s.bad := rfl
@[simp] theorem State.wr_reported (s : State) (w : Who) (r : Reg) (v : Word) : (s.wr w r v).reported = s.reported := rfl
@[simp] theorem State.wr_corrected (s : State) (w : Who) (r : Reg) (v : Word) : (s.wr w r v).corrected = s.corrected := rfl
@[simp] theorem State.wr_tags (s : State) (w : Who) (r : Reg) (v : Word) : (s.wr w r v).tags = s.tags := rfl
@[simp] theorem State.wr_rounds (s : State) (w : Who) (r : Reg) (v : Word) : (s.wr w r v).rounds = s.rounds := rfl
@[simp] theorem State.wr_mesh (s : State) (w : Who) (r : Reg) (v : Word) : (s.wr w r v).mesh = s.mesh := rfl
@[simp] theorem State.wr_copies (s : State) (w : Who) (r : Reg) (v : Word) : (s.wr w r v).copies = s.copies := rfl
@[simp] theorem State.wr_pageCnt (s : State) (w : Who) (r : Reg) (v : Word) : (s.wr w r v).pageCnt = s.pageCnt := rfl
@[simp] theorem State.wr_migRep (s : State) (w : Who) (r : Reg) (v : Word) : (s.wr w r v).migRep = s.migRep := rfl
@[simp] theorem State.wr_ports (s : State) (w : Who) (r : Reg) (v : Word) : (s.wr w r v).ports = s.ports := rfl
@[simp] theorem State.wr_sysOut (s : State) (w : Who) (r : Reg) (v : Word) : (s.wr w r v).sysOut = s.sysOut := rfl
@[simp] theorem State.wr_out (s : State) (w : Who) (r : Reg) (v : Word) : (s.wr w r v).out = s.out := rfl
@[simp] theorem State.wr_rects (s : State) (w : Who) (r : Reg) (v : Word) : (s.wr w r v).rects = s.rects := rfl
@[simp] theorem State.wr_redirs (s : State) (w : Who) (r : Reg) (v : Word) : (s.wr w r v).redirs = s.redirs := rfl
@[simp] theorem State.wr_wtab (s : State) (w : Who) (r : Reg) (v : Word) : (s.wr w r v).wtab = s.wtab := rfl
@[simp] theorem State.wr_grants (s : State) (w : Who) (r : Reg) (v : Word) : (s.wr w r v).grants = s.grants := rfl
@[simp] theorem State.wr_cbind (s : State) (w : Who) (r : Reg) (v : Word) : (s.wr w r v).cbind = s.cbind := rfl
@[simp] theorem State.wr_qbind (s : State) (w : Who) (r : Reg) (v : Word) : (s.wr w r v).qbind = s.qbind := rfl
@[simp] theorem State.wr_mgmt (s : State) (w : Who) (r : Reg) (v : Word) : (s.wr w r v).mgmt = s.mgmt := rfl
@[simp] theorem State.wr_queues (s : State) (w : Who) (r : Reg) (v : Word) : (s.wr w r v).queues = s.queues := rfl
@[simp] theorem State.wr_tasks (s : State) (w : Who) (r : Reg) (v : Word) : (s.wr w r v).tasks = s.tasks := rfl
@[simp] theorem State.wr_admitted (s : State) (w : Who) (r : Reg) (v : Word) : (s.wr w r v).admitted = s.admitted := rfl
@[simp] theorem State.wr_buckets (s : State) (w : Who) (r : Reg) (v : Word) : (s.wr w r v).buckets = s.buckets := rfl
@[simp] theorem State.wr_pools (s : State) (w : Who) (r : Reg) (v : Word) : (s.wr w r v).pools = s.pools := rfl
@[simp] theorem State.wr_keys (s : State) (w : Who) (r : Reg) (v : Word) : (s.wr w r v).keys = s.keys := rfl
@[simp] theorem State.wr_meas (s : State) (w : Who) (r : Reg) (v : Word) : (s.wr w r v).meas = s.meas := rfl
@[simp] theorem State.wr_ext (s : State) (w : Who) (r : Reg) (v : Word) : (s.wr w r v).ext = s.ext := rfl
@[simp] theorem State.wr_sdig (s : State) (w : Who) (r : Reg) (v : Word) : (s.wr w r v).sdig = s.sdig := rfl
@[simp] theorem State.wr_sdigN (s : State) (w : Who) (r : Reg) (v : Word) : (s.wr w r v).sdigN = s.sdigN := rfl
@[simp] theorem State.wr_plim (s : State) (w : Who) (r : Reg) (v : Word) : (s.wr w r v).plim = s.plim := rfl
@[simp] theorem State.wr_pw (s : State) (w : Who) (r : Reg) (v : Word) : (s.wr w r v).pw = s.pw := rfl
@[simp] theorem State.wr_cap (s : State) (w : Who) (r : Reg) (v : Word) : (s.wr w r v).cap = s.cap := rfl
@[simp] theorem State.wr_lowRun (s : State) (w : Who) (r : Reg) (v : Word) : (s.wr w r v).lowRun = s.lowRun := rfl
@[simp] theorem State.wr_sinceLow (s : State) (w : Who) (r : Reg) (v : Word) : (s.wr w r v).sinceLow = s.sinceLow := rfl
@[simp] theorem State.wr_launchQ (s : State) (w : Who) (r : Reg) (v : Word) : (s.wr w r v).launchQ = s.launchQ := rfl
@[simp] theorem State.wr_holds (s : State) (w : Who) (r : Reg) (v : Word) : (s.wr w r v).holds = s.holds := rfl
@[simp] theorem State.wr_ratios (s : State) (w : Who) (r : Reg) (v : Word) : (s.wr w r v).ratios = s.ratios := rfl
@[simp] theorem State.wr_borders (s : State) (w : Who) (r : Reg) (v : Word) : (s.wr w r v).borders = s.borders := rfl
@[simp] theorem State.wr_moving (s : State) (w : Who) (r : Reg) (v : Word) : (s.wr w r v).moving = s.moving := rfl
@[simp] theorem State.wr_leaving (s : State) (w : Who) (r : Reg) (v : Word) : (s.wr w r v).leaving = s.leaving := rfl
@[simp] theorem State.wr_returned (s : State) (w : Who) (r : Reg) (v : Word) : (s.wr w r v).returned = s.returned := rfl
@[simp] theorem State.wr_plug (s : State) (w : Who) (r : Reg) (v : Word) : (s.wr w r v).plug = s.plug := rfl
@[simp] theorem State.wr_plugRej (s : State) (w : Who) (r : Reg) (v : Word) : (s.wr w r v).plugRej = s.plugRej := rfl
@[simp] theorem State.wr_bands (s : State) (w : Who) (r : Reg) (v : Word) : (s.wr w r v).bands = s.bands := rfl
@[simp] theorem State.wr_saved (s : State) (w : Who) (r : Reg) (v : Word) : (s.wr w r v).saved = s.saved := rfl
@[simp] theorem State.wr_spdm (s : State) (w : Who) (r : Reg) (v : Word) : (s.wr w r v).spdm = s.spdm := rfl
@[simp] theorem State.wr_vers (s : State) (w : Who) (r : Reg) (v : Word) : (s.wr w r v).vers = s.vers := rfl
@[simp] theorem State.wr_sched (s : State) (w : Who) (r : Reg) (v : Word) : (s.wr w r v).sched = s.sched := rfl
@[simp] theorem State.wr_pairLost (s : State) (w : Who) (r : Reg) (v : Word) : (s.wr w r v).pairLost = s.pairLost := rfl
@[simp] theorem State.wr_nTok (s : State) (w : Who) (r : Reg) (v : Word) : (s.wr w r v).nTok = s.nTok := rfl
@[simp] theorem State.wr_nBud (s : State) (w : Who) (r : Reg) (v : Word) : (s.wr w r v).nBud = s.nBud := rfl
@[simp] theorem State.wr_nRat (s : State) (w : Who) (r : Reg) (v : Word) : (s.wr w r v).nRat = s.nRat := rfl
@[simp] theorem State.wr_bootfail (s : State) (w : Who) (r : Reg) (v : Word) : (s.wr w r v).bootfail = s.bootfail := rfl
@[simp] theorem State.wr_nextId (s : State) (w : Who) (r : Reg) (v : Word) : (s.wr w r v).nextId = s.nextId := rfl
@[simp] theorem State.wr_cyc (s : State) (w : Who) (r : Reg) (v : Word) : (s.wr w r v).cyc = s.cyc := rfl
@[simp] theorem State.wr_stepNo (s : State) (w : Who) (r : Reg) (v : Word) : (s.wr w r v).stepNo = s.stepNo := rfl
@[simp] theorem State.wr_newCyc (s : State) (w : Who) (r : Reg) (v : Word) : (s.wr w r v).newCyc = s.newCyc := rfl
@[simp] theorem State.wr_event (s : State) (w : Who) (r : Reg) (v : Word) : (s.wr w r v).event = s.event := rfl
@[simp] theorem State.wr_curCore (s : State) (w : Who) (r : Reg) (v : Word) : (s.wr w r v).curCore = s.curCore := rfl
@[simp] theorem State.wr_curCtx (s : State) (w : Who) (r : Reg) (v : Word) : (s.wr w r v).curCtx = s.curCtx := rfl
@[simp] theorem State.wr_cur (s : State) (w : Who) (r : Reg) (v : Word) : (s.wr w r v).cur = s.cur := rfl
@[simp] theorem State.wr_freeNo (s : State) (w : Who) (r : Reg) (v : Word) : (s.wr w r v).freeNo = s.freeNo := rfl

/-! Fields of a core under `setCtx` and `setBank` -/

@[simp] theorem Core.setCtx_run (k : Core) (c : Nat) (x : Ctx) : (k.setCtx c x).run = k.run := by
  unfold Core.setCtx; split <;> rfl
@[simp] theorem Core.setCtx_rot (k : Core) (c : Nat) (x : Ctx) : (k.setCtx c x).rot = k.rot := by
  unfold Core.setCtx; split <;> rfl
@[simp] theorem Core.setCtx_v (k : Core) (c : Nat) (x : Ctx) : (k.setCtx c x).v = k.v := by
  unfold Core.setCtx; split <;> rfl
@[simp] theorem Core.setCtx_k (k : Core) (c : Nat) (x : Ctx) : (k.setCtx c x).k = k.k := by
  unfold Core.setCtx; split <;> rfl
@[simp] theorem Core.setCtx_lvl (k : Core) (c : Nat) (x : Ctx) : (k.setCtx c x).lvl = k.lvl := by
  unfold Core.setCtx; split <;> rfl
@[simp] theorem Core.setCtx_banks (k : Core) (c : Nat) (x : Ctx) : (k.setCtx c x).banks = k.banks := by
  unfold Core.setCtx; split <;> rfl
@[simp] theorem Core.setCtx_id (k : Core) (c : Nat) (x : Ctx) : (k.setCtx c x).id = k.id := by
  unfold Core.setCtx; split <;> rfl
@[simp] theorem Core.setCtx_dm (k : Core) (c : Nat) (x : Ctx) : (k.setCtx c x).dm = k.dm := by
  unfold Core.setCtx; split <;> rfl
@[simp] theorem Core.setCtx_wd (k : Core) (c : Nat) (x : Ctx) : (k.setCtx c x).wd = k.wd := by
  unfold Core.setCtx; split <;> rfl
@[simp] theorem Core.setCtx_uiVec (k : Core) (c : Nat) (x : Ctx) : (k.setCtx c x).uiVec = k.uiVec := by
  unfold Core.setCtx; split <;> rfl
@[simp] theorem Core.setCtx_uiId (k : Core) (c : Nat) (x : Ctx) : (k.setCtx c x).uiId = k.uiId := by
  unfold Core.setCtx; split <;> rfl
@[simp] theorem Core.setCtx_uiEn (k : Core) (c : Nat) (x : Ctx) : (k.setCtx c x).uiEn = k.uiEn := by
  unfold Core.setCtx; split <;> rfl
@[simp] theorem Core.setCtx_uiAct (k : Core) (c : Nat) (x : Ctx) : (k.setCtx c x).uiAct = k.uiAct := by
  unfold Core.setCtx; split <;> rfl
@[simp] theorem Core.setCtx_uiLs (k : Core) (c : Nat) (x : Ctx) : (k.setCtx c x).uiLs = k.uiLs := by
  unfold Core.setCtx; split <;> rfl
@[simp] theorem Core.setCtx_uiHeld (k : Core) (c : Nat) (x : Ctx) : (k.setCtx c x).uiHeld = k.uiHeld := by
  unfold Core.setCtx; split <;> rfl
@[simp] theorem Core.setCtx_uiq (k : Core) (c : Nat) (x : Ctx) : (k.setCtx c x).uiq = k.uiq := by
  unfold Core.setCtx; split <;> rfl
@[simp] theorem Core.setCtx_ncom (k : Core) (c : Nat) (x : Ctx) : (k.setCtx c x).ncom = k.ncom := by
  unfold Core.setCtx; split <;> rfl
@[simp] theorem Core.setCtx_nrb (k : Core) (c : Nat) (x : Ctx) : (k.setCtx c x).nrb = k.nrb := by
  unfold Core.setCtx; split <;> rfl
@[simp] theorem Core.setCtx_spLv (k : Core) (c : Nat) (x : Ctx) : (k.setCtx c x).spLv = k.spLv := by
  unfold Core.setCtx; split <;> rfl
@[simp] theorem Core.setCtx_spRb (k : Core) (c : Nat) (x : Ctx) : (k.setCtx c x).spRb = k.spRb := by
  unfold Core.setCtx; split <;> rfl
@[simp] theorem Core.setCtx_specRb (k : Core) (c : Nat) (x : Ctx) : (k.setCtx c x).specRb = k.specRb := by
  unfold Core.setCtx; split <;> rfl
@[simp] theorem Core.setCtx_lg (k : Core) (c : Nat) (x : Ctx) : (k.setCtx c x).lg = k.lg := by
  unfold Core.setCtx; split <;> rfl
@[simp] theorem Core.setCtx_bound (k : Core) (c : Nat) (x : Ctx) : (k.setCtx c x).bound = k.bound := by
  unfold Core.setCtx; split <;> rfl
@[simp] theorem Core.setCtx_guard (k : Core) (c : Nat) (x : Ctx) : (k.setCtx c x).guard = k.guard := by
  unfold Core.setCtx; split <;> rfl
@[simp] theorem Core.setCtx_lgWait (k : Core) (c : Nat) (x : Ctx) : (k.setCtx c x).lgWait = k.lgWait := by
  unfold Core.setCtx; split <;> rfl
@[simp] theorem Core.setCtx_seed (k : Core) (c : Nat) (x : Ctx) : (k.setCtx c x).seed = k.seed := by
  unfold Core.setCtx; split <;> rfl
@[simp] theorem Core.setCtx_bb (k : Core) (c : Nat) (x : Ctx) : (k.setCtx c x).bb = k.bb := by
  unfold Core.setCtx; split <;> rfl
@[simp] theorem Core.setCtx_grd (k : Core) (c : Nat) (x : Ctx) : (k.setCtx c x).grd = k.grd := by
  unfold Core.setCtx; split <;> rfl
@[simp] theorem Core.setCtx_ptmr (k : Core) (c : Nat) (x : Ctx) : (k.setCtx c x).ptmr = k.ptmr := by
  unfold Core.setCtx; split <;> rfl
@[simp] theorem Core.setCtx_ptmrDue (k : Core) (c : Nat) (x : Ctx) : (k.setCtx c x).ptmrDue = k.ptmrDue := by
  unfold Core.setCtx; split <;> rfl
@[simp] theorem Core.setCtx_quar (k : Core) (c : Nat) (x : Ctx) : (k.setCtx c x).quar = k.quar := by
  unfold Core.setCtx; split <;> rfl
@[simp] theorem Core.setCtx_gang (k : Core) (c : Nat) (x : Ctx) : (k.setCtx c x).gang = k.gang := by
  unfold Core.setCtx; split <;> rfl
@[simp] theorem Core.setCtx_gangWait (k : Core) (c : Nat) (x : Ctx) : (k.setCtx c x).gangWait = k.gangWait := by
  unfold Core.setCtx; split <;> rfl
@[simp] theorem Core.setCtx_exReady (k : Core) (c : Nat) (x : Ctx) : (k.setCtx c x).exReady = k.exReady := by
  unfold Core.setCtx; split <;> rfl
@[simp] theorem Core.setCtx_div (k : Core) (c : Nat) (x : Ctx) : (k.setCtx c x).div = k.div := by
  unfold Core.setCtx; split <;> rfl
@[simp] theorem Core.setCtx_exEarly (k : Core) (c : Nat) (x : Ctx) : (k.setCtx c x).exEarly = k.exEarly := by
  unfold Core.setCtx; split <;> rfl
@[simp] theorem Core.setCtx_gangTry (k : Core) (c : Nat) (x : Ctx) : (k.setCtx c x).gangTry = k.gangTry := by
  unfold Core.setCtx; split <;> rfl
@[simp] theorem Core.setCtx_exch (k : Core) (c : Nat) (x : Ctx) : (k.setCtx c x).exch = k.exch := by
  unfold Core.setCtx; split <;> rfl
@[simp] theorem Core.setCtx_exMiss (k : Core) (c : Nat) (x : Ctx) : (k.setCtx c x).exMiss = k.exMiss := by
  unfold Core.setCtx; split <;> rfl
@[simp] theorem Core.setCtx_sync (k : Core) (c : Nat) (x : Ctx) : (k.setCtx c x).sync = k.sync := by
  unfold Core.setCtx; split <;> rfl
@[simp] theorem Core.setCtx_arrived (k : Core) (c : Nat) (x : Ctx) : (k.setCtx c x).arrived = k.arrived := by
  unfold Core.setCtx; split <;> rfl
@[simp] theorem Core.setCtx_arrAt (k : Core) (c : Nat) (x : Ctx) : (k.setCtx c x).arrAt = k.arrAt := by
  unfold Core.setCtx; split <;> rfl
@[simp] theorem Core.setCtx_slip (k : Core) (c : Nat) (x : Ctx) : (k.setCtx c x).slip = k.slip := by
  unfold Core.setCtx; split <;> rfl
@[simp] theorem Core.setCtx_noSlip (k : Core) (c : Nat) (x : Ctx) : (k.setCtx c x).noSlip = k.noSlip := by
  unfold Core.setCtx; split <;> rfl
@[simp] theorem Core.setCtx_seqr (k : Core) (c : Nat) (x : Ctx) : (k.setCtx c x).seqr = k.seqr := by
  unfold Core.setCtx; split <;> rfl
@[simp] theorem Core.setCtx_mctx (k : Core) (c : Nat) (x : Ctx) : (k.setCtx c x).mctx = k.mctx := by
  unfold Core.setCtx; split <;> rfl
@[simp] theorem Core.setCtx_mErr (k : Core) (c : Nat) (x : Ctx) : (k.setCtx c x).mErr = k.mErr := by
  unfold Core.setCtx; split <;> rfl
@[simp] theorem Core.setCtx_q0 (k : Core) (c : Nat) (x : Ctx) : (k.setCtx c x).q0 = k.q0 := by
  unfold Core.setCtx; split <;> rfl
@[simp] theorem Core.setCtx_r0 (k : Core) (c : Nat) (x : Ctx) : (k.setCtx c x).r0 = k.r0 := by
  unfold Core.setCtx; split <;> rfl
@[simp] theorem Core.setCtx_q1 (k : Core) (c : Nat) (x : Ctx) : (k.setCtx c x).q1 = k.q1 := by
  unfold Core.setCtx; split <;> rfl
@[simp] theorem Core.setCtx_r1 (k : Core) (c : Nat) (x : Ctx) : (k.setCtx c x).r1 = k.r1 := by
  unfold Core.setCtx; split <;> rfl
@[simp] theorem Core.setCtx_q2 (k : Core) (c : Nat) (x : Ctx) : (k.setCtx c x).q2 = k.q2 := by
  unfold Core.setCtx; split <;> rfl
@[simp] theorem Core.setCtx_r3 (k : Core) (c : Nat) (x : Ctx) : (k.setCtx c x).r3 = k.r3 := by
  unfold Core.setCtx; split <;> rfl
@[simp] theorem Core.setCtx_q4 (k : Core) (c : Nat) (x : Ctx) : (k.setCtx c x).q4 = k.q4 := by
  unfold Core.setCtx; split <;> rfl
@[simp] theorem Core.setCtx_r4 (k : Core) (c : Nat) (x : Ctx) : (k.setCtx c x).r4 = k.r4 := by
  unfold Core.setCtx; split <;> rfl
@[simp] theorem Core.setCtx_q5 (k : Core) (c : Nat) (x : Ctx) : (k.setCtx c x).q5 = k.q5 := by
  unfold Core.setCtx; split <;> rfl
@[simp] theorem Core.setCtx_r5 (k : Core) (c : Nat) (x : Ctx) : (k.setCtx c x).r5 = k.r5 := by
  unfold Core.setCtx; split <;> rfl
@[simp] theorem Core.setCtx_ntag (k : Core) (c : Nat) (x : Ctx) : (k.setCtx c x).ntag = k.ntag := by
  unfold Core.setCtx; split <;> rfl
@[simp] theorem Core.setCtx_cdone (k : Core) (c : Nat) (x : Ctx) : (k.setCtx c x).cdone = k.cdone := by
  unfold Core.setCtx; split <;> rfl
@[simp] theorem Core.setCtx_inq (k : Core) (c : Nat) (x : Ctx) : (k.setCtx c x).inq = k.inq := by
  unfold Core.setCtx; split <;> rfl
@[simp] theorem Core.setCtx_tlb (k : Core) (c : Nat) (x : Ctx) : (k.setCtx c x).tlb = k.tlb := by
  unfold Core.setCtx; split <;> rfl
@[simp] theorem Core.setCtx_xfers (k : Core) (c : Nat) (x : Ctx) : (k.setCtx c x).xfers = k.xfers := by
  unfold Core.setCtx; split <;> rfl
@[simp] theorem Core.setCtx_xbad (k : Core) (c : Nat) (x : Ctx) : (k.setCtx c x).xbad = k.xbad := by
  unfold Core.setCtx; split <;> rfl
@[simp] theorem Core.setCtx_root (k : Core) (c : Nat) (x : Ctx) : (k.setCtx c x).root = k.root := by
  unfold Core.setCtx; split <;> rfl
@[simp] theorem Core.setCtx_overlays (k : Core) (c : Nat) (x : Ctx) : (k.setCtx c x).overlays = k.overlays := by
  unfold Core.setCtx; split <;> rfl
@[simp] theorem Core.setBank_run (k : Core) (b : Bank) : (k.setBank b).run = k.run := rfl
@[simp] theorem Core.setBank_ctl (k : Core) (b : Bank) : (k.setBank b).ctl = k.ctl := rfl
@[simp] theorem Core.setBank_helpers (k : Core) (b : Bank) : (k.setBank b).helpers = k.helpers := rfl
@[simp] theorem Core.setBank_rot (k : Core) (b : Bank) : (k.setBank b).rot = k.rot := rfl
@[simp] theorem Core.setBank_v (k : Core) (b : Bank) : (k.setBank b).v = k.v := rfl
@[simp] theorem Core.setBank_k (k : Core) (b : Bank) : (k.setBank b).k = k.k := rfl
@[simp] theorem Core.setBank_lvl (k : Core) (b : Bank) : (k.setBank b).lvl = k.lvl := rfl
@[simp] theorem Core.setBank_id (k : Core) (b : Bank) : (k.setBank b).id = k.id := rfl
@[simp] theorem Core.setBank_dm (k : Core) (b : Bank) : (k.setBank b).dm = k.dm := rfl
@[simp] theorem Core.setBank_wd (k : Core) (b : Bank) : (k.setBank b).wd = k.wd := rfl
@[simp] theorem Core.setBank_uiVec (k : Core) (b : Bank) : (k.setBank b).uiVec = k.uiVec := rfl
@[simp] theorem Core.setBank_uiId (k : Core) (b : Bank) : (k.setBank b).uiId = k.uiId := rfl
@[simp] theorem Core.setBank_uiEn (k : Core) (b : Bank) : (k.setBank b).uiEn = k.uiEn := rfl
@[simp] theorem Core.setBank_uiAct (k : Core) (b : Bank) : (k.setBank b).uiAct = k.uiAct := rfl
@[simp] theorem Core.setBank_uiLs (k : Core) (b : Bank) : (k.setBank b).uiLs = k.uiLs := rfl
@[simp] theorem Core.setBank_uiHeld (k : Core) (b : Bank) : (k.setBank b).uiHeld = k.uiHeld := rfl
@[simp] theorem Core.setBank_uiq (k : Core) (b : Bank) : (k.setBank b).uiq = k.uiq := rfl
@[simp] theorem Core.setBank_ncom (k : Core) (b : Bank) : (k.setBank b).ncom = k.ncom := rfl
@[simp] theorem Core.setBank_nrb (k : Core) (b : Bank) : (k.setBank b).nrb = k.nrb := rfl
@[simp] theorem Core.setBank_spLv (k : Core) (b : Bank) : (k.setBank b).spLv = k.spLv := rfl
@[simp] theorem Core.setBank_spRb (k : Core) (b : Bank) : (k.setBank b).spRb = k.spRb := rfl
@[simp] theorem Core.setBank_specRb (k : Core) (b : Bank) : (k.setBank b).specRb = k.specRb := rfl
@[simp] theorem Core.setBank_lg (k : Core) (b : Bank) : (k.setBank b).lg = k.lg := rfl
@[simp] theorem Core.setBank_bound (k : Core) (b : Bank) : (k.setBank b).bound = k.bound := rfl
@[simp] theorem Core.setBank_guard (k : Core) (b : Bank) : (k.setBank b).guard = k.guard := rfl
@[simp] theorem Core.setBank_lgWait (k : Core) (b : Bank) : (k.setBank b).lgWait = k.lgWait := rfl
@[simp] theorem Core.setBank_seed (k : Core) (b : Bank) : (k.setBank b).seed = k.seed := rfl
@[simp] theorem Core.setBank_bb (k : Core) (b : Bank) : (k.setBank b).bb = k.bb := rfl
@[simp] theorem Core.setBank_grd (k : Core) (b : Bank) : (k.setBank b).grd = k.grd := rfl
@[simp] theorem Core.setBank_ptmr (k : Core) (b : Bank) : (k.setBank b).ptmr = k.ptmr := rfl
@[simp] theorem Core.setBank_ptmrDue (k : Core) (b : Bank) : (k.setBank b).ptmrDue = k.ptmrDue := rfl
@[simp] theorem Core.setBank_quar (k : Core) (b : Bank) : (k.setBank b).quar = k.quar := rfl
@[simp] theorem Core.setBank_gang (k : Core) (b : Bank) : (k.setBank b).gang = k.gang := rfl
@[simp] theorem Core.setBank_gangWait (k : Core) (b : Bank) : (k.setBank b).gangWait = k.gangWait := rfl
@[simp] theorem Core.setBank_exReady (k : Core) (b : Bank) : (k.setBank b).exReady = k.exReady := rfl
@[simp] theorem Core.setBank_div (k : Core) (b : Bank) : (k.setBank b).div = k.div := rfl
@[simp] theorem Core.setBank_exEarly (k : Core) (b : Bank) : (k.setBank b).exEarly = k.exEarly := rfl
@[simp] theorem Core.setBank_gangTry (k : Core) (b : Bank) : (k.setBank b).gangTry = k.gangTry := rfl
@[simp] theorem Core.setBank_exch (k : Core) (b : Bank) : (k.setBank b).exch = k.exch := rfl
@[simp] theorem Core.setBank_exMiss (k : Core) (b : Bank) : (k.setBank b).exMiss = k.exMiss := rfl
@[simp] theorem Core.setBank_sync (k : Core) (b : Bank) : (k.setBank b).sync = k.sync := rfl
@[simp] theorem Core.setBank_arrived (k : Core) (b : Bank) : (k.setBank b).arrived = k.arrived := rfl
@[simp] theorem Core.setBank_arrAt (k : Core) (b : Bank) : (k.setBank b).arrAt = k.arrAt := rfl
@[simp] theorem Core.setBank_slip (k : Core) (b : Bank) : (k.setBank b).slip = k.slip := rfl
@[simp] theorem Core.setBank_noSlip (k : Core) (b : Bank) : (k.setBank b).noSlip = k.noSlip := rfl
@[simp] theorem Core.setBank_seqr (k : Core) (b : Bank) : (k.setBank b).seqr = k.seqr := rfl
@[simp] theorem Core.setBank_mctx (k : Core) (b : Bank) : (k.setBank b).mctx = k.mctx := rfl
@[simp] theorem Core.setBank_mErr (k : Core) (b : Bank) : (k.setBank b).mErr = k.mErr := rfl
@[simp] theorem Core.setBank_q0 (k : Core) (b : Bank) : (k.setBank b).q0 = k.q0 := rfl
@[simp] theorem Core.setBank_r0 (k : Core) (b : Bank) : (k.setBank b).r0 = k.r0 := rfl
@[simp] theorem Core.setBank_q1 (k : Core) (b : Bank) : (k.setBank b).q1 = k.q1 := rfl
@[simp] theorem Core.setBank_r1 (k : Core) (b : Bank) : (k.setBank b).r1 = k.r1 := rfl
@[simp] theorem Core.setBank_q2 (k : Core) (b : Bank) : (k.setBank b).q2 = k.q2 := rfl
@[simp] theorem Core.setBank_r3 (k : Core) (b : Bank) : (k.setBank b).r3 = k.r3 := rfl
@[simp] theorem Core.setBank_q4 (k : Core) (b : Bank) : (k.setBank b).q4 = k.q4 := rfl
@[simp] theorem Core.setBank_r4 (k : Core) (b : Bank) : (k.setBank b).r4 = k.r4 := rfl
@[simp] theorem Core.setBank_q5 (k : Core) (b : Bank) : (k.setBank b).q5 = k.q5 := rfl
@[simp] theorem Core.setBank_r5 (k : Core) (b : Bank) : (k.setBank b).r5 = k.r5 := rfl
@[simp] theorem Core.setBank_ntag (k : Core) (b : Bank) : (k.setBank b).ntag = k.ntag := rfl
@[simp] theorem Core.setBank_cdone (k : Core) (b : Bank) : (k.setBank b).cdone = k.cdone := rfl
@[simp] theorem Core.setBank_inq (k : Core) (b : Bank) : (k.setBank b).inq = k.inq := rfl
@[simp] theorem Core.setBank_tlb (k : Core) (b : Bank) : (k.setBank b).tlb = k.tlb := rfl
@[simp] theorem Core.setBank_xfers (k : Core) (b : Bank) : (k.setBank b).xfers = k.xfers := rfl
@[simp] theorem Core.setBank_xbad (k : Core) (b : Bank) : (k.setBank b).xbad = k.xbad := rfl
@[simp] theorem Core.setBank_root (k : Core) (b : Bank) : (k.setBank b).root = k.root := rfl
@[simp] theorem Core.setBank_overlays (k : Core) (b : Bank) : (k.setBank b).overlays = k.overlays := rfl

/-! Fields of a context under `wr` and `fallTo` -/

@[simp] theorem Ctx.wr_pc (x : Ctx) (r : Reg) (v : Word) : (x.wr r v).pc = x.pc := by
  unfold Ctx.wr; split <;> rfl
@[simp] theorem Ctx.wr_loops (x : Ctx) (r : Reg) (v : Word) : (x.wr r v).loops = x.loops := by
  unfold Ctx.wr; split <;> rfl
@[simp] theorem Ctx.wr_latch (x : Ctx) (r : Reg) (v : Word) : (x.wr r v).latch = x.latch := by
  unfold Ctx.wr; split <;> rfl
@[simp] theorem Ctx.wr_gated (x : Ctx) (r : Reg) (v : Word) : (x.wr r v).gated = x.gated := by
  unfold Ctx.wr; split <;> rfl
@[simp] theorem Ctx.wr_pend (x : Ctx) (r : Reg) (v : Word) : (x.wr r v).pend = x.pend := by
  unfold Ctx.wr; split <;> rfl
@[simp] theorem Ctx.wr_lull (x : Ctx) (r : Reg) (v : Word) : (x.wr r v).lull = x.lull := by
  unfold Ctx.wr; split <;> rfl
@[simp] theorem Ctx.wr_sys (x : Ctx) (r : Reg) (v : Word) : (x.wr r v).sys = x.sys := by
  unfold Ctx.wr; split <;> rfl
@[simp] theorem Ctx.wr_sysFail (x : Ctx) (r : Reg) (v : Word) : (x.wr r v).sysFail = x.sysFail := by
  unfold Ctx.wr; split <;> rfl
@[simp] theorem Ctx.wr_kept (x : Ctx) (r : Reg) (v : Word) : (x.wr r v).kept = x.kept := by
  unfold Ctx.wr; split <;> rfl
@[simp] theorem Ctx.wr_inh (x : Ctx) (r : Reg) (v : Word) : (x.wr r v).inh = x.inh := by
  unfold Ctx.wr; split <;> rfl
@[simp] theorem Ctx.wr_fbuf (x : Ctx) (r : Reg) (v : Word) : (x.wr r v).fbuf = x.fbuf := by
  unfold Ctx.wr; split <;> rfl
@[simp] theorem Ctx.fallTo_g (x : Ctx) (n : Word) : (x.fallTo n).g = x.g := rfl
@[simp] theorem Ctx.fallTo_latch (x : Ctx) (n : Word) : (x.fallTo n).latch = x.latch := rfl
@[simp] theorem Ctx.fallTo_gated (x : Ctx) (n : Word) : (x.fallTo n).gated = x.gated := rfl
@[simp] theorem Ctx.fallTo_pend (x : Ctx) (n : Word) : (x.fallTo n).pend = x.pend := rfl
@[simp] theorem Ctx.fallTo_lull (x : Ctx) (n : Word) : (x.fallTo n).lull = x.lull := rfl
@[simp] theorem Ctx.fallTo_sys (x : Ctx) (n : Word) : (x.fallTo n).sys = x.sys := rfl
@[simp] theorem Ctx.fallTo_sysFail (x : Ctx) (n : Word) : (x.fallTo n).sysFail = x.sysFail := rfl
@[simp] theorem Ctx.fallTo_kept (x : Ctx) (n : Word) : (x.fallTo n).kept = x.kept := rfl
@[simp] theorem Ctx.fallTo_inh (x : Ctx) (n : Word) : (x.fallTo n).inh = x.inh := rfl
@[simp] theorem Ctx.fallTo_fbuf (x : Ctx) (n : Word) : (x.fallTo n).fbuf = x.fbuf := rfl

end Sys2Proof.Machine
end

