-- ==== Sys2Proof/Laws/Maps.lean ====
section
/-!
SUPPORT. Laws of the sparse maps, of vectors read and written by number, and of the cores, clusters and contexts kept in them.
-/
namespace Sys2Proof.Machine

/-! ## Sparse maps -/

@[simp] theorem mget_nil {α : Type} (k : Nat) : mget ([] : List (Nat × α)) k = none := rfl

theorem mget_mset {α : Type} (l : List (Nat × α)) (k j : Nat) (v : α) :
    mget (mset l k v) j = if k = j then some v else mget l j := by
  induction l with
  | nil => simp [mset, mget]
  | cons h t ih =>
    obtain ⟨a, b⟩ := h
    simp only [mset]
    split
    · simp only [mget]
    · split
      · next h => subst h; simp only [mget]; split <;> simp_all
      · simp only [mget, ih]
        split
        · next h1 h2 h3 => subst h3; simp [Ne.symm h2]
        · rfl

@[simp] theorem mget_mset_same {α : Type} (l : List (Nat × α)) (k : Nat) (v : α) : mget (mset l k v) k = some v := by simp [mget_mset]

theorem mget_mset_ne {α : Type} (l : List (Nat × α)) {k j : Nat} (v : α) (h : j ≠ k) : mget (mset l k v) j = mget l j := by
  simp [mget_mset, Ne.symm h]

theorem mget_mdel {α : Type} (l : List (Nat × α)) (k j : Nat) : mget (mdel l k) j = if k = j then none else mget l j := by
  induction l with
  | nil => simp [mdel]
  | cons h t ih =>
    obtain ⟨a, b⟩ := h
    simp only [mdel]
    split
    · next h => subst h; simp only [ih, mget]; split <;> simp_all
    · next hne => simp only [mget, ih]; split
                  · next h => subst h; simp [Ne.symm hne]
                  · rfl

/-! ## Vectors by number -/

theorem vget_vput {α : Type} {n : Nat} (v : Vector α n) (i j : Nat) (x d : α) :
    vget (vput v i x) j d = if i = j ∧ i < n then x else vget v j d := by
  unfold vget vput
  by_cases hi : i < n <;> by_cases hj : j < n <;> simp [hi, hj, Vector.getElem_set]
  intro h; omega

theorem vget_vput_same {α : Type} {n : Nat} (v : Vector α n) {i : Nat} (x d : α) (h : i < n) : vget (vput v i x) i d = x := by
  simp [vget_vput, h]

theorem vget_vput_ne {α : Type} {n : Nat} (v : Vector α n) {i j : Nat} (x d : α) (h : j ≠ i) : vget (vput v i x) j d = vget v j d := by
  simp [vget_vput, Ne.symm h]

/-! ## Cores and clusters -/

theorem coreAt_setCore (s : State) (i j : Nat) (k : Core) : (s.setCore i k).coreAt j = if i = j then k else s.coreAt j := by
  simp only [State.coreAt, State.setCore, mget_mset]; split <;> rfl

@[simp] theorem coreAt_setCore_same (s : State) (i : Nat) (k : Core) : (s.setCore i k).coreAt i = k := by simp [coreAt_setCore]

theorem coreAt_setCore_ne (s : State) {i j : Nat} (k : Core) (h : j ≠ i) : (s.setCore i k).coreAt j = s.coreAt j := by
  simp [coreAt_setCore, Ne.symm h]

@[simp] theorem coreAt_modCore_same (s : State) (i : Nat) (f : Core → Core) : (s.modCore i f).coreAt i = f (s.coreAt i) := by
  simp [State.modCore]

theorem coreAt_modCore_ne (s : State) {i j : Nat} (f : Core → Core) (h : j ≠ i) : (s.modCore i f).coreAt j = s.coreAt j := by
  simp [State.modCore, coreAt_setCore_ne _ _ h]

@[simp] theorem coreAt_setCluster (s : State) (c j : Nat) (k : Cluster) : (s.setCluster c k).coreAt j = s.coreAt j := rfl
@[simp] theorem coreAt_modCluster (s : State) (c j : Nat) (f : Cluster → Cluster) : (s.modCluster c f).coreAt j = s.coreAt j := rfl
@[simp] theorem clusterAt_setCore (s : State) (i c : Nat) (k : Core) : (s.setCore i k).clusterAt c = s.clusterAt c := rfl
@[simp] theorem clusterAt_modCore (s : State) (i c : Nat) (f : Core → Core) : (s.modCore i f).clusterAt c = s.clusterAt c := rfl

theorem clusterAt_setCluster (s : State) (c d : Nat) (k : Cluster) :
    (s.setCluster c k).clusterAt d = if c = d then k else s.clusterAt d := by
  simp only [State.clusterAt, State.setCluster, mget_mset]; split <;> rfl

@[simp] theorem clusterAt_setCluster_same (s : State) (c : Nat) (k : Cluster) : (s.setCluster c k).clusterAt c = k := by
  simp [clusterAt_setCluster]

@[simp] theorem clusterAt_modCluster_same (s : State) (c : Nat) (f : Cluster → Cluster) :
    (s.modCluster c f).clusterAt c = f (s.clusterAt c) := by simp [State.modCluster]

theorem clusterAt_modCluster_ne (s : State) {c d : Nat} (f : Cluster → Cluster) (h : d ≠ c) :
    (s.modCluster c f).clusterAt d = s.clusterAt d := by simp [State.modCluster, clusterAt_setCluster, Ne.symm h]

/-! ## Contexts -/

theorem ctx_setCtx_same (k : Core) {c : Nat} (x : Ctx) (h : c ≤ 10) : (k.setCtx c x).ctx c = x := by
  unfold Core.ctx Core.setCtx
  split
  · rfl
  · simp only []; rw [vget_vput_same _ _ _ (by omega)]

theorem ctx_setCtx_ne (k : Core) {c d : Nat} (x : Ctx) (h : d ≠ c) : (k.setCtx c x).ctx d = k.ctx d := by
  unfold Core.ctx Core.setCtx
  split
  · next h0 => subst h0; rw [if_neg (Ne.symm h)]
  · split
    · rfl
    · simp only []; rw [vget_vput_ne _ _ _ (by omega)]

theorem setCtx_setCtx (k : Core) (c : Nat) (x y : Ctx) : (k.setCtx c x).setCtx c y = k.setCtx c y := by
  unfold Core.setCtx
  split
  · rfl
  · congr 1
    unfold vput vget
    by_cases h : c - 1 < 10 <;> simp [h]

/-- A context that runs is the control context or one of the ten helpers. -/
theorem runs_ctx_le {k : Core} {c : Nat} (h : runs k c = true) : c ≤ 10 := by
  by_cases h0 : c = 0
  · omega
  · simp only [runs, h0, if_false, Bool.and_eq_true] at h
    have := h.2.1.1.1
    unfold vget at this
    split at this
    · omega
    · exact absurd this (by decide)

theorem ctxAt_modCtx_same (s : State) {w : Who} (f : Ctx → Ctx) (h : w.c ≤ 10) : (s.modCtx w f).ctxAt w = f (s.ctxAt w) := by
  simp [State.ctxAt, State.modCtx, ctx_setCtx_same _ _ h]

/-! ## Registers -/

@[simp] theorem Ctx.rd_zero (x : Ctx) : x.rd 0 = 0 := rfl

theorem Ctx.rd_wr (x : Ctx) (d r : Reg) (v : Word) : (x.wr d v).rd r = if r = d then (if d = 0 then 0 else v) else x.rd r := by
  unfold Ctx.rd Ctx.wr
  by_cases hr : r = 0
  · subst hr; by_cases hd : d = 0 <;> simp [hd]
    intro h; exact absurd h.symm hd
  · by_cases hd : d = 0
    · subst hd; simp only [hr, if_false, if_true]
    · simp only [hr, hd, if_false, vget_vput]
      by_cases h : r = d
      · subst h; simp [r.isLt]
      · have : d.toNat ≠ r.toNat := fun e => h (BitVec.eq_of_toNat_eq e.symm)
        simp [h, this]

@[simp] theorem Ctx.rd_fallTo (x : Ctx) (n : Word) (r : Reg) : (x.fallTo n).rd r = x.rd r := rfl

end Sys2Proof.Machine
end

