-- ==== Sys2Proof/Laws/Memory.lean ====
section
/-!
SUPPORT. Laws of the flat memory: read after write, what a write leaves, and that every operation on it keeps the canonical form.
-/
namespace Sys2Proof.Machine

/-! ## Reads after writes -/

theorem rdB_wrB (m : List Host.Cell) (a x : Nat) (b : Byte) : rdB (wrB m a b) x = if a = x then b else rdB m x := by
  unfold rdB wrB
  by_cases hb : b = 0
  · subst hb; simp only [if_true, mget_mdel]; split <;> simp
  · simp only [hb, if_false, mget_mset]; split <;> simp

theorem rdB_wrBs (bs : List Byte) : ∀ (m : List Host.Cell) (a x : Nat),
    rdB (wrBs m a bs) x = if a ≤ x ∧ x < a + bs.length then bs.getD (x - a) 0 else rdB m x := by
  induction bs with
  | nil => intro m a x; simp only [wrBs, List.length_nil, Nat.add_zero]; rw [if_neg (by omega)]
  | cons b t ih =>
    intro m a x
    simp only [wrBs, ih, rdB_wrB, List.length_cons]
    by_cases h : a = x
    · subst h
      rw [if_pos rfl, if_neg (by omega), if_pos (by omega), Nat.sub_self]; rfl
    · by_cases h1 : a + 1 ≤ x ∧ x < a + 1 + t.length
      · rw [if_pos h1, if_pos (by omega)]
        rw [show x - a = (x - (a + 1)) + 1 by omega]; simp
      · rw [if_neg h1, if_neg h, if_neg (by omega)]

theorem rdBs_length (m : List Host.Cell) (n : Nat) : ∀ a, (rdBs m a n).length = n := by
  induction n with
  | zero => intro a; rfl
  | succ n ih => intro a; simp [rdBs, ih]

theorem rdBs_getD (m : List Host.Cell) (n : Nat) : ∀ a k, k < n → (rdBs m a n).getD k 0 = rdB m (a + k) := by
  induction n with
  | zero => intro a k h; omega
  | succ n ih =>
    intro a k h
    cases k with
    | zero => simp [rdBs]
    | succ k =>
      have := ih (a + 1) k (by omega)
      simp only [rdBs, List.getD_cons_succ, this]
      congr 1; omega

theorem rdBs_congr {m m' : List Host.Cell} (n : Nat) : ∀ a, (∀ k, k < n → rdB m (a + k) = rdB m' (a + k)) → rdBs m a n = rdBs m' a n := by
  induction n with
  | zero => intro a _; rfl
  | succ n ih =>
    intro a h
    have h0 := h 0 (by omega)
    simp only [Nat.add_zero] at h0
    simp only [rdBs, h0]
    congr 1
    refine ih (a + 1) (fun k hk => ?_)
    have := h (k + 1) (by omega)
    rwa [show a + 1 + k = a + (k + 1) by omega]

theorem rdBs_wrBs_same (m : List Host.Cell) (a : Nat) (bs : List Byte) : rdBs (wrBs m a bs) a bs.length = bs := by
  refine List.ext_getElem (by simp [rdBs_length]) (fun k h1 h2 => ?_)
  have := rdBs_getD (wrBs m a bs) bs.length a k h2
  rw [rdB_wrBs, if_pos (by omega), show a + k - a = k by omega] at this
  simpa [List.getD, h1, h2] using this

/-! ## The canonical form -/

theorem memWfFrom_mono {m : List Host.Cell} {lo lo' : Nat} (h : memWfFrom lo m = true) (hl : lo' ≤ lo) : memWfFrom lo' m = true := by
  cases m with
  | nil => rfl
  | cons c t =>
    obtain ⟨k, b⟩ := c
    simp only [memWfFrom, Bool.and_eq_true, decide_eq_true_eq] at h ⊢
    exact ⟨⟨by omega, h.1.2⟩, h.2⟩

theorem memWfFrom_mset {m : List Host.Cell} {lo a : Nat} {b : Byte} (h : memWfFrom lo m = true) (ha : lo ≤ a) (hb : b ≠ 0) :
    memWfFrom lo (mset m a b) = true := by
  induction m generalizing lo with
  | nil => simpa [mset, memWfFrom, ha] using hb
  | cons c t ih =>
    obtain ⟨k, v⟩ := c
    simp only [memWfFrom, Bool.and_eq_true, decide_eq_true_eq] at h
    simp only [mset]
    split
    · next hk => simp only [memWfFrom, Bool.and_eq_true, decide_eq_true_eq]; exact ⟨⟨ha, by simpa using hb⟩, ⟨by omega, h.1.2⟩, h.2⟩
    · split
      · next he => subst he; simp only [memWfFrom, Bool.and_eq_true, decide_eq_true_eq]; exact ⟨⟨ha, by simpa using hb⟩, h.2⟩
      · simp only [memWfFrom, Bool.and_eq_true, decide_eq_true_eq]
        exact ⟨h.1, ih h.2 (by omega)⟩

theorem memWfFrom_filter {m : List Host.Cell} {lo : Nat} (p : Host.Cell → Bool) (h : memWfFrom lo m = true) : memWfFrom lo (m.filter p) = true := by
  induction m generalizing lo with
  | nil => rfl
  | cons c t ih =>
    obtain ⟨k, v⟩ := c
    simp only [memWfFrom, Bool.and_eq_true, decide_eq_true_eq] at h
    simp only [List.filter]
    split
    · simp only [memWfFrom, Bool.and_eq_true, decide_eq_true_eq]; exact ⟨h.1, ih h.2⟩
    · exact memWfFrom_mono (ih h.2) (by omega)

theorem memWfFrom_mdel {m : List Host.Cell} {lo a : Nat} (h : memWfFrom lo m = true) : memWfFrom lo (mdel m a) = true := by
  induction m generalizing lo with
  | nil => rfl
  | cons c t ih =>
    obtain ⟨k, v⟩ := c
    simp only [memWfFrom, Bool.and_eq_true, decide_eq_true_eq] at h
    simp only [mdel]
    split
    · exact memWfFrom_mono (ih h.2) (by omega)
    · simp only [memWfFrom, Bool.and_eq_true, decide_eq_true_eq]; exact ⟨h.1, ih h.2⟩

theorem wrB_wf {m : List Host.Cell} (a : Nat) (b : Byte) (h : Memory.wf m = true) : Memory.wf (wrB m a b) = true := by
  unfold wrB Memory.wf at *
  split
  · exact memWfFrom_mdel h
  · next hb => exact memWfFrom_mset h (by omega) hb

theorem wrBs_wf (bs : List Byte) : ∀ {m : List Host.Cell} (a : Nat), Memory.wf m = true → Memory.wf (wrBs m a bs) = true := by
  induction bs with
  | nil => intro m a h; exact h
  | cons b t ih => intro m a h; exact ih (a + 1) (wrB_wf a b h)

theorem filter_wf {m : List Host.Cell} (p : Host.Cell → Bool) (h : Memory.wf m = true) : Memory.wf (m.filter p) = true := memWfFrom_filter p h

/-- Any number of single writes keeps the form. -/
theorem foldl_wrB_wf {α : Type} (l : List α) (f : α → Nat) (g : α → Byte) : ∀ {m : List Host.Cell}, Memory.wf m = true →
    Memory.wf (l.foldl (fun m e => wrB m (f e) (g e)) m) = true := by
  induction l with
  | nil => intro m h; exact h
  | cons a t ih => intro m h; exact ih (wrB_wf _ _ h)

theorem put_wf {s : State} (f : Nat) (bs : List Byte) (tag : Nat × Nat) (h : s.wf) : (put s f bs tag).wf := wrBs_wf bs f h
theorem wipe_wf {s : State} (f n : Nat) (h : s.wf) : (wipe s f n).wf := filter_wf _ h
theorem reset_wf : State.reset.wf := rfl

/-! ## The whole effect of `put` and `send` -/

/-- `put` writes its bytes, heals words that it covers and sets line tags; nothing else differs. -/
theorem put_effect (s : State) (f : Nat) (bs : List Byte) (tag : Nat × Nat) :
    { put s f bs tag with mem := s.mem, bad := s.bad, tags := s.tags } = s ∧
    ∀ x, rdB (put s f bs tag).mem x = if f ≤ x ∧ x < f + bs.length then bs.getD (x - f) 0 else rdB s.mem x :=
  ⟨rfl, fun x => rdB_wrBs bs s.mem f x⟩

@[simp] theorem put_coreAt (s : State) (f i : Nat) (bs : List Byte) (tag : Nat × Nat) : (put s f bs tag).coreAt i = s.coreAt i := rfl
@[simp] theorem put_clusterAt (s : State) (f c : Nat) (bs : List Byte) (tag : Nat × Nat) : (put s f bs tag).clusterAt c = s.clusterAt c := rfl

/-- `send` adds one packet at the end and takes the next number; nothing else differs. -/
theorem send_effect (s : State) (i c : Nat) (addr : Word) (kind : PKind) (tag : Nat × Nat) (acq : Bool) (seq : Nat) :
    { send s i c addr kind tag acq seq with mesh := s.mesh, nextId := s.nextId } = s ∧
    ∃ p, (send s i c addr kind tag acq seq).mesh = s.mesh ++ [p] ∧ p.id = s.nextId ∧ p.core = i ∧ p.ctx = c ∧ p.kind = kind :=
  ⟨rfl, _, rfl, rfl, rfl, rfl, rfl⟩

@[simp] theorem send_coreAt (s : State) (i c j : Nat) (addr : Word) (kind : PKind) (tag : Nat × Nat) (acq : Bool) (seq : Nat) :
    (send s i c addr kind tag acq seq).coreAt j = s.coreAt j := rfl

/-! ## Equal memories are equal data -/

theorem mget_below {m : List Host.Cell} {lo a : Nat} (h : memWfFrom lo m = true) (ha : a < lo) : mget m a = none := by
  induction m generalizing lo with
  | nil => rfl
  | cons c t ih =>
    obtain ⟨k, v⟩ := c
    simp only [memWfFrom, Bool.and_eq_true, decide_eq_true_eq] at h
    simp only [mget, if_neg (show k ≠ a by omega)]
    exact ih h.2 (by omega)

theorem memWfFrom_ext {m : List Host.Cell} : ∀ {lo : Nat} {m' : List Host.Cell}, memWfFrom lo m = true → memWfFrom lo m' = true →
    (∀ a, rdB m a = rdB m' a) → m = m' := by
  induction m with
  | nil =>
    intro lo m' _ h' he
    cases m' with
    | nil => rfl
    | cons c t =>
      obtain ⟨k, v⟩ := c
      simp only [memWfFrom, Bool.and_eq_true, decide_eq_true_eq] at h'
      have := he k
      simp [rdB, mget] at this
      simp [← this] at h'
  | cons c t ih =>
    obtain ⟨k, v⟩ := c
    intro lo m' h h' he
    simp only [memWfFrom, Bool.and_eq_true, decide_eq_true_eq] at h
    have hv : v ≠ 0 := by simpa using h.1.2
    cases m' with
    | nil =>
      have := he k
      simp [rdB, mget] at this
      exact absurd this hv
    | cons c' t' =>
      obtain ⟨k', v'⟩ := c'
      simp only [memWfFrom, Bool.and_eq_true, decide_eq_true_eq] at h'
      have hv' : v' ≠ 0 := by simpa using h'.1.2
      have hkk : k = k' := by
        refine Decidable.byContradiction (fun hne => ?_)
        rcases Nat.lt_or_gt_of_ne hne with hl | hl
        · have := he k
          simp [rdB, mget, Ne.symm hne, mget_below h'.2 (show k < k' + 1 by omega)] at this
          exact hv this
        · have := he k'
          simp [rdB, mget, hne, mget_below h.2 (show k' < k + 1 by omega)] at this
          exact hv' this.symm
      subst hkk
      have hvv : v = v' := by have := he k; simpa [rdB, mget] using this
      subst hvv
      congr 1
      refine ih h.2 h'.2 (fun a => ?_)
      by_cases ha : a = k
      · subst ha
        simp [rdB, mget_below h.2 (Nat.lt_succ_self _), mget_below h'.2 (Nat.lt_succ_self _)]
      · have := he a
        simpa [rdB, mget, Ne.symm ha] using this

/-- Two memories in canonical form that read alike are the same data. -/
theorem Memory.wf_ext {m m' : List Host.Cell} (h : Memory.wf m = true) (h' : Memory.wf m' = true) (he : ∀ a, rdB m a = rdB m' a) : m = m' :=
  memWfFrom_ext h h' he

end Sys2Proof.Machine
end

