-- ==== Sys2Proof/Laws/Crypto.lean ====
section
/-!
SUPPORT. Laws of AES-256 in XTS mode: decryption undoes encryption, so that a unit of DRAM reads as it was written (spec/17 R302, R303).
-/
namespace Sys2Proof.Machine

/-! ## AES (FIPS 197) -/

theorem natLE_length : ∀ n v, (natLE n v).length = n
  | 0, _ => rfl
  | n + 1, v => by simp [natLE, natLE_length n]

theorem aesInv_aesSub (b : Byte) : aesInv (aesSub b) = b := by
  revert b; decide +kernel

theorem xor_left_comm_byte (a b c : Byte) : a ^^^ (b ^^^ c) = b ^^^ (a ^^^ c) := by
  rw [← BitVec.xor_assoc, BitVec.xor_comm a b, BitVec.xor_assoc]

theorem xtime_xor (a b : Byte) : xtime (a ^^^ b) = xtime a ^^^ xtime b := by
  unfold xtime
  rw [BitVec.shiftLeft_xor_distrib, BitVec.getLsbD_xor]
  cases a.getLsbD 7 <;> cases b.getLsbD 7 <;>
    simp [BitVec.xor_assoc, BitVec.xor_comm, xor_left_comm_byte]

theorem mix_col (a b c d : Byte) :
    gmul (gmul a 2 ^^^ gmul b 3 ^^^ c ^^^ d) 14 ^^^ gmul (a ^^^ gmul b 2 ^^^ gmul c 3 ^^^ d) 11 ^^^
      gmul (a ^^^ b ^^^ gmul c 2 ^^^ gmul d 3) 13 ^^^ gmul (gmul a 3 ^^^ b ^^^ c ^^^ gmul d 2) 9 = a := by
  simp only [gmul, xtime_xor]
  generalize ha4 : xtime (xtime (xtime (xtime a))) = a4
  generalize xtime (xtime (xtime a)) = a3
  generalize xtime (xtime a) = a2
  generalize xtime a = a1
  generalize xtime (xtime (xtime (xtime b))) = b4
  generalize xtime (xtime (xtime b)) = b3
  generalize xtime (xtime b) = b2
  generalize xtime b = b1
  generalize xtime (xtime (xtime (xtime c))) = c4
  generalize xtime (xtime (xtime c)) = c3
  generalize xtime (xtime c) = c2
  generalize xtime c = c1
  generalize xtime (xtime (xtime (xtime d))) = d4
  generalize xtime (xtime (xtime d)) = d3
  generalize xtime (xtime d) = d2
  generalize xtime d = d1
  refine Eq.trans (b := (a4 ^^^ a4) ^^^ (a3 ^^^ a3 ^^^ a3 ^^^ a3) ^^^ (a2 ^^^ a2) ^^^ (a1 ^^^ a1) ^^^ (a ^^^ a ^^^ a) ^^^ (b4 ^^^ b4) ^^^ (b3 ^^^ b3 ^^^ b3 ^^^ b3) ^^^ (b2 ^^^ b2 ^^^ b2 ^^^ b2) ^^^ (b1 ^^^ b1) ^^^ (b ^^^ b) ^^^ (c4 ^^^ c4) ^^^ (c3 ^^^ c3 ^^^ c3 ^^^ c3) ^^^ (c2 ^^^ c2) ^^^ (c1 ^^^ c1 ^^^ c1 ^^^ c1) ^^^ (c ^^^ c) ^^^ (d4 ^^^ d4) ^^^ (d3 ^^^ d3 ^^^ d3 ^^^ d3) ^^^ (d2 ^^^ d2) ^^^ (d1 ^^^ d1 ^^^ d1 ^^^ d1) ^^^ (d ^^^ d)) (by ac_rfl) ?_
  simp only [BitVec.xor_self, BitVec.zero_xor, BitVec.xor_zero]

theorem zero_xor_byte (a : Byte) : 0 ^^^ a = a := BitVec.zero_xor
theorem gmul_one (a : Byte) : gmul a 1 = a := rfl

/-- Row 0 of the inverse of MixColumns after MixColumns. -/
def mixBack0 (a b c d : Byte) : Byte := 0 ^^^ gmul (0 ^^^ gmul a 2 ^^^ gmul b 3 ^^^ gmul c 1 ^^^ gmul d 1) 14 ^^^ gmul (0 ^^^ gmul a 1 ^^^ gmul b 2 ^^^ gmul c 3 ^^^ gmul d 1) 11 ^^^ gmul (0 ^^^ gmul a 1 ^^^ gmul b 1 ^^^ gmul c 2 ^^^ gmul d 3) 13 ^^^ gmul (0 ^^^ gmul a 3 ^^^ gmul b 1 ^^^ gmul c 1 ^^^ gmul d 2) 9
theorem mixBack0_eq (a b c d : Byte) : mixBack0 a b c d = a := by
  have h := mix_col a b c d
  simpa only [mixBack0, gmul_one, zero_xor_byte] using h
/-- Row 1 of the inverse of MixColumns after MixColumns. -/
def mixBack1 (a b c d : Byte) : Byte := 0 ^^^ gmul (0 ^^^ gmul a 2 ^^^ gmul b 3 ^^^ gmul c 1 ^^^ gmul d 1) 9 ^^^ gmul (0 ^^^ gmul a 1 ^^^ gmul b 2 ^^^ gmul c 3 ^^^ gmul d 1) 14 ^^^ gmul (0 ^^^ gmul a 1 ^^^ gmul b 1 ^^^ gmul c 2 ^^^ gmul d 3) 11 ^^^ gmul (0 ^^^ gmul a 3 ^^^ gmul b 1 ^^^ gmul c 1 ^^^ gmul d 2) 13
theorem mixBack1_eq (a b c d : Byte) : mixBack1 a b c d = b := by
  have h := mix_col b c d a
  rw [show (gmul b 2 ^^^ gmul c 3 ^^^ d ^^^ a : Byte) = a ^^^ gmul b 2 ^^^ gmul c 3 ^^^ d by ac_rfl] at h
  rw [show (b ^^^ gmul c 2 ^^^ gmul d 3 ^^^ a : Byte) = a ^^^ b ^^^ gmul c 2 ^^^ gmul d 3 by ac_rfl] at h
  rw [show (b ^^^ c ^^^ gmul d 2 ^^^ gmul a 3 : Byte) = gmul a 3 ^^^ b ^^^ c ^^^ gmul d 2 by ac_rfl] at h
  rw [show (gmul b 3 ^^^ c ^^^ d ^^^ gmul a 2 : Byte) = gmul a 2 ^^^ gmul b 3 ^^^ c ^^^ d by ac_rfl] at h
  simp only [mixBack1, gmul_one, zero_xor_byte]
  refine Eq.trans ?_ h
  ac_rfl
/-- Row 2 of the inverse of MixColumns after MixColumns. -/
def mixBack2 (a b c d : Byte) : Byte := 0 ^^^ gmul (0 ^^^ gmul a 2 ^^^ gmul b 3 ^^^ gmul c 1 ^^^ gmul d 1) 13 ^^^ gmul (0 ^^^ gmul a 1 ^^^ gmul b 2 ^^^ gmul c 3 ^^^ gmul d 1) 9 ^^^ gmul (0 ^^^ gmul a 1 ^^^ gmul b 1 ^^^ gmul c 2 ^^^ gmul d 3) 14 ^^^ gmul (0 ^^^ gmul a 3 ^^^ gmul b 1 ^^^ gmul c 1 ^^^ gmul d 2) 11
theorem mixBack2_eq (a b c d : Byte) : mixBack2 a b c d = c := by
  have h := mix_col c d a b
  rw [show (gmul c 2 ^^^ gmul d 3 ^^^ a ^^^ b : Byte) = a ^^^ b ^^^ gmul c 2 ^^^ gmul d 3 by ac_rfl] at h
  rw [show (c ^^^ gmul d 2 ^^^ gmul a 3 ^^^ b : Byte) = gmul a 3 ^^^ b ^^^ c ^^^ gmul d 2 by ac_rfl] at h
  rw [show (c ^^^ d ^^^ gmul a 2 ^^^ gmul b 3 : Byte) = gmul a 2 ^^^ gmul b 3 ^^^ c ^^^ d by ac_rfl] at h
  rw [show (gmul c 3 ^^^ d ^^^ a ^^^ gmul b 2 : Byte) = a ^^^ gmul b 2 ^^^ gmul c 3 ^^^ d by ac_rfl] at h
  simp only [mixBack2, gmul_one, zero_xor_byte]
  refine Eq.trans ?_ h
  ac_rfl
/-- Row 3 of the inverse of MixColumns after MixColumns. -/
def mixBack3 (a b c d : Byte) : Byte := 0 ^^^ gmul (0 ^^^ gmul a 2 ^^^ gmul b 3 ^^^ gmul c 1 ^^^ gmul d 1) 11 ^^^ gmul (0 ^^^ gmul a 1 ^^^ gmul b 2 ^^^ gmul c 3 ^^^ gmul d 1) 13 ^^^ gmul (0 ^^^ gmul a 1 ^^^ gmul b 1 ^^^ gmul c 2 ^^^ gmul d 3) 9 ^^^ gmul (0 ^^^ gmul a 3 ^^^ gmul b 1 ^^^ gmul c 1 ^^^ gmul d 2) 14
theorem mixBack3_eq (a b c d : Byte) : mixBack3 a b c d = d := by
  have h := mix_col d a b c
  rw [show (gmul d 2 ^^^ gmul a 3 ^^^ b ^^^ c : Byte) = gmul a 3 ^^^ b ^^^ c ^^^ gmul d 2 by ac_rfl] at h
  rw [show (d ^^^ gmul a 2 ^^^ gmul b 3 ^^^ c : Byte) = gmul a 2 ^^^ gmul b 3 ^^^ c ^^^ d by ac_rfl] at h
  rw [show (d ^^^ a ^^^ gmul b 2 ^^^ gmul c 3 : Byte) = a ^^^ gmul b 2 ^^^ gmul c 3 ^^^ d by ac_rfl] at h
  rw [show (gmul d 3 ^^^ a ^^^ b ^^^ gmul c 2 : Byte) = a ^^^ b ^^^ gmul c 2 ^^^ gmul d 3 by ac_rfl] at h
  simp only [mixBack3, gmul_one, zero_xor_byte]
  refine Eq.trans ?_ h
  ac_rfl

/-- A block has 16 bytes. -/
theorem block_cases (b : List Byte) (h : b.length = 16) : ∃ x0 x1 x2 x3 x4 x5 x6 x7 x8 x9 x10 x11 x12 x13 x14 x15 : Byte, b = [x0, x1, x2, x3, x4, x5, x6, x7, x8, x9, x10, x11, x12, x13, x14, x15] := by
  match b, h with
  | [x0, x1, x2, x3, x4, x5, x6, x7, x8, x9, x10, x11, x12, x13, x14, x15], _ => exact ⟨x0, x1, x2, x3, x4, x5, x6, x7, x8, x9, x10, x11, x12, x13, x14, x15, rfl⟩

theorem mixCols_mixCols (b : List Byte) (h : b.length = 16) : mixCols [14, 11, 13, 9] (mixCols [2, 3, 1, 1] b) = b := by
  obtain ⟨x0, x1, x2, x3, x4, x5, x6, x7, x8, x9, x10, x11, x12, x13, x14, x15, rfl⟩ := block_cases b h
  refine Eq.trans (b := [mixBack0 x0 x1 x2 x3, mixBack1 x0 x1 x2 x3, mixBack2 x0 x1 x2 x3, mixBack3 x0 x1 x2 x3, mixBack0 x4 x5 x6 x7, mixBack1 x4 x5 x6 x7, mixBack2 x4 x5 x6 x7, mixBack3 x4 x5 x6 x7, mixBack0 x8 x9 x10 x11, mixBack1 x8 x9 x10 x11, mixBack2 x8 x9 x10 x11, mixBack3 x8 x9 x10 x11, mixBack0 x12 x13 x14 x15, mixBack1 x12 x13 x14 x15, mixBack2 x12 x13 x14 x15, mixBack3 x12 x13 x14 x15]) rfl ?_
  simp only [mixBack0_eq, mixBack1_eq, mixBack2_eq, mixBack3_eq]

theorem unshiftRows_shiftRows (b : List Byte) (h : b.length = 16) : unshiftRows (shiftRows b) = b := by
  obtain ⟨x0, x1, x2, x3, x4, x5, x6, x7, x8, x9, x10, x11, x12, x13, x14, x15, rfl⟩ := block_cases b h
  rfl

theorem map_aesInv (b : List Byte) : (b.map aesSub).map aesInv = b := by
  rw [List.map_map]; exact (List.map_congr_left (fun x _ => aesInv_aesSub x)).trans (List.map_id b)

theorem unshiftRows_map (f : Byte → Byte) (b : List Byte) (h : b.length = 16) : (unshiftRows b).map f = unshiftRows (b.map f) := by
  obtain ⟨x0, x1, x2, x3, x4, x5, x6, x7, x8, x9, x10, x11, x12, x13, x14, x15, rfl⟩ := block_cases b h
  rfl

theorem xorBs_length (a k : List Byte) : (xorBs a k).length = min a.length k.length := by simp [xorBs]

theorem xorBs_xorBs : ∀ (a k : List Byte), a.length = k.length → xorBs (xorBs a k) k = a := by
  intro a
  induction a with
  | nil => intro k _; rfl
  | cons x a ih =>
    intro k h
    cases k with
    | nil => simp at h
    | cons y k =>
      have := ih k (by simpa using h)
      simp only [xorBs, List.zip_cons_cons, List.map_cons] at this ⊢
      rw [this, BitVec.xor_assoc, BitVec.xor_self, BitVec.xor_zero]

theorem mixCols_length (m : List Nat) (b : List Byte) : (mixCols m b).length = 16 := by simp [mixCols]
theorem shiftRows_length (b : List Byte) : (shiftRows b).length = 16 := by simp [shiftRows]

/-- The rounds between the first and the last key, undone from the last to the first. -/
theorem aes_rounds (ks : List (List Byte)) : ∀ (b : List Byte), b.length = 16 → (∀ k ∈ ks, k.length = 16) →
    ks.reverse.foldl (fun b k => mixCols [14, 11, 13, 9] (xorBs ((unshiftRows b).map aesInv) k))
      (shiftRows ((ks.foldl (fun b k => xorBs (mixCols [2, 3, 1, 1] (shiftRows (b.map aesSub))) k) b).map aesSub)) = shiftRows (b.map aesSub) := by
  induction ks with
  | nil => intro b _ _; rfl
  | cons k ks ih =>
    intro b hb hk
    have hkl := hk k (by simp)
    simp only [List.reverse_cons, List.foldl_append, List.foldl_cons, List.foldl_nil]
    rw [ih _ (by rw [xorBs_length, mixCols_length, hkl]; rfl) (fun k h => hk k (by simp [h]))]
    rw [unshiftRows_shiftRows _ (by rw [List.length_map, xorBs_length, mixCols_length, hkl]; rfl), map_aesInv,
      xorBs_xorBs _ _ (by rw [mixCols_length, hkl]), mixCols_mixCols _ (shiftRows_length _)]

/-- FIPS 197: decryption undoes encryption. -/
theorem aesDec_aesEnc (ks : List (List Byte)) (b : List Byte) (hk : ks.length = 15) (hl : ∀ k ∈ ks, k.length = 16) (hb : b.length = 16) :
    aesDec ks (aesEnc ks b) = b := by
  obtain ⟨k0, mid, k14, rfl, hm⟩ : ∃ k0 mid k14, ks = k0 :: (mid ++ [k14]) ∧ mid.length = 13 := by
    cases ks with
    | nil => simp at hk
    | cons k0 ks =>
      have hne : ks ≠ [] := by intro h; subst h; simp at hk
      refine ⟨k0, ks.dropLast, ks.getLast hne, by rw [List.dropLast_concat_getLast], ?_⟩
      simp at hk ⊢; omega
  have h0 := hl k0 (by simp)
  have h14 := hl k14 (by simp)
  have e1 : (mid ++ [k14]).take 13 = mid := by rw [List.take_append_of_le_length (by omega), List.take_of_length_le (by omega)]
  have e2 : (mid ++ [k14]).getD 13 [] = k14 := by
    rw [← hm, List.getD_eq_getElem?_getD, List.getElem?_append_right (by omega)]; simp
  have e3 : (mid.reverse ++ [k0]).take 13 = mid.reverse := by
    rw [List.take_append_of_le_length (by simp; omega), List.take_of_length_le (by simp; omega)]
  have e4 : (mid.reverse ++ [k0]).getD 13 [] = k0 := by
    rw [List.getD_eq_getElem?_getD, List.getElem?_append_right (by simp; omega)]; simp [hm]
  simp only [aesEnc, e1, e2]
  simp only [aesDec, List.reverse_cons, List.reverse_append, List.reverse_nil, List.nil_append, List.cons_append, e3, e4]
  rw [xorBs_xorBs _ _ (by rw [shiftRows_length, h14]), aes_rounds mid _ (by rw [xorBs_length, hb, h0]; rfl) (fun k h => hl k (by simp [h])),
    unshiftRows_shiftRows _ (by rw [List.length_map, xorBs_length, hb, h0]; rfl), map_aesInv, xorBs_xorBs _ _ (by rw [hb, h0])]

/-! ## XTS -/

theorem xtsBlocks_xtsBlocks (f g : List Byte → List Byte) (hf : ∀ b, b.length = 16 → (f b).length = 16)
    (hg : ∀ b, b.length = 16 → g (f b) = b) : ∀ (bs : List (List Byte)) (t : List Byte) (n : Nat), bs.length ≤ n → t.length = 16 →
    (∀ b ∈ bs, b.length = 16) →
    (xtsBlocks f bs t).length = 16 * bs.length ∧ xtsBlocks g (pieces 16 n (xtsBlocks f bs t)) t = bs.flatten := by
  intro bs
  induction bs with
  | nil => intro t n _ _ _; cases n <;> exact ⟨rfl, rfl⟩
  | cons b bs ih =>
    intro t n hn ht hb
    have hb0 := hb b (by simp)
    cases n with
    | zero => simp at hn
    | succ n =>
      have htl : (xtsAlpha t).length = 16 := by simp [xtsAlpha, natLE_length]
      obtain ⟨hlen, hback⟩ := ih (xtsAlpha t) n (by simpa using hn) htl (fun b h => hb b (by simp [h]))
      have hc : (xorBs (f (xorBs b t)) t).length = 16 := by rw [xorBs_length, hf _ (by rw [xorBs_length, hb0, ht]; rfl), ht]; rfl
      refine ⟨by simp [xtsBlocks, hlen, hc]; omega, ?_⟩
      have hne : (xorBs (f (xorBs b t)) t ++ xtsBlocks f bs (xtsAlpha t)).isEmpty = false := by
        rw [List.isEmpty_eq_false_iff]; intro h; rw [List.append_eq_nil_iff] at h; rw [h.1] at hc; simp at hc
      simp only [xtsBlocks, pieces, hne, Bool.false_eq_true, if_false]
      rw [List.take_append_of_le_length (by omega), List.take_of_length_le (by omega), List.drop_append_of_le_length (by omega),
        List.drop_of_length_le (by omega), List.nil_append, hback,
        xorBs_xorBs _ _ (by rw [hf _ (by rw [xorBs_length, hb0, ht]; rfl), ht]), hg _ (by rw [xorBs_length, hb0, ht]; rfl),
        xorBs_xorBs _ _ (by rw [hb0, ht])]
      rfl

theorem aesEnc_length (ks : List (List Byte)) (b : List Byte) (hk : ks.length = 15) (hl : ∀ k ∈ ks, k.length = 16) : (aesEnc ks b).length = 16 := by
  cases ks with
  | nil => simp at hk
  | cons k0 ks =>
    have : (ks.getD 13 []).length = 16 := by
      rw [List.getD_eq_getElem?_getD, List.getElem?_eq_getElem (by simp at hk; omega)]
      exact hl _ (by simp)
    simp only [aesEnc, xorBs_length, shiftRows_length, this]; rfl

theorem pieces_length (n : Nat) (hn : 0 < n) : ∀ (f : Nat) (l : List Byte), l.length = n * f → (pieces n f l).length = f ∧ ∀ p ∈ pieces n f l, p.length = n := by
  intro f
  induction f with
  | zero => intro l _; exact ⟨rfl, by simp [pieces]⟩
  | succ f ih =>
    intro l h
    have hne : l.isEmpty = false := by
      rw [List.isEmpty_eq_false_iff]; intro e; subst e
      have hp : 0 < n * (f + 1) := Nat.mul_pos hn (Nat.succ_pos f)
      rw [← h] at hp; simp at hp
    rw [Nat.mul_succ] at h
    obtain ⟨h1, h2⟩ := ih (l.drop n) (by rw [List.length_drop]; omega)
    simp only [pieces, hne, Bool.false_eq_true, if_false]
    refine ⟨by simp [h1], fun p hp => ?_⟩
    rcases List.mem_cons.1 hp with rfl | hp
    · rw [List.length_take]; omega
    · exact h2 p hp

theorem pieces_flatten (n : Nat) : ∀ (f : Nat) (l : List Byte), l.length ≤ n * f → (pieces n f l).flatten = l := by
  intro f
  induction f with
  | zero => intro l h; simp at h; subst h; rfl
  | succ f ih =>
    intro l h
    cases l with
    | nil => rfl
    | cons x l =>
      rw [Nat.mul_succ] at h
      simp only [pieces, List.isEmpty_cons, Bool.false_eq_true, if_false, List.flatten_cons]
      rw [ih _ (by rw [List.length_drop]; omega), List.take_append_drop]

/-- Every word of the key schedule has four bytes. -/
theorem aesWord_length (ws : List (List Byte)) (i : Nat) (r : Byte) (h : ∀ w ∈ ws, w.length = 4) (hn : 8 ≤ ws.length) :
    (aesWord ws i r).length = 4 := by
  have h0 : (ws.headD []).length = 4 := by
    cases ws with
    | nil => simp at hn
    | cons w ws => exact h w (by simp)
  have h7 : (ws.getD 7 []).length = 4 := by
    rw [List.getD_eq_getElem?_getD, List.getElem?_eq_getElem (by omega)]
    exact h _ (by simp)
  simp only [aesWord, xorBs_length, h7]
  split
  · rw [xorBs_length, List.length_map, List.length_append, List.length_drop, List.length_take, h0]; rfl
  · split
    · rw [List.length_map, h0]; rfl
    · rw [h0]; rfl

theorem aesKeys_length (key : List Byte) (h : key.length = 32) : (aesKeys key).length = 15 ∧ ∀ k ∈ aesKeys key, k.length = 16 := by
  have h8 := pieces_length 4 (by decide) 8 key h
  have inv : ∀ (l : List Nat) (st : List (List Byte) × Byte), (∀ w ∈ st.1, w.length = 4) → 8 ≤ st.1.length →
      (∀ w ∈ (l.foldl (fun (st : List (List Byte) × Byte) k =>
        (aesWord st.1 (k + 8) st.2 :: st.1, if (k + 8) % 8 = 0 then xtime st.2 else st.2)) st).1, w.length = 4) ∧
      (l.foldl (fun (st : List (List Byte) × Byte) k =>
        (aesWord st.1 (k + 8) st.2 :: st.1, if (k + 8) % 8 = 0 then xtime st.2 else st.2)) st).1.length = st.1.length + l.length := by
    intro l
    induction l with
    | nil => intro st h1 _; exact ⟨h1, rfl⟩
    | cons k l ih =>
      intro st h1 h2
      obtain ⟨a, b⟩ := ih (aesWord st.1 (k + 8) st.2 :: st.1, if (k + 8) % 8 = 0 then xtime st.2 else st.2)
        (fun w hw => by
          rcases List.mem_cons.1 hw with rfl | hw
          · exact aesWord_length _ _ _ h1 h2
          · exact h1 w hw) (by simp; omega)
      exact ⟨a, by rw [List.foldl_cons, b]; simp; omega⟩
  obtain ⟨a, b⟩ := inv (List.range 52) ((pieces 4 8 key).reverse, 1) (fun w hw => h8.2 w (by simpa using hw)) (by simp [h8.1])
  refine pieces_length 16 (by decide) 15 _ ?_
  have flat : ∀ (l : List (List Byte)), (∀ w ∈ l, w.length = 4) → l.flatten.length = 4 * l.length := by
    intro l
    induction l with
    | nil => intro _; rfl
    | cons w l ih => intro hl; rw [List.flatten_cons, List.length_append, ih (fun w h => hl w (by simp [h])), hl w (by simp)]; simp; omega
  rw [flat _ (fun w hw => a w (by simpa using hw)), List.length_reverse, b]
  simp [h8.1]

/-- IEEE 1619: decryption of a unit of 64 bytes undoes its encryption. -/
theorem xtsDec_xtsEnc (key : List Byte) (tw : Nat) (u : List Byte) (hk : key.length = 64) (hu : u.length = 64) :
    xtsDec key tw (xtsEnc key tw u) = u ∧ (xtsEnc key tw u).length = 64 := by
  have hd := aesKeys_length (key.take 32) (by have := @List.length_take _ 32 key; omega)
  have ht := aesKeys_length (key.drop 32) (by have := @List.length_drop _ 32 key; omega)
  have hp := pieces_length 16 (by decide) 4 u hu
  have := xtsBlocks_xtsBlocks (aesEnc (aesKeys (key.take 32))) (aesDec (aesKeys (key.take 32)))
    (fun b _ => aesEnc_length _ b hd.1 hd.2) (fun b hb => aesDec_aesEnc _ b hd.1 hd.2 hb) (pieces 16 4 u)
    (aesEnc (aesKeys (key.drop 32)) (natLE 16 tw)) 4 (Nat.le_of_eq hp.1) (aesEnc_length _ _ ht.1 ht.2) hp.2
  rw [pieces_flatten 16 4 u (by omega), hp.1] at this
  exact ⟨this.2, this.1⟩

/-- A unit that was written whole reads back under the same key. -/
theorem unitRead_unitWrite (s : State) (key : List Byte) (pa : Nat) (bs : List Byte) (hk : key.length = 64) (hb : bs.length = 64) :
    unitRead (unitWrite s key pa bs) key pa = bs := by
  obtain ⟨h1, h2⟩ := xtsDec_xtsEnc key (pa / 64) bs hk hb
  have := rdBs_wrBs_same s.mem (dramBase + pa / 64 * 64) (xtsEnc key (pa / 64) bs)
  rw [h2] at this
  simp only [unitRead, unitWrite, put, this, h1]

end Sys2Proof.Machine
end

