-- ==== Sys2Proof/Laws/Issue.lean ====
section
/-!
SUPPORT. What the issue of an instruction comes to at a context that is ready: the gate lets it go, and its result is settled.
-/
namespace Sys2Proof.Machine

/-- The conditions of `unheld` one by one. -/
structure UnheldAt (s : State) (w : Who) (i : Instr) : Prop where
  bound : (s.coreAt w.i).bound = none
  running : runs (s.coreAt w.i) w.c = true
  allowed : permit w i = none
  regs : ((s.coreAt w.i).ctx w.c).pend.any (fun r => (namedRegs w i).contains r) = false
  divider : divHolds s w i (namedRegs w i) = false
  acq : acquiring s w = false
  granted : s.cur.refused = none
  noCapture : ¬(w.c = 0 ∧ (s.coreAt w.i).seqr.toCap ≠ 0)
  noSeq : ((s.coreAt w.i).seqr.busy && seqHolds i) = false
  noSlip : ((s.coreAt w.i).inSlip w.c && slipStalls i) = false

theorem unheldAt {s : State} {w : Who} {i : Instr} (h : unheld s w i = true) : UnheldAt s w i := by
  simp only [unheld, Bool.and_eq_true] at h
  obtain ⟨⟨⟨⟨⟨⟨⟨⟨⟨h2, h3⟩, h4⟩, h5⟩, hd⟩, h6⟩, hg⟩, h7⟩, h8⟩, h9⟩ := h
  exact ⟨by simpa using h2, h3, by simpa using h4, by simpa using h5, by simpa using hd, by simpa using h6, by simpa using hg,
    by rintro ⟨a, b⟩; simp [a, b] at h7, by simpa only [Bool.not_eq_true'] using h8, by simpa only [Bool.not_eq_true'] using h9⟩

/-- The conditions of `ready`. -/
structure ReadyAt (s : State) (i : Instr) extends UnheldAt s (self s) i : Prop where
  gang : (s.coreAt s.curCore).gang = none

theorem readyAt {s : State} {i : Instr} (h : ready s i = true) : ReadyAt s i := by
  simp only [ready, Bool.and_eq_true] at h
  exact ⟨unheldAt h.2, by simpa using h.1⟩

/-- Nothing stands between an instruction that nothing holds and its issue, at a member whose gang formed in an earlier cycle too. -/
theorem gate_unheld {s : State} {w : Who} {i : Instr} (h : unheld s w i = true) (hg : ganging s w = false) : gate w i s = .go := by
  have r := unheldAt h
  simp only [gate, r.running, r.allowed, r.regs, r.acq, r.divider, hg, r.noSeq, r.noSlip, if_neg r.noCapture, Bool.not_true, Bool.or_self,
    Bool.false_eq_true, if_false]

/-- Nor does a containment point, at a core that is bound to no lifeguard. -/
theorem gateOp_unheld {s : State} {w : Who} {i : Instr} (op : Who → State → Res) (h : unheld s w i = true) (hg : ganging s w = false) :
    gateOp w i op s = .go := by
  simp only [gateOp, gate_unheld h hg, (unheldAt h).granted, containGate, (unheldAt h).bound]

/-- A core outside a gang has formed none. -/
theorem ganging_none {s : State} {w : Who} (h : (s.coreAt w.i).gang = none) : ganging s w = false := by simp [ganging, h]

theorem gateOp_ready {s : State} {i : Instr} (op : Who → State → Res) (h : ready s i = true) : gateOp (self s) i op s = .go :=
  gateOp_unheld op (by simp only [ready, Bool.and_eq_true] at h; exact h.2) (ganging_none (w := self s) (readyAt h).gang)

/-- No lag holds a core that is bound to no lifeguard. -/
theorem lagBlocks_unbound {k0 k1 : Core} (h : k0.bound = none) : lagBlocks k0 k1 = false := by simp [lagBlocks, lagFull, h]

theorem endContain_unbound {s0 s : State} {w : Who} (h : (s0.coreAt w.i).bound = none) : endContain s0 s w = s := by simp [endContain, h]

theorem issued_unbound {s0 s : State} {w : Who} (i : Instr) (h : (s0.coreAt w.i).bound = none) :
    issued w i s0 s = countTimer s0 (clearReady s0 s w i) w := by rw [issued, endContain_unbound h]

/-- The meaning of an instruction at a ready context is its result there, settled. -/
theorem issue_ready {s : State} {i : Instr} (op : Who → State → Res) (h : ready s i = true) :
    issue i op s = .next (settle (self s) i s (op (self s) s)) := by
  simp only [issue, run, (readyAt h).gang, one, gateOp_ready op h]

/-- The result of an instruction that goes on, at a core that is bound to no lifeguard. -/
theorem settle_go {s s' : State} {w : Who} (i : Instr) (h : (s.coreAt w.i).bound = none) :
    settle w i s (.go s') = countTimer s (clearReady s (completeAt s' w (s.fall w)) w i) w := by
  simp [settle, lagBlocks_unbound h, issued_unbound _ h]

theorem settle_stay {s s' : State} {w : Who} (i : Instr) (h : (s.coreAt w.i).bound = none) :
    settle w i s (.stay s') = countTimer s (clearReady s s' w i) w := by simp [settle, lagBlocks_unbound h, issued_unbound _ h]

@[simp] theorem logRec_unbound {s : State} {w : Who} (t : Nat) (a : Word) (n z : Nat) (h : (s.coreAt w.i).bound = none) :
    logRec s w t a n z = s := by simp [logRec, h]

@[simp] theorem logAccess_unbound {s : State} {w : Who} (t z : Nat) (a : Word) (n m : Nat) (h : (s.coreAt w.i).bound = none) :
    logAccess s w t z a n m = s := by simp [logAccess, h]

/-! ## What the end of an issue leaves unchanged -/

theorem clearReady_cases (s0 s : State) (w : Who) (i : Instr) :
    clearReady s0 s w i = s ∨ ∃ f : Core → Core, clearReady s0 s w i = s.modCore w.i f ∧
      ∀ k, f k = { k with exReady := (f k).exReady, exMiss := (f k).exMiss, exEarly := (f k).exEarly, div := (f k).div } := by
  by_cases h : (w.c = 0 ∧ (s.coreAt w.i).exReady.isSome) ∨ (divDest i).isSome
  · exact .inr ⟨_, if_pos h, fun _ => rfl⟩
  · exact .inl (if_neg h)

theorem countTimer_cases (s0 s : State) (w : Who) :
    countTimer s0 s w = s ∨ ∃ f : Core → Core, countTimer s0 s w = s.modCore w.i f ∧
      ∀ k, f k = { k with ptmr := (f k).ptmr, ptmrDue := (f k).ptmrDue } := by
  unfold countTimer
  split
  · exact .inl rfl
  · exact .inr ⟨_, rfl, fun _ => rfl⟩

/-- The end of an issue leaves the rest of the device as it is, and in its core only the marks that `coreRest` names may differ. -/
theorem issueEnd_core (s0 s : State) (w : Who) (i : Instr) :
    ∃ k', countTimer s0 (clearReady s0 s w i) w = { s with cores := (countTimer s0 (clearReady s0 s w i) w).cores } ∧
      (countTimer s0 (clearReady s0 s w i) w).coreAt w.i = k' ∧
      k' = { s.coreAt w.i with
        exReady := k'.exReady, exMiss := k'.exMiss, exEarly := k'.exEarly, div := k'.div, ptmr := k'.ptmr, ptmrDue := k'.ptmrDue } ∧
      ∀ j, j ≠ w.i → (countTimer s0 (clearReady s0 s w i) w).coreAt j = s.coreAt j := by
  refine ⟨_, ?_, rfl, ?_, ?_⟩
  · rcases clearReady_cases s0 s w i with h | ⟨f, h, hf⟩ <;> rw [h]
    · rcases countTimer_cases s0 s w with h' | ⟨g, h', hg⟩ <;> rw [h'] <;> rfl
    · rcases countTimer_cases s0 (s.modCore w.i f) w with h' | ⟨g, h', hg⟩ <;> rw [h'] <;> rfl
  · rcases clearReady_cases s0 s w i with h | ⟨f, h, hf⟩ <;> rw [h]
    · rcases countTimer_cases s0 s w with h' | ⟨g, h', hg⟩ <;> rw [h']
      simp only [coreAt_modCore_same]; rw [hg]
    · rcases countTimer_cases s0 (s.modCore w.i f) w with h' | ⟨g, h', hg⟩ <;> rw [h'] <;> simp only [coreAt_modCore_same]
      · rw [hf]
      · rw [hg, hf]
  · intro j hj
    rcases clearReady_cases s0 s w i with h | ⟨f, h, hf⟩ <;> rw [h]
    · rcases countTimer_cases s0 s w with h' | ⟨g, h', hg⟩ <;> rw [h']
      simp [coreAt_modCore_ne _ _ hj]
    · rcases countTimer_cases s0 (s.modCore w.i f) w with h' | ⟨g, h', hg⟩ <;> rw [h'] <;> simp [coreAt_modCore_ne _ _ hj]

end Sys2Proof.Machine
end

