-- ==== Sys2Proof/Laws/Ports.lean ====
section
/-!
SUPPORT. Laws of the ports and their connections: what posting a message on a connection does (spec/23 R379).
-/
namespace Sys2Proof.Machine

theorem portAt_setPort (s : State) {p : Nat} (q : Port) (hp : p < 2) (j : Nat) : (s.setPort p q).portAt j = if p = j then q else s.portAt j := by
  simp only [State.setPort, State.portAt, vget_vput]
  by_cases h : p = j
  · simp [h, show j < 2 by omega]
  · simp [h]

theorem portAt_modPort_same (s : State) {p : Nat} (f : Port → Port) (hp : p < 2) : (s.modPort p f).portAt p = f (s.portAt p) := by
  simp [State.modPort, portAt_setPort _ _ hp]

theorem portAt_modPort_ne (s : State) {p j : Nat} (f : Port → Port) (h : j ≠ p) : (s.modPort p f).portAt j = s.portAt j := by
  simp only [State.modPort, State.setPort, State.portAt]
  exact vget_vput_ne _ _ _ h

theorem connAt_setConn (s : State) {p : Nat} (c d : Nat) (k : Conn) (hp : p < 2) :
    (s.setConn p c k).connAt p d = if c = d then some k else s.connAt p d := by
  simp only [State.connAt, State.setConn, portAt_modPort_same _ _ hp, mget_mset]

@[simp] theorem coreAt_modPort (s : State) (p i : Nat) (f : Port → Port) : (s.modPort p f).coreAt i = s.coreAt i := rfl
@[simp] theorem mem_modPort (s : State) (p : Nat) (f : Port → Port) : (s.modPort p f).mem = s.mem := rfl
@[simp] theorem cores_modPort (s : State) (p : Nat) (f : Port → Port) : (s.modPort p f).cores = s.cores := rfl
@[simp] theorem connAt_emit (s : State) (o : Out) (p c : Nat) : (emit s o).connAt p c = s.connAt p c := rfl

/-- From `s` to `t` only connection `c` of port `p` and what has left the device differ. -/
structure OnlyConn (s t : State) (p c : Nat) : Prop where
  rest : { t with ports := s.ports, out := s.out } = s
  other : ∀ j, j ≠ p → t.portAt j = s.portAt j
  port : { t.portAt p with conns := (s.portAt p).conns } = s.portAt p
  conns : ∀ d, d ≠ c → t.connAt p d = s.connAt p d

theorem OnlyConn.refl (s : State) (p c : Nat) : OnlyConn s s p c := ⟨rfl, fun _ _ => rfl, rfl, fun _ _ => rfl⟩

theorem OnlyConn.trans {s t u : State} {p c : Nat} (h : OnlyConn s t p c) (h' : OnlyConn t u p c) : OnlyConn s u p c := by
  refine ⟨?_, fun j hj => (h'.other j hj).trans (h.other j hj), ?_, fun d hd => (h'.conns d hd).trans (h.conns d hd)⟩
  · have a := h.rest; have b := h'.rest; rw [← b] at a; exact a
  · have a := h.port; have b := h'.port; rw [← b] at a; exact a

theorem onlyConn_setConn (s : State) {p : Nat} (c : Nat) (k : Conn) (hp : p < 2) : OnlyConn s (s.setConn p c k) p c :=
  ⟨rfl, fun _ hj => portAt_modPort_ne _ _ hj, by rw [State.setConn, portAt_modPort_same _ _ hp],
   fun d hd => by rw [connAt_setConn _ _ _ _ hp, if_neg (Ne.symm hd)]⟩

theorem onlyConn_emit (s : State) (o : Out) (p c : Nat) : OnlyConn s (emit s o) p c := ⟨rfl, fun _ _ => rfl, rfl, fun _ _ => rfl⟩

/-- One data packet: the message joins the unacknowledged ones. -/
theorem sendData_effect {s : State} {p c : Nat} {k : Conn} (m : Msg) (hp : p < 2) (h : s.connAt p c = some k) :
    OnlyConn s (sendData s p c m) p c ∧
    ∃ k', (sendData s p c m).connAt p c = some k' ∧ k'.una = k.una ++ [(k.nxt, m)] ∧ k'.wait = k.wait ∧ k'.st = k.st := by
  simp only [sendData, h]
  refine ⟨(onlyConn_emit s _ p c).trans (onlyConn_setConn _ _ _ hp), ?_⟩
  rw [connAt_setConn _ _ _ _ hp, if_pos rfl]
  exact ⟨_, rfl, rfl, rfl, rfl⟩

theorem sendAll_effect {p c : Nat} (hp : p < 2) (ms : List Msg) : ∀ {s : State} {k : Conn}, s.connAt p c = some k →
    OnlyConn s (ms.foldl (fun s m => sendData s p c m) s) p c ∧
    ∃ k', (ms.foldl (fun s m => sendData s p c m) s).connAt p c = some k' ∧ k'.una.map (·.2) = k.una.map (·.2) ++ ms ∧ k'.wait = k.wait ∧ k'.st = k.st := by
  induction ms with
  | nil => intro s k h; exact ⟨.refl _ _ _, k, h, by simp, rfl, rfl⟩
  | cons m t ih =>
    intro s k h
    obtain ⟨o, k1, h1, hu, hw, hst⟩ := sendData_effect m hp h
    obtain ⟨o', k2, h2, hu', hw', hst'⟩ := ih h1
    exact ⟨o.trans o', k2, h2, by rw [hu', hu]; simp, hw'.trans hw, hst'.trans hst⟩

/-- `pump` moves waiting messages to the sent ones: what the connection carries stays the same. -/
theorem pump_effect {s : State} {p c : Nat} {k : Conn} (hp : p < 2) (h : s.connAt p c = some k) :
    OnlyConn s (pump s p c) p c ∧ queuedOn (pump s p c) p c = queuedOn s p c ∧ ∃ k', (pump s p c).connAt p c = some k' ∧ k'.st = k.st := by
  unfold pump
  simp only [h]
  split
  · have hs := onlyConn_setConn s c { k with wait := k.wait.drop (1024 - k.una.length) } hp
    have hc : (s.setConn p c { k with wait := k.wait.drop (1024 - k.una.length) }).connAt p c =
        some { k with wait := k.wait.drop (1024 - k.una.length) } := by rw [connAt_setConn _ _ _ _ hp, if_pos rfl]
    obtain ⟨o, k', h', hu, hw, hst⟩ := sendAll_effect hp (k.wait.take (1024 - k.una.length)) hc
    refine ⟨hs.trans o, ?_, k', h', hst⟩
    simp only [queuedOn, h', h, hu, hw, List.append_assoc, List.take_append_drop]
  · exact ⟨.refl _ _ _, rfl, k, h, rfl⟩

/-- Posting a message on a connection that carries messages: its packets come last, and nothing else differs but what has left the device. -/
theorem connPost_effect {s : State} {p c : Nat} (m : Msg) (hp : p < 2) (h : carries s p c = true) :
    ∃ t, connPost s p c m = some t ∧ queuedOn t p c = queuedOn s p c ++ cutOn s p c m ∧ OnlyConn s t p c ∧ carries t p c = true := by
  unfold carries at h
  split at h
  · next k hk =>
    have hc : (s.setConn p c { k with wait := k.wait ++ k.cut m }).connAt p c = some { k with wait := k.wait ++ k.cut m } := by
      rw [connAt_setConn _ _ _ _ hp, if_pos rfl]
    obtain ⟨o, hq, k', hk', hst⟩ := pump_effect hp hc
    refine ⟨_, by simp only [connPost, hk, h, if_true], ?_, (onlyConn_setConn s c _ hp).trans o, ?_⟩
    · rw [hq]; simp only [queuedOn, cutOn, hc, hk, List.append_assoc]
    · simp only [carries, hk', Conn.live, hst]; exact h
  · cases h

/-- On a connection that carries none, nothing is posted. -/
theorem connPost_none {s : State} {p c : Nat} (m : Msg) (h : carries s p c = false) : connPost s p c m = none := by
  unfold carries at h
  unfold connPost
  split at h <;> simp_all

end Sys2Proof.Machine
end

