-- ==== Sys2Proof/Laws/Results.lean ====
section
/-!
SUPPORT. Instructions that write one register, none, or the PC: what their settled result leaves unchanged.
-/
namespace Sys2Proof.Machine

/-- Everything but the cores is as in `s`, so `{ t with cores := … }` is `s`. -/
theorem cores_only {s t : State} (h : t = { s with cores := t.cores }) : { t with cores := s.cores } = s := by rw [h]

/-- The context of a core in which only the marks of `coreRest` changed. -/
theorem ctx_marks (k : Core) (c : Nat) (a : Option Nat) (b : List Nat) (e : Nat) (v : Option DivRun) (n : Nat) (d : Bool) :
    ({ k with exReady := a, exMiss := b, exEarly := e, div := v, ptmr := n, ptmrDue := d } : Core).ctx c = k.ctx c := rfl

/-- The end of an issue at a context whose new contents are `x`. -/
theorem issueEnd_onlyCtx {s0 s1 : State} {w : Who} {x : Ctx} {e : Instr} (hc : w.c ≤ 10) (hx : ctxRest (s1.ctxAt w) x) :
    let t := countTimer s0 (clearReady s0 (s1.modCtx w (fun _ => x)) w e) w
    t.ctxAt w = x ∧ onlyCtx s1 t w := by
  obtain ⟨k', h1, h2, h3, h4⟩ := issueEnd_core s0 (s1.modCtx w (fun _ => x)) w e
  have hk : (s1.modCtx w (fun _ => x)).coreAt w.i = (s1.coreAt w.i).setCtx w.c x := by simp [State.modCtx]
  rw [hk] at h3
  intro t
  have ht : t.coreAt w.i = k' := h2
  have hctx : t.ctxAt w = x := by
    show (t.coreAt w.i).ctx w.c = x
    rw [ht, h3, ctx_marks, ctx_setCtx_same _ _ hc]
  refine ⟨hctx, by rw [hctx]; exact hx, ?_, ?_, ?_, ?_⟩
  · have : (t.coreAt w.i).ctx w.c = x := hctx
    unfold coreRest
    rw [this, ht]; exact h3
  · have h1' : t = { (s1.modCtx w (fun _ => x)) with cores := t.cores } := h1
    rw [h1']; rfl
  · intro j hj
    rw [h4 j hj, State.modCtx, coreAt_modCore_ne _ _ hj]
  · intro a
    have h1' : t = { (s1.modCtx w (fun _ => x)) with cores := t.cores } := h1
    rw [h1']; rfl

theorem modCtx_const (s : State) (w : Who) (f : Ctx → Ctx) : s.modCtx w f = s.modCtx w (fun _ => f (s.ctxAt w)) := rfl

theorem mset_mset {α : Type} (l : List (Nat × α)) (k : Nat) (a b : α) : mset (mset l k a) k b = mset l k b := by
  induction l with
  | nil => simp [mset]
  | cons h t ih =>
    obtain ⟨j, v⟩ := h
    simp only [mset]
    split
    · simp [mset]
    · split
      · next h => subst h; simp [mset]
      · next h1 h2 => simp only [mset, h1, h2, if_false, ih]

theorem modCtx_modCtx (s : State) {w : Who} (f g : Ctx → Ctx) (h : w.c ≤ 10) :
    (s.modCtx w f).modCtx w g = s.modCtx w (fun x => g (f x)) := by
  unfold State.modCtx State.modCore
  simp only []
  rw [coreAt_setCore_same, ctx_setCtx_same _ _ h, setCtx_setCtx]
  simp [State.setCore, mset_mset]

/-- The end of an instruction that wrote `v` to register `d` and goes on. -/
theorem end_writesReg {s0 s1 : State} {w : Who} {d : Reg} {v : Word} {e : Instr} (hc : w.c ≤ 10) (hf : s1.fall w = s0.fall w) :
    writesReg s1 (countTimer s0 (clearReady s0 (completeAt (s1.wr w d v) w (s0.fall w)) w e) w) w d v := by
  have hm : completeAt (s1.wr w d v) w (s0.fall w) = s1.modCtx w (fun _ => ((s1.ctxAt w).wr d v).fallTo (s0.fall w)) := by
    unfold completeAt State.wr
    rw [modCtx_modCtx _ _ _ hc, modCtx_const]
  rw [hm]
  have hx : ctxRest (s1.ctxAt w) (((s1.ctxAt w).wr d v).fallTo (s0.fall w)) := by
    unfold ctxRest Ctx.fallTo Ctx.wr; split <;> rfl
  obtain ⟨h1, h2⟩ := issueEnd_onlyCtx (s0 := s0) (e := e) hc hx
  refine ⟨?_, ?_, ⟨?_, ?_⟩, h2⟩
  · unfold State.rd; rw [h1, Ctx.rd_fallTo, Ctx.rd_wr]; simp
  · intro r hr
    unfold State.rd; rw [h1, Ctx.rd_fallTo, Ctx.rd_wr, if_neg (by simpa using hr)]
  · rw [h1, hf]; simp [Ctx.fallTo]
  · rw [h1, hf]; simp [Ctx.fallTo]

/-- The end of an instruction that writes no register and goes on. -/
theorem end_goesOn {s0 s1 : State} {w : Who} {e : Instr} (hc : w.c ≤ 10) (hf : s1.fall w = s0.fall w) :
    goesOn s1 (countTimer s0 (clearReady s0 (completeAt s1 w (s0.fall w)) w e) w) w := by
  have hx : ctxRest (s1.ctxAt w) ((s1.ctxAt w).fallTo (s0.fall w)) := rfl
  obtain ⟨h1, h2⟩ := issueEnd_onlyCtx (s0 := s0) (e := e) hc hx
  refine ⟨?_, ⟨?_, ?_⟩, h2⟩
  · intro r _
    unfold State.rd; unfold completeAt; rw [modCtx_const, h1]; rfl
  · unfold completeAt; rw [modCtx_const, h1, hf]; rfl
  · unfold completeAt; rw [modCtx_const, h1, hf]; rfl

/-- A ready instruction whose result is to write a register and go on. -/
theorem ready_writes {s : State} {i : Instr} {op : Who → State → Res} {s1 : State} {d : Reg} {v : Word} (h : ready s i = true)
    (hop : op (self s) s = .go (s1.wr (self s) d v)) (hf : s1.fall (self s) = s.fall (self s)) :
    ∃ t, issue i op s = .next t ∧ writesReg s1 t (self s) d v := by
  have r := readyAt h
  have hb : (s.coreAt (self s).i).bound = none := r.bound
  refine ⟨_, by rw [issue_ready op h, hop, settle_go _ hb], end_writesReg (runs_ctx_le r.running) hf⟩

/-- A ready instruction that writes no register and goes on. -/
theorem ready_goesOn {s : State} {i : Instr} {op : Who → State → Res} {s1 : State} (h : ready s i = true)
    (hop : op (self s) s = .go s1) (hf : s1.fall (self s) = s.fall (self s)) :
    ∃ t, issue i op s = .next t ∧ goesOn s1 t (self s) := by
  have r := readyAt h
  have hb : (s.coreAt (self s).i).bound = none := r.bound
  refine ⟨_, by rw [issue_ready op h, hop, settle_go _ hb], end_goesOn (runs_ctx_le r.running) hf⟩

theorem settle_jump {s s' : State} {w : Who} (x : Instr) (kind : JumpKind) (pc : Word) (h : (s.coreAt w.i).bound = none)
    (h' : (s'.coreAt w.i).bound = none) :
    settle w x s (.jump kind s' pc) = countTimer s (clearReady s (s'.modCtx w (fun x => { x with
      pc := pc, loops := match kind with
        | .branch | .ret => popOutside x.loops pc
        | _ => x.loops })) w x) w := by
  cases kind <;> simp [settle, jumpLog, lagBlocks_unbound h, issued_unbound _ h, logRec_unbound _ _ _ _ h']

/-- The end of an instruction that moves the PC. -/
theorem end_jumps {s0 s1 : State} {w : Who} {e : Instr} {pc : Word} {f : List Loop → List Loop} (hc : w.c ≤ 10) :
    jumpsTo s1 (countTimer s0 (clearReady s0 (s1.modCtx w (fun x => { x with pc := pc, loops := f x.loops })) w e) w) w pc
      (f (s1.ctxAt w).loops) := by
  have hx : ctxRest (s1.ctxAt w) { s1.ctxAt w with pc := pc, loops := f (s1.ctxAt w).loops } := rfl
  obtain ⟨h1, h2⟩ := issueEnd_onlyCtx (s0 := s0) (e := e) hc hx
  refine ⟨?_, ?_, ?_, h2⟩
  · intro r _
    unfold State.rd; rw [modCtx_const, h1]; rfl
  · rw [modCtx_const, h1]
  · rw [modCtx_const, h1]

/-- A ready instruction that moves the PC. -/
theorem ready_jumps {s : State} {i : Instr} {op : Who → State → Res} {s1 : State} {kind : JumpKind} {pc : Word} (h : ready s i = true)
    (hop : op (self s) s = .jump kind s1 pc) (h1 : (s1.coreAt s.curCore).bound = none) :
    ∃ t, issue i op s = .next t ∧ jumpsTo s1 t (self s) pc (match kind with
      | .branch | .ret => popOutside (s1.ctxAt (self s)).loops pc
      | _ => (s1.ctxAt (self s)).loops) := by
  have r := readyAt h
  have hb : (s.coreAt (self s).i).bound = none := r.bound
  refine ⟨_, by rw [issue_ready op h, hop, settle_jump _ kind pc hb h1], ?_⟩
  cases kind
  · exact end_jumps (f := fun l => popOutside l pc) (runs_ctx_le r.running)
  · exact end_jumps (f := fun l => popOutside l pc) (runs_ctx_le r.running)
  · exact end_jumps (f := fun l => l) (runs_ctx_le r.running)
  · exact end_jumps (f := fun l => l) (runs_ctx_le r.running)

/-! ## From a result to the shape that a statement names -/

theorem givesReg_of_op {s : State} {i : Instr} {op : Who → State → Res} {d : Reg} {v : Word} (he : exec i s = issue i op s)
    (hop : op (self s) s = .go (s.wr (self s) d v)) : givesReg s i d v := fun h => by
  rw [he]; exact ready_writes h hop rfl

theorem givesState_of_op {s : State} {i : Instr} {op : Who → State → Res} {s1 : State} (he : exec i s = issue i op s)
    (hop : op (self s) s = .go s1) (hf : s1.fall (self s) = s.fall (self s)) : givesState s i s1 := fun h => by
  rw [he]; exact ready_goesOn h hop hf

theorem givesJump_of_op {s : State} {i : Instr} {op : Who → State → Res} {s1 : State} {kind : JumpKind} {pc : Word} {ls : List Loop}
    (he : exec i s = issue i op s) (hop : op (self s) s = .jump kind s1 pc)
    (h1 : ready s i = true → (s1.coreAt s.curCore).bound = none)
    (hl : ready s i = true → ls = (match kind with
      | .branch | .ret => popOutside (s1.ctxAt (self s)).loops pc
      | _ => (s1.ctxAt (self s)).loops)) : givesJump s i s1 pc ls := fun h => by
  rw [he, hl h]; exact ready_jumps h hop (h1 h)

end Sys2Proof.Machine
end

