-- ==== Sys2Proof/Laws/Traps.lean ====
section
/-!
SUPPORT. Trap entry (spec/08 R151): what `trapEntry` comes to where a trap can be entered, and an instruction that raises a cause there.
-/
namespace Sys2Proof.Machine

@[simp] theorem dropReady_gang (k : Core) : k.dropReady.gang = k.gang := by unfold Core.dropReady; split <;> rfl
@[simp] theorem dropReady_bound (k : Core) : k.dropReady.bound = k.bound := by unfold Core.dropReady; split <;> rfl

theorem dissolve_alone {s : State} {i : Nat} (f : Bool) (h : (s.coreAt i).gang = none) : dissolve s i f = s := by simp [dissolve, h]

theorem report_other (s : State) (i c : Nat) (v : Word) (h : c ≠ 0x0C) : report s i c v = s := by simp [report, h]

/-- Trap entry at a core by itself, bound to no lifeguard, lulled nowhere and capturing no body. -/
theorem trapEntry_open {s : State} {i cause : Nat} {val pc : Word} (hg : (s.coreAt i).gang = none) (hb : (s.coreAt i).bound = none)
    (hl : (s.coreAt i).ctl.lull = none) (hc : (s.coreAt i).seqr.toCap = 0) (ho : trapOpen s i) :
    trapTaken s (trapEntry s i cause val pc) i (trapLevel s i) cause val pc := by
  obtain ⟨h1, h2⟩ := ho
  have hh : abandonLull s i 0 = s := by simp [abandonLull, Core.ctx, hl]
  unfold trapLevel at *
  unfold trapEntry
  simp only [h1, h2, Bool.not_true, Bool.or_self, Bool.false_eq_true, if_false, hh]
  rw [dissolve_alone _ (by simp [hg]), logRec_unbound _ _ _ _ (by simp [hb])]
  refine ⟨⟨rfl, fun j hj => coreAt_modCore_ne _ _ hj, fun a => rfl⟩, ?_⟩
  cases hx : (s.coreAt i).exReady <;> simp [hc, hb, Core.dropReady, hx]

/-- A ready instruction of the control context that raises a cause other than `datauc`. -/
theorem givesTrap_of_op {s : State} {i : Instr} {op : Who → State → Res} {cause : Nat} {val pc : Word} {after : Bool}
    (he : exec i s = issue i op s) (hop : op (self s) s = .trap cause val after)
    (hpc : pc = if after then s.fall (self s) else s.pcOf (self s)) (hcause : cause ≠ 0x0C) : givesTrap s i cause val pc := by
  intro h hc hs hq ho
  have r := readyAt h
  have hin : (s.coreAt (self s).i).inSlip (self s).c = false := by simp [Core.inSlip, self, hs]
  have hc' : ¬(self s).c ≠ 0 := by simp [self, hc]
  have hl : (s.coreAt s.curCore).ctl.lull = none := by
    have := r.running; simp [self, runs, hc, Core.ctx] at this; exact this.1.1.2
  have hcap : (s.coreAt s.curCore).seqr.toCap = 0 := by
    have := r.noCapture; simpa [self, hc] using this
  refine ⟨_, by rw [he, issue_ready op h, hop], ?_⟩
  have hp : trapPc s (self s) after = pc := by rw [hpc]; cases after <;> simp [trapPc, self, hc]
  simp only [settle, hin, Bool.false_eq_true, if_false, takeTrap]
  have hq' : (s.coreAt (self s).i).quar = none := hq
  rw [if_neg hc', hq', hp]
  simp only [report_other _ _ _ _ hcause]
  obtain ⟨⟨a1, a2, a3⟩, a4⟩ := trapEntry_open (cause := cause) (val := val) (pc := pc) r.gang r.bound hl hcap ho
  show trapTaken s (countTimer s (trapEntry s s.curCore cause val pc) (self s)) _ _ _ _ _
  rcases countTimer_cases s (trapEntry s s.curCore cause val pc) (self s) with h' | ⟨f, h', hf⟩ <;> rw [h']
  · exact ⟨⟨a1, a2, a3⟩, a4⟩
  · refine ⟨⟨a1, fun j hj => ?_, a3⟩, ?_⟩
    · have hj' : j ≠ (self s).i := hj
      rw [coreAt_modCore_ne _ _ hj']; exact a2 j hj
    · have hT : ∀ T X : Core, T = f X → T = { X with ptmr := T.ptmr, ptmrDue := T.ptmrDue } := by
        rintro T X rfl; exact hf X
      have e := hT _ _ (coreAt_modCore_same (trapEntry s s.curCore cause val pc) (self s).i f)
      refine e.trans ?_
      have a4' : (trapEntry s s.curCore cause val pc).coreAt (self s).i = _ := a4
      rw [a4']
      rfl

end Sys2Proof.Machine
end

