-- ==== Sys2Proof/Tests/Slice0.lean ====
section
/-!
SUPPORT. Tests of the model: ill-formed instructions that `Instr.wf` refuses, words of the spec's encodings, witnesses that the premises of the
statements can be met, and single steps with results that the spec states.
-/
namespace Sys2Proof.Tests
open Sys2Proof Sys2Proof.Machine

set_option maxRecDepth 30000

/-! ## Small states -/

/-- A running core whose traps are enabled at every level. -/
def alive : Core := { run := .running, banks := Vector.replicate 3 { vec := 1 } }

/-- Registers with the listed values, the others 0. -/
def regs (l : List (Nat × Word)) : Vector Word 32 := l.foldl (fun v (e : Nat × Word) => vput v e.1 e.2) (Vector.replicate 32 0)

/-- The running core with these registers. -/
def having (l : List (Nat × Word)) : Core := { alive with ctl := { g := regs l } }

/-- A powered device in which core `i` is `k`, and context `c` of it is to issue. -/
def stand (i c : Nat) (k : Core) : State :=
  { State.reset with powered := true, event := none, curCore := i, curCtx := c, cores := [(i, k)] }

/-- A running helper context 0 with registers. -/
def helping (l : List (Nat × Word)) : Core :=
  { alive with helpers := vput (Vector.replicate 10 {}) 0 { live := true, ctx := { g := regs l } } }

/-- A guard that grants nothing (spec/06 Table 6.13: start 0x1000, 4 KiB, level 2). -/
def fenced (k : Core) : Core := { k with grd := vput k.grd 0 0x1328 }

/-- The premises of `givesTrap`, as one Boolean. -/
def opens (s : State) (i : Instr) : Bool :=
  let b := vget (s.coreAt s.curCore).banks (trapLevel s s.curCore) {}
  ready s i && s.curCtx == 0 && decide ((s.coreAt s.curCore).slip = none) && (s.coreAt s.curCore).quar.isNone && !b.tn && bit b.vec 0

/-- `opens` says what `givesTrap` asks for. -/
theorem opens_iff (s : State) (i : Instr) : opens s i = true ↔
    ready s i = true ∧ s.curCtx = 0 ∧ (s.coreAt s.curCore).slip = none ∧ (s.coreAt s.curCore).quar = none ∧ trapOpen s s.curCore := by
  simp [opens, trapOpen, and_assoc]

/-- The premises of `loadsOwn` (`acc` a load) and of `storesOwn` (a store), but for slipstream. -/
def ownOk (s : State) (i : Instr) (o : Mem) (acc : Acc3) (n : Nat) : Bool :=
  let w := self s
  let a := (s.rd w o.b).toNat
  ready s i && i.wf && decide (a + n ≤ localSize w.i) && guardOk (s.coreAt w.i) acc a n && a % n == 0 &&
    decide (sliceBad s w a n = none) && decide (slipOf (s.coreAt w.i) w.c = none)

/-- The premises of `loadsWin`, `storesWin` and `lullsOn`. -/
def winOk (s : State) (i : Instr) (o : Mem) (acc : Acc3) (n : Nat) : Bool :=
  ready s i && guardOk (s.coreAt s.curCore) acc (s.rd (self s) o.b).toNat n && !(s.coreAt s.curCore).inSlip s.curCtx


/-! ## Ill-formed instructions, one for each check of `Instr.wf` -/

theorem test_wf_scalar :
    [Instr.ldN8 { a := 3, b := 3, pinc := true }, .ldS8 { a := 3, b := 3, pinc := true }, .ldN16 { a := 3, b := 3, pinc := true },
     .ldS16 { a := 3, b := 3, pinc := true }, .ldN32 { a := 3, b := 3, pinc := true }, .ldS32 { a := 3, b := 3, pinc := true },
     .ld64 { a := 3, b := 3, pinc := true }, .loop 1 0, .loop 1 (BitVec.ofInt 35 (-2)), .bfx { a := 1, p := 63, l := 1 },
     .bfxs { a := 1, p := 1, l := 63 }, .bfi 1 2 63 1, .bbget 1 0, .bbgets 1 33, .bbpeek 1 0, .bbskip 33, .bbput 1 0].all (fun i => !i.wf) = true := by
  decide

/-- Types, roundings, `.sat`, staggers and PFX.R that a page-1 row does not accept. -/
theorem test_wf_vector_rows :
    [Instr.vmov { ty := .np, a := 1, b := 2 }, .vmov { rnd := .rz, a := 1, b := 2 }, .vmov { a := 1, b := 2, c := some 3 }, .vmovToMask 0 1,
     .vadd { ty := .l6, a := 1, b := 2 }, .vsub { ty := .s8, rnd := .sr, a := 1, b := 2 }, .vmul { a := 1, b := 2, k := 1 },
     .vadd { sc := true, a := 1, b := 2 }, .vfma { a := 1, b := 2 }, .vfms { ty := .n8, a := 1, b := 2, c := some 3 },
     .vmin { sat := true, a := 1, b := 2 }, .vmax { rnd := .rz, a := 1, b := 2 }, .vabs { sat := true, a := 1, b := 2 }, .vneg { ty := .e4m3, a := 1, b := 2 },
     .vand { ty := .np, a := 1, b := 2 }, .vor { sat := true, a := 1, b := 2 }, .vxor { a := 1, b := 2, k := 1 }, .vshl { a := 1, b := 2 },
     .vshr { ty := .e5m2, a := 1, b := 2 }, .vsra { ty := .n8, sat := true, a := 1, b := 2 }, .vcmp { a := 0, b := 2, c := some 3 } .lt,
     .vcmp { a := 8, b := 2, c := some 3 } .lt, .vcmp { ty := .n8, a := 1, b := 2, c := some 3 } .un, .vcmp { sa := true, a := 1, b := 2, c := some 3 } .lt,
     .vsel { a := 1, b := 2 }, .vsplat { sb := true, a := 1, b := 2 }].all (fun i => !i.wf) = true := by decide

theorem test_wf_vector_more :
    [Instr.vrcp { ty := .e4m3, a := 1, b := 2 }, .vrsq { a := 1, b := 2, c := some 3 }, .vexp2 { ty := .s8, a := 1, b := 2 }, .vlog2 { sc := true, a := 1, b := 2 },
     .vtanh { ty := .l6, a := 1, b := 2 }, .vcvt { a := 1, b := 2 } .f32 0, .vcvt { a := 1, b := 2 } .np 0, .vcvt { ty := .n8, rnd := .rz, a := 1, b := 2 } .s16 0,
     .vcvt { ty := .e4m3, a := 1, b := 2 } .f32 4, .vqnt { ty := .l6, a := 1, b := 2, c := some 3 } .ieee, .vqnt { a := 1, b := 2, c := some 3 } .finite,
     .vdqt { ty := .s8, a := 1, b := 2, c := some 3 } .nanOnly, .vdqt { ty := .s4, a := 1, b := 2 } .finite, .vamax { ty := .s4, a := 1, b := 2 } .ieee,
     .vred { rnd := .rz, a := 1, b := 2 } .add, .vperm { ty := .e2m1, a := 1, b := 2 }, .vrot { ty := .n8, a := 1, b := 2 }, .vext { a := 1, b := 2, c := some 3, k := 1 },
     .vins { sb := true, a := 1, b := 2 }, .vtrn { ty := .i64, a := 1, b := 2 }, .vlut { ty := .s4, a := 1, b := 2, c := some 3 }, .vld { ty := .l6, a := 1, b := 2 } 0,
     .vst { sat := true, a := 1, b := 2 } 0, .vgath { a := 1, b := 2 }, .vscat { ty := .np, a := 1, b := 2, c := some 3 }, .vldp { a := 1, b := 2, c := some 3 } 0,
     .vstp { ty := .np, sb := true, a := 1, b := 2, c := some 3 } 0, .vpupd { ty := .np, rnd := .rz, a := 2, b := 2, c := some 3 },
     .vpupd { ty := .np, a := 1, b := 2, c := some 3 }, .vdot { ty := .n32, a := 1, b := 2, c := some 3 }, .bbgetv .s16 false 1 3, .bbgetv .n8 false 1 0,
     .bbgetv .n8 false 1 7, .vrep 1 0, .vrep 1 17].all (fun i => !i.wf) = true := by decide

theorem test_wf_system :
    [Instr.ldg { a := 1, b := 2, sz := 1, ord := some .core }, .stg { a := 1, b := 2, ord := some .core }, .amaxf { a := 1, b := 2, c := 3 }, .gang 3, .gang 16,
     .syncH 1, .syncS 7 false, .dom 1 0, .bstat 1 .v1 7, .crd 1 57, .crd 1 39, .cwr 1 0, .cwr 1 20, .cwr 1 63, .lgnext 4 4].all (fun i => !i.wf) = true := by decide

/-! ## Encodings that the checks of spec/04 Table 4.7 refuse -/

/-- `.illegal` with this reason. -/
def refuses (x : DecCtx) (rsn : Nat) (hs : List Half) : Bool := match decode x hs with
  | .illegal r _ _ _ => r == rsn
  | _ => false

theorem test_decode_refused :
    (refuses ⟨.memory, false⟩ 7 [0xF801, 0x0408] && refuses ⟨.memory, false⟩ 7 [0xF802, 0x0C00] && refuses ⟨.worker, false⟩ 7 [0xF806, 0x0000] &&
     refuses ⟨.worker, false⟩ 11 [0xF803, 0x9003] && refuses ⟨.worker, false⟩ 12 [0x74E6] && refuses ⟨.worker, true⟩ 12 [0xF804, 0x1000]) = true := by decide

/-! ## Words written out from the spec's encodings -/

/-- Each word of the list decodes to its instruction, and no halfword is left. -/
def decodesTo (x : DecCtx) (l : List (List Half × Instr)) : Bool :=
  l.all (fun e => match decode x e.1 with
    | .ok i n _ _ _ => i == e.2 && n == e.1.length
    | _ => false)

theorem test_decode_examples_page0 : decodesTo ⟨.worker, false⟩
  [([0x00A1], .brk 5),
   ([0x0002], .ret),
   ([0x0024], .bbset 1),
   ([0x0000], .nop),
   ([0x06A2], .add { a := 21, b := 2 }),
   ([0x0882], .sub { a := 4, b := 2 }),
   ([0x0D8D], .and { a := 12, b := 13 }),
   ([0x5C41], .addi { a := 2, imm := 1 }),
   ([0xF440, 0x6461], .andi { a := 3, c := some 2, imm := 1 }),
   ([0xF440, 0x6CA1], .xori { a := 5, c := some 2, imm := 1 }),
   ([0x58B4], .mov 5 20),
   ([0x6045], .li 2 5),
   ([0xF460, 0xF006, 0xD6D8], .bfi 22 3 24 3),
   ([0xF4C0, 0xF007, 0xD14F], .bfx { a := 10, c := some 6, p := 47, l := 3 }),
   ([0xF4C0, 0xF001, 0xD17A], .bfx { a := 11, c := some 6, p := 58, l := 0 }),
   ([0xFC05, 0xF4C0, 0x70E4], .cmplen { a := 7, b := 4, c := some 6 }),
   ([0xFC03, 0x7334], .cmpltn { a := 25, b := 20 }),
   ([0xF480, 0x74E6], .sel 7 6 4),
   ([0xFC02, 0xCF7A], .ctz 27 26),
   ([0xF460, 0x7AA4], .shli { a := 21, c := some 3, sh := 4 }),
   ([0x7F64], .shri { a := 27, sh := 4 }),
   ([0xB820], .ld64 { a := 1, b := 0 }),
   ([0xFC01, 0xAA79], .ldN16 { a := 19, b := 25, pinc := true }),
   ([0xB128], .ldN32 { a := 9, b := 8 }),
   ([0xA20F], .ldN8 { a := 16, b := 15 }),
   ([0xFC01, 0xAD23], .ldS16 { a := 9, b := 3, pinc := true }),
   ([0xBC85], .st8 { a := 4, b := 5 }),
   ([0xFC01, 0xC271], .st16 { a := 19, b := 17, pinc := true }),
   ([0xFC01, 0xC8A6], .st64 { a := 5, b := 6, pinc := true })] = true := by decide

theorem test_decode_examples_page1 : decodesTo ⟨.worker, false⟩
  [([0xF801, 0xFC08, 0xF460, 0xC820], .bbgetv .n8 false 1 3),
   ([0xF801, 0xFC20, 0xF480, 0x4043], .vcmp { a := 2, b := 3, c := some 4 } .lt),
   ([0xF801, 0xFC18, 0xF6A0, 0x4034], .vcmp { ty := .n8, a := 1, b := 20, c := some 21 } .ne),
   ([0xF801, 0xFC19, 0xF440, 0xC401], .vdot { ty := .s8, sat := true, a := 0, b := 1, c := some 2 }),
   ([0xF801, 0xF600, 0x1100], .vfma { a := 8, b := 0, c := some 16 }),
   ([0xF801, 0xFC0F, 0xF4E2, 0xA4A6], .vldp { ty := .np, a := 5, b := 6, c := some 7 } 2),
   ([0xF801, 0xFC20, 0x0065], .vmovToMask 3 5),
   ([0xF801, 0xFC40, 0x01C1], .vmovFromMask 14 1),
   ([0xF801, 0x8022], .vred { a := 1, b := 2 } .add),
   ([0xF801, 0xE064], .vrep 3 4),
   ([0xF801, 0xE800], .vwait),
   ([0xF801, 0x0408], .vadd { a := 0, b := 8 }),
   ([0xF801, 0xA028], .vld { a := 1, b := 8 } 0),
   ([0xF801, 0xB042], .vst { a := 2, b := 2 } 0),
   ([0xF801, 0xFC01, 0xF500, 0x9841], .vlut { ty := .bf16, a := 2, b := 1, c := some 8 }),
   ([0xF801, 0xFC0F, 0xF400, 0xC000], .vpupd { ty := .np, a := 0, b := 0, c := some 0 }),
   ([0xF801, 0x4824], .vsplat { a := 1, b := 4 }),
   ([0xF801, 0xFC02, 0xF401, 0x7082], .vcvt { ty := .e4m3, a := 4, b := 2 } .f32 1)] = true := by decide

theorem test_decode_examples_pages2_3 : decodesTo ⟨.worker, false⟩
  [([0xF802, 0x2C00], .mbar),
   ([0xF802, 0x0001], .mfmt { a := 0, b := 1 }),
   ([0xF802, 0x0401], .mldb { a := 0, b := 1 }),
   ([0xF802, 0xFC01, 0xF460, 0x0800], .mmul 0 0 3 true false),
   ([0xF802, 0xFC01, 0x1404], .mrd 0 4 1),
   ([0xF802, 0x2040], .mspec 2),
   ([0xF802, 0xFC01, 0x1C05], .mvldR 5),
   ([0xF802, 0x0C20], .mzero 1),
   ([0xF803, 0xFC02, 0xF4A0, 0x1864], .aadd { a := 3, b := 4, c := 5, scope := .dev }),
   ([0xF803, 0xACAD], .bstat 5 .v1 5),
   ([0xF803, 0xC004], .cpy 4),
   ([0xF803, 0xC4A6], .cpyq 5 6),
   ([0xF803, 0xA883], .dom 4 3),
   ([0xF803, 0xB003], .evsig 3),
   ([0xF803, 0xA407], .exch 7),
   ([0xF803, 0xFC12, 0x4C00], .fence .sc .dev),
   ([0xF803, 0x9004], .gang 4),
   ([0xF803, 0xFC06, 0xF401, 0x0485], .ldg { a := 4, b := 5, sz := 1, ord := some .dev }),
   ([0xF803, 0xFC0A, 0x0A9A], .stg { a := 20, b := 26, ord := some .dev }),
   ([0xF803, 0x0606], .ldg { a := 16, b := 6 }),
   ([0xF803, 0x5085], .push 4 5),
   ([0xF803, 0x54C4], .pop 6 4),
   ([0xF803, 0x9C03], .syncH 3),
   ([0xF803, 0xA002], .syncS 2 false),
   ([0xF803, 0xFC01, 0xA002], .syncS 2 true),
   ([0xF803, 0xCC41], .uien 2 true)] = true := by decide

theorem test_decode_examples_pages4_5 : decodesTo ⟨.worker, false⟩
  [([0xF804, 0x0807], .trap 7),
   ([0xF804, 0xF001, 0x0040], .crd 2 32),
   ([0xF804, 0x0033], .crd 1 19),
   ([0xF804, 0x047F], .cwr 3 31),
   ([0xF804, 0x0436], .cwr 1 22),
   ([0xF804, 0x1000], .halt),
   ([0xF804, 0x0C00], .tret),
   ([0xF805, 0x00C5], .lgbind 6 5),
   ([0xF805, 0x11C0], .lgflag 14),
   ([0xF805, 0x08C7], .lgnext 6 7),
   ([0xF805, 0x0C00], .lgok),
   ([0xF805, 0x84C7], .npoll 6 7),
   ([0xF805, 0x8064], .npost 3 4),
   ([0xF805, 0x4064], .xreq 3 4),
   ([0xF805, 0x44C0], .xres 6)] = true := by decide

theorem test_decode_examples_page6 : decodesTo ⟨.memory, false⟩
  [([0xF806, 0xF520, 0x0007], .mcld 0 7 9),
   ([0xF806, 0xF520, 0x0808], .mcpush 0 8 9),
   ([0xF806, 0xFC01, 0xF460, 0x0C22], .mcgath 1 2 3 true),
   ([0xF806, 0x1820], .mcsig 1),
   ([0xF806, 0x1000], .mcwait)] = true := by decide

theorem test_decode_page0_control : decodesTo ⟨.worker, false⟩
  [([0x0063], .jr 3),
   ([0x0005], .bbflush),
   ([0x83FE], .b (BitVec.ofInt 40 (-2))),
   ([0xF001, 0x8003], .b 1027),
   ([0x847E], .beqz 3 (BitVec.ofInt 35 (-2))),
   ([0x887E], .bnez 3 (BitVec.ofInt 35 (-2))),
   ([0x8C7E], .bltz 3 (BitVec.ofInt 35 (-2))),
   ([0x947E], .bgez 3 (BitVec.ofInt 35 (-2))),
   ([0xF001, 0x9062], .loop 3 34),
   ([0x9819], .call 25)] = true := by decide

theorem test_decode_page0_rr : decodesTo ⟨.worker, false⟩
  [([0xF4A0, 0x1064], .or { a := 3, b := 4, c := some 5 }),
   ([0xF4A0, 0x1464], .xor { a := 3, b := 4, c := some 5 }),
   ([0xF4A0, 0x1864], .andn { a := 3, b := 4, c := some 5 }),
   ([0xF4A0, 0x1C64], .shl { a := 3, b := 4, c := some 5 }),
   ([0xF4A0, 0x2064], .shr { a := 3, b := 4, c := some 5 }),
   ([0xF4A0, 0x2464], .sra { a := 3, b := 4, c := some 5 }),
   ([0xF4A0, 0x2864], .rot { a := 3, b := 4, c := some 5 }),
   ([0xF4A0, 0x2C64], .mul { a := 3, b := 4, c := some 5 }),
   ([0xF4A0, 0x3064], .mulh { a := 3, b := 4, c := some 5 }),
   ([0xF4A0, 0x3464], .mulhn { a := 3, b := 4, c := some 5 }),
   ([0xF4A0, 0x3864], .div { a := 3, b := 4, c := some 5 }),
   ([0xF4A0, 0x3C64], .divn { a := 3, b := 4, c := some 5 }),
   ([0xF4A0, 0x4064], .rem { a := 3, b := 4, c := some 5 }),
   ([0xF4A0, 0x4464], .remn { a := 3, b := 4, c := some 5 }),
   ([0xF4A0, 0x4864], .min { a := 3, b := 4, c := some 5 }),
   ([0xF4A0, 0x4C64], .max { a := 3, b := 4, c := some 5 }),
   ([0xF4A0, 0x5064], .minn { a := 3, b := 4, c := some 5 }),
   ([0xF4A0, 0x5464], .maxn { a := 3, b := 4, c := some 5 }),
   ([0x7064], .cmpeq { a := 3, b := 4 }),
   ([0xFC01, 0x7064], .cmpne { a := 3, b := 4 }),
   ([0xFC02, 0x7064], .cmplt { a := 3, b := 4 }),
   ([0xFC04, 0x7064], .cmple { a := 3, b := 4 })] = true := by decide

theorem test_decode_page0_imm : decodesTo ⟨.worker, false⟩
  [([0x6871], .ori { a := 3, imm := 17 }),
   ([0x5C7F], .addi { a := 3, imm := BitVec.ofInt 35 (-1) }),
   ([0xF002, 0x5C61], .addi { a := 3, imm := 65 }),
   ([0xF3FF, 0xF3FF, 0xF3FF, 0x609E], .li 4 (BitVec.ofInt 35 (-2))),
   ([0xF001, 0xF000, 0xF000, 0x6080], .li 4 0x2000000),
   ([0xF4A0, 0xF001, 0x9C7F], .srai { a := 3, c := some 5, sh := 63 })] = true := by decide

theorem test_decode_page0_mem : decodesTo ⟨.worker, false⟩
  [([0xA464], .ldS8 { a := 3, b := 4 }),
   ([0xB464], .ldS32 { a := 3, b := 4 }),
   ([0xFC01, 0xC464], .st32 { a := 3, b := 4, pinc := true })] = true := by decide

theorem test_decode_page0_bits : decodesTo ⟨.worker, false⟩
  [([0xCC64], .popc 3 4),
   ([0xFC01, 0xCC64], .clz 3 4),
   ([0xF093, 0xD065], .bfxs { a := 3, p := 37, l := 9 }),
   ([0xF4A3, 0xD864], .lea 3 4 5 3),
   ([0xF001, 0xDC60], .bbget 3 32),
   ([0xF001, 0xE060], .bbgets 3 32),
   ([0xF001, 0xE460], .bbpeek 3 32),
   ([0xF001, 0xEC60], .bbput 3 32),
   ([0xE807], .bbskip 7)] = true := by decide

theorem test_decode_page1_arith : decodesTo ⟨.worker, false⟩
  [([0xF801, 0xFC31, 0xF4A8, 0x0864], .vsub { ty := .bf16, rnd := .rz, sat := true, a := 3, b := 4, c := some 5, k := 2 }),
   ([0xF801, 0xFC31, 0xF4A8, 0x0C64], .vmul { ty := .bf16, rnd := .rz, sat := true, a := 3, b := 4, c := some 5, k := 2 }),
   ([0xF801, 0xFC40, 0xF4C0, 0x1464], .vfms { rnd := .sr, a := 3, b := 4, c := some 6 }),
   ([0xF801, 0xFF89, 0xF4A0, 0x1864], .vmin { ty := .s8, sa := true, sb := true, sc := true, a := 3, b := 4, c := some 5 }),
   ([0xF801, 0xFF89, 0xF4A0, 0x1C64], .vmax { ty := .s8, sa := true, sb := true, sc := true, a := 3, b := 4, c := some 5 }),
   ([0xF801, 0xFC1E, 0xF404, 0x2064], .vabs { ty := .i64, sat := true, a := 3, b := 4, k := 1 }),
   ([0xF801, 0xFC1E, 0xF404, 0x2464], .vneg { ty := .i64, sat := true, a := 3, b := 4, k := 1 }),
   ([0xF801, 0xFC0A, 0xF4A0, 0x2864], .vand { ty := .n16, a := 3, b := 4, c := some 5 }),
   ([0xF801, 0xFC0A, 0xF4A0, 0x2C64], .vor { ty := .n16, a := 3, b := 4, c := some 5 }),
   ([0xF801, 0xFC0A, 0xF4A0, 0x3064], .vxor { ty := .n16, a := 3, b := 4, c := some 5 }),
   ([0xF801, 0xFC0A, 0xF4A0, 0x3464], .vshl { ty := .n16, a := 3, b := 4, c := some 5 }),
   ([0xF801, 0xFC0A, 0xF4A0, 0x3864], .vshr { ty := .n16, a := 3, b := 4, c := some 5 }),
   ([0xF801, 0xFC0A, 0xF4A0, 0x3C64], .vsra { ty := .n16, a := 3, b := 4, c := some 5 })] = true := by decide

theorem test_decode_page1_moves : decodesTo ⟨.worker, false⟩
  [([0xF801, 0xFC08, 0x0064], .vmov { ty := .n8, a := 3, b := 4 }),
   ([0xF801, 0xFC04, 0xF4AC, 0x4464], .vsel { ty := .e2m1, a := 3, b := 4, c := some 5, k := 3 }),
   ([0xF801, 0xFC11, 0x5064], .vrcp { ty := .bf16, sat := true, a := 3, b := 4 }),
   ([0xF801, 0xFC11, 0x5464], .vrsq { ty := .bf16, sat := true, a := 3, b := 4 }),
   ([0xF801, 0xFC11, 0x5864], .vexp2 { ty := .bf16, sat := true, a := 3, b := 4 }),
   ([0xF801, 0xFC11, 0x5C64], .vlog2 { ty := .bf16, sat := true, a := 3, b := 4 }),
   ([0xF801, 0xFC11, 0x6064], .vtanh { ty := .bf16, sat := true, a := 3, b := 4 }),
   ([0xF801, 0xFC14, 0xF4A2, 0x7464], .vqnt { ty := .e2m1, sat := true, a := 3, b := 4, c := some 5 } .ieee),
   ([0xF801, 0xFC05, 0xF4A0, 0x7864], .vdqt { ty := .l6, a := 3, b := 4, c := some 5 } .finite),
   ([0xF801, 0xFC02, 0xF405, 0x7C64], .vamax { ty := .e4m3, a := 3, b := 4, k := 1 } .nanOnly),
   ([0xF801, 0xFC0C, 0xF4A0, 0x8464], .vperm { ty := .n32, a := 3, b := 4, c := some 5 }),
   ([0xF801, 0xFC0C, 0xF4A0, 0x8864], .vrot { ty := .n32, a := 3, b := 4, c := some 5 }),
   ([0xF801, 0xFC09, 0xF4A0, 0x8C64], .vext { ty := .s8, a := 3, b := 4, c := some 5 }),
   ([0xF801, 0xFC09, 0xF4A0, 0x9064], .vins { ty := .s8, a := 3, b := 4, c := some 5 }),
   ([0xF801, 0xFC0A, 0xF404, 0x9464], .vtrn { ty := .n16, a := 3, b := 4, k := 1 }),
   ([0xF801, 0xFC0E, 0xF4A4, 0xA864], .vgath { ty := .i64, a := 3, b := 4, c := some 5, k := 1 }),
   ([0xF801, 0xFC0E, 0xF4A4, 0xB864], .vscat { ty := .i64, a := 3, b := 4, c := some 5, k := 1 }),
   ([0xF801, 0xFE0F, 0xF4A1, 0xB464], .vstp { ty := .np, sa := true, a := 3, b := 4, c := some 5 } 1),
   ([0xF801, 0xE460], .vend 3)] = true := by decide

theorem test_decode_page2 : decodesTo ⟨.worker, false⟩
  [([0xF802, 0x1064], .mwr 3 4),
   ([0xF802, 0x1864], .mdup 3 4),
   ([0xF802, 0x1C04], .mvld 4),
   ([0xF802, 0x2460], .mcommit 3),
   ([0xF802, 0x2860], .mdiscard 3),
   ([0xF802, 0x3000], .mstat),
   ([0xF802, 0xC064], .mslot 3 4),
   ([0xF802, 0xC460], .mwgt 3)] = true := by decide

theorem test_decode_page3 : decodesTo ⟨.worker, false⟩
  [([0xF803, 0xFC0D, 0xF4A1, 0x1C64], .aand { a := 3, b := 4, c := 5, w32 := true, ord := .ar, scope := .clus }),
   ([0xF803, 0xFC0D, 0xF4A1, 0x2064], .aor { a := 3, b := 4, c := 5, w32 := true, ord := .ar, scope := .clus }),
   ([0xF803, 0xFC0D, 0xF4A1, 0x2464], .axor { a := 3, b := 4, c := 5, w32 := true, ord := .ar, scope := .clus }),
   ([0xF803, 0xFC0D, 0xF4A1, 0x2864], .amin { a := 3, b := 4, c := 5, w32 := true, ord := .ar, scope := .clus }),
   ([0xF803, 0xFC0D, 0xF4A1, 0x2C64], .amax { a := 3, b := 4, c := 5, w32 := true, ord := .ar, scope := .clus }),
   ([0xF803, 0xFC0D, 0xF4A1, 0x3064], .aminn { a := 3, b := 4, c := 5, w32 := true, ord := .ar, scope := .clus }),
   ([0xF803, 0xFC0D, 0xF4A1, 0x3464], .amaxn { a := 3, b := 4, c := 5, w32 := true, ord := .ar, scope := .clus }),
   ([0xF803, 0xFC0D, 0xF4A1, 0x3864], .amaxf { a := 3, b := 4, c := 5, w32 := true, ord := .ar, scope := .clus }),
   ([0xF803, 0xFC0D, 0xF4A1, 0x3C64], .aswp { a := 3, b := 4, c := 5, w32 := true, ord := .ar, scope := .clus }),
   ([0xF803, 0xFC0D, 0xF4A1, 0x4064], .acas { a := 3, b := 4, c := 5, w32 := true, ord := .ar, scope := .clus }),
   ([0xF803, 0xFC0D, 0xF4A1, 0x4464], .aincW { a := 3, b := 4, c := 5, w32 := true, ord := .ar, scope := .clus }),
   ([0xF803, 0xFC0D, 0xF4A1, 0x4864], .afaddB { a := 3, b := 4, c := 5, w32 := true, ord := .ar, scope := .clus }),
   ([0xF803, 0x5865], .fstat 3 5),
   ([0xF803, 0x807E], .start 3 (BitVec.ofInt 35 (-2))),
   ([0xF803, 0x8460], .hwait 3),
   ([0xF803, 0x8C64], .hstat 3 4),
   ([0xF803, 0x9400], .split),
   ([0xF803, 0xC800], .uiret)] = true := by decide

theorem test_decode_page45 : decodesTo ⟨.worker, false⟩
  [([0xF804, 0x1400], .wfe),
   ([0xF805, 0x0460], .lgunbind 3),
   ([0xF805, 0x1464], .lgemit 3 4),
   ([0xF805, 0x1864], .lglim 3 4),
   ([0xF805, 0x1C00], .contain)] = true := by decide

theorem test_decode_page6 : decodesTo ⟨.memory, false⟩
  [([0xF806, 0xF4A0, 0x0464], .mcst 3 4 5),
   ([0xF806, 0x1460], .mctlb 3)] = true := by decide

theorem test_decode_helper : decodesTo ⟨.worker, true⟩
  [([0xF803, 0x8800], .hexit)] = true := by decide

/-! ## Single steps, with results that the spec states -/

/-- Register `d` after `i`, run by core 0 with the registers `l`. -/
def gives (l : List (Nat × Word)) (i : Instr) (d : Reg) : Option Word := match exec i (stand 0 0 (having l)) with
  | .next t => some (t.rd (self t) d)
  | _ => none

/-- The PC after `i`, run at address 0x100 of core 0. -/
def goesTo (l : List (Nat × Word)) (i : Instr) : Option Word :=
  match exec i (stand 0 0 { having l with ctl := { g := regs l, pc := 0x100 } }) with
  | .next t => some (t.pcOf (self t))
  | _ => none

/-- spec/05 R80: division by zero, and the one overflowing quotient. -/
theorem test_div_zero : gives [(4, 7)] (.div { a := 3, b := 4, c := some 5 }) 3 = some 0xFFFFFFFFFFFFFFFF := by decide
theorem test_div_overflow : gives [(4, 0x8000000000000000), (5, 0xFFFFFFFFFFFFFFFF)] (.div { a := 3, b := 4, c := some 5 }) 3 = some 0x8000000000000000 := by decide
theorem test_rem_sign : gives [(4, BitVec.ofInt 64 (-7)), (5, 2)] (.rem { a := 3, b := 4, c := some 5 }) 3 = some (BitVec.ofInt 64 (-1)) := by decide
theorem test_add_wraps : gives [(3, 0xFFFFFFFFFFFFFFFF), (4, 2)] (.add { a := 3, b := 4 }) 3 = some 1 := by decide
theorem test_sub_order : gives [(3, 5), (4, 7)] (.sub { a := 3, b := 4 }) 3 = some (BitVec.ofInt 64 (-2)) := by decide
theorem test_mulh_signed : gives [(4, BitVec.ofInt 64 (-1)), (5, 2)] (.mulh { a := 3, b := 4, c := some 5 }) 3 = some (BitVec.ofInt 64 (-1)) := by decide
theorem test_mulhn_unsigned : gives [(4, BitVec.ofInt 64 (-1)), (5, 2)] (.mulhn { a := 3, b := 4, c := some 5 }) 3 = some 1 := by decide
theorem test_writes_g0 : gives [(4, 1), (5, 2)] (.add { a := 0, b := 4, c := some 5 }) 0 = some 0 := by decide
theorem test_cmplt_signed : gives [(4, BitVec.ofInt 64 (-1)), (5, 1)] (.cmplt { a := 3, b := 4, c := some 5 }) 3 = some 1 := by decide
theorem test_cmpltn_unsigned : gives [(4, BitVec.ofInt 64 (-1)), (5, 1)] (.cmpltn { a := 3, b := 4, c := some 5 }) 3 = some 0 := by decide
theorem test_clz_zero : gives [] (.clz 3 4) 3 = some 64 := by decide
theorem test_andi_clears : gives [(1, 0xFFF)] (.andi { a := 1, imm := BitVec.ofInt 35 (-64) }) 1 = some 0xFC0 := by decide
theorem test_srai : gives [(2, 0x8000000000000000)] (.srai { a := 7, c := some 2, sh := 40 }) 7 = some 0xFFFFFFFFFF800000 := by decide
theorem test_bfx : gives [(6, 0x0007800000000000)] (.bfx { a := 10, c := some 6, p := 47, l := 3 }) 10 = some 15 := by decide
theorem test_bfxs : gives [(6, 0x0007800000000000)] (.bfxs { a := 10, c := some 6, p := 47, l := 3 }) 10 = some (BitVec.ofInt 64 (-1)) := by decide
theorem test_bfi : gives [(22, 0xFFF), (3, 0x10)] (.bfi 22 3 4 7) 22 = some 0x10F ∧ gives [(22, 0), (3, 5)] (.bfi 22 3 24 3) 22 = some 0x5000000 := by decide
theorem test_lea : gives [(4, 0x100), (5, 3)] (.lea 3 4 5 3) 3 = some 0x118 := by decide
theorem test_sel : gives [(6, 1), (7, 2)] (.sel 5 6 7) 5 = some 2 ∧ gives [(5, 9), (6, 1), (7, 2)] (.sel 5 6 7) 5 = some 1 := by decide
theorem test_call_link : gives [] (.call 25) 31 = some 2 := by decide
theorem test_branch_back : goesTo [(3, BitVec.ofInt 64 (-1))] (.bltz 3 (BitVec.ofInt 35 (-2))) = some 0xFE := by decide
theorem test_branch_not_taken : goesTo [(3, 1)] (.beqz 3 8) = some 0x102 := by decide
theorem test_loop_count_zero : goesTo [] (.loop 1 4) = some 0x10A := by decide

/-- Core 0 with bytes at the start of its slice. -/
def storing (l : List (Nat × Word)) (a : Nat) (bs : List Byte) : State :=
  { stand 0 0 (having l) with mem := wrBs [] (localBase 0 + a) bs }

theorem test_ldS16_increments : (match exec (.ldS16 { a := 9, b := 3, pinc := true }) (storing [(3, 0x40)] 0x40 [0xFE, 0xFF]) with
    | .next t => t.rd (self t) 9 == BitVec.ofInt 64 (-2) && t.rd (self t) 3 == 0x42
    | _ => false) = true := by decide
theorem test_st32_bytes : (match exec (.st32 { a := 4, b := 5 }) (stand 0 0 (having [(4, 0xAA44332211), (5, 0x10)])) with
    | .next t => rdBs t.mem (localBase 0 + 0x10) 5 == [0x11, 0x22, 0x33, 0x44, 0]
    | _ => false) = true := by decide

/-- spec/05, the worked example of six 7-bit fields: the fifth field straddles the first word. -/
theorem test_bbget_straddles : (match exec (.bbget 4 7) (
      { storing [] 0x300 [0x85, 0x3F, 0x40, 0x55, 0x9D, 0, 0, 0] with
        cores := [(0, { alive with bb := { d := 0x5, cnt := 4, ptr := 0x304 } })] }) with
    | .next t => t.rd (self t) 4 == 0x55
    | _ => false) = true := by decide

/-- spec/06 R133 and spec/05 R89: `trap 7` and `brk 5` at address 0x100. -/
theorem test_trap_return : (match step ((stand 0 0 { alive with ctl := { pc := 0x100 } }).withFetchWord 32 0x0807F804) with
    | .next t => (let b := vget (t.coreAt 0).banks 2 {}
                  b.pc == 0x104 && b.cause == 0x11 && b.val == 7 && b.tn)
    | _ => false) = true := by decide
theorem test_brk_pc : (match exec (.brk 5) (stand 0 0 { alive with ctl := { pc := 0x100 } }) with
    | .next t => (let b := vget (t.coreAt 0).banks 2 {}
                  b.pc == 0x100 && b.cause == 0x10 && b.val == 5)
    | _ => false) = true := by decide

/-- spec/18 R323: `vadd.f32 v0, v8` on a memory core raises `illegal` with this value. -/
theorem test_memory_core_illegal : (match step { stand 4096 0 alive with mem := wrBs [] (localBase 4096) [0x01, 0xF8, 0x08, 0x04] } with
    | .next t => (vget (t.coreAt 4096).banks 2 {}).val == 0x1710408
    | _ => false) = true := by decide

/-- spec/13 R244: the accumulator 2,147,483,600 with products of +16,129 and −16,256. -/
theorem test_vdot_exact_total : (match exec (.vdot { ty := .s8, sat := true, a := 0, b := 1, c := some 2 })
      (stand 0 0 { alive with v := vput (vput (vput (Vector.replicate 32 0) 0 2147483600) 1 0x807F) 2 0x7F7F }) with
    | .next t => ((vget (t.coreAt 0).v 0 0).toNat % 2 ^ 32) == 2147483473
    | _ => false) = true := by decide

/-- spec/13, the first test of R239: of two lanes that meet the same bytes the higher one remains. -/
theorem test_vscat_order : (match exec (.vscat { ty := .n32, a := 3, b := 1, c := some 2 })
      (stand 0 0 { having [(1, 0x100)] with
        v := vput (vput (Vector.replicate 32 0) 3 (7 + 9 * 2 ^ 160)) 2 (BitVec.ofNat 512 (((List.range 16).map (fun l => if l = 0 ∨ l = 5 then 0 else 0x40 * 2 ^ (32 * l))).sum)) }) with
    | .next t => rdBs t.mem (localBase 0 + 0x100) 4 == [9, 0, 0, 0]
    | _ => false) = true := by decide

/-! ## Numbers, addresses and records of the spec's examples -/

/-- spec/11 Table 11.5. -/
theorem test_narrow_e4m3 :
    [Reading.finite, .nanOnly, .ieee].map (fun r => [0x43960000, 0x43EB0000, 0xBA6BEDFA, 0x7FC00000].map (fun x => (fmtOf .e4m3 r).narrow {} (val32 x))) =
      [[0x79, 0x7F, 0x80, 0x00], [0x79, 0x7F, 0x80, 0x7F], [0x78, 0x78, 0x80, 0x7C]] := by decide
theorem test_narrow_e4m3_sat :
    [0x43960000, 0x43EB0000, 0xBA6BEDFA, 0x7FC00000].map (fun x => (fmtOf .e4m3 .ieee).narrow { sat := true } (val32 x)) = [0x77, 0x77, 0x80, 0x7C] := by decide

/-- spec/17, the example of VA 0x40_2345_6789. -/
theorem test_walk_example : lvlIndex 0 0x4023456789 = 0 ∧ lvlIndex 1 0x4023456789 = 256 ∧ lvlIndex 2 0x4023456789 = 282 ∧
    ptePa 0x101001 = 0x101000 ∧ pteReason 2 0x0280000345600017 = 0 ∧ pteKey 0x0280000345600017 = 5 ∧
    ptePa 0x0280000345600017 + 0x4023456789 % 2 ^ lvlShift 2 = 0x345656789 := by decide

/-- spec/21, the example of R352: three stores in one record, and a load with a tag. -/
theorem test_record_headers : recHdr 1 false 0 3 2 0 = 0x1019000000000000 ∧ recHdr 0 false 0 3 0 (0x143 * 2 ^ 32 + 41) = 0x0018014300000029 := by decide

/-- FIPS 197, appendix C.3: the cipher that R302 of spec/17 names. -/
theorem test_aes256 : aesEnc (aesKeys ((List.range 32).map (BitVec.ofNat 8))) ((List.range 16).map (fun i => BitVec.ofNat 8 (0x11 * i))) =
    [0x8E, 0xA2, 0xB7, 0xCA, 0x51, 0x67, 0x45, 0xBF, 0xEA, 0xFC, 0x49, 0x90, 0x4B, 0x49, 0x60, 0x89] := by decide +kernel

/-! ## Witnesses: page 0 -/

def w0 : State := stand 0 0 alive
def rr : RR := ⟨1, 2, none⟩

theorem witness_ScalarResults :
    [Instr.add rr, .sub rr, .and rr, .or rr, .xor rr, .andn rr, .shl rr, .shr rr, .sra rr, .rot rr, .mul rr, .mulh rr, .mulhn rr, .min rr,
      .max rr, .minn rr, .maxn rr, .div rr, .divn rr, .rem rr, .remn rr, .mov 1 2, .li 1 (-1), .addi ⟨1, none, -1⟩, .andi ⟨1, some 2, 5⟩,
      .ori ⟨1, none, 5⟩, .xori ⟨0, none, 5⟩, .shli ⟨1, none, 63⟩, .shri ⟨1, none, 0⟩, .srai ⟨1, none, 63⟩].all (ready w0) = true := by decide

theorem witness_CompareAndBitFields :
    [Instr.cmpeq rr, .cmpne rr, .cmplt rr, .cmpltn rr, .cmple rr, .cmplen rr, .sel 1 2 3, .popc 1 2, .clz 1 2, .ctz 1 2,
      .bfx ⟨1, none, 0, 63⟩, .bfxs ⟨1, none, 63, 0⟩, .bfi 1 2 0 63, .lea 1 2 3 3].all (ready w0) = true ∧
    bfOk 0 63 = true ∧ bfOk 63 0 = true := by decide

/-- A worker with g1 = `x` and this loop stack. -/
def atLoop (x : Word) (ls : List Loop) : State := stand 0 0 { alive with ctl := { g := regs [(1, x)], loops := ls } }

theorem witness_BranchesAndLoops :
    [Instr.b 0, .call 1, .beqz 1 0, .bgez 1 0, .bnez 1 0, .bltz 1 0, .jr 1, .ret, .loop 1 4, .nop].all (ready w0) = true ∧
    w0.rd (self w0) 1 = 0 ∧ (w0.rd (self w0) 31).getLsbD 0 = false ∧
    [Instr.bnez 1 0, .beqz 1 0, .bltz 1 0, .bgez 1 0].all (ready (atLoop (2 ^ 63) [])) = true ∧
    ((atLoop (2 ^ 63) []).rd (self w0) 1).toInt < 0 ∧ 0 ≤ ((atLoop (2 ^ 63 - 1) []).rd (self w0) 1).toInt ∧
    ready (atLoop 1 []) (.loop 1 4) = true ∧ (atLoop 1 []).rd (self w0) 1 ≠ 0 ∧
    opens (atLoop 1 (List.replicate 4 ⟨0, 8, 1⟩)) (.loop 1 4) = true ∧
    ¬((atLoop 1 (List.replicate 4 ⟨0, 8, 1⟩)).ctxAt (self w0)).loops.length < 4 ∧
    (0 : Word) ≠ (⟨0, 8, 1⟩ : Loop).fin ∧ 1 < (⟨0, 8, 2⟩ : Loop).left.toNat ∧ (⟨0, 8, 1⟩ : Loop).left.toNat ≤ 1 := by decide

/-! ## Witnesses: traps -/

def busyBanks : Core := { alive with banks := Vector.replicate 3 { tn := true } }

theorem witness_TrapEntryAndReturn :
    opens w0 (.brk 31) = true ∧ opens w0 (.trap 1023) = true ∧ opens w0 .tret = true ∧ w0.curCore < 4096 ∧
    ready (stand 0 0 busyBanks) .tret = true ∧ busyBanks.bank.tn = true ∧
    ready (stand 8192 0 { alive with lvl := 1 }) .tret = true ∧ kindOf 8192 = .control ∧ ({ alive with lvl := 1 } : Core).level ≤ 1 := by decide

def task0 : Task := { trec := [], vm := 1, qid := 0, num := 0, st := .placed, w := 2, h := 8 }

theorem witness_FatalStops :
    let s : State := { stand 0 0 { run := .running } with tasks := [(3, task0)] }
    ready s (.brk 1) = true ∧ s.curCtx = 0 ∧ (s.coreAt 0).slip = none ∧ bit (vget (s.coreAt 0).banks (trapLevel s 0) {}).vec 0 = false ∧
    taskOf s 0 = some (3, task0) ∧ task0.report = none ∧
    ready (stand 0 1 (helping [])) (.brk 1) = true ∧ ready (stand 0 10 { alive with helpers := Vector.replicate 10 { live := true } }) (.brk 1) = true := by
  decide

/-! ## Witnesses: local accesses and the bit buffer -/

def m12 : Mem := ⟨1, 2, false⟩
def atAddr (i : Nat) (a : Word) : State := stand i 0 (having [(2, a)])

theorem witness_OwnSliceLoads :
    ownOk (atAddr 0 0x3FFFF) (.ldN8 m12) m12 .load 1 = true ∧ ownOk (atAddr 0 0) (.ldS8 m12) m12 .load 1 = true ∧
    ownOk (atAddr 0 0x3FFFE) (.ldN16 m12) m12 .load 2 = true ∧ ownOk (atAddr 0 0) (.ldS16 m12) m12 .load 2 = true ∧
    ownOk (atAddr 4096 0xFFFC) (.ldN32 m12) m12 .load 4 = true ∧ ownOk (atAddr 0 0x3FFFC) (.ldS32 m12) m12 .load 4 = true ∧
    ownOk (atAddr 8192 0x3FFF8) (.ld64 ⟨1, 2, true⟩) m12 .load 8 = true ∧
    placeOf 0 0x58000 8 = .none ∧ opens (atAddr 0 0x58000) (.ld64 m12) = true ∧ opens (atAddr 0 0x58000) (.st64 m12) = true ∧
    (let s := stand 0 0 (fenced (having [(2, 8)]))
     opens s (.ld64 m12) = true ∧ guardOk (s.coreAt 0) .load 8 8 = false ∧ guardOk (s.coreAt 0) .store 8 8 = false) ∧
    opens (atAddr 0 4) (.ld64 m12) = true ∧ opens (atAddr 0 4) (.st64 m12) = true ∧ guardOk ((atAddr 0 4).coreAt 0) .load 4 8 = true ∧
    guardOk ((atAddr 0 4).coreAt 0) .store 4 8 = true := by decide

def slip0 : Slip :=
  { lvl := 2, syncPc := 0x100, g := Vector.replicate 32 0, v := Vector.replicate 32 0, k := Vector.replicate 8 0, bb := {}, loops := []
    f := false, pc := 0x102 }

theorem witness_OwnSliceStores :
    ownOk (atAddr 0 0x3FFFF) (.st8 m12) m12 .store 1 = true ∧ ownOk (atAddr 0 0x3FFFE) (.st16 m12) m12 .store 2 = true ∧
    ownOk (atAddr 4096 0xFFFC) (.st32 m12) m12 .store 4 = true ∧ ownOk (atAddr 8192 0) (.st64 ⟨2, 2, true⟩) ⟨2, 2, true⟩ .store 8 = true ∧
    (let sl : Slip := { slip0 with lines := List.range 127 }
     let k : Core := { having [(2, 0x3FFF8)] with slip := some sl }
     ready (stand 0 0 k) (.st64 m12) = true ∧ slipOf k 0 = some sl ∧ guardOk k .store 0x3FFF8 8 = true ∧ sl.lines.length < 128) := by decide

/-- A worker whose bit buffer holds `n` bits, with its pointer at `p`. -/
def buffered (n : Nat) (p : Word) : State := stand 0 0 { having [(1, 8)] with bb := { cnt := n, ptr := p } }

theorem witness_BitBuffer :
    bbCount 1 = true ∧ bbCount 32 = true ∧
    [Instr.bbget 1 32, .bbgets 1 1, .bbpeek 1 32, .bbskip 1].all (ready (buffered 32 0)) = true ∧
    ready (buffered 0 0) (.bbput 1 31) = true ∧ ready (buffered 0 0) (.bbset 1) = true ∧
    opens (stand 0 0 (having [(1, 2)])) (.bbset 1) = true ∧ opens (buffered 127 0) (.bbput 1 1) = true ∧ ready (buffered 0 0) .bbflush = true ∧
    (let k := (buffered 0 0x3FFFC).coreAt 0
     guardOk k .load 0x3FFFC 4 = true ∧ guardOk k .store 0x3FFFC 4 = true ∧ slipOf k 0 = none ∧
       sliceBad (buffered 0 0x3FFFC) (self w0) 0x3FFFC 4 = none) ∧
    [Instr.bbget 1 1, .bbput 1 32].all (ready (buffered 0 0x3FFFC)) = true ∧ ready (buffered 95 0x3FFFC) (.bbput 1 32) = true ∧
    ready (buffered 1 0x3FFFC) .bbflush = true := by decide

/-! ## Witnesses: control registers, waits, ports -/

theorem witness_ControlRegisters :
    ctlMayRead 18 2 = true ∧ ready w0 (.crd 1 18) = true ∧ ctlMayRead 40 2 = false ∧ opens w0 (.crd 1 40) = true ∧
    [Instr.cwr 1 18, .cwr 1 19, .cwr 1 21, .cwr 1 22, .cwr 1 23, .cwr 1 25, .cwr 1 31].all (ready w0) = true ∧ alive.level = 2 ∧
    [Instr.cwr 1 13, .cwr 1 17, .cwr 1 40, .cwr 1 55].all (opens w0) = true := by decide

/-- A packet of core 0's control context. -/
def pkt (k : PKind) : Packet := { id := 0, core := 0, ctx := 0, kind := k }

theorem witness_WaitsAndHalt :
    let s : State := { w0 with mesh := [pkt .ack] }
    let h : State := stand 0 0 { alive with uiq := [⟨8, 1, 0⟩] }
    ready s .halt = true ∧ haltReady s (self s) = false ∧ ready h .halt = true ∧ haltReady h (self h) = true ∧
    ready (stand 8192 0 { alive with lvl := 0 }) .halt = true ∧ ({ alive with lvl := 0 } : Core).level = 0 ∧
    ready (stand 0 0 { alive with ctl := { latch := true } }) .wfe = true ∧ ready w0 .wfe = true ∧
    ready w0 (.fence .acq .dev) = true ∧ ready w0 (.fence .sc .sys) = true ∧ storesOut w0 (self w0) = [] ∧ loadsOut w0 (self w0) = [] ∧
    sysStoresOut w0 (self w0) = false ∧ ready s (.fence .rel .dev) = true ∧ storesOut s (self s) ≠ [] := by decide

/-- A worker with a fault entry and an entry of a handler, and another whose store is on its way. -/
theorem witness_WaitsAndHalt_fault :
    ∀ n ∈ [1, 2, 3, 4], let s : State := stand 0 0 { alive with uiq := [⟨0, 1, BitVec.ofNat 64 (n * 2 ^ 60)⟩, ⟨8, 1, 0⟩] }
      opens s .halt = true ∧ haltReady s (self s) = true ∧
        (s.coreAt 0).uiq.filter (fun e => e.hnd == 0) = [⟨0, 1, BitVec.ofNat 64 (n * 2 ^ 60)⟩] ∧ (s.coreAt 0).div = none := by decide

/-- A worker with registers beside its running memory core. -/
def withMc (k : Core) : State := { stand 0 0 k with cores := [(0, k), (4096, alive)] }

theorem witness_FifoInstructions :
    opens w0 (.push 1 15) = true ∧ opens w0 (.push 1 4) = true ∧
    ready (withMc alive) (.push 1 5) = true ∧ ((withMc alive).coreAt (mcOf 0)).run = .running ∧ cmdCount (withMc alive) 0 5 < 4 ∧
    resPort .worker 2 = false ∧ opens w0 (.pop 1 2) = true ∧ ready (stand 0 0 { alive with r1 := [7] }) (.pop 1 1) = true ∧
    opens w0 (.pop 1 1) = true ∧ cmdCount w0 0 1 + pendCount w0 0 1 = 0 ∧ anyPort .worker 15 = false ∧ opens w0 (.fstat 1 15) = true ∧
    [Instr.fstat 1 1, .fstat 1 2, .fstat 1 3, .fstat 1 4, .fstat 1 5].all (ready w0) = true := by decide

theorem witness_ControlWindow :
    (let s := atAddr 0 (0x40000 + 8 * 18)
     ctlOk .worker 18 = true ∧ ctlMayWrite 18 2 = true ∧ plvRefused (s.coreAt 0) 0 18 0 = false ∧
     winOk s (.controlWindowRegStore m12) m12 .store 8 = true ∧ winOk s (.st64 m12) m12 .store 8 = true ∧ ctlMayRead 18 2 = true ∧
     winOk s (.ld64 m12) m12 .load 8 = true) ∧
    (let s := atAddr 0 (0x40000 + 8 * 13)
     ctlOk .worker 13 = true ∧ ctlMayWrite 13 2 = false ∧ opens s (.st64 m12) = true) ∧
    (let s := withMc (having [(2, 0x41050)])
     winOk s (.fifoPushStore m12) m12 .store 8 = true ∧ cmdCount s 0 5 < 4) ∧
    winOk (stand 0 0 { having [(2, 0x41018)] with r1 := [7] }) (.fifoPopLoad m12) m12 .load 8 = true ∧
    winOk (atAddr 0 0x41010) (.fifoFstatLoad m12) m12 .load 8 = true ∧ winOk (atAddr 0 0x41050) (.fifoFstatLoad m12) m12 .load 8 = true ∧
    winOk (atAddr 0 0x48000) (.ldN32 m12) m12 .load 4 = true ∧ winOk (atAddr 0 0x4FFFC) (.ldN32 m12) m12 .load 4 = true ∧
    winOk (atAddr 0 0x54000) (.st64 m12) m12 .store 8 = true ∧ winOk (atAddr 0 0x57FF8) (.ld64 m12) m12 .load 8 = true ∧
    badAt [] (atomBase 0 + 0x3FF8) 8 (fun _ => false) = none := by decide

/-! ## Witnesses: event units -/

/-- Worker 0 with registers, whose cluster is `c`. -/
def inCluster (a : Word) (c : Cluster) : State := { atAddr 0 a with clusters := [(0, c)] }

/-- A lulled core on line 31 of cluster 0. -/
def lulled : Core := { alive with ctl := { lull := some { on := .line 31, rd := 1, next := 4 } } }

theorem witness_EventUnits :
    (let c : Cluster := { fired := Vector.replicate 32 true }
     winOk (inCluster 0x50000 c) (.waitWordLoad m12 false) m12 .load 4 = true ∧ winOk (inCluster 0x5007C c) (.waitWordLoad m12 true) m12 .load 4 = true) ∧
    winOk (atAddr 0 0x5007C) (.waitWordLoad m12 false) m12 .load 4 = true ∧
    winOk (atAddr 0 0x500FC) (.fireWordStore m12) m12 .store 4 = true ∧ fireReady (atAddr 0 0x500FC) (self w0) = true ∧
    winOk (atAddr 0 0x5017C) (.bindWordStore m12) m12 .store 4 = true ∧ ready w0 (.evsig 31) = true ∧ fireReady w0 (self w0) = true ∧
    (let s : State := { w0 with mesh := [pkt (.event 0 31 0)] }
     s.mesh[0]? = some (pkt (.event 0 31 0)) ∧ heldAtEdge s 0 (coreIn 0 0) = false) ∧
    (vget (w0.clusterAt 0).bind 31 0).getLsbD 31 = false ∧ lulledOn w0 0 (.line 31) = none ∧
    (let s := stand 0 0 lulled
     lulledOn s 0 (.line 31) = some (0, 0) ∧ (s.coreAt 0).bound = none ∧
       ((s.coreAt 0).ctx 0).lull = some { on := .line 31, rd := 1, next := 4 }) ∧
    winOk (atAddr 0 0x50200) (.lockWordLoad m12 false) m12 .load 4 = true ∧
    (let c (h : Nat) : Cluster := { locks := Vector.replicate 8 { holder := some (h, 0) } }
     winOk (inCluster 0x5021C (c 0)) (.lockWordLoad m12 false) m12 .load 4 = true ∧ (vget ((inCluster 0 (c 0)).clusterAt 0).locks 7 {}).holder = some (0, 0) ∧
     winOk (inCluster 0x5021C (c 64)) (.lockWordLoad m12 false) m12 .load 4 = true ∧
     winOk (inCluster 0x5021C (c 64)) (.lockWordStore m12) m12 .store 4 = true ∧
     winOk (inCluster 0x5021C (c 0)) (.lockWordStore m12) m12 .store 4 = true ∧ (vget ((inCluster 0 (c 0)).clusterAt 0).locks 7 {}).queue = []) ∧
    winOk (atAddr 0 0x50300) (.arriveWordLoad m12 false) m12 .load 4 = true ∧ (0 : BitVec 8).getLsbD (rowOf 0) = false ∧
    (let c (m : BitVec 8) : Cluster := { bars := Vector.replicate 4 { mask := m } }
     winOk (inCluster 0x5030C (c 3)) (.arriveWordLoad m12 false) m12 .load 4 = true ∧ (0 ||| BitVec.ofNat 8 (2 ^ rowOf 0) : BitVec 8) ≠ 3 ∧
     winOk (inCluster 0x5030C (c 1)) (.arriveWordLoad m12 false) m12 .load 4 = true ∧ (0 ||| BitVec.ofNat 8 (2 ^ rowOf 0) : BitVec 8) = 1) ∧
    winOk (atAddr 0 0x5038C) (.maskWordStore m12) m12 .store 4 = true := by decide

/-- That state with a store of the control context on its way. -/
def storing1 (s : State) : State := { s with mesh := [pkt (.store 1 0x3FFF8 8 7)] }

theorem witness_EventUnits_waits :
    winOk (storing1 (atAddr 0 0x500FC)) (.fireWordStore m12) m12 .store 4 = true ∧ fireReady (storing1 (atAddr 0 0x500FC)) (self w0) = false ∧
    ready (storing1 w0) (.evsig 31) = true ∧
    (let c (q : List (Nat × Nat)) : Cluster := { locks := Vector.replicate 8 { holder := some (0, 0), queue := q } }
     winOk (storing1 (inCluster 0x5021C (c []))) (.lockWordStore m12) m12 .store 4 = true ∧
     winOk (inCluster 0x5021C (c [(64, 0)])) (.lockWordStore m12) m12 .store 4 = true) ∧
    winOk (storing1 (inCluster 0x5030C { bars := Vector.replicate 4 { mask := 3 } })) (.arriveWordLoad m12 false) m12 .load 4 = true ∧
    (let k : Core := { alive with slip := some slip0
                                  helpers := vput (Vector.replicate 10 {}) 0 { live := true, ctx := { lull := some { on := .line 31, rd := 1, next := 4 } } } }
     lulledOn (stand 0 0 k) 0 (.line 31) = some (0, 1) ∧ frozen k 1 = true ∧ frozen lulled 0 = false) := by decide

/-! ## Witnesses: helpers, gangs, syncs, exchange phases -/

theorem witness_HelperInstructions :
    let full : Core := { having [(1, 9)] with helpers := Vector.replicate 10 { live := true } }
    freeHelper full = none ∧ ready (stand 0 0 full) (.start 1 0) = true ∧ freeHelper alive = some 0 ∧ ready w0 (.start 1 4) = true ∧
    ready (stand 0 0 (having [(1, 10)])) (.hwait 1) = true ∧ ready (stand 0 0 full) (.hwait 1) = true ∧ (vget full.helpers 9 {}).live = true ∧
    ready (stand 0 10 full) .hexit = true ∧ loadsOut (stand 0 10 full) (self (stand 0 10 full)) = [] ∧
    ready (stand 0 0 full) (.hstat 2 1) = true := by decide

/-- Workers 0 and 64 (rows 0 and 1 of cluster 0), the second as `k`. -/
def pair (k0 k1 : Core) : State := { stand 0 0 k0 with cores := [(0, k0), (64, k1)] }

theorem witness_Gangs :
    opens (pair alive { alive with gangWait := some (4, 2) }) (.gang 2) = true ∧ gangConflict 0 2 1 4 = true ∧
    opens (stand 0 0 (helping [])) (.gang 8) = true ∧ ready w0 (.gang 8) = true ∧ ready (pair alive alive) (.gang 2) = true ∧
    ready (pair alive { alive with gangWait := some (2, 2) }) (.gang 2) = true ∧ ready w0 .split = true ∧
    (let k : Core := { alive with gang := some (0, 2) }
     let s := pair k k
     (s.coreAt 64).gang = some (0, 2) ∧ s.curCore = 0 ∧ s.curCtx = 0 ∧
     ∀ r, r < 2 → (s.coreAt (64 * r)).gang = some (0, 2) ∧ (s.coreAt (64 * r)).bound = none ∧ runs (s.coreAt (64 * r)) 0 = true ∧
       (s.coreAt (64 * r)).ctl.pend = [] ∧ (s.coreAt (64 * r)).seqr.toCap = 0 ∧ (s.coreAt (64 * r)).seqr.busy = false ∧
       loadsOut s ⟨64 * r, 0, 0⟩ = []) := by decide

theorem witness_Gangs_conflicts :
    (let s := pair alive { alive with gangWait := some (4, 2), gangTry := some { n := 4, at_ := 0, pc := 0, next := 2, loops := [] } }
     s.cyc = 0 ∧ gangConflict 0 2 1 4 = true ∧ opens s (.gang 2) = true ∧ (s.coreAt 64).gangWait.isSome = true ∧ (s.coreAt 64).gang = none ∧
       trapOpen s 64) ∧
    (pair alive { alive with gangWait := some (4, 2) }).coreAt 64 = { alive with gangWait := some (4, 2) } ∧
    (let s := pair { alive with gang := some (0, 2) } { alive with gang := some (0, 2) }
     ∀ r, r < 2 → (s.coreAt (64 * r)).slip = none ∧ trapOpen s (64 * r)) := by
  refine ⟨⟨by decide, by decide, by decide, by decide, by decide, by decide, by decide⟩, by decide, fun r hr => ?_⟩
  have : ∀ r, r < 2 → (pair { alive with gang := some (0, 2) } { alive with gang := some (0, 2) }).coreAt (64 * r) = { alive with gang := some (0, 2) } := by decide
  simp only [trapOpen, trapLevel, this r hr]
  refine ⟨by decide, ?_⟩
  split <;> decide

/-- A member of a domain of `w` cores from (0, 0) at every level. -/
def member (w : Nat) : Core := { alive with dm := Vector.replicate 5 (BitVec.ofNat 64 (0x01000000 + w * 0x10000)) }

theorem witness_SyncArrival :
    let s := stand 0 0 (member 2)
    let k := s.coreAt 0
    ∀ l ∈ [(2 : BitVec 3), 5, 6], let lv := syncLvl k l.toNat
      arrivalReady s (self s) = true ∧ roundOver s (s.roundAt (roundKey lv (domRect s 0 lv))) (wdLimit k lv) = false ∧ k.arrived.contains lv = false ∧
      [Instr.syncH l, .syncS l true, .syncS l false].all (ready s) = true ∧ k.noSlip ≠ some (s.pcOf (self s)) ∧
      lastArrival (arrive s 0 lv) 0 lv = false := by decide

theorem witness_SyncArrival_others :
    (let s := storing1 (stand 0 0 (member 2))
     arrivalReady s (self s) = false ∧ [Instr.syncH 2, .syncS 6 false].all (ready s) = true) ∧
    ready (stand 0 0 { member 2 with noSlip := some 0 }) (.syncS 2 false) = true ∧ (stand 0 0 (member 2)).pcOf (self w0) = 0 ∧
    (∀ l ∈ [2, 5], lastArrival (arrive (stand 0 0 (member 1)) 0 l) 0 l = true) ∧ ready (stand 0 0 (member 1)) (.syncS 2 false) = true := by decide

/-- Worker 0 alone in its domains, arrived at level `l` and waiting at the sync, at cycle `c`. -/
def arrivedAt (l c : Nat) : State :=
  let k : Core := { member 1 with arrived := [l], sync := some { lvl := l, hard := true, pc := 0, next := 2 } }
  let s := stand 0 0 k
  { s with cyc := c, rounds := [(roundKey l ⟨0, 0, 1, 1⟩, { first := some 10, last := 10 })] }

/-- Workers 0 and 1 of a domain, of which the second has not arrived. -/
def oneMissing (l c : Nat) : State :=
  let k : Core := { member 2 with arrived := [l], sync := some { lvl := l, hard := true, pc := 0, next := 2 } }
  { stand 0 0 k with cores := [(0, k), (1, member 2)], cyc := c, rounds := [(roundKey l ⟨0, 0, 2, 1⟩, { first := some 10, last := 10 })] }

theorem witness_SyncReleases :
    (∀ l ∈ [2, 5], let s := arrivedAt l 16
      inTime s 0 l = true ∧ (s.roundAt (roundKey l (domRect s 0 l))).last + relTime (domRect s 0 l) ≤ s.cyc ∧
        domHalted s (domRect s 0 l) = false ∧ s.migRep = [] ∧ s.holds = [] ∧ s.moving = []) ∧
    (let s := arrivedAt 6 16
     s.rounds.filter (fun e => e.1 / 2 ^ 32 == 6 && e.2.first.isSome) = [(roundKey 6 ⟨0, 0, 1, 1⟩, { first := some 10, last := 10 })] ∧
       missing s ⟨0, 0, 1, 1⟩ 6 = [] ∧ domHalted s ⟨0, 0, 1, 1⟩ = false ∧ (s.roundAt (roundKey 6 ⟨0, 0, 1, 1⟩)).first = some 10 ∧
       16 ≤ 10 + wdLimit (s.coreAt 0) 6 ∧ domRect s 0 6 = ⟨0, 0, 1, 1⟩ ∧ 10 + wdLimit (s.coreAt 0) 6 + relTime ⟨0, 0, 1, 1⟩ ≤ 2000000) ∧
    (∀ l ∈ [2, 6], let s := oneMissing l (10 + 1048576 + 6)
      (s.roundAt (roundKey l (domRect s 0 l))).first = some 10 ∧
        10 + wdLimit (s.coreAt 0) l + relTime (domRect s 0 l) ≤ s.cyc ∧ inTime s 0 l = false ∧ domHalted s (domRect s 0 l) = false ∧
        (s.coreAt 0).slip = none ∧ (s.coreAt 0).quar = none ∧ (vget (s.coreAt 0).banks (trapLevel s 0) {}).tn = false ∧
        bit (vget (s.coreAt 0).banks (trapLevel s 0) {}).vec 0 = true) := by decide

/-- Worker 0 in the exchange phase of its own domain. -/
def phasing (x : Exch) (m : List Host.Cell) (c : Nat) : State := { stand 0 0 { member 1 with exch := some x } with mem := m, cyc := c }

/-- One send entry at 16 of a plan at 0: one flit from 0 to 0x40 of core (0, 0) at plan cycle 0. -/
def plan0 : List Host.Cell := wrB (wrB [] 20 1) 28 0x40

def phase0 : Exch := { lvl := 2, pc := 0, next := 2, plan := 0, n := 1, arr := 1, span := 4, t0 := 5 }

theorem witness_DomainsAndExchange :
    [Instr.dom 1 2, .dom 1 6, .bstat 1 .v0 2, .bstat 1 .v1 2, .bstat 1 .v2 6].all (ready (stand 0 0 (member 2))) = true ∧
    ((arrivedAt 2 16).roundAt (roundKey 2 ⟨0, 0, 1, 1⟩)).first.isSome = true ∧ ready (stand 0 0 (member 1)) (.bstat 1 .v1 5) = true ∧
    opens w0 (.exch 2) = true ∧
    (let s := stand 0 0 { having [(2, 0x3FFC0)] with exReady := some 5 }
     ready s (.exch 2) = true ∧ sliceNat s 0 0x3FFC0 4 ≤ 16383 ∧ (0x3FFC0 + 16 ≤ 0x40000)) ∧
    (let s := phasing phase0 plan0 5
     ∃ e, sendEntry s 0 16 = some e ∧ e.ok (domRect s 0 2) 0 4 = true ∧ phase0.t0 + e.t + phase0.flit ≤ s.cyc) ∧
    ({ phase0 with ent := 1 } : Exch).sending = false ∧ phase0.t0 + phase0.span ≤ 9 ∧
    (let x : Exch := { phase0 with ent := 1, counted := true, cnt := 1 }
     let s := phasing x plan0 15
     0 ∈ (domRect s 0 2).cores ∧ (domRect s 0 2).cores = [0] ∧ (s.coreAt 0).exMiss = [] ∧ (s.coreAt 0).exReady = none ∧ x.mismatch = false ∧
       x.t0 + x.span + relTime (domRect s 0 2) ≤ s.cyc) := by
  refine ⟨by decide, by decide, by decide, by decide, by decide, ⟨_, rfl, by decide, by decide⟩, by decide, by decide, by decide⟩

theorem witness_DomainsAndExchange_others :
    domHalted (stand 0 0 { member 1 with run := .preempted }) ⟨0, 0, 1, 1⟩ = true ∧
    (let s := arrivedAt 2 16
     domRect s 0 2 = ⟨0, 0, 1, 1⟩ ∧ domHalted s ⟨0, 0, 1, 1⟩ = false ∧ willRelease s 0 2 = true ∧
       (s.roundAt (roundKey 2 ⟨0, 0, 1, 1⟩)).last + relTime ⟨0, 0, 1, 1⟩ ≤ s.cyc ∧ (arrivedAt 2 15).cyc < 10 + relTime ⟨0, 0, 1, 1⟩) ∧
    (let s := oneMissing 2 (10 + 1048576 + 1)
     willRelease s 0 2 = false ∧ (s.roundAt (roundKey 2 (domRect s 0 2))).first = some 10 ∧ 10 + wdLimit (s.coreAt 0) 2 < s.cyc ∧
       willRelease (oneMissing 2 (10 + 1048576)) 0 2 = false ∧ (oneMissing 2 (10 + 1048576)).cyc ≤ 10 + wdLimit (s.coreAt 0) 2) ∧
    (w0.roundAt 7).first = none ∧
    (let x : Exch := { phase0 with ent := 1, counted := true, cnt := 0 }
     let k : Core := { member 1 with exch := some x, exMiss := [2], banks := Vector.replicate 3 { vec := 1 } }
     let s : State := { stand 0 0 k with cyc := 15 }
     0 ∈ (domRect s 0 2).cores ∧ (domRect s 0 2).cores = [0] ∧ k.exReady = none ∧ 2 ∈ k.exMiss ∧ x.mismatch = true ∧ k.quar = none ∧ trapOpen s 0 ∧
       x.t0 + x.span + relTime (domRect s 0 2) ≤ s.cyc) := by
  refine ⟨by decide, by decide, by decide, by decide, by decide, by decide, by decide, by decide, by decide, by decide, ⟨by decide, by decide⟩, by decide⟩

/-! ## Witnesses: the global window, atomics, packets -/

/-- Worker 0 of VM 1, whose partition is the whole device, with g1 = 5 and the address `a` in g2. -/
def tenant (a : Word) : State :=
  { stand 0 0 (having [(1, 5), (2, a)]) with tasks := [(3, task0)], rects := [(1, BitVec.ofNat 64 (2 ^ 63 + 64 * 2 ^ 16 + 64 * 2 ^ 24))] }

def r12 : Rem := ⟨1, 2, 0, none⟩

theorem witness_RemoteAccess :
    (let s := tenant 0x10003FFF8
     home s 0 0x10003FFF8 = some (0, 0x3FFF8) ∧ guardOk (s.coreAt 0) .load 0x10003FFF8 8 = true ∧ guardOk (s.coreAt 0) .store 0x10003FFF8 8 = true ∧
     badAt s.bad (localBase 0 + 0x3FFF8) 8 (fun _ => false) = none ∧ ready s (.ldg r12) = true ∧ ready s (.stg r12) = true ∧
     ready s (.stg ⟨1, 2, 0, some .sys⟩) = true ∧ (s.ctxAt (self s)).sysFail = none ∧ allDone s (self s) = true) ∧
    (let s := tenant 0x13FFFFFFF
     home s 0 0x13FFFFFFF = some (4095, 0x3FFFF) ∧ ready s (.ldg ⟨1, 2, 3, some .dev⟩) = true ∧ ready s (.stg ⟨1, 2, 3, none⟩) = true ∧
     (loadsOut s (self s)).length < 16 ∧ (storesOut s (self s)).length < 64) ∧
    opens (tenant 0x100000004) (.ldg r12) = true ∧ home (tenant 0x100000004) 0 0x100000004 = some (0, 4) ∧
    (let s : State := { tenant 0x100000008 with cores := [(0, fenced (having [(2, 0x100000008)]))] }
     opens s (.ldg r12) = true ∧ guardOk (s.coreAt 0) .load 0x100000008 8 = false) ∧
    opens (tenant 0x140000000) (.ldg r12) = true ∧ opens (tenant 0x140000000) (.stg r12) = true ∧ home (tenant 0x140000000) 0 0x140000000 = none ∧
    isSys 0x140000000 = false := by decide

/-- Every atomic with these operands. -/
def atoms (o : At) : List Instr :=
  [.aadd o, .aand o, .aor o, .axor o, .amin o, .amax o, .aminn o, .amaxn o, .aswp o, .acas o, .afaddB o] ++
    (if o.w32 then [.amaxf o, .aincW o] else [])

theorem witness_Atomics :
    (∀ o ∈ [(⟨1, 2, 3, false, .none, .core⟩ : At), ⟨1, 2, 3, true, .ar, .core⟩], let s := atAddr 0 0x3FFF8
      (atoms o).all (ready s) = true ∧ guardOk (s.coreAt 0) .atomic 0x3FFF8 8 = true ∧ allDone s (self s) = true ∧
        badAt s.bad (localBase 0 + 0x3FFF8) 8 (fun _ => false) = none) ∧
    (let o : At := ⟨1, 2, 3, false, .rel, .clus⟩
     (atoms o).all (ready (atAddr 0 0x57FF8)) = true ∧ guardOk ((atAddr 0 0x57FF8).coreAt 0) .atomic 0x57FF8 8 = true) ∧
    (∀ o ∈ [(⟨1, 2, 3, false, .acq, .dev⟩ : At), ⟨1, 2, 3, true, .ar, .dev⟩], let s := tenant 0x100040000
      (atoms o).all (ready s) = true ∧ home s 0 0x100040000 = some (1, 0) ∧ guardOk (s.coreAt 0) .atomic 0x100040000 8 = true ∧
        (loadsOut s (self s)).length < 16) ∧
    (atoms ⟨1, 2, 3, false, .none, .dev⟩).all (opens (atAddr 0 0x3FFF8)) = true := by decide

theorem witness_MeshPackets :
    let s (k : PKind) : State := { w0 with mesh := [pkt k] }
    mayPerform (s (.store 1 0x3FFF8 8 7)) 0 (pkt (.store 1 0x3FFF8 8 7)) = true ∧ (s .ack).mesh[0]? = some (pkt .ack) ∧
    mayPerform (s (.load 1 1 0 8)) 0 (pkt (.load 1 1 0 8)) = true ∧ (pkt (.loadRep 1 8 7 none)).ctx ≤ 10 ∧
    ((s (.loadRep 1 8 7 none)).coreAt 0).bound = none ∧ (s (.loadRep 0 8 7 (some 9))).mesh[0]? = some (pkt (.loadRep 0 8 7 (some 9))) ∧
    mayPerform (s (.atom 1 1 0 true .cas 0 7)) 0 (pkt (.atom 1 1 0 true .cas 0 7)) = true ∧
    badAt (s .ack).bad (localBase 1) 8 (fun _ => false) = none ∧
    (s (.atomRep 1 true 0 (some true) none)).mesh[0]? = some (pkt (.atomRep 1 true 0 (some true) none)) ∧ ((s .ack).coreAt 0).level ≤ 2 := by decide

/-- A port on which connection 5 carries messages, and no other. -/
def port1 : Port := { conns := [(5, { st := .opened, peer := 9, mss := 1024 })] }

/-- Control core 0 with g1 = 5 and g2 = `a`, whose core `f` changes; window 1 leads to connection `c` with the permission bits `perm`. -/
def windowed (a : Word) (c perm : Nat) (f : Core → Core := id) : State :=
  { stand 8192 0 (f (having [(1, 5), (2, a)])) with
    wtab := [(1, (BitVec.ofNat 64 (7 * 2 ^ 12 + 20 * 2 ^ 6 + perm + 1), BitVec.ofNat 64 c))], ports := Vector.replicate 2 port1 }

/-- The port of a window is one of the two. -/
theorem witness_RemoteAccess_port : b2n (Config.windowPort 1) < 2 := by
  cases Config.windowPort 1 <;> decide

theorem witness_RemoteAccess_system :
    let a : Word := 0x0101000000000010
    let both (s : State) : Bool := opens s (.ldg r12) && opens s (.stg r12)
    let perms (s : State) (ld st : Bool) : Bool := (sysEntry s 8192 ((s.rd (self s) 2).toNat)).any (fun e => bit e.2.2 3 == ld && bit e.2.2 4 == st)
    kindOf 8192 ≠ .memory ∧ isSys a.toNat = true ∧ a.toNat / 2 ^ 48 % 256 = 1 ∧ sysEntry (tenant a) 0 a.toNat = none ∧ both (tenant a) = true ∧
    (both (windowed a 5 0) && perms (windowed a 5 0) false false) = true ∧
    (both (windowed a 5 0x18 fenced) && perms (windowed a 5 0x18 fenced) true true) = true ∧
    guardOk ((windowed a 5 0x18 fenced).coreAt 8192) .load a.toNat 8 = false ∧ guardOk ((windowed a 5 0x18 fenced).coreAt 8192) .store a.toNat 8 = false ∧
    (both (windowed (a + 4) 5 0x18) && perms (windowed (a + 4) 5 0x18) true true) = true ∧
    (∀ c ∈ [5, 6], let s := windowed a c 0x18
      both s = true ∧ sysEntry s 8192 a.toNat = some (c, 0x7010, BitVec.ofNat 64 (7 * 2 ^ 12 + 20 * 2 ^ 6 + 0x19)) ∧ perms s true true = true ∧
        guardOk (s.coreAt 8192) .load a.toNat 8 = true ∧ guardOk (s.coreAt 8192) .store a.toNat 8 = true ∧ allDone s (self s) = true ∧
        (loadsOut s (self s)).length < 16 ∧ (storesOut s (self s)).length + 0 < 64 ∧ s.sysOut = [] ∧ ∀ p, p < 2 → carries s p c = (c == 5)) ∧
    (let s := stand 0 0 { having [(2, a)] with ctl := { g := regs [(2, a)], sysFail := some 7 } }
     opens s (.stg ⟨1, 2, 0, some .sys⟩) = true ∧ (s.ctxAt (self s)).sysFail = some 7) := by decide

theorem witness_Atomics_system :
    let a : Word := 0x0101000000000010
    let o : At := ⟨1, 2, 3, false, .ar, .sys⟩
    let atom (s : State) : Bool := (atoms o).all (opens s)
    atom (tenant a) = true ∧ sysEntry (tenant a) 0 a.toNat = none ∧ atom (windowed a 5 0x18) = true ∧
    (atom (windowed a 5 0x38 fenced) && !guardOk ((windowed a 5 0x38 fenced).coreAt 8192) .atomic a.toNat 8) = true ∧
    (atom (windowed (a + 4) 5 0x38) && guardOk ((windowed (a + 4) 5 0x38).coreAt 8192) .atomic (a.toNat + 4) 8) = true ∧
    (∀ c ∈ [5, 6], let s := windowed a c 0x38
      atom s = true ∧ sysEntry s 8192 a.toNat = some (c, 0x7010, BitVec.ofNat 64 (7 * 2 ^ 12 + 20 * 2 ^ 6 + 0x39)) ∧
        guardOk (s.coreAt 8192) .atomic a.toNat 8 = true ∧ allDone s (self s) = true ∧ (loadsOut s (self s)).length < 16 ∧
        ∀ p, p < 2 → carries s p c = (c == 5)) ∧
    ((atoms ⟨1, 2, 3, false, .none, .clus⟩).all (opens (atAddr 8192 0x54000)) && kindOf 8192 == .control) = true ∧
    (∀ l ∈ [(1 : BitVec 2), 2], let s := stand 8192 0 { having [(2, 0x0200000000000000)] with lvl := l }
      (atoms ⟨1, 2, 3, false, .none, .dev⟩).all (opens s) = true ∧ privListed 0 = true ∧ 0x0200000000000000 / 2 ^ 40 = 0x20000 ∧
        guardOk (s.coreAt 8192) .atomic 0x0200000000000000 8 = true) := by decide

theorem witness_MeshPackets_ended :
    (w0.coreAt 0).bound = none ∧ ({ w0 with mesh := [{ pkt (.loadRep 1 8 7 none) with ctx := 100 }] } : State).mesh[0]? =
      some { pkt (.loadRep 1 8 7 none) with ctx := 100 } ∧
    ({ w0 with mesh := [{ pkt (.atomRep 1 true 0 none none) with ctx := 100 }] } : State).mesh[0]? =
      some { pkt (.atomRep 1 true 0 none none) with ctx := 100 } := by decide

/-! ## Witnesses: boundary entries and copies -/

theorem witness_BoundaryEntries :
    opens w0 .uiret = true ∧ ready (stand 0 0 { alive with uiAct := true }) .uiret = true ∧ ready w0 (.uien 1 true) = true ∧
    (let k : Core := { alive with uiq := [⟨8, 1, 0⟩], uiEn := true }
     k.quar = none ∧ k.ctl.gated = false ∧ k.ctl.lull = none ∧ uiBoundary k = true ∧ takenEntry k = some ⟨8, 1, 0⟩) ∧
    (∀ n ∈ [1, 2, 3, 4], let k : Core := { alive with uiq := [⟨0, 1, BitVec.ofNat 64 (n * 2 ^ 60)⟩] }
      uiBoundary k = true ∧ k.bound = none ∧ opens (stand 0 0 k) .nop = true ∧ (takenEntry k).isSome = true) ∧
    (let s := stand 8199 0 { alive with ptmrDue := true }
     (s.coreAt 8199).ptmrDue = true ∧ standsAt (s.coreAt 8199) = true ∧ opens s .nop = true) ∧
    alive.lgWait = none ∧ alive.ctl.sys = none ∧ ({ run := .halted } : Core).run ≠ .running ∧ ({ alive with slip := some slip0 } : Core).slip.isSome = true ∧
    ({ alive with quar := some 5 } : Core).quar = some 5 ∧
    ({ alive with ctl := { kept := [(0x0C, 8, none)] } } : Core).ctl.kept = [(0x0C, 8, none)] ∧ takenEntry alive = none ∧ alive.ctl.kept = [] ∧
    alive.slip = none ∧ alive.sync = none ∧ alive.exch = none ∧ alive.seqr.toCap = 0 := by decide

/-- The 128 bytes of a tensor descriptor (spec/01 Table 1.6). -/
def tdBytes (base ctl ps : Nat) (ext str : List Nat) : List Byte :=
  natLE 8 base ++ natLE 8 ctl ++ natLE 8 0 ++ natLE 8 ps ++ (List.range 8).flatMap (fun d => natLE 4 (ext.getD d 0)) ++
    (List.range 8).flatMap (fun d => natLE 8 (str.getD d 0))

/-- A copy of 8 bytes from 0x100 to 0x200 of the own slice: its block at 0x400 and descriptors at 0x440 and 0x4C0. -/
def copyMem : List Host.Cell :=
  wrBs (wrBs (wrBs [] 0x400 (natLE 8 0x440 ++ natLE 8 0x4C0)) 0x440 (tdBytes 0x100 0x10500 0 [8] [1])) 0x4C0 (tdBytes 0x200 0x10500 0 [8] [1])

def copyCmd0 : CopyCmd :=
  { blk := 0x400, std := parseTd 0x440 (tdBytes 0x100 0x10500 0 [8] [1]), dtd := parseTd 0x4C0 (tdBytes 0x200 0x10500 0 [8] [1])
    hnd := 0, xid := 7, np := 1, vm := false, mbase := 0 }

theorem witness_CopyInstructions :
    (let s : State := { stand 0 0 (having [(2, 0x400)]) with mem := copyMem }
     (match cpyCmd s (self s) 0x400 with
      | .ok c => c == { copyCmd0 with xid := 0 }
      | .error _ => false) = true ∧ ready s (.cpy 2) = true ∧ cmdCount s 0 2 < cmdDepth 2) ∧
    opens (atAddr 0 0x408) (.cpy 2) = true ∧ guardOk ((atAddr 0 0x408).coreAt 0) .load 0x408 64 = true ∧
    (let s : State := { stand 0 0 { having [(2, 0x400)] with q2 := List.replicate (cmdDepth 2) copyCmd0 } with mem := copyMem }
     ready s (.cpy 2) = true ∧ cmdDepth 2 ≤ cmdCount s 0 2 ∧ (match cpyCmd s (self s) 0x400 with
       | .ok c => copyDenied s (self s) c == none
       | .error _ => false) = true) ∧
    (let m := wrBs (wrBs (wrBs [] 0x200000400 (natLE 8 0x440 ++ natLE 8 0x4C0)) 0x200000440 (tdBytes 0x100 0x10500 0 [8] [1]))
       0x2000004C0 (tdBytes 0x100000000 0x10500 0 [8] [1])
     let s : State := { stand 8192 0 (having [(2, 0x400)]) with mem := m }
     opens s (.cpy 2) = true ∧ (match cpyCmd s (self s) 0x400 with
       | .ok c => copyDenied s (self s) c == some 0x100000000
       | .error _ => false) = true) ∧
    copiesWith w0 0 7 = [] ∧ ready w0 (.cpyq 1 2) = true ∧
    (let s := stand 0 0 { having [(2, 7)] with cdone := [(3, 7, 0)] }
     ready s (.cpyq 1 2) = true ∧ copiesWith s 0 7 = [(3, some 0)]) := by decide

theorem witness_CopyProgress :
    (let s := stand 0 0 { alive with q2 := [copyCmd0] }
     depsDone s copyCmd0.deps = true ∧ (copiesOf s 0).length < 16 ∧ inPhase s 0 = false) ∧
    (let s : State := { stand 8199 0 { alive with q2 := [{ copyCmd0 with deps := [5] }] } with mesh := [{ pkt .ack with id := 5 }] }
     depsDone s [5] = false) ∧
    (let c : Copy := { id := 4, core := 0, cmd := copyCmd0, todo := [.word 0x40] }
     let s : State := { w0 with mem := copyMem, copies := [c] }
     let ms := unitMoves c.cmd (.word 0x40)
     ms.length = 8 ∧ s.copies.find? (fun d => d.id == 4) = some c ∧ unitFaults s c (.word 0x40) = [] ∧ c.dead = [] ∧
     (ms.all (fun m => !mvHeld s c 0 m && m.w == 8 && m.dst % 8 == 0 && decide (byteOf m.dst < 0x40000) &&
       m.src.any (fun b => b % 8 == 0 && decide (byteOf b < 0x40000)))) = true ∧ (ms.map (fun m => byteOf m.dst)).Nodup ∧
     (let s : State := { s with bad := [0x20] }
      unitFaults s c (.word 0x40) ≠ [] ∧ (unitPieces s c (.word 0x40)).all (fun m => !c.dead.contains m.2 && !mvHeld s c m.2 m.1) = true) ∧
     (let d : Copy := { c with dead := [0, 0x10000, 0x20000, 0x30000] }
      (unitPieces { s with copies := [d] } d (.word 0x40)).any (fun m => d.dead.contains m.2) = true)) ∧
    (let c : Copy := { id := 4, core := 0, cmd := copyCmd0 }
     copyReady { w0 with copies := [c] } c = true ∧ c.faults = [] ∧ c.cmd.hnd = 0 ∧
     copyReady { w0 with copies := [{ c with cmd := { copyCmd0 with hnd := 2 }, faults := [⟨0x100, 1, none⟩] }] }
       { c with cmd := { copyCmd0 with hnd := 2 }, faults := [⟨0x100, 1, none⟩] } = true ∧
     (List.replicate 64 (⟨8, 1, 0⟩ : UiEntry)).length = 64) := by decide

/-! ## Witnesses: vectors -/

/-- Every elementwise instruction with these operands. -/
def vecs (o : VOp) : List Instr :=
  [.vadd o, .vsub o, .vmul o, .vmin o, .vmax o, .vabs o, .vneg o, .vand o, .vor o, .vxor o, .vshl o, .vshr o, .vsra o]

theorem witness_VectorArithmetic :
    (∀ t ∈ [ETy.f32, .bf16, .n8, .s8, .n16, .s16, .n32, .s32], (vecs { ty := t, a := 1, b := 2, c := some 3, k := 1 }).all (ready w0) = true) ∧
    (fmtOf .f32).isFloat = true ∧ (fmtOf .bf16).isFloat = true ∧
    [Instr.vfma { a := 1, b := 2, c := some 3 }, .vfms { ty := .bf16, a := 1, b := 2, c := some 3 }, .vdot { ty := .s4, a := 1, b := 2, c := some 3 },
      .vdot { ty := .n8, a := 1, b := 2, c := some 3, sat := true }, .vdot { ty := .s16, a := 1, b := 2, c := some 3 }].all (ready w0) = true ∧
    fmtOf .s4 = .int 4 true ∧ fmtOf .n8 = .int 8 false ∧ fmtOf .s16 = .int 16 true := by decide

theorem witness_VectorMovesAndFunctions :
    let o : VOp := { a := 1, b := 2, c := some 3 }
    [Instr.vmov o, .vsplat o, .vrcp o, .vrsq o, .vexp2 o, .vlog2 o, .vtanh o, .vsel o, .vcmp o .eq, .vcmp o .ne, .vcmp o .lt, .vcmp o .le,
      .vcmp o .un, .vmovToMask 7 1, .vmovFromMask 1 0].all (ready w0) = true ∧ (2047 : Nat) < 2048 := by decide

theorem witness_VectorConversions :
    let o : VOp := { ty := .e4m3, a := 1, b := 2, c := some 3 }
    [Instr.vcvt o .f32 3, .vcvt { o with ty := .s8, sat := true } .s32 0, .vqnt o .finite, .vdqt o .ieee, .vamax o .nanOnly].all (ready w0) = true := by
  decide

theorem witness_VectorPermutes :
    let o (t : ETy) : VOp := { ty := t, a := 1, b := 2, c := some 3 }
    [Instr.vperm (o .n8), .vlut (o .n8), .vrot (o .s4), .vtrn (o .n16), .vext (o .s32), .vins (o .n8), .vred (o .s8) .add, .vred (o .n32) .min,
      .vred (o .s16) .max, .vred (o .i64) .amax, .vred (o .f32) .add].all (ready w0) = true ∧ fmtOf .s8 = .int 8 true ∧
    (fmtOf .f32).isFloat = true := by decide

theorem witness_VectorMemory :
    let o : VOp := { ty := .n32, a := 1, b := 2, c := some 3 }
    let s := atAddr 0 0x3FFC0
    [Instr.vld o 0, .vst o 0, .vgath o, .vscat o].all (ready s) = true ∧ slipOf (s.coreAt 0) 0 = none ∧
    guardOk (s.coreAt 0) .load 0x3FFC0 64 = true ∧ guardOk (s.coreAt 0) .store 0x3FFC0 64 = true ∧ sliceBad s (self s) 0x3FFC0 64 = none ∧
    opens (atAddr 0 8) (.vld o 0) = true ∧ guardOk ((atAddr 0 8).coreAt 0) .load 8 64 = true ∧
    sliceCheck s (self s) .load 0x3FFC0 4 4 = none ∧ sliceCheck s (self s) .store 0x3FFC0 4 4 = none ∧ sliceBad s (self s) 0x3FFC0 4 = none ∧
    lane (s.vr (self s) 3) 32 15 = 0 ∧ ((List.range 16).filter (maskBit ((s.coreAt 0).kr 0) 16)).length = 16 ∧
    (let b := atAddr 0 0x3FFFE
     opens b (.vgath o) = true ∧ sliceCheck b (self b) .load 0x3FFFE 4 4 = some (.cause 4 0x3FFFE)) := by decide

/-- A worker with a plane descriptor at 0x400: 32 elements of two planes at 0x1000 and 0x1100; the group of `i0` is named by g3. -/
def planes (i0 : Word) : State :=
  { stand 0 0 (having [(2, 0x400), (3, i0)]) with mem := wrBs [] 0x400 (tdBytes 0x1000 0x10A20 0x100 [32] [1]) }

theorem witness_PlaneMemory :
    let o : VOp := { a := 2, b := 2, c := some 3 }
    sliceCheck (planes 0) (self w0) .load 0x400 128 64 = none ∧ (planes 0).bad = [] ∧ slipOf ((planes 0).coreAt 0) 0 = none ∧
    (let s := stand 0 0 (having [(2, 0x400)])
     (parseTd 0x400 (rdBs s.mem 0x400 128)).ok = false ∧ opens s (.vldp o 1) = true) ∧
    (∀ i0 ∈ [0, 16], let s := planes (BitVec.ofNat 64 i0)
      let td := parseTd 0x400 (rdBs s.mem (localBase 0 + 0x400) 128)
      td.ok = true ∧ td.ty = .np ∧ 2 ≤ td.pst ∧ i0 < td.e 0 ∧ 0 < td.rows ∧ groupCheck s (self s) .load (td.groupBytes i0 0) = none ∧
      groupCheck s (self s) .atomic (td.groupBytes i0 0) = none ∧ [Instr.vldp o 0, .vldp o 2, .vstp o 2, .vpupd o].all (ready s) = true) := by decide

theorem witness_Sequencer :
    let o : VOp := { a := 1, b := 2, sa := true }
    let busy : Core := { alive with seqr := { body := [{ ins := .vand o, gb := 0, gc := 0, pc := 8 }], n := 1, count := 2 } }
    ready w0 (.vrep 1 16) = true ∧ ready w0 (.vend 1) = true ∧ ready w0 .vwait = true ∧ alive.seqr.busy = false ∧
    busy.seqr.busy = true ∧ ready (stand 0 0 busy) .vwait = true ∧
    (let s := stand 0 0 { alive with seqr := { n := 2, count := 3, toCap := 1 } }
     runs (s.coreAt 0) 0 = true ∧ permit (self s) (.vadd o) = none ∧ acquiring s (self s) = false ∧ s.cur.refused = none) ∧
    (let s := stand 0 0 busy
     seqRuns busy = true ∧ nextSlot busy.seqr 0 = some 0 ∧ repEligible s ⟨0, 0, 0⟩ 0 0 = true) ∧
    [Instr.bbgetv .n8 false 1 1, .bbgetv .s8 false 1 6].all (ready (buffered 96 0)) = true := by decide

theorem witness_Sequencer_others :
    let o : VOp := { a := 1, b := 2, sa := true }
    let two : Core := { alive with seqr := { body := [{ ins := .vand o, gb := 0, gc := 0, pc := 8 }], n := 1, count := 2, pos := [0] } }
    let s := stand 0 0 two
    ready (buffered 0 0) (.vrep 1 1) = true ∧ (buffered 0 0).rd (self w0) 1 ≠ 0 ∧ w0.rd (self w0) 1 = 0 ∧
    (fetchHalf w0 (self w0) 4).toNat / 1024 < 60 ∧
    nextSlot two.seqr 1 = some 0 ∧ nextSlot two.seqr 0 = some 0 ∧ lowerFirst s [⟨0, 0, 0⟩] 0 = false ∧ repEligible s ⟨0, 0, 0⟩ 0 0 = true ∧
    (match bodyOf (.vand o) (({ ins := .vand o, gb := 0, gc := 0, pc := 8 } : BodyI).arg ⟨0, 0, 0⟩ 0 s) s with
      | .ok _ => true
      | .error _ => false) = true ∧
    (let b := buffered 0 0x3FFF4
     [Instr.bbgetv .n8 false 1 1, .bbgetv .s8 false 1 6].all (ready b) = true ∧ slipOf (b.coreAt 0) 0 = none ∧ 0x3FFF4 + 4 * 3 ≤ localSize 0 ∧
       ∀ j, j < 3 → guardOk (b.coreAt 0) .load (0x3FFF4 + 4 * j) 4 = true ∧ sliceBad b (self w0) (0x3FFF4 + 4 * j) 4 = none) := by decide

/-! ## Witnesses: the matrix unit -/

/-- Worker 0 with registers, in a descriptor's company: one of e4m3 at 0x400, one of n8 at 0x480, one of s4 at 0x500. -/
def matrices (l : List (Nat × Word)) : State :=
  { stand 0 0 (having l) with
    mem := wrBs (wrBs (wrBs [] 0x400 (tdBytes 0x1000 0x10512 0 [128, 32] [1, 128])) 0x480 (tdBytes 0x1000 0x10500 0 [8] [1]))
      0x500 (tdBytes 0x1000 0x10516 0 [8] [1]) }

theorem witness_MatrixIssue :
    kindOf 0 = .worker ∧ alive.mErr = none ∧ cmdCount w0 0 0 < cmdDepth 0 ∧
    [Instr.mzero 3, .mspec 0, .mcommit 3, .mdiscard 0, .mbar, .mstat, .mvldR 1, .mvld 1, .mwr 0 1, .mrd 3 1 0].all (ready w0) = true ∧
    (let s := atAddr 0 0x3C000
     ready s (.mwr 0 2) = true ∧ sliceCheck s (self s) .load 0x3C000 16384 64 = none ∧ sliceCheck s (self s) .store 0x3C000 16384 128 = none ∧
       ready s (.mrd 0 2 0) = true ∧ ready s (.mrd 3 2 31) = true) ∧
    (let s := stand 0 0 (having [(1, 1), (2, 0x3FFC0)])
     ready s (.mdup 1 2) = true ∧ sliceCheck s (self s) .load 0x3FFC0 4 64 = none) ∧
    ready (stand 0 0 (having [(1, 16), (2, 0x3FFC0)])) (.mdup 1 2) = true ∧ opens (stand 0 0 (having [(1, 32)])) (.mdup 1 2) = true ∧
    (let s := stand 0 0 { having [(1, 3)] with lvl := 1 }
     ready s (.mslot 1 2) = true ∧ ready s (.mwgt 1) = true ∧ (s.coreAt 0).level ≤ 1) ∧
    opens (stand 0 0 (having [(1, 3)])) (.mslot 1 2) = true ∧ opens (stand 0 0 (having [(1, 2 ^ 32 - 1)])) (.mwgt 1) = true ∧
    (let s := matrices [(1, 0x400), (2, 0x400), (3, 0)]
     let td := parseTd 0x400 (sliceRd s (self s) 0x400 128)
     ready s (.mfmt ⟨1, 2, some 3⟩) = true ∧ sliceCheck s (self s) .load 0x400 128 64 = none ∧ td.ok = true ∧ td.planesRead s.cap = 1 ∧
       (mpair td.ty 1 td.ty 1).isSome = true) ∧
    (let s := matrices [(1, 0x400), (2, 0x480), (3, 0x1FFF)]
     let ta := parseTd 0x400 (sliceRd s (self s) 0x400 128)
     let tb := parseTd 0x480 (sliceRd s (self s) 0x480 128)
     opens s (.mfmt ⟨1, 2, some 3⟩) = true ∧ tb.ok = true ∧ mpair ta.ty 1 tb.ty 1 = none) ∧
    (let s := matrices [(1, 0x1FC0 + 0x1FFF * 2 ^ 16), (2, 0x500), (3, 0)]
     let x := parseTd 0x500 (sliceRd s (self s) 0x500 128)
     ready s (.mldb ⟨1, 2, some 3⟩) = true ∧ x.ok = true ∧ kmax x.ty = some 512 ∧ 0 < x.e 0 ∧ 0 < x.rows ∧ ldFits x 0x1FC0 0x1FFF 8 = true ∧
       elemCheck s (self s) x (ldPlanes x) x.scl (elemGrid (min 128 x.rows) 8 0 0) = none) ∧
    (let g : Word := 1 + 0 * 2 ^ 16 + 0 * 2 ^ 32
     let td := parseTd 0x400 (tdBytes 0x1000 0x10512 0 [128, 32] [1, 128])
     let s := stand 0 0 { having [(3, g)] with mctx := ⟨true, td, td, 1, 1, 0⟩ }
     opens (stand 0 0 (having [(3, g)])) (.mmul 0 2 3 true false) = true ∧ ready s (.mmul 3 2 3 true false) = true ∧
       mulFits (s.coreAt 0).mctx 1 1 0 = true ∧
       elemCheck s (self s) td 1 td.scaled (elemGrid 1 1 0 0) = none) := by decide

/-- Worker 0's command at the head of port 0, eligible at cycle 2. -/
def offering (op : MOp) : State := { stand 0 0 { alive with q0 := [{ op }] } with cyc := 2 }

theorem witness_MatrixProgress :
    (let s : State := { offering (.mzero 0) with clusters := [(0, { slots := Vector.replicate 64 8 })] }
     (s.clusterAt 0).run = none ∧ (vget (s.clusterAt 0).slots (s.cyc / 16 % 64) 0).getLsbD 3 = true ∧ eligCmd s 0 0 = some { op := .mzero 0 } ∧
       (s.coreAt 0).gang = none) ∧
    (∀ r, r < 8 → eligCmd w0 511 r = none) ∧
    (let s (r : MRun) : State := { w0 with clusters := [(0, { run := some r })] }
     ((s { row := 0, op := .mrd 0 0 1, writes := [(0, [1])] }).clusterAt 0).run.isSome = true ∧ MOp.gives (.mstat) = true ∧
     MOp.gives (.mzero 0) = false ∧ (w0.coreAt 0).r0.length < 8 ∧ (List.replicate 8 (0 : Word)).length = 8) ∧
    ([Val.nan].any Val.isNan = true ∧ [Val.inf false, .inf true].any Val.isNan = false ∧ Val.inf true ∉ [Val.inf false] ∧
      ∀ t ∈ [Val.fin true 0 3], t = Val.fin true 0 3) := by decide

theorem witness_MatrixEffects :
    let td := parseTd 0x400 (tdBytes 0x1000 0x10512 0 [128, 32] [1, 128])
    ∀ op ∈ [MOp.mvld 1, .mdup true [(0, 1)], .mfmt td td 1 1 0, .mbar, .mstat, .mwgt 1, .mslot 0 1, .mzero 3, .mwr 0 0, .mspec 3, .mcommit 0,
      .mdiscard 3, .mrd 0 0 1, .mmul 3 0 0 0 32 1 true false],
      eligCmd (offering op) 0 0 = some { op } ∧ (∀ r', r' < 8 → r' ≠ 0 → eligCmd (offering op) 0 r' = none) ∧ (offering op).bad = [] ∧
        ((offering op).clusterAt 0).badNan = [] ∧ ((offering op).clusterAt 0).run = none := by decide

/-! ## Witnesses: memory cores and transforms -/

/-- Memory core 0 with registers, TLB entries for the window's first page and, without rights, its second, and key slot 0 loaded. -/
def memCore (l : List (Nat × Word)) (m : List Host.Cell) : State :=
  { stand 4096 0 { having l with tlb := [{ ten := 0, lvl := 3, va := 0, leaf := 0x17 }, { ten := 0, lvl := 3, va := 1, leaf := 0x11 }] } with keys := [(0, { loaded := true })], mem := m }

/-- A translation succeeds. -/
def translates (n : Need) (vas : List Nat) (s : State) : Bool := match (translateAll 0 n vas s).2 with
  | .ok _ => true
  | .error _ => false

/-- A block table at 0x100 of the buffer: 4 KiB blocks, one token of 64 bytes in each, one block, listed as block 0. -/
def tabMem : List Host.Cell := wrBs [] (0x100000000 + 0x100) (natLE 8 (2 ^ 48) ++ [12, 0] ++ natLE 2 64 ++ natLE 4 1)

theorem witness_MemoryCoreInstructions :
    (∀ n ∈ [64, 65536], let s := memCore [(1, 0), (2, 0x1000000000000), (3, BitVec.ofNat 64 n)] []
      [Instr.mcld 1 2 3, .mcst 1 2 3].all (ready s) = true ∧ dramIn 0x1000000000000 n = true ∧ n ≤ 0x10000 ∧ n % 64 = 0 ∧
        translates ⟨true, false⟩ (pagesOf 0 n) s = true ∧ translates ⟨false, true⟩ (pagesOf 0 n) s = true) ∧
    (let s := memCore [(1, 0xFFC0), (2, 0x1000000010000), (3, 64)] []
     opens s (.mcld 1 2 3) = true ∧ translates ⟨true, false⟩ (pagesOf 0x10000 64) s = false) ∧
    (let s : State := { stand 4096 0 (having [(2, 0x100000000), (3, 64)]) with
        tasks := [(3, task0)], rects := [(1, BitVec.ofNat 64 (2 ^ 63 + 64 * 2 ^ 16 + 64 * 2 ^ 24))] }
     ready s (.mcpush 1 2 3) = true ∧ globIn s 4096 0x100000000 64 = true) ∧
    [(0 : Word), 65600, 65].all (fun n => [Instr.mcld 1 2 3, .mcst 1 2 3, .mcpush 1 2 3].all (opens (stand 4096 0 (having [(3, n)])))) = true := by decide

theorem witness_MemoryCoreInstructions_rest :
    ready (stand 4096 0 alive) .mcwait = true ∧ ready (stand 4096 0 { alive with xfers := [{ id := 0, moves := [] }] }) .mcwait = true ∧
    opens (stand 4096 0 { alive with xbad := some 8 }) .mcwait = true ∧ ready (stand 4096 0 alive) (.mctlb 1) = true ∧
    ready (stand 4096 0 (having [(1, 0x1FFFFFFFFFFFF)])) (.mctlb 1) = true ∧ 0x1FFFFFFFFFFFF / 2 ^ 48 = 1 ∧
    opens (stand 4096 0 (having [(1, 0x2000000000000)])) (.mctlb 1) = true ∧ ready (stand 4096 0 alive) (.mcsig 1) = true := by decide

theorem witness_MemoryCoreInstructions_gather :
    (let s := memCore [(1, 0), (2, 0x100), (3, 0)] tabMem
     ready s (.mcgath 1 2 3 true) = true ∧ (match gathTab s 4096 0x100 0 with
       | .ok t => t.token s 4096 0 == some 0x1000000000000 && decide (gathCheck s 4096 0 0x100 (64 + 4) 64 [t.token s 4096 0] = none)
       | .error _ => false) = true ∧ translates ⟨true, false⟩ (pagesOf 0 64) s = true) := by decide

theorem witness_TransfersAndCommands :
    (let s (m : XMove) : State := { stand 4096 0 { alive with xfers := [{ id := 0, moves := [m], masks := [(.buf 0, [1, 0, 0, 0])] }] } with
        keys := [(0, { loaded := true })] }
     (∀ m ∈ [(⟨.buf 0, .glob 0x3FFFFFC0, [], [7]⟩ : XMove), ⟨.buf 0, .dram 0 0 0, [], [3, 4]⟩, ⟨.dram 0 64 0, .buf 0, [], [5]⟩,
         ⟨.dram 0 64 0, .buf 64, [(5, [1])], [5]⟩, ⟨.zero, .buf 0xFFC0, [], List.range 8⟩],
       ((s m).coreAt 4096).xfers = [{ id := 0, moves := [m], masks := [(.buf 0, [1, 0, 0, 0])] }] ∧ dramFirst [] m = false ∧
         sideHeld (s m) 4096 m.dst = false ∧ sideHeld (s m) 4096 m.src = false ∧ (keyOf (s m) 0).isSome = true ∧ (s m).bad = []) ∧
     unitOk { s ⟨.dram 8 64 0, .buf 0, [], [5]⟩ with bad := [(dramBase + 64) / 8] } 64 = false ∧
     ¬(6 : Nat) ∈ (⟨.zero, .buf 0, [], [5]⟩ : XMove).left ∧
     sideHeld { s ⟨.buf 0, .glob 0x40000, [], [7]⟩ with cores := [(1, { member 1 with exch := some phase0 })] } 4096 (.glob 0x40000) = true) ∧
    (let s (d : List Nat) : State := { stand 0 0 { alive with q5 := [{ val := 7, deps := d }] } with mesh := [pkt .ack] }
     depsDone (s []) [] = true ∧ ((s []).coreAt 4096).inq.length < 4 ∧ depsDone (s [0]) [0] = false) := by decide

/-- Worker 0 with the request block `bs` at 0x400, offered to its cluster's coprocessor. -/
def asking (bs : List Byte) : State := { stand 0 0 { alive with q1 := [{ val := 0x400 }] } with mem := wrBs [] 0x400 bs, cyc := 2 }

/-- A request block (spec/20 Table 20.1). -/
def xBlock (src dst aux len fn par : Nat) : List Byte :=
  natLE 8 src ++ natLE 8 dst ++ natLE 8 aux ++ natLE 4 len ++ natLE 1 fn ++ natLE 1 par ++ natLE 2 0

theorem witness_Transforms :
    (let s := atAddr 0 0x3FFC0
     ready s (.xreq 1 2) = true ∧ guardOk (s.coreAt 0) .load 0x3FFC0 64 = true) ∧
    (let k : Core := { having [(2, 0x40)] with q1 := [{ val := 0 }, { val := 0 }] }
     ready (stand 0 0 k) (.xreq 1 2) = true ∧ opens (stand 0 0 { k with r1 := [1, 2, 3, 4] }) (.xreq 1 2) = true) ∧
    opens (atAddr 0 0x3FFC8) (.xreq 1 2) = true ∧ ready (stand 0 0 { alive with r1 := [7] }) (.xres 1) = true ∧ ready w0 (.xres 1) = true ∧
    (∀ bs ∈ [xBlock 0 0x1000 0 65536 0 0, xBlock 0 0x1000 0x2000 1 1 6, xBlock 0 0x1000 0 4096 2 63, xBlock 0 0x20000 0 4096 3 127,
        xBlock 0 0 0 1 4 0], let s := asking bs
      let r := parseX (rdBs s.mem (localBase 0 + 0x400) 64)
      xNext s 0 = some (0, 0x400) ∧ r.form = true ∧ r.outside = none ∧ r.fn ≤ 4 ∧ s.bad = []) ∧
    (parseX (rdBs (asking (xBlock 0 0 0 0 0 0)).mem 0x400 64)).form = false ∧
    (parseX (rdBs (asking (xBlock 0x3FFFF 0 0 2 0 0)).mem 0x400 64)).outside = some 0x40000 ∧
    (1 : Word).toNat / 2 ^ 52 % 16 ≠ 3 := by decide

/-! ## Witnesses: the lifeguard -/

/-- A binding block that names worker (`x`, 0), with a ring of 2^`n` bytes at 0x10000 (spec/21 Table 21.1). -/
def lgBlock (x n : Nat) : List Byte := [BitVec.ofNat 8 x, 0, BitVec.ofNat 8 n, 0, 0, 0] ++ natLE 2 16 ++ natLE 8 0x10000

/-- Worker 0 of a task of workers 0 and 1, with the block at 0x400 (its address in g2), and worker 1 as `k1`. -/
def lgPair (k0 k1 : Core) (bs : List Byte) : State :=
  { stand 0 0 k0 with cores := [(0, k0), (1, k1)], tasks := [(3, task0)], mem := wrBs [] 0x400 bs }

def guardian : Core :=
  { having [(1, 5), (2, 0x400)] with lg := { v := true, role := true }, guard := some { peer := 1, ring := 0x10000, lring := 12, hs := [] } }

theorem witness_LifeguardInstructions :
    (let k := having [(2, 0x400)]
     let bs (s : State) : List Byte := sliceRd s (self s) 0x400 128
     let s (x n : Nat) : State := lgPair k alive (lgBlock x n)
     (match blockRead (s 1 12) (self w0) 0x400 128 with
      | .ok b => b == bs (s 1 12)
      | .error _ => false) = true ∧
     lgBlockOk (bs (s 1 11)) = false ∧ lgBlockOk (bs (s 1 12)) = true ∧ lgBlockOk (bs (s 1 16)) = true ∧ lgTarget (s 2 12) 0 (bs (s 2 12)) = none ∧
     lgTarget (s 1 12) 0 (bs (s 1 12)) = some 1 ∧ ready (s 1 12) (.lgbind 1 2) = true ∧ alive.belongs = false ∧ guardian.belongs = true ∧
     ready (lgPair guardian alive (lgBlock 1 12)) (.lgbind 1 2) = true) ∧
    [Instr.lgunbind 1, .lgnext 1 2, .lgok, .lgflag 1, .lglim 1 2, .lgemit 1 2, .contain].all (ready w0) = true ∧ alive.guard = none ∧
    (let s := stand 0 0 guardian
     [Instr.lgunbind 1, .lgok, .lgflag 1, .lglim 1 2].all (ready s) = true ∧ guardian.lg.v = true ∧ guardian.lg.role = true ∧ allDone s (self s) = true) ∧
    ready (stand 0 0 { guardian with r3 := [7] }) (.lgnext 1 2) = true := by decide

/-- Worker 0 bound to lifeguard 1, which has published `c` of its `n` records; its control context waits as `ws` says. -/
def bound0 (n c : BitVec 32) (gp : Bool) (ws : List (Nat × Nat)) : State :=
  stand 0 0 { alive with lg := { v := true, seq := n, cons := c, gp := gp, lim := 64 }
                         bound := some { peer := 1, mask := 0xFFFF, ring := 0x10000, lring := 12, waits := ws } }

theorem witness_BoundWorker :
    (let s := bound0 0xFFFFFFFF 0xFFFFFFFF false []
     let k := s.coreAt 0
     k.gang = none ∧ runs k 0 = true ∧ k.ctl.pend = [] ∧ acquiring s (self s) = false ∧ divHolds s (self s) (.lgemit 1 2) (namedRegs (self s) (.lgemit 1 2)) = false ∧
       s.cur.refused = none ∧ k.seqr.toCap = 0 ∧ k.slip = none ∧
       permit (self s) (.lgemit 1 2) = none ∧ permit (self s) .contain = none ∧ lagFull k = false) ∧
    mget [(0, 5)] 0 = some 5 ∧ ((5 : BitVec 32) - BitVec.ofNat 32 5).toNat < 2 ^ 31 ∧ ¬((4 : BitVec 32) - BitVec.ofNat 32 5).toNat < 2 ^ 31 ∧
    ((bound0 5 5 true [(0, 5)]).coreAt 0).lg.gp = true ∧ bit (vget ((bound0 5 5 true []).coreAt 0).banks (trapLevel (bound0 5 5 true []) 0) {}).vec 0 = true := by
  decide

/-- Workers 0 (bound to lifeguard 1 or waiting) and 1 with one packet of core 1 on its way. -/
def lgMesh (k0 : Core) (k : PKind) : State := { lgPair k0 alive [] with mesh := [{ pkt k with core := 1 }] }

theorem witness_BoundWorker_full :
    let s := bound0 69 5 false []
    lagFull (s.coreAt 0) = true ∧ ((s.coreAt 0).bound.map (·.mask.getLsbD 12)) = some true ∧ ((s.coreAt 0).bound.map (·.openRec)) = some none := by decide

theorem witness_LifeguardMessages :
    (∀ k ∈ [PKind.bind 0 0xFFFF 0x10000 12 false 64, .bindAck 0 0, .unbind 0, .unbindAck 0 (some 9), .unbindAck 0 none, .publish 0 5, .flag 0 5, .limit 0 5],
      (lgMesh alive k).mesh[0]? = some { pkt k with core := 1 } ∧ lgFirst (lgMesh alive k) 0 { pkt k with core := 1 } = true ∧
        k.lgTo.any (heldAtEdge (lgMesh alive k) 1) = false ∧ k.lgTo.any (heldAtEdge (lgMesh { member 1 with exch := some phase0 } k) 1) = true) ∧
    (let p : Packet := { pkt (.publish 0 5) with core := 1 }
     lgFirst { w0 with mesh := [p, p] } 1 p = false) ∧
    recsOut { lgMesh alive (.unbind 0) with mesh := [{ pkt (.unbind 0) with core := 1 }, { pkt .ack with seq := some 3 }] } 0 = true ∧
    alive.dead = false ∧ alive.belongs = false ∧ ({ alive with run := .quarantined } : Core).dead = true ∧ guardian.belongs = true ∧
    (let b := (bound0 5 5 false []).coreAt 0
     let s := lgMesh b (.unbind 0)
     (s.coreAt 0).bound.map (·.peer) = some 1 ∧ (s.coreAt 0).dead = false ∧ recsOut s 0 = false ∧ (s.coreAt 0).lg.gp = false) ∧
    (let s := lgMesh { guardian with lgWait := some ⟨false, 1, 4⟩ } (.unbindAck 0 (some 9))
     (s.coreAt 0).lgWait = some ⟨false, 1, 4⟩ ∧ (s.coreAt 0).guard.isSome = true ∧ 9 ≠ (s.coreAt 0).lg.seq.toNat ∧
       (s.coreAt 0).guard.map (·.accepted) = some 0 ∧ (s.coreAt 0).lg.seq.toNat = 0) ∧
    (let r : OpenRec := { typ := 0, ctx := 0, sz := 3, seq := 1, sp := false, addr := 0, next := 8, rep := 0, info := 0, cyc := 10, inext := 8, irep := 0 }
     r.tagged = true ∧ { r with tagged := false }.tagged = false ∧
     r.cyc + 8 ≤ 18 ∧ 17 < r.cyc + 8) ∧
    (0xFFFFFFFF + 1) % 2 ^ 32 = 0 ∧
    (let g : Guardian := { peer := 1, ring := 0x10000, lring := 12, hs := [], accepted := 2, dispatched := 1 }
     let s (h : Nat) : State := { stand 0 0 { guardian with guard := some g } with mem := wrBs [] 0x10020 (natLE 8 h) }
     nextHdr (s (12 * 2 ^ 60)) 0 = some (g, BitVec.ofNat 64 (12 * 2 ^ 60)) ∧ stampOf (s 0) 0 g 0 = .free) ∧
    (let b := (bound0 5 5 false []).coreAt 0
     let s : State := { stand 2 0 guardian with cores := [(0, { b with bound := b.bound.map (fun b => { b with peer := 3 }) }), (2, guardian), (3, guardian)] }
     stampOf s 2 { peer := 1, ring := 0x10000, lring := 12, hs := [] } 5 = .held) ∧
    (let g : Guardian := { peer := 1, ring := 0x10000, lring := 12, hs := [], accepted := 1 }
     let b := (bound0 5 5 false []).coreAt 0
     let l : Core := { guardian with guard := some g }
     let s : State := { stand 2 0 l with mem := wrBs [] (localBase 2 + 0x10010) (natLE 8 5)
                                         cores := [(0, { b with bound := b.bound.map (fun b => { b with peer := 3 }) }), (2, l),
                                           (3, { guardian with guard := some { g with holding := true } })] }
     nextHdr s 2 = some (g, 5) ∧ inPhase s 2 = false ∧ stampOf s 2 g 5 = .unordered 3 ∧ (s.cores.map (·.1)).Nodup ∧
       inPhase { s with cores := (0, { member 3 with exch := some phase0 }) :: s.cores } 2 = true) ∧
    (let g : Guardian := { peer := 1, ring := 0x10000, lring := 12, hs := [], accepted := 2, final := some 2 }
     g.final = some g.accepted ∧ { g with final := none }.final ≠ some g.accepted ∧ heldAtEdge (lgMesh guardian .ack) 1 0 = false) := by decide

/-! ## Witnesses: port engines -/

/-- A port command block (spec/23 Table 23.6). -/
def pBlock (op ty gid src dst len conn : Nat) : List Byte :=
  natLE 1 op ++ natLE 1 ty ++ [0, 0] ++ natLE 2 gid ++ [0, 0] ++ natLE 8 src ++ natLE 8 dst ++ natLE 4 len ++ natLE 2 conn ++ List.replicate 34 0

theorem witness_PortInstructions :
    opens (atAddr 0 0x3FFC1) (.npost 1 2) = true ∧ opens (stand 0 0 (fenced (having [(2, 0x40)]))) (.npost 1 2) = true ∧
    guardOk (fenced alive) .load 0x40 64 = false ∧ opens (atAddr 0 0x3FF80) (.npost 1 2) = true ∧ opens (atAddr 0 8) (.npost 1 2) = true ∧
    guardOk ((atAddr 0 8).coreAt 0) .load 8 64 = true ∧ sliceBad (atAddr 0 0x3FFC0) (self w0) 0x3FFC0 64 = none ∧
    (let k : Core := { having [(2, 0x3FFC0)] with ntag := 65535, q4 := List.replicate 4 { blk := [], tag := 9 } }
     ready (stand 0 0 k) (.npost 1 2) = true ∧ opens (stand 0 0 { k with r4 := List.replicate 4 ⟨0, true⟩ }) (.npost 1 2) = true) ∧
    (∀ st ∈ [0, 1, 2, 4, 5], let e : PElem := { val := BitVec.ofNat 64 (st * 2 ^ 52 + 7 * 2 ^ 32), nt := false }
      opens (stand 0 0 { having [(2, 7)] with r4 := [⟨0, true⟩, e] }) (.npoll 1 2) = true ∧ e.val.toNat / 2 ^ 32 % 2 ^ 16 = 7 ∧
        e.val.toNat / 2 ^ 52 % 16 = st) := by decide

/-- Both ports alike: a live connection 5, group 3 of two members of which this is the second. -/
def port0 : Port :=
  { mport := 4000, up := [true, false], conns := [(5, { st := .opened, peer := 9, mss := 1024 })]
    groups := [(3, ⟨2, 1, 10, List.replicate 16 5⟩)] }

/-- Worker 0 with a command at port 4, and both ports as `q`. -/
def posting (c : PCmd) (q : Port) : State := { stand 0 0 { alive with q4 := [c] } with ports := Vector.replicate 2 q }

/-- The port that serves worker 0 is one of the two. -/
theorem witness_PortCommands_port : b2n (Config.commandPort 0) < 2 := by
  cases Config.commandPort 0 <;> decide

theorem witness_PortCommands :
    (∀ blk ∈ [pBlock 0 0 0 0x3E000 0 8192 5, pBlock 0 0 0 0x3FFFF 0 2 5, pBlock 0 0 0 0 0 1 6, pBlock 3 0 3 0x3FFC0 0 0 0, pBlock 3 0 3 0x3FFC1 0 0 0,
        pBlock 1 0x10 3 0 0x3FFFC 1 0, pBlock 1 0x11 3 0 0x40000 1 0, pBlock 2 0x05 3 0x3FFFC 0x3FFF8 1 0, pBlock 1 0x10 4 0 0 1 0,
        pBlock 3 0 64 0 0 0 0],
      let c : PCmd := { blk, tag := 7 }
      let s := posting c port0
      c.form = true ∧ depsDone s c.deps = true ∧ pendCount s 0 4 < 16 ∧ heldAtEdge s 9000 0 = false ∧ s.bad = [] ∧ (s.coreAt 0).slip = none ∧
      ∀ p, p < 2 → ((s.portAt p).conns.all (fun e => e.2.held.isEmpty) && (runningOn s p c.gid).isNone && carries s p 5 && !carries s p 6 && ((s.connAt p 5).map (·.live) == some true) &&
        (mget (s.portAt p).groups 3 == some ⟨2, 1, 10, List.replicate 16 5⟩) && (mget (s.portAt p).groups 4).isNone) = true) ∧
    ({ blk := pBlock 4 0 0 0 0 0 0, tag := 7 } : PCmd).form = false ∧ parseGroup 3 (List.replicate 64 0) = none ∧
    (pBlock 3 0 64 0 0 0 0 |> fun blk => ({ blk, tag := 7 } : PCmd).gid) = 64 ∧
    parseGroup 3 (natLE 2 3 ++ [2, 1] ++ natLE 4 1000000 ++ List.replicate 56 0) = some ⟨2, 1, 1000000, List.replicate 16 0⟩ ∧
    (let r : PRun := { core := 0, cmd := { blk := pBlock 0 0 0 0 0 1 5, tag := 7 }, lastPsn := 0 }
     let s (c : Conn) (r : PRun) : State := { w0 with ports := Vector.replicate 2 { port0 with conns := [(5, c)], cmds := [r] } }
     ((s { nxt := 1 } { r with fin := some (4, 0) }).portAt 1).cmds[0]? = some { r with fin := some (4, 0) } ∧
     ((s { nxt := 1 } r).connAt 1 5).any (fun k => k.acked r.lastPsn) = true ∧ r.fin = none ∧ r.cmd.op = 0) := by decide

/-- An all-reduce of group 3, round 1, in step `st`. -/
def reduce0 (st : Nat) : PRun :=
  { core := 0, cmd := { blk := pBlock 1 0x10 3 0 0x100 4 0, tag := 7 }, group := some ⟨2, 1, 10, List.replicate 16 5⟩, round := 1, step := st, stepAt := 0 }

/-- It runs on port 0 beside an inbox. -/
def reducing (st : Nat) (inb : List (Nat × Msg)) : State :=
  let r := reduce0 st
  { w0 with ports := Vector.replicate 2 { port0 with cmds := [r], inbox := inb, rounds := [(3, none, 1)] }, cyc := 6000 }

theorem witness_CollectiveRounds :
    (∀ st ∈ [0, 1], let s := reducing st [(5, .chunk 3 1 st (List.replicate 8 0)), (5, .creset 3 1 0)]
      (runningOn s 0 3).isSome = true ∧ (s.portAt 0).inbox[0]? = some (5, .chunk 3 1 st (List.replicate 8 0)) ∧
      (runningOn s 0 3).any (fun r => r.step == st && r.round == 1 && r.group.any (fun g =>
        (r.cmd.chunk g (r.cmd.writes g r.step)).2 == 8 && g.peers.getD ((g.rank + g.n - 1) % g.n) 0 == 5 && decide (r.stepAt + g.gto * 600 ≤ s.cyc))) = true ∧
      heldAtEdge s 9000 0 = false ∧ s.bad = [] ∧ (s.coreAt 0).slip = none ∧ carries s 0 5 = true ∧
      (s.portAt 0).inbox[1]? = some (5, .creset 3 1 0)) ∧
    (reducing 0 [(6, .creset 3 1 0)]).bad = [] ∧ (let s : State := { w0 with ports := Vector.replicate 2 { port0 with rounds := [(3, none, 1)] } }
      runningOn s 1 3 = none ∧ roundOf s 1 3 = 1) := by decide

/-- The parts of a chunk, and what the time limit of a step finds waiting. -/
theorem witness_CollectiveRounds_parts :
    (∀ d ∈ [List.replicate 4 (0 : Byte), List.replicate 8 0, List.replicate 9 0, []],
      let s := reducing 0 [(5, .chunk 3 1 0 d)]
      runningOn s 0 3 = some (reduce0 0) ∧ (s.portAt 0).inbox[0]? = some (5, .chunk 3 1 0 d) ∧ (reduce0 0).part = []) ∧
    (let r := reduce0 0
     let g : Group := ⟨2, 1, 10, List.replicate 16 5⟩
     r.group = some g ∧ r.fin = none ∧ r.want g = 8 ∧ ((reducing 0 []).portAt 0).cmds[0]? = some r ∧ r.stepAt + g.gto * 600 ≤ (reducing 0 []).cyc ∧
     waiting (reducing 0 []) 0 r g = [] ∧ waiting (reducing 0 [(5, .chunk 3 1 0 (List.replicate 4 0))]) 0 r g = [List.replicate 4 0] ∧
     waiting (reducing 0 [(5, .chunk 3 1 0 (List.replicate 8 0))]) 0 r g = [List.replicate 8 0] ∧
     ((reducing 0 [(6, .chunk 3 1 0 [0])]).portAt 0).inbox[0]? = some (6, .chunk 3 1 0 [0])) ∧
    ((reducing 0 [(5, .chunk 3 0 0 [0]), (5, .chunk 3 2 0 [0]), (5, .chunk 3 1 1 [0]), (6, .creset 3 1 7)]).portAt 0).inbox[3]? = some (6, .creset 3 1 7) ∧
    (let s : State := { reducing 0 [(5, .chunk 3 1 0 [0])] with cores := [(0, { member 1 with exch := some phase0 })] }
     heldAtEdge s 9000 0 = true) := by decide

/-- A Milium packet of the peer 7. -/
def milium (typ cid psn : Nat) (bs : List Byte) : MPkt := { typ, ackReq := false, cid, psn, cack := 0, sack := 0, payload := bs, from_ := 7 }

/-- Both ports with these packets received. -/
def received (ms : List MPkt) (c : Conn) : State := { w0 with ports := Vector.replicate 2 { port0 with rxq := ms, conns := [(5, c)] }, cyc := 600000 }

theorem witness_MiliumData :
    ((received [] {}).portAt 1).up.any id = true ∧ frameParse [] = none ∧ ((received [] {}).portAt 0).mport ≠ 0 ∧
    (received [milium 0 6 0 []] {}).connAt 0 6 = none ∧ ((received [milium 1 6 0 []] {}).portAt 1).rxq = [milium 1 6 0 []] ∧
    (let k : Conn := { st := .opened, exp := 4, unacked := 7, una := [(1, .refused 0)], deadline := 600000, expiries := 6, ackDue := some 9 }
     let s := received [milium 0 5 4 []] k
     s.connAt 1 5 = some k ∧ k.open = true ∧ k.una ≠ [] ∧ k.deadline ≤ s.cyc ∧ k.wait = [] ∧ psnSub 5 k.exp < 1024 ∧ ¬psnSub 3 k.exp < 1024 ∧
       k.ackDue.isSome = true ∧ k.closeReq = false ∧ k.held = [] ∧ k.ahead = []) ∧
    (let k : Conn := { st := .opened, closeReq := true, una := [(3, .refused 0)] }
     let m : MPkt := { milium 1 5 0 [] with cack := 3 }
     (received [m] k).connAt 1 5 = some k ∧ k.open = true ∧ k.wait = [] ∧ k.held = [] ∧ k.una.all (fun e => decide (psnSub m.cack e.1 < 2 ^ 31)) = true) ∧
    (let k : Conn := { st := .opened, exp := 4, unacked := 6, ahead := [(6, [])] }
     (∀ e ∈ k.ahead, e.1 ≠ 5) ∧ (∀ e ∈ k.ahead, e.1 ≠ k.exp) ∧ psnSub 5 k.exp < 1024 ∧ ¬(∀ e ∈ k.ahead, e.1 ≠ 6) ∧ ¬psnSub 1028 k.exp < 1024) := by decide

/-- Worker 0 waits for the answer to a load of 4 bytes through the system window, which went out on connection 5 of port 1. -/
def asked0 (bs : List Byte) : State :=
  { received [milium 0 5 4 bs] { st := .opened, exp := 4 } with
    cores := [(0, { alive with ctl := { sys := some { tag := 9, addr := 0x4000000000000000, rd := 3, next := 2, n := 4 } } })]
    sysOut := [{ tag := 9, core := 0, ctx := 0, conn := 1029, addr := 0x4000000000000000, store := false }] }

/-- What a payload says is the transport's free format (log entry 52): whichever payload says it, the answer to a load meets the premises of its clause,
and so does a chunk of a later round. -/
theorem witness_MiliumData_reply (bs : List Byte) (v : Word) (h : readMsg (asked0 bs) 1029 bs = .reply 9 v) :
    let s := asked0 bs
    ∃ k o x, (s.portAt 1).rxq = [milium 0 5 4 bs] ∧ s.connAt 1 5 = some k ∧ k.open = true ∧ k.closeReq = false ∧ 4 = k.exp ∧ k.ahead = [] ∧ k.held = [] ∧
      readMsg s (1 * 1024 + 5) bs = .reply 9 v ∧ s.sysOut.find? (fun o => o.tag == 9) = some o ∧ o.conn = 1 * 1024 + 5 ∧ o.copy = none ∧ o.store = false ∧
      o.ctx ≤ 10 ∧ (s.ctxAt ⟨o.core, o.ctx, o.core⟩).sys = some x ∧ x.atom = none ∧ (s.coreAt o.core).bound = none :=
  ⟨_, _, _, rfl, rfl, by decide, rfl, rfl, rfl, rfl, h, rfl, rfl, rfl, rfl, by decide, rfl, rfl, rfl⟩

theorem witness_MiliumData_ahead (bs d : List Byte) (h : readMsg (asked0 bs) 1029 bs = .chunk 3 2 0 d) :
    ahead? (asked0 bs) 1 (readMsg (asked0 bs) (1 * 1024 + 5) bs) = true ∧ ahead? (asked0 bs) 1 (.raw bs) = false := by
  rw [show 1 * 1024 + 5 = 1029 from rfl, h]
  exact ⟨rfl, rfl⟩

/-- An Ethernet frame with an IPv4 UDP datagram from 7.0.0.1 to port 4000 that holds a data packet for connection 5 (spec/23 Tables 23.1, 23.2); its
checksums follow RFC 791, RFC 768 and IEEE 802.3, computed outside the model. -/
def frame0 : List Byte :=
  [2, 0, 0, 0, 0, 2, 2, 0, 0, 0, 0, 1, 8, 0, 69, 0, 0, 52, 0, 0, 0, 0, 64, 17, 108, 183, 7, 0, 0, 1, 7, 0, 0, 2, 19, 136, 15, 160, 0, 32, 205,
   122, 1, 0, 0, 0, 0, 0, 0, 5, 0, 0, 0, 4, 0, 0, 0, 0, 0, 0, 0, 0, 0, 0, 0, 0, 125, 240, 255, 110]

theorem witness_MiliumData_frame :
    frameParse frame0 = some (0x07000001, 4000, [1, 0, 0, 0, 0, 0, 0, 5, 0, 0, 0, 4] ++ List.replicate 12 0) ∧
    miliumParse 7 ([1, 0, 0, 0, 0, 0, 0, 5, 0, 0, 0, 4] ++ List.replicate 12 0) = some (milium 0 5 4 []) := by decide

/-- The payload of a connect: number 9, first psn 3, retransmit time 1000, size 8192. -/
def connect9 : List Byte := natLE 4 9 ++ natLE 4 3 ++ natLE 2 1000 ++ natLE 2 8192 ++ natLE 4 0

theorem witness_MiliumConnections :
    connectOf connect9 = some (9, 3, 1000, 8192) ∧ connectOf [] = none ∧
    (let s (c : Conn) (arm : List (Nat × Nat)) (m : MPkt) : State :=
       let q : Port := { port0 with rxq := [m], armed := arm, conns := [(0, c)] }
       { received [m] c with ports := Vector.replicate 2 q }
     let q (c : Conn) (arm : List (Nat × Nat)) : Port := (s c arm (milium 2 0xFFFFFFFF 0 connect9)).portAt 1
     (q ({ addr := 8 } : Conn) []).conns.find? (fun e => e.2.addr == 7 && e.2.peer == 9 && e.2.open) = none ∧ (q {} []).armed.contains (4000, 7) = false ∧
     (q {} [(4000, 7)]).armed.contains ((q {} []).mport, 7) = true ∧
     (s {} [] (milium 2 0 0 connect9)).connAt 0 1 = none ∧ ((s {} [] (milium 2 0 0 connect9)).connAt 0 0).isSome = true ∧
     ((q { st := .opened, addr := 7, peer := 9 } []).conns.find? (fun e => e.2.addr == 7 && e.2.peer == 9 && e.2.open)).isSome = true) ∧
    (∀ st ∈ [ConnSt.opening, .opened, .closing], ((received [milium 3 5 0 []] { st }).connAt 1 5).map (·.st) = some st) ∧
    (received [milium 4 6 0 []] {}).connAt 1 6 = none ∧ (received [milium 3 6 0 []] {}).connAt 1 6 = none ∧
    (∀ k ∈ [({ st := .opened, una := [(0, .refused 0)] } : Conn), { st := .opened, wait := [.refused 0] }, { st := .opened, held := [[]] }],
      (received [milium 3 5 0 []] k).connAt 1 5 = some k ∧ k.st = .opened ∧ (k.una ≠ [] ∨ k.wait ≠ [] ∨ k.held ≠ [])) ∧
    (let k : Conn := { st := .opened }
     k.una = [] ∧ k.wait = [] ∧ k.held = []) ∧
    (∀ st ∈ [ConnSt.closing, .failed], ((received [milium 3 5 0 []] { st }).connAt 1 5).map (·.st) = some st) ∧
    (let s : State := { received [milium 4 5 0 []] {} with sysOut := [{ tag := 9, core := 0, ctx := 0, conn := 1029, addr := 8, store := false }] }
     s.sysOut.any (fun o => o.conn == 1 * 1024 + 5 && o.copy.isNone && decide (o.ctx ≤ 10) && !o.store) = true) := by decide

theorem witness_PeerAccesses :
    (let s (m : Msg) (b : List (Nat × Word)) : State := { tenant 0 with ports := Vector.replicate 2 { port0 with inbox := [(5, m)] }, cbind := b }
     let m := Msg.ld 0x10003FFF8 8 1
     ((s m []).portAt 1).inbox[0]? = some (5, m) ∧ m.access = some (0x10003FFF8, 8, 1) ∧ peerFirst ((s m []).portAt 1) 0 5 = true ∧
     carries (s m []) 1 5 = true ∧ mget (s m []).cbind (1 * 1024 + 5) = none ∧
     (let b := [(1 * 1024 + 5, BitVec.ofNat 64 (2 ^ 63 + 1))]
      mget (s m b).cbind (1 * 1024 + 5) = some (BitVec.ofNat 64 (2 ^ 63 + 1)) ∧ homeVm (s m b) 1 0x3FFF8 = some (0, 0x3FFF8) ∧
        heldAtEdge (s m b) 9000 0 = false ∧ badAt (s m b).bad (localBase 0 + 0x3FFF8) 8 (fun _ => false) = none) ∧
     (Msg.at 0x100000000 true .cas 0 1 2).access = some (0x100000000, 4, 2) ∧ (Msg.st 0x13FFFFFFF 1 3 7).access = some (0x13FFFFFFF, 1, 3)) := by decide

/-! ## Witnesses: pre-emption, power, tasks -/

/-- Task 3 of VM 1 on worker columns 0 and 1, in state `st`. -/
def placedTask (st : TaskSt) (k : Core) : State :=
  { stand 0 0 k with tasks := [(3, { task0 with st })], rects := [(1, BitVec.ofNat 64 (2 ^ 63 + 64 * 2 ^ 16 + 64 * 2 ^ 24))] }

theorem witness_PreemptionKeepsContexts :
    mget (placedTask .placed alive).tasks 3 = some task0 ∧ task0.st = .placed ∧ 0 ∈ task0.agents ∧ 4096 ∈ task0.agents ∧
    ((placedTask .placed { alive with slip := some slip0 }).coreAt 0).run = .running ∧
    agentsQuiet { placedTask .preempted alive with mesh := [pkt .ack] } task0.rect = false ∧
    agentsQuiet (placedTask .preempted { alive with run := .preempted }) task0.rect = true ∧ Memory.wf (placedTask .preempted alive).mem = true ∧
    leNat ((task0.trec.drop 7).take 1) % 2 = 0 ∧ (∃ u, exec (.contextSave 3) (placedTask .preempted { alive with run := .preempted }) = .next u ∧
      mayPlace u 3 { task0 with st := .saved } task0.rect = true) := by
  refine ⟨by decide, by decide, by decide, by decide, by decide, by decide, by decide, by decide, by decide, _, rfl, by decide⟩

/-- No context of a core with launch contexts is lulled. -/
theorem quiet_ctx (c : Nat) : (alive.ctx c).lull = none := by
  unfold Core.ctx
  split
  · rfl
  · simp only [alive, vget, Vector.getElem_replicate]
    split <;> rfl

/-- A division of the control context is in the divider. -/
def dividing : Core :=
  { alive with ctl := { pc := 0x12 }, div := some { c := 0, rd := 3, old := 5, pc := 0x10, loops := [], at_ := 0 } }

/-- A migratable task of columns 0 and 1 of the partition of VM 1, which is no larger, and a hold that another task of the VM has there. -/
def leaving (held : Bool) : State :=
  let t : Task := { task0 with st := .preempted, qid := 5, trec := natLE 4 77 ++ [0, 0, 0, 1, 2, 8] ++ List.replicate 246 0 }
  { stand 4096 0 { alive with root := 2, tlb := [{ ten := 2, lvl := 3, va := 0, leaf := 0x17 }] } with
    rects := [(1, BitVec.ofNat 64 (2 ^ 63 + 2 * 2 ^ 16 + 8 * 2 ^ 24))], queues := [(5, { w1 := 0x50102, v := true, map := true })]
    keys := [(0, { loaded := true })], tasks := [(3, t), (4, { task0 with st := .admitted })], holds := if held then [(4, 0, 0)] else [] }

theorem witness_PreemptionKeepsContexts_others :
    (let k := dividing
     k.slip = none ∧ k.div.any (fun d => d.c == 0 && decide (0 < d.at_ + 20)) = true ∧ k.run = .running ∧
       (k.div.any (fun d => d.at_ + 20 ≤ 20)) = true) ∧
    (placedTask .preempted alive).mustLeave 3 { task0 with st := .preempted } = false ∧
    (let s := leaving true
     ∃ t, mget s.tasks 3 = some t ∧ t.st = .preempted ∧ t.mig = true ∧ agentsQuiet s t.rect = true ∧ s.mustLeave 3 t = true ∧
       s.heldFor 3 t.vm t.rect = true ∧ anyPlace (clearPre (saveTask s 3 t) t.vm) 3 { t with st := .saved } = false ∧
       (s.queueAt t.qid).used < 2 ^ (s.queueAt t.qid).lq ∧
       (let s1 := clearPre (saveTask s 3 t) t.vm
        (ringPut s1 (s1.queueAt t.qid) ((s1.queueAt t.qid).head - 1).toNat t.trec).2 = true)) ∧
    (let s := leaving false
     (mget s.tasks 3).any (fun t => !s.mustLeave 3 t && !(t.mig && s.heldFor 3 t.vm t.rect)) = true) := by
  refine ⟨by decide, by decide, ⟨_, rfl, ?_⟩, by decide⟩
  decide

theorem witness_QuarantineAndRemap :
    (w0.coreAt 4095).run ≠ .quarantined ∧ taskOf (placedTask .placed alive) 1 = some (3, task0) ∧ 0 ∈ task0.rect.cores ∧
    (let s (d : Band) : State := { w0 with bands := [(0, d)] }
     (∀ d ∈ [({ quar := [0] } : Band), { quar := [0, 15], remapped := true }, { quar := [0, 1, 2], remapped := true, held := [1] }],
       mget (s d).bands 0 = some d ∧ d.quar.head?.isSome = true ∧ d.whole = false ∧ ∃ u, exec (.quarantine 0 0) (s d) = .next u) ∧
     (let d : Band := { quar := [5, 0], remapped := true, held := [0] }
      d.remapped = true ∧ colOf 0 ∈ d.quar.drop 1) ∧
     (let d : Band := { quar := [5], remapped := true }
      d.remapped = true ∧ colOf 0 ∉ d.quar.drop 1) ∧
     (let d : Band := { quar := [5] }
      d.remapped = false ∧ colOf 0 ∉ d.quar) ∧
     ((s { quar := [0] }).cores.map (·.1)).Nodup ∧ Memory.wf (s { quar := [0] }).mem = true) ∧
    (placedTask .placed alive).tasks.any (fun e => e.2.placed && e.2.rect.cores.any (fun i => bandOf i == 0)) = true ∧
    (w0.tasks.any (fun e => e.2.placed && e.2.rect.cores.any (fun i => bandOf i == 0))) = false := by
  refine ⟨by decide, by decide, by decide, ⟨?_, by decide, by decide, by decide, by decide, by decide⟩, by decide, by decide⟩
  intro d hd
  simp only [List.mem_cons, List.not_mem_nil, or_false] at hd
  rcases hd with rfl | rfl | rfl <;> exact ⟨by decide, by decide, by decide, _, rfl⟩

theorem witness_PowerAndErrors :
    w0.powered = true ∧ State.reset.powered = false ∧ State.reset.sched = 0 ∧ ({ w0 with sched := 7 } : State).sched = 7 ∧
    mget ({ w0 with queues := [(5, { v := true })] } : State).queues 5 = some { v := true } := by decide

/-- The ROM of a device that boots from flash finds in a slot a header that passes or one that does not. -/
theorem witness_PowerAndErrors_slot (s : State) (slot : Nat) (hb : Config.fuseBsrc = false) :
    ∃ h, romRead s slot 0 0x1000 = (s, some h) ∧ ((headerOk h = false ∨ headerSigned h = false) ∨ (headerOk h = true ∧ headerSigned h = true)) := by
  refine ⟨(List.range 0x1000).map (fun k => Config.flash (slot * 0x400000 + 0 + k)), by simp [romRead, hb], ?_⟩
  generalize (List.range 0x1000).map _ = h
  cases headerOk h <;> cases headerSigned h <;> simp

theorem shaRound_length {n : Nat} (r : ShaRot) (k w : BitVec n) (l : List (BitVec n)) (h : l.length = 8) : (shaRound r k w l).length = 8 := by
  match l, h with
  | [a, b, c, d, e, f, g, x], _ => rfl

theorem shaBlock_length {n : Nat} (r : ShaRot) (ks h blk : List (BitVec n)) (hh : h.length = 8) : (shaBlock r ks h blk).length = 8 := by
  have rounds : ∀ (ks : List (BitVec n)) (st : List (BitVec n) × List (BitVec n)), st.1.length = 8 →
      (ks.foldl (fun (st : List (BitVec n) × List (BitVec n)) k => (shaRound r k (st.2.headD 0) st.1, st.2.tail ++ [shaNext r st.2])) st).1.length = 8 := by
    intro ks
    induction ks with
    | nil => exact fun _ h => h
    | cons k ks ih => exact fun st h => ih _ (shaRound_length r k _ st.1 h)
  simp only [shaBlock, List.length_map, List.length_zip, hh, rounds ks (h, blk) hh, Nat.min_self]

/-- A SHA-384 digest has 48 bytes. -/
theorem sha384_length (m : List Byte) : (sha384 m).length = 48 := by
  have run : ∀ (bs : List (List Byte)) (h : List (BitVec 64)), h.length = 8 →
      (bs.foldl (fun h b => shaBlock rot512 shaK512 h ((pieces 8 16 b).map (fun w => BitVec.ofNat 64 (beNat w)))) h).length = 8 := by
    intro bs
    induction bs with
    | nil => exact fun _ h => h
    | cons b bs ih => exact fun h hh => ih _ (shaBlock_length _ _ _ _ hh)
  have flat : ∀ l : List (BitVec 64), (l.flatMap (fun w => natBE 8 w.toNat)).length = 8 * l.length := by
    intro l
    induction l with
    | nil => rfl
    | cons a l ih => rw [List.flatMap_cons, List.length_append, ih, natBE, List.length_reverse, natLE_length, List.length_cons]; omega
  simp only [sha384, shaRun, List.length_take, flat]
  rw [run _ _ rfl]
  rfl

theorem natLE_leNat : ∀ bs : List Byte, natLE bs.length (leNat bs) = bs
  | [] => rfl
  | b :: t => by
    have hb := b.isLt
    simp only [List.length_cons, natLE, leNat, List.cons.injEq]
    refine ⟨BitVec.eq_of_toNat_eq (by simp only [BitVec.toNat_ofNat]; omega), ?_⟩
    rw [show (b.toNat + 256 * leNat t) / 256 = leNat t by omega]
    exact natLE_leNat t

theorem leNat_lt : ∀ bs : List Byte, leNat bs < 256 ^ bs.length
  | [] => by decide
  | b :: t => by
    have hb := b.isLt
    have := leNat_lt t
    simp only [leNat, List.length_cons, Nat.pow_succ]
    omega

/-- The scheduler's image in DRAM can have the digest of `sdig`, and another one; its pair is up. -/
theorem witness_PowerAndErrors_image : ∃ (s : State) (img : List Byte), s.sched = 0 ∧ schedCopy s = some img ∧ sha384 img = measBytes s.sdig ∧
    (s.coreAt 8193).run = .idle ∧ ∃ s', schedCopy s' = some img ∧ sha384 img ≠ measBytes s'.sdig := by
  let s0 : State := { w0 with keys := [(0, { loaded := true })] }
  have hk : keyOf s0 0 = some (List.replicate 64 0) := by decide
  have hs (d : BitVec 384) : schedCopy { s0 with sdig := d } = schedCopy s0 := rfl
  have hi : ∃ img, schedCopy s0 = some img := by
    refine ⟨_, by
      simp only [schedCopy, hk, Option.bind_some]
      rw [if_pos (List.all_eq_true.mpr (fun u _ => by simp only [unitOk, show s0.bad = [] from rfl]; rfl))]⟩
  obtain ⟨img, hi⟩ := hi
  have hl := sha384_length img
  have hv : measBytes (BitVec.ofNat 384 (leNat (sha384 img))) = sha384 img := by
    have hlt := leNat_lt (sha384 img)
    have hn := natLE_leNat (sha384 img)
    rw [hl] at hlt hn
    rw [measBytes, BitVec.toNat_ofNat, Nat.mod_eq_of_lt (by rw [show 2 ^ 384 = 256 ^ 48 by decide]; exact hlt), hn]
  have hne (a b : BitVec 384) (h : measBytes a = measBytes b) (ha : a = 0) (hb : b = 1) : False := by
    subst ha hb
    exact absurd h (by decide)
  refine ⟨{ s0 with sdig := BitVec.ofNat 384 (leNat (sha384 img)) }, img, rfl, (hs _).trans hi, hv.symm, rfl, ?_⟩
  by_cases h0 : sha384 img = measBytes 0
  · exact ⟨{ s0 with sdig := 1 }, (hs _).trans hi, fun h1 => hne 0 1 (h0.symm.trans h1) rfl rfl⟩
  · exact ⟨{ s0 with sdig := 0 }, (hs _).trans hi, h0⟩

/-- Key slot 0 as it stands with every word 0. -/
def key0 : List Byte := List.replicate 64 0

/-- Tile 0 of VM 1, whose memory core serves tenant 2, with queue 5 as `d`, a message for it at both ports, and one placed task. -/
def queued (d : QDesc) (bs : List Byte) : State :=
  { stand 4096 0 { alive with root := 2, tlb := [{ ten := 2, lvl := 3, va := 0, leaf := 0x17 }] } with
    rects := [(1, BitVec.ofNat 64 (2 ^ 63 + 64 * 2 ^ 16 + 64 * 2 ^ 24))], queues := [(5, d)], keys := [(0, { loaded := true })]
    qbind := [(5, 5), (1029, 5)], ports := Vector.replicate 2 { port0 with inbox := [(5, .raw bs)] }, tasks := [(3, task0)] }

/-- A descriptor of VM 1 with a ring of four records at VA 0 and `cconn` 5 (spec/25 Table 25.6). -/
def qd0 : QDesc := { w1 := 0x50102, v := true, map := true }

/-- A task record of one column by eight rows (spec/25 Table 25.6a). -/
def trec0 : List Byte := natLE 4 77 ++ [0, 0, 0, 0, 1, 8] ++ List.replicate 246 0

theorem witness_TaskQueues :
    (let s := queued qd0 trec0
     (∀ p, p < 2 → (s.portAt p).inbox[0]? = some (5, .raw trec0) ∧ mget s.qbind (p * 1024 + 5) = some 5) ∧ trec0.length = 256 ∧
     (s.queueAt 5).v = true ∧ qd0.used < 2 ^ qd0.lq ∧ vmTile s 1 = some 0 ∧
     (writeUnits 0 ((pieces 64 256 trec0).zipIdx.map (fun e => (64 * e.2, e.1))) s).2 = true) ∧
    ({ qd0 with tail := 3, head := 0xFFFFFFFF } : QDesc).used = 2 ^ qd0.lq ∧
    (let d : QDesc := { qd0 with tail := 1 }
     let s := queued d []
     d.serves = true ∧ d.pre.length < d.used ∧ vmPlaced s d.vm = true ∧ (ringRec s d 0).2.isSome = true ∧ pairDown s = false ∧
     mget s.tasks 0 = none ∧ trecOk trec0 = true ∧ trecOk (List.replicate 256 0) = false ∧
     submitWaits (queued d trec0) 0 0 5 = false ∧
     (let s2 : State := { s with ports := Vector.replicate 2 { port0 with inbox := [(5, .raw trec0), (5, .raw trec0)] } }
      submitWaits s2 0 1 5 = true ∧ (s2.portAt 0).inbox[1]? = some (5, .raw trec0)) ∧
     ((queued { d with v := false } trec0).queueAt 5).v = false ∧ ((queued { d with pre := [trec0] } []).queueAt 5).pre = [trec0] ∧
     (let t : Task := { task0 with st := .saved, qid := 5, trec := trec0 }
      let r : Returned := ⟨t, saveOf s t⟩
      ({ s with returned := [r] } : State).returned.find? (fun r => r.task.qid == 5 && r.task.trec == trec0) = some r)) ∧
    (let v : Version := { vm := 1, num := 0, va := 0x220000, frames := [0x30000] }
     let s : State := { queued qd0 [] with vers := [v] }
     (s.vers.filter (fun v => v.vm == 1))[0]? = some v ∧ retirable s v = true ∧
     retirable { s with vers := [v, { v with num := 4 }] } { v with num := 4 } = false) := by decide

/-- A key that stands in a map has a value. -/
theorem mget_present {α : Type} (k : Nat) (v : α) : ∀ l : List (Nat × α), (k, v) ∈ l → (mget l k).isSome = true
  | [], h => nomatch h
  | (k', v') :: t, h => by
    simp only [mget]
    split
    · rfl
    · rename_i hne
      exact mget_present k v t ((List.mem_cons.mp h).resolve_left (fun e => hne (congrArg Prod.fst e).symm))

/-- A full dependence table has no free entry. -/
theorem witness_TaskQueues_full : ∀ e, e < 512 → (mget ((List.range 512).map (fun e => (e, task0))) e).isSome = true :=
  fun e h => mget_present e task0 _ (List.mem_map.mpr ⟨e, List.mem_range.mpr h, rfl⟩)

/-- A unit of DRAM with three page-table entries: two pointers to the table itself and a leaf (spec/17 Table 17.2). -/
def table0 : List Byte := natLE 8 1 ++ natLE 8 1 ++ natLE 8 0x10017 ++ List.replicate 40 0

/-- The device with that table at PA 0. -/
def tabled : State := unitWrite (queued qd0 []) key0 0 table0

theorem unitRead_at (s : State) (k : List Byte) (a b : Nat) (h : a / 64 = b / 64) : unitRead s k a = unitRead s k b := by
  simp only [unitRead, h]

theorem tabled_read (a : Nat) (h : a < 64) : unitRead tabled key0 a = table0 := by
  rw [unitRead_at _ _ a 0 (by omega), tabled]
  exact unitRead_unitWrite _ key0 0 table0 (by decide) (by decide)

/-- Entry `l` of the walk for VA 0x22_0000, from a table at PA 0. -/
theorem tabled_pte (l : Nat) (h : 8 * lvlIndex l 0x220000 < 64) : readPte tabled 0 l 0x220000 = .ok (w64 (leNat ((table0.drop (8 * lvlIndex l 0x220000)).take 8))) := by
  have hk : keyOf tabled 0 = some key0 := by decide
  have ho : unitOk tabled (8 * lvlIndex l 0x220000) = true := by simp only [unitOk, show tabled.bad = [] from by decide]; rfl
  simp only [readPte, hk, Nat.zero_add, ho, tabled_read _ h, Nat.mod_eq_of_lt h, Bool.not_true, Bool.false_eq_true, if_false]

/-- One leaf is rewritten where the walk and the key are there. -/
theorem rewrites (s : State) (key : List Byte) (vm va pa a : Nat) (e : Word) (hl : leafEntry s va 4 0 0 = some (3, a, e)) (hk : keyOf s 0 = some key) :
    ∃ s2 old, rewriteLeaves vm 0 [(va, pa)] s = some (s2, old) := by
  simp only [rewriteLeaves, rewriteLeaf, hl, hk, Option.bind_some]
  exact ⟨_, _, rfl⟩

theorem witness_TaskQueues_retire : ∃ s2 old, rewriteLeaves 1 0 [(0x220000, 0x30000)] tabled = some (s2, old) := by
  have hk : keyOf tabled 0 = some key0 := by decide
  have h0 : readPte tabled 0 0 0x220000 = .ok 1 := (tabled_pte 0 (by decide)).trans (congrArg _ (by decide))
  have h1 : readPte tabled 0 1 0x220000 = .ok 1 := (tabled_pte 1 (by decide)).trans (congrArg _ (by decide))
  have h2 : readPte tabled 0 2 0x220000 = .ok 1 := (tabled_pte 2 (by decide)).trans (congrArg _ (by decide))
  have h3 : readPte tabled 0 3 0x220000 = .ok 0x10017 := (tabled_pte 3 (by decide)).trans (congrArg _ (by decide))
  have hl : leafEntry tabled 0x220000 4 0 0 = some (3, 16, 0x10017) := by
    have d1 : pteReason 0 (1 : Word) = 0 ∧ pteReason 1 (1 : Word) = 0 ∧ pteReason 2 (1 : Word) = 0 ∧ pteLeaf (1 : Word) = false ∧ ptePa (1 : Word) = 0 ∧
        pteReason 3 (0x10017 : Word) = 0 ∧ pteLeaf (0x10017 : Word) = true := by decide
    simp only [leafEntry, h0, h1, h2, h3, d1, ne_eq, not_true_eq_false, if_false, if_true, Bool.false_eq_true]
    rfl
  exact rewrites _ _ _ _ _ _ _ hl hk

/-- Unit `u` of a record, encrypted at its address. -/
@[irreducible] def recUnit (lr : List Byte) (u : Nat) : List Byte := xtsEnc key0 u ((lr.drop (64 * u)).take 64)

theorem recUnit_dec (lr : List Byte) (hl : lr.length = 256) (u : Nat) (hu : u < 4) :
    xtsDec key0 u (recUnit lr u) = (lr.drop (64 * u)).take 64 ∧ (recUnit lr u).length = 64 := by
  unfold recUnit
  exact xtsDec_xtsEnc key0 u _ (by decide) (by rw [List.length_take, List.length_drop]; omega)

/-- A memory with the four units of a record from PA 0. -/
@[irreducible] def launchMem (lr : List Byte) : List Host.Cell := wrBs [] dramBase ((List.range 4).flatMap (recUnit lr))

/-- The device with a launchable task at the launch unit, whose launch record stands at PA 0. -/
def launching (lr : List Byte) : State :=
  { queued qd0 [] with
    tasks := [(3, { task0 with st := .admitted })], launchQ := [3], buckets := [(1, { level := 1, depth := 1 })]
    mem := launchMem lr }

theorem rdBs_part (m : List Host.Cell) (a : Nat) (bs : List Byte) (o n : Nat) (h : o + n ≤ bs.length) :
    rdBs (wrBs m a bs) (a + o) n = (bs.drop o).take n := by
  refine List.ext_getElem (by simp [rdBs_length]; omega) (fun k h1 h2 => ?_)
  rw [rdBs_length] at h1
  have := rdBs_getD (wrBs m a bs) n (a + o) k h1
  rw [rdB_wrBs, if_pos (by omega), show a + o + k - a = o + k by omega] at this
  have hk : k < (rdBs (wrBs m a bs) (a + o) n).length := by rw [rdBs_length]; exact h1
  rw [List.getD_eq_getElem?_getD, List.getElem?_eq_getElem hk, List.getD_eq_getElem?_getD, List.getElem?_eq_getElem (by omega)] at this
  simpa using this

/-- Four blocks of 64 in a row, read back one by one. -/
theorem quarter (e : Nat → List Byte) (h : ∀ u, u < 4 → (e u).length = 64) (u : Nat) (hu : u < 4) :
    (((List.range 4).flatMap e).drop (64 * u)).take 64 = e u := by
  have h0 := h 0 (by decide)
  have h1 := h 1 (by decide)
  have h2 := h 2 (by decide)
  have h3 := h 3 (by decide)
  simp only [List.range_succ, List.range_zero, List.nil_append, List.flatMap_append, List.flatMap_cons, List.flatMap_nil, List.append_nil]
  match u, hu with
  | 0, _ => simp [h0]
  | 1, _ => simp [h0, h1]
  | 2, _ => simp [List.drop_append, List.take_append, h0, h1, h2]
  | 3, _ =>
    have d (l : List Byte) (n : Nat) (h : l.length = 64) : l.drop (n + 64) = [] := List.drop_eq_nil_of_le (by omega)
    simp [List.drop_append, h0, h1, h2, d _ 128 h0, d _ 64 h1, List.take_of_length_le (Nat.le_of_eq h3)]

/-- The launch record's four units read as its bytes. -/
theorem launching_read (lr : List Byte) (hl : lr.length = 256) (s : State) (hm : s.mem = launchMem lr) (u : Nat) (hu : u < 4) :
    unitRead s key0 (64 * u) = (lr.drop (64 * u)).take 64 := by
  have len (u : Nat) (hu : u < 4) := (recUnit_dec lr hl u hu).2
  have hp := rdBs_part [] dramBase ((List.range 4).flatMap (recUnit lr)) (64 * u) 64 (by
    simp only [List.range_succ, List.range_zero, List.nil_append, List.flatMap_append, List.flatMap_cons, List.flatMap_nil, List.append_nil,
      List.length_append, len 0 (by decide), len 1 (by decide), len 2 (by decide), len 3 (by decide)]; omega)
  have hq : rdBs s.mem (dramBase + 64 * u / 64 * 64) 64 = recUnit lr u := by
    rw [hm, show 64 * u / 64 * 64 = 64 * u by omega, launchMem]
    exact hp.trans (quarter _ len u hu)
  unfold unitRead
  rw [hq, show 64 * u / 64 = u by omega, (recUnit_dec lr hl u hu).1]

/-- A translation that hits the TLB. -/
theorem tlb_hit (s : State) (tile : Nat) (n : Need) (va : Nat) (e : TlbE)
    (h : (s.coreAt (mcOf tile)).tlb.find? (fun e => e.ten == tenantOf s tile && e.va == vaTag e.lvl va) = some e) (hr : leafReason s n e.leaf = 0) :
    Machine.translate s tile n va = (s, .ok ((overlayOf s tile va).getD (ptePa e.leaf + va % 2 ^ lvlShift e.lvl), pteKey e.leaf)) := by
  simp [Machine.translate, leafOf, h, hr, Except.map]

/-- A record of zeros keeps the limits of R419, and loads no images. -/
theorem zeros_load : ∀ (is : List Nat) (s : State), ∃ s4, loadImages 0 0 0 0 is s = some s4 := by
  intro is
  induction is with
  | nil => intro s; exact ⟨s, rfl⟩
  | cons i is ih => intro s; exact ih _

/-- A launch record, and one whose slice image of one unit stands at VA 0x8000 (spec/25 Table 25.8). -/
def lrec0 : List Byte := List.replicate 256 0
def lrec1 : List Byte := natLE 8 0x8000 ++ natLE 4 64 ++ List.replicate 244 0

/-- An image that cannot be read. -/
theorem loadImages_none (a n i : Nat) (is : List Nat) (s : State) (h : (dramBytes s i a n).2 = none) : loadImages a n 0 0 (i :: is) s = none := by
  rw [loadImages]
  revert h
  generalize dramBytes s i a n = r
  obtain ⟨t, b⟩ := r
  rintro rfl
  rfl

/-- Where the launch of task 3 at the device's origin reads its record. -/
def launched (s : State) : State :=
  let t := { task0 with st := .admitted }
  let t1 := { t with st := .placed, x0 := 0, y0 := 0, placedAt := s.cyc, overlays := (versionsOf s t).flatMap Version.pages }
  let s0 := { s with launchQ := s.launchQ.filter (· != 3), holds := s.holds.filter (fun h => h.1 != 3) }
  t1.rect.cores.foldl (fun s i => s.modCore (mcOf i) (fun k => { k with overlays := t1.overlays })) { s0 with tasks := mset s0.tasks 3 t1 }

theorem launched_record (lr : List Byte) (hl : lr.length = 256) (s : State) (hm : s.mem = launchMem lr) (hk : keyOf s 0 = some key0)
    (ht : (s.coreAt (mcOf 0)).tlb = [⟨2, 3, 0, 0x17⟩] ∧ tenantOf s 0 = 2 ∧ leafReason s ⟨true, false⟩ 0x17 = 0)
    (ho : ∀ u, u < 4 → overlayOf s 0 (64 * u) = none ∧ unitOk s (64 * u) = true) : dramBytes s 0 0 256 = (s, some lr) := by
  have tr (u : Nat) (hu : u < 4) : translate s 0 ⟨true, false⟩ (64 * u) = (s, .ok (64 * u, 0)) := by
    have e : ∀ u, u < 4 → (([⟨2, 3, 0, 0x17⟩] : List TlbE).find? (fun e => e.ten == 2 && e.va == vaTag e.lvl (64 * u)) = some ⟨2, 3, 0, 0x17⟩ ∧
        ptePa 0x17 + 64 * u % 2 ^ lvlShift 3 = 64 * u) := by decide
    rw [tlb_hit s 0 _ _ ⟨2, 3, 0, 0x17⟩ (by rw [ht.1, ht.2.1]; exact (e u hu).1) ht.2.2, (ho u hu).1, Option.getD_none, (e u hu).2]
    rfl
  have hz (u : Nat) (hu : u < 4) := launching_read lr hl s hm u hu
  have ok (u : Nat) (hu : u < 4) := (ho u hu).2
  have hv : unitVas 0 256 = [64 * 0, 64 * 1, 64 * 2, 64 * 3] := by decide
  have cut : (lr.drop (64 * 0)).take 64 ++ ((lr.drop (64 * 1)).take 64 ++ ((lr.drop (64 * 2)).take 64 ++ ((lr.drop (64 * 3)).take 64 ++ []))) = lr := by
    have h (n : Nat) : (lr.drop n).take 64 ++ lr.drop (n + 64) = lr.drop n := by rw [← List.drop_drop, List.take_append_drop]
    rw [List.append_nil, List.take_of_length_le (l := lr.drop (64 * 3)) (by rw [List.length_drop]; omega)]
    exact (congrArg _ ((congrArg _ (h 128)).trans (h 64))).trans (h 0)
  simp only [dramBytes, Nat.zero_mod, hv, readUnits, tr 0 (by decide), tr 1 (by decide), tr 2 (by decide), tr 3 (by decide), hk,
    ok 0 (by decide), ok 1 (by decide), ok 2 (by decide), ok 3 (by decide), hz 0 (by decide), hz 1 (by decide), hz 2 (by decide), hz 3 (by decide),
    Bool.not_true, Bool.false_eq_true, if_false, Option.map_some, cut, List.drop_zero, List.take_of_length_le (Nat.le_of_eq hl)]

theorem witness_LaunchAndCompletion :
    let t : Task := { task0 with st := .admitted }
    let s := launching lrec0
    let s1 := launched s
    let t2 := { t with st := .placed, x0 := 0, y0 := 0, placedAt := s.cyc, overlays := (versionsOf s t).flatMap Version.pages, mfr := 0, blk := 0 }
    mget s.tasks 3 = some t ∧ (s.launchQ.contains 3 && mayLaunch s t && !pairDown s && mayPlace s 3 t ⟨0, 0, t.w, t.h⟩ && takesHeld s 3 t 0 0 &&
      !outOffered s 3 t) = true ∧
    dramBytes s1 0 t.lrec 256 = (s1, some lrec0) ∧ lrecOk lrec0 = true ∧ recAt lrec0 0xC 4 = 0 ∧
    (∃ s3 ps, patchesOf { s1 with tasks := mset s1.tasks 3 t2 } t2 0 lrec0 = (s3, some ps) ∧ ps = [] ∧
      ((loadImages 0 0 0 0 t2.rect.cores s3).bind (loadParts 0 [])).isSome = true) := by
  intro t s s1 t2
  refine ⟨rfl, by decide, launched_record lrec0 (by decide) s1 rfl (by decide) (by decide) (by decide), by decide, by decide, ⟨_, _, rfl, rfl, ?_⟩⟩
  rw [(zeros_load _ _).choose_spec]
  rfl

/-- An image whose unit cannot be read ends the launch. -/
theorem witness_LaunchAndCompletion_image :
    let t : Task := { task0 with st := .admitted }
    let s : State := { launching lrec1 with bad := [(dramBase + 0x8000) / 8] }
    let s1 := launched s
    let t2 := { t with st := .placed, x0 := 0, y0 := 0, placedAt := s.cyc, overlays := (versionsOf s t).flatMap Version.pages, mfr := 0, blk := 0 }
    (s.launchQ.contains 3 && mayLaunch s t && !pairDown s && mayPlace s 3 t ⟨0, 0, t.w, t.h⟩ && takesHeld s 3 t 0 0 && !outOffered s 3 t) = true ∧
    dramBytes s1 0 t.lrec 256 = (s1, some lrec1) ∧ lrecOk lrec1 = true ∧ recAt lrec1 0 8 = 0x8000 ∧ recAt lrec1 8 4 = 64 ∧
    (∃ s3, patchesOf { s1 with tasks := mset s1.tasks 3 t2 } t2 0 lrec1 = (s3, some []) ∧ loadImages 0x8000 64 0 0 t2.rect.cores s3 = none) := by
  intro t s s1 t2
  refine ⟨by decide, launched_record lrec1 (by decide) s1 rfl (by decide) (by decide) (by decide), by decide, by decide, by decide, ⟨_, rfl, ?_⟩⟩
  rw [show t2.rect.cores = 0 :: t2.rect.cores.tail by decide]
  exact loadImages_none _ _ _ _ _ (by decide)

theorem witness_LaunchAndCompletion_others :
    (let s : State := { launching lrec0 with launchQ := [] }
     (s.launchQ.contains 3 && mayLaunch s { task0 with st := .admitted }) = false) ∧
    lrecOk ([0, 0, 0, 0, 0, 0, 0, 0, 1] ++ List.replicate 247 0) = false ∧
    (dramBytes { launching lrec0 with bad := [dramBase / 8] } 0 0 256).2 = none ∧
    (let s (r : Run) : State := { placedTask .placed alive with cores := (task0.rect.cores ++ task0.rect.cores.map mcOf).map (fun i => (i, { alive with run := r })) }
     endOf (s .running) task0 = none ∧ (endOf (s .halted) task0).map (·.cst) = some 0 ∧ pairDown (s .halted) = false ∧
     task0.rect.cores.all (fun i => decide (((s .halted).coreAt i).run ≠ .quarantined)) = true) ∧
    ({ task0 with report := some (1, 2, 3, 4) } : Task).report = some (1, 2, 3, 4) := by decide

theorem witness_PeriodicControllers :
    (let s : State := { w0 with cyc := 600000, buckets := [(1, { level := 5, depth := 10, fill := 3 })] }
     (s.nTok + 1) * 6000 ≤ s.cyc ∧ (s.nBud + 1) * 6000 ≤ s.cyc ∧ (s.nRat + 1) * 600000 ≤ s.cyc ∧ 1 ∈ knownVms s) ∧ w0.cyc < (w0.nTok + 1) * 6000 ∧
    (let t : Task := { task0 with st := .admitted, eligAt := some 0 }
     let s : State := { placedTask .admitted alive with tasks := [(3, t)], cyc := 1200000 }
     mget s.tasks 3 = some t ∧ (partOf s 1).isSome = true ∧ 0 + 6000 * t.pdl ≤ s.cyc ∧ s.holds = [] ∧
     (holdRegion s ⟨0, 0, 2, 16⟩ t.w t.h).isSome = true) := by decide

/-- VM 1, which is short of releases and has a launchable task, may take columns 4 and 5 from VM 2, which has more than it asks for (spec/25 R422);
which border moves, and when, is free (log entry 112). -/
theorem witness_PeriodicControllers_border :
    let rect (x w : Nat) : Word := BitVec.ofNat 64 (2 ^ 63 + 8 * 2 ^ 24 + w * 2 ^ 16 + x)
    let s : State := { w0 with rects := [(1, rect 0 4), (2, rect 4 4)], tasks := [(3, { task0 with st := .admitted })], ratios := [(1, (0, 1)), (2, (5, 4))] }
    let m : Border := ⟨1, rect 0 6, 2, rect 6 2⟩
    m.ok s = true ∧ m ∉ s.borders ∧ m ∈ ({ s with borders := s.borders ++ [m] } : State).borders := by decide

/-- Control core 0 at level `l` with the scheduler role and one launchable task; `p` is the plug-in call under way. -/
def scheduling (l : BitVec 2) (bank : Bank) (g2 : Word) (p : Option PlugCall) : State :=
  let k : Core := { alive with lvl := l, banks := vput alive.banks l.toNat bank, ctl := { g := regs [(2, g2)] } }
  { stand 8192 0 k with tasks := [(3, { task0 with st := .admitted, eligAt := some 0 })], plug := p }

theorem witness_PeriodicControllers_plugin :
    (let a : Config.PlugAct := ⟨0, 1, 0x1000, 0x2000, 12, 12⟩
     let s := scheduling 1 {} 0 none
     let k := s.coreAt 8192
     a.cc = s.sched ∧ s.plug = none ∧ k.run = .running ∧ k.level = 1 ∧ candidates s a.vm = [3] ∧ a.list.toNat % 8 = 0 ∧ a.code.toNat % 2 = 0 ∧
       guardMatches (guardFor 0x1000 12 1) = true ∧ guardMatches (guardFor 0x2000 12 4) = true ∧
       guardGrants (guardFor 0x1000 12 1) .load 0x1000 16 = true ∧ guardGrants (guardFor 0x2000 12 4) .fetch 0x2000 2 = true) ∧
    (let p : PlugCall := ⟨0, [3]⟩
     let returned := scheduling 1 { cause := 0x11, val := 1 } 0 (some p)
     let other := scheduling 1 { cause := 0x11, val := 1 } 1 (some p)
     ((scheduling 2 {} 0 (some p)).coreAt 8192).level = 2 ∧ (returned.coreAt 8192).level = 1 ∧ (returned.coreAt 8192).bank.cause.toNat = 0x11 ∧
       (returned.coreAt 8192).bank.val = 1 ∧ p.cands[((returned.coreAt 8192).ctl.rd 2).toNat]? = some 3 ∧
       (mget returned.tasks 3).any (launchable returned) = true ∧ p.cands[((other.coreAt 8192).ctl.rd 2).toNat]? = none ∧ other.plug = some p) := by decide

/-- Both ports with the request `m` on management connection 5 in phase `ph`. -/
def attesting (ph : Nat) (m : List Byte) : State :=
  { w0 with ports := Vector.replicate 2 { port0 with inbox := [(5, .raw m)] }, mgmt := [5, 1029], spdm := [(5, { phase := ph }), (1029, { phase := ph })] }

/-- A request: version, code, two parameters, and zeros to 37 bytes. -/
def request (v c p1 p2 : Byte) : List Byte := [v, c, p1, p2] ++ List.replicate 33 0

theorem witness_AttestationRequests :
    (∀ p, p < 2 → ∀ ph ∈ [0, 1, 2, 3], let s := attesting ph (request 0x12 0x84 0 0)
      (s.portAt p).inbox[0]? = some (5, .raw (request 0x12 0x84 0 0)) ∧ s.mgmt.contains (p * 1024 + 5) = true ∧ carries s p 5 = true ∧
        ((mget s.spdm (p * 1024 + 5)).getD {}).phase = ph) ∧
    reqCode (request 0x10 0x84 0 0) = 0x84 ∧ recAt (request 0x10 0x84 0 0) 0 1 = 0x10 ∧ recAt (request 0x12 0xE1 0 0) 0 1 = 0x12 ∧
    (request 0x12 0x83 0 0xFF).length = 37 ∧ reqP1 (request 0x12 0x83 0 0xFF) = 0 ∧ reqP2 (request 0x12 0x83 0 0xFF) = 0xFF ∧
    (let m : List Byte := [0x12, 0xE3, 0, 0, 32, 0, 1, 0] ++ natLE 4 0x80 ++ natLE 4 2 ++ List.replicate 16 0
     m.length = 32 ∧ recAt m 6 1 % 2 = 1 ∧ recAt m 8 4 / 2 ^ 7 % 2 = 1 ∧ recAt m 12 4 / 2 % 2 = 1) ∧
    reqP1 (request 0x12 0x82 0 0) % 16 = 0 ∧ reqP1 (request 0x12 0x82 1 0) % 16 ≠ 0 ∧
    (∀ n, n ∈ [0, 1, 8, 9, 254] → reqP2 (request 0x12 0xE0 0 (BitVec.ofNat 8 n)) = n) ∧
    reqCode (request 0x12 0x85 0 0) ∉ [0x84, 0xE1, 0xE3, 0x81, 0x82, 0x83, 0xE0] ∧
    (let d : Spdm := { phase := 3, signing := some (7, [1]) }
     let s (t : Nat) : State := { attesting 3 (request 0x12 0x84 0 0) with spdm := [(5, d)], cyc := t }
     (s 6).spdm = [(0 * 1024 + 5, d)] ∧ d.signing.isSome = true ∧ (s 6).cyc < 7 ∧ 7 ≤ (s 7).cyc ∧ (s 6).mgmt.contains (0 * 1024 + 5) = true ∧
       carries (s 6) 0 5 = true) := by decide

/-! ## Witnesses: decoding, steps, memory -/

theorem witness_DecodeOfEncode :
    [Instr.add rr, .li 5 (-1), .ldN8 m12, .vadd { a := 1, b := 2 }, .mzero 3, .ldg r12, .crd 1 18, .xreq 3 4].all
      (fun i => i.wf && (toEnc i).isSome && allowed ⟨.worker, false⟩ i) = true ∧
    (Instr.mcwait.wf && (toEnc .mcwait).isSome && allowed ⟨.memory, false⟩ .mcwait) = true := by decide

theorem witness_IllegalInstructions :
    ([0xF801, 0xFC00, 0xF400, 0xF000, 0xF807] : List Half).all (fun p => decide (60 ≤ p.toNat / 1024)) = true ∧
    (0x60A7 : Half).toNat / 1024 < 60 ∧ (0xF000 : Half).toNat / 1024 = 60 ∧ (0xF801 : Half).toNat / 1024 = 62 ∧
    (0xF807 : Half).toNat % 1024 = 7 ∧ (0xF800 : Half).toNat % 1024 = 0 ∧ (0xF806 : Half).toNat % 1024 = 6 := by decide

/-- A word for each of the checks 8 to 12, and one that fails none. -/
theorem witness_IllegalInstructions_checks :
    ([([], 0x03FF, some 8), ([0xFC00], 0x0421, some 9), ([0xF401], 0x0421, some 10), ([], 0x9000, some 11), ([], 0x7400, some 12), ([], 0x60A7, none)] :
      List (List Half × Half × Option Nat)).all (fun c => (Fields.of c.1 c.2.1).failing ⟨.worker, false⟩ == c.2.2) = true := by
  decide +kernel

/-- Worker 0 with the PC at `pc`, bytes `bs` there, uncorrectable words `bad` and guards as `k` has them. -/
def fetching (k : Core) (pc : Nat) (bs : List Byte) (bad : List Nat) : State :=
  { stand 0 0 { k with ctl := { pc := BitVec.ofNat 64 pc } } with mem := wrBs [] pc bs, bad }

theorem witness_IllegalInstructions_fetch :
    (∀ s ∈ [fetching alive 0x3FFF6 [0xFF, 0x03] [], fetching alive 0x40000 [] [], fetching alive 0x3FFFE [0x00, 0xF0] [],
        fetching alive 0x3FFF8 [0x00, 0xF8, 0x00, 0xFC, 0x00, 0xF4, 0x00, 0xF0] [], fetching (fenced alive) 0 [0xA7, 0x60] [], fetching alive 8 [0xA7, 0x60] [1]],
      s.event = none ∧ s.powered = true ∧ runs (s.coreAt 0) 0 = true ∧ (boundaryHere s).isNone = true ∧ (softwareTurn s s.curCore).isNone = true ∧
        s.curCtx = 0 ∧ (s.coreAt 0).ctl.fbuf = [] ∧ (s.coreAt 0).gang = none ∧ (s.coreAt 0).bound = none ∧ (s.coreAt 0).slip = none ∧
        (s.coreAt 0).seqr.toCap = 0 ∧ bit (vget (s.coreAt 0).banks (trapLevel s 0) {}).vec 0 = true) ∧
    decodeBytes ⟨.worker, false⟩ (rdBs (fetching alive 0x3FFF6 [0xFF, 0x03] []).mem 0x3FFF6 10) = .illegal 8 0 0 0x03FF ∧
    (∀ m ∈ [1, 4], ∀ j, j < m → 60 ≤ leNat (rdBs (fetching alive (0x40000 - 2 * m) ([0x00, 0xF8, 0x00, 0xFC, 0x00, 0xF4, 0x00, 0xF0].take (2 * m)) []).mem
      (0x40000 - 2 * m + 2 * j) 2) / 1024) ∧
    guardOk ((fetching (fenced alive) 0 [0xA7, 0x60] []).coreAt 0) .fetch 0 2 = false ∧ badAt [1] (localBase 0 + 8) 2 (fun _ => false) = some 0 ∧
    guardOk ((fetching alive 8 [0xA7, 0x60] [1]).coreAt 0) .fetch 8 2 = true ∧ (fetching alive 8 [] [1]).reported.contains 1 = false := by decide

theorem witness_StepRunsDecoded_others :
    (let s := stand 0 1 (helping [])
     softwareTurn s s.curCore = none ∧ thawed s s.curCore s.curCtx = none ∧ follows s = false ∧ runs (s.coreAt 0) 1 = true ∧ s.curCtx ≠ 0 ∧
       boundaryHere s = none) ∧
    (let s := w0
     softwareTurn s s.curCore = none ∧ thawed s s.curCore s.curCtx = none ∧ follows s = false) ∧
    (let s := stand 0 0 {}
     softwareTurn s s.curCore = none ∧ thawed s s.curCore s.curCtx = none ∧ follows s = false ∧ boundaryHere s = none ∧ runs (s.coreAt 0) 0 = false) ∧
    (softwareTurn (scheduling 1 {} 0 (some ⟨0, [3]⟩)) 8192).isSome = true ∧
    (let l : Lull := { on := .line 0, rd := 3, next := 2, due := some 5 }
     let s := stand 0 0 { alive with ctl := { lull := some l } }
     softwareTurn s s.curCore = none ∧ thawed s s.curCore s.curCtx = some 5) ∧
    acts { fetching alive 0x40000 [] [] with curCtx := 0 } = true := by decide

/-- No context of that core has a load that a freeze held back. -/
theorem witness_StepRunsDecoded_thawed (c : Nat) : thawed (fetching alive 0x40000 [] []) 0 c = none := by
  have h : (((fetching alive 0x40000 [] []).coreAt 0).ctx c).lull = none := by
    unfold Core.ctx
    split
    · rfl
    · simp only [show ((fetching alive 0x40000 [] []).coreAt 0).helpers = Vector.replicate 10 {} from rfl, vget, Vector.getElem_replicate]
      split <;> rfl
  simp only [thawed, h, Option.bind_none]
  split <;> rfl

theorem witness_StepRunsDecoded :
    (∀ pc ∈ [0, 0x3FFF6], let s : State := { stand 0 0 { alive with ctl := { pc := BitVec.ofNat 64 pc } } with mem := wrBs [] pc [0xA7, 0x60] }
      s.event = none ∧ s.powered = true ∧ runs (s.coreAt 0) 0 = true ∧ (boundaryHere s).isNone = true ∧ (s.ctxAt (self s)).fbuf = [] ∧
        pc + 10 ≤ localSize 0 ∧ decodeBytes ⟨.worker, false⟩ (rdBs s.mem (localBase 0 + pc) 10) = .ok (.li 5 7) 1 0 0 0x60A7 ∧
        guardOk (s.coreAt 0) .fetch pc 2 = true ∧ badAt s.bad (localBase 0 + pc) 2 (fun _ => false) = none) ∧
    (boundaryHere (stand 0 0 { alive with quar := some 5 })).isSome = true ∧ State.reset.event = some .powerOn ∧ State.reset.powered = false ∧
    isPowerOn .powerLoss = false := by decide

/-- A step from a state with the canonical form answers a next state. -/
theorem witness_MemoryFormKept : Memory.wf w0.mem = true ∧ (∃ t, step { w0 with powered := false, event := some .powerLoss } = .next t) := by
  exact ⟨by decide, _, rfl⟩


/-! ## Witnesses: further clauses -/

theorem witness_BranchesAndLoops_odd :
    let s := stand 0 0 (having [(1, 0x101), (31, 0x103)])
    opens s (.jr 1) = true ∧ (s.rd (self s) 1).getLsbD 0 = true ∧ opens s .ret = true ∧ (s.rd (self s) 31).getLsbD 0 = true := by decide

/-- Control core 0 at level `l` with g1 = `x`. -/
def controlling (l : BitVec 2) (x : Word) : State := stand 8192 0 { having [(1, x)] with lvl := l }

theorem witness_ControlRegisters_levels :
    [Instr.cwr 1 19, .cwr 1 25, .cwr 1 31, .cwr 1 35, .cwr 1 36, .cwr 1 37, .cwr 1 38].all (ready (controlling 1 0)) = true ∧
    (∀ l ∈ [(0 : BitVec 2), 1], [Instr.cwr 1 13, .cwr 1 17, .cwr 1 56].all (ready (controlling l 0)) = true ∧ ((controlling l 0).coreAt 8192).level ≤ 1 ∧
      ready (controlling l 0x20) (.cwr 1 18) = true ∧ ((0x20 : Word).toNat / 16 % 4) = 2 ∧ opens (controlling l 0x30) (.cwr 1 18) = true ∧
      ((0x30 : Word).toNat / 16 % 4) = 3) ∧
    [Instr.cwr 1 40, .cwr 1 55].all (ready (controlling 0 0)) = true ∧ ((controlling 0 0).coreAt 8192).level = 0 ∧
    [Instr.cwr 1 40, .cwr 1 55].all (opens (controlling 1 0)) = true ∧ ((controlling 1 0).coreAt 8192).level = 1 ∧
    opens (controlling 1 0) (.cwr 1 18) = true ∧ (0 : Nat) < 1 ∧
    [Instr.cwr 1 35, .cwr 1 36, .cwr 1 37, .cwr 1 38].all (ready w0) = true ∧ opens (controlling 2 0) (.cwr 1 56) = true := by decide

/-- A wake latch that is set in slipstream, and a fence that waits for a store of a helper that has ended. -/
theorem witness_WaitsAndHalt_slip :
    (let k : Core := { alive with slip := some slip0, ctl := { latch := true } }
     ready (stand 0 0 k) .wfe = true ∧ k.inSlip 0 = true ∧ ((stand 0 0 k).ctxAt (self w0)).latch = true) ∧
    (let s : State := { stand 0 0 { alive with ctl := { inh := [7] } } with mesh := [{ pkt (.store 1 0x3FFF8 8 7) with id := 7, ctx := 100 }] }
     ready s (.fence .sc .dev) = true ∧ outstanding s 7 = true ∧ 7 ∈ (s.ctxAt (self s)).inh ∧ storesOut s (self s) = [] ∧ loadsOut s (self s) = []) := by decide

theorem witness_FifoInstructions_results :
    [(0, 0), (5, 5)].all (fun (e : Nat × Nat) => ready (stand 0 0 { alive with r0 := [7], r5 := [8] }) (.pop 1 (BitVec.ofNat 4 e.1))) = true ∧
    (let k : Core := { guardian with r3 := [7], guard := some { peer := 1, ring := 0x10000, lring := 12, hs := [], final := some 1 } }
     ready (stand 0 0 k) (.pop 1 3) = true ∧ k.guard.any (fun g => g.final == some (k.lg.seq + 1).toNat) = true ∧
       ready (stand 0 0 { guardian with r3 := [7] }) (.pop 1 3) = true ∧ guardian.guard.any (fun g => g.final == some (guardian.lg.seq + 1).toNat) = false) ∧
    (let e (st : Nat) (nt : Bool) : PElem := ⟨BitVec.ofNat 64 (st * 2 ^ 52), nt⟩
     [e 0 false, e 1 false, e 3 true, e 5 false].all (fun v => ready (stand 0 0 { alive with r4 := [v] }) (.pop 1 4)) = true ∧
     [e 2 false, e 3 false, e 4 false].all (fun v => opens (stand 0 0 { alive with r4 := [v] }) (.pop 1 4) && opens (stand 8192 0 { alive with r4 := [v] }) (.pop 1 4)) = true) ∧
    (let full : List WCmd := List.replicate 4 { val := 7 }
     let s (r : List Word) : State := withMc { alive with q5 := full, r5 := r }
     4 ≤ cmdCount (s []) 0 5 ∧ ready (s []) (.push 1 5) = true ∧ opens (s [1, 2, 3, 4]) (.push 1 5) = true ∧ opens w0 (.push 1 5) = true ∧
       (w0.coreAt (mcOf 0)).run ≠ .running ∧ ((s []).coreAt (mcOf 0)).run = .running) := by decide

theorem witness_FifoInstructions_empty :
    (let m (q : List Word) : State := stand 4096 0 { alive with inq := q }
     kindOf 4096 = .memory ∧ ready (m [7]) (.pop 1 0) = true ∧ ready (m []) (.pop 1 0) = true ∧ ready (m [7]) (.fstat 1 0) = true) ∧
    [Instr.pop 1 0, .pop 1 1, .pop 1 4].all (opens w0) = true ∧ [0, 1, 4].all (fun p => !willProduce w0 0 p && resCount 0 alive p == 0) = true ∧
    (let s := stand 0 0 { alive with q1 := [{ val := 0x400 }] }
     ready s (.pop 1 1) = true ∧ willProduce s 0 1 = true ∧ resCount 0 (s.coreAt 0) 1 = 0) ∧
    [Instr.fstat 1 0, .fstat 1 5].all (ready w0) = true ∧ [Instr.fstat 1 2, .fstat 1 4].all (ready (stand 8192 0 alive)) = true := by decide

theorem witness_EventUnits_forward :
    ([0x80000003, 0xC0410003].all (fun b => let s := inCluster 0x500FC { bind := Vector.replicate 32 b }
      (vget (s.clusterAt 0).bind 31 0).getLsbD 31 && decide (lulledOn s 0 (.line 31) = none) && fireReady s (self s))) = true ∧
    winOk (inCluster 0x500FC { bind := Vector.replicate 32 0xC0410003 }) (.fireWordStore m12) m12 .store 4 = true ∧
    (0x80000003 : BitVec 32).toNat / 2 ^ 30 % 2 = 0 ∧ (0xC0410003 : BitVec 32).toNat / 2 ^ 30 % 2 = 1 := by decide +kernel

theorem witness_EventUnits_forward_waiter :
    let s : State := { stand 0 0 lulled with clusters := [(0, { bind := Vector.replicate 32 0xC0410003 })] }
    (vget (s.clusterAt 0).bind 31 0).getLsbD 31 = true ∧ lulledOn s 0 (.line 31) = some (0, 0) ∧ frozen (s.coreAt 0) 0 = false ∧
      ((s.coreAt 0).ctx 0).lull = some { on := .line 31, rd := 1, next := 4 } ∧ (s.coreAt 0).bound = none := by decide +kernel

theorem witness_EventUnits_masks :
    (let s := inCluster 0x5038C { bars := Vector.replicate 4 { mask := 3, arr := 1 } }
     winOk s (.maskWordStore m12) m12 .store 4 = true ∧ (vget (s.clusterAt 0).bars 3 {}).arr ≠ 0) ∧
    winOk (tenant 0x5017C) (.bindWordStore m12) m12 .store 4 = true := by decide +kernel

/-- Both members of a gang of two, whose leader's g1 is `x`. -/
def ganged (x : Word) : State :=
  let k : Core := { having [(1, x), (31, 0x200)] with gang := some (0, 2) }
  pair k k

theorem witness_Gangs_members :
    (∀ i ∈ [Instr.add rr, .start 1 0, .gang 2, .beqz 1 4, .bnez 1 4, .bltz 1 4, .bgez 1 4, .b 4, .call 4, .jr 1, .ret, .loop 1 4, .split],
      ∀ x ∈ [(0 : Word), 0x8000000000000000], gangReady (ganged x) 0 2 i) ∧
    (∀ r, r < 2 → ((ganged 0).coreAt (64 * r)).slip = none ∧ ((ganged 0).coreAt (64 * r)).quar = none ∧
      ((ganged 0).coreAt (64 * r)).helpers.toList.any (·.live) = false) ∧
    (ganged 0).rd ⟨0, 0, 0⟩ 1 = 0 ∧ ((ganged 0x8000000000000000).rd ⟨0, 0, 0⟩ 1).toInt < 0 ∧ ((ganged 0).rd ⟨0, 0, 0⟩ 31).getLsbD 0 = false ∧
    ((ganged 0).coreAt 0).gang = some (0, 2) ∧ ({ ganged 0 with curCore := 64 } : State).curCore ≠ 0 := by
  refine ⟨?_, by decide, by decide, by decide, by decide, by decide, by decide⟩
  simp only [List.forall_mem_cons, List.not_mem_nil, false_implies, implies_true, and_true]
  refine ⟨?_, ?_, ?_, ?_, ?_, ?_, ?_, ?_, ?_, ?_, ?_, ?_, ?_⟩ <;> constructor <;> (unfold gangReady; decide)

/-- The release of a group comes as the first event of a cycle. -/
theorem witness_SyncReleases_group :
    let s : State := { arrivedAt 6 16 with newCyc := true }
    s.newCyc = true ∧ s.rounds.filter (fun e => e.1 / 2 ^ 32 == 6 && e.2.first.isSome) = [(roundKey 6 ⟨0, 0, 1, 1⟩, { first := some 10, last := 10 })] ∧
      missing s ⟨0, 0, 1, 1⟩ 6 = [] ∧ domHalted s ⟨0, 0, 1, 1⟩ = false ∧ s.migRep = [] ∧ s.holds = [] ∧ s.moving = [] := by decide

/-- The tenant's own slice is the home; a packet of its context is on its way. -/
def homing (a : Word) (k : PKind) : State := { tenant a with mesh := [pkt k] }

theorem witness_RemoteAccess_own :
    (let s := homing 0x10003FFF8 (.store 0 0x3FFF8 8 7)
     home s 0 0x10003FFF8 = some (0, 0x3FFF8) ∧ ownClear s (self s) 0x3FFF8 8 true = false ∧ ownClear s (self s) 0x3FFF8 8 false = false ∧
       [Instr.ldg r12, .stg r12, .stg { r12 with ord := some .dev }].all (ready s) = true ∧ storesDone s (self s) = false) ∧
    (let s := homing 0x10003FFF8 (.load 4 1 0 8)
     ready s (.stg { r12 with ord := some .dev }) = true ∧ storesDone s (self s) = true ∧ loadsBefore s (self s) = [0] ∧
       ownClear s (self s) 0x3FFF8 8 false = true) ∧
    (let s := homing 0x100040000 (.load 4 2 0 8)
     ready s (.stg { r12 with ord := some .dev }) = true ∧ home s 0 0x100040000 = some (1, 0) ∧ storesDone s (self s) = true ∧ loadsBefore s (self s) = [0]) ∧
    (let s := tenant 0x10003FFF8
     ownClear s (self s) 0x3FFF8 8 true = true ∧ ownClear s (self s) 0x3FFF8 8 false = true ∧ storesDone s (self s) = true ∧ loadsBefore s (self s) = []) := by
  decide

theorem witness_Atomics_own :
    let o : At := ⟨1, 2, 3, false, .ar, .dev⟩
    let s := tenant 0x10003FFF8
    (atoms o).all (ready s) = true ∧ home s 0 0x10003FFF8 = some (0, 0x3FFF8) ∧ guardOk (s.coreAt 0) .atomic 0x10003FFF8 8 = true ∧ allDone s (self s) = true ∧
      ownClear s (self s) 0x3FFF8 8 false = true ∧
    (let t := homing 0x10003FFF8 (.load 4 0 0x3FFF8 8)
     ownClear t (self t) 0x3FFF8 8 false = false ∧ (atoms { o with ord := .none }).all (ready t) = true) := by decide

theorem witness_CopyProgress_held :
    (let s (ks : List (Nat × Core)) : State := { w0 with cores := ks, copies := [{ id := 4, core := 0, cmd := copyCmd0, acks := [1] }] }
     (s []).copies.all (fun d => !ackHeld (s []) d.core 1) = true ∧
     (let k : Core := { member 1 with exch := some phase0 }
      (s [(0, k)]).copies.all (fun d => ackHeld (s [(0, k)]) d.core 1) = true)) ∧
    (let s := stand 0 0 { alive with q2 := [copyCmd0] }
     (movesWithMasks copyCmd0).all (fun m => (m.src.elim [] (fun b => bytesOf b m.w) ++ bytesOf m.dst m.w).all (fun a =>
       !isDramVa a || !walkHeld s 0 (a % 2 ^ 48 / 65536 * 65536))) = true) := by decide +kernel

/-- Memory core 0 with an empty TLB, whose root is behind the channel of tile 1, and worker 1 in an exchange phase. -/
def walking (l : List (Nat × Word)) (m : List Host.Cell) : State :=
  { memCore l m with
    cores := [(4096, { having l with root := 0x4000000 }), (1, { member 1 with exch := some phase0, dm := Vector.replicate 5 0x01010001 })] }

theorem witness_MemoryCoreInstructions_held :
    (let s := walking [(1, 0), (2, 0x1000000000000), (3, 64)] []
     [Instr.mcld 1 2 3, .mcst 1 2 3].all (ready s) = true ∧ dramIn 0x1000000000000 64 = true ∧ (pagesOf 0 64).any (walkHeld s 0) = true) ∧
    (let s := walking [(1, 0), (2, 0x100), (3, 0)] tabMem
     ready s (.mcgath 1 2 3 true) = true ∧ (match gathTab s 4096 0x100 0 with
       | .ok t => t.token s 4096 0 == some 0x1000000000000 && decide (gathCheck s 4096 0 0x100 (64 + 4) 64 [t.token s 4096 0] = none)
       | .error _ => false) = true ∧ (pagesOf 0 64).any (walkHeld s 0) = true) := by decide +kernel

theorem witness_TransfersAndCommands_masks :
    let s (d : XSide) (ks : List (Nat × Core)) : State :=
      { stand 4096 0 alive with cores := (4096, { alive with xfers := [{ id := 0, moves := [], masks := [(d, [1, 0, 0, 0, 3, 0, 0, 0])] }] }) :: ks }
    (∀ d ∈ [XSide.buf 8, .glob 0x40000], ((s d []).coreAt 4096).xfers = [{ id := 0, moves := [], masks := [(d, [1, 0, 0, 0, 3, 0, 0, 0])] }] ∧
      sideHeld (s d []) 4096 d = false) ∧
    sideHeld (s (.glob 0x40000) [(1, { member 1 with exch := some phase0 })]) 4096 (.glob 0x40000) = true := by decide

theorem witness_Transforms_delta :
    let bs := xBlock 0 0x1000 0x2000 1 1 6
    let r := parseX (rdBs (asking bs).mem (localBase 0 + 0x400) 64)
    r.fn = 1 ∧ r.form = true ∧ r.outside = none ∧ r.dst + (r.len + 31) / 32 * 4 ≤ r.aux ∧ r.src + r.len * 2 ^ r.par ≤ r.aux := by decide

/-- The first command of a launch on a group, a message with a connection, and a group number out of range. -/
theorem witness_PortCommands_rounds :
    let c : PCmd := { blk := pBlock 1 0x10 3 0 0x3FFFC 1 0, tag := 7 }
    let s := posting c port0
    c.form = true ∧ c.coll = true ∧ c.op = 1 ∧ c.srcA + c.len * c.esz ≤ 0x40000 ∧ c.dstA + c.len * c.esz ≤ 0x40000 ∧
    (∀ p, p < 2 → (s.portAt p).started 3 ((taskOf s 0).map (fun e => (e.2.vm, e.2.num))) = 0 ∧ runningOn s p c.gid = none) := by decide

theorem witness_CollectiveRounds_order :
    (let s := reducing 0 [(5, .creset 3 1 0), (5, .chunk 3 1 0 (List.replicate 8 0)), (6, .chunk 3 1 0 [0]), (5, .creset 3 1 1)]
     [1, 3].all (fun j => !collFirst (s.portAt 0) j 5) = true ∧ collFirst (s.portAt 0) 0 5 = true ∧ collFirst (s.portAt 0) 2 6 = true ∧
       (s.portAt 0).inbox[1]? = some (5, .chunk 3 1 0 (List.replicate 8 0)) ∧ (s.portAt 0).inbox[3]? = some (5, .creset 3 1 1) ∧
       runningOn s 0 3 = some (reduce0 0)) ∧
    (let s : State := { w0 with ports := Vector.replicate 2 { port0 with inbox := [(5, .chunk 3 2 0 [0])], rounds := [(3, none, 1)] } }
     runningOn s 0 3 = none ∧ roundOf s 0 3 = 1 ∧ collFirst (s.portAt 0) 0 5 = true) := by decide

theorem witness_PeerAccesses_others :
    let m := Msg.ld 0x10003FFF8 8 1
    let s (m : Msg) (b : List (Nat × Word)) (c : Conn) : State :=
      { tenant 0 with ports := Vector.replicate 2 { port0 with inbox := [(5, m), (5, m)], conns := [(5, c)] }, cbind := b }
    let live : Conn := { st := .opened, peer := 9, mss := 1024 }
    let at_ (v : Nat) : List (Nat × Word) := [(1029, BitVec.ofNat 64 v)]
    peerFirst ((s m [] live).portAt 1) 1 5 = false ∧ peerFirst ((s m [] live).portAt 1) 0 5 = true ∧ carries (s m [] { live with st := .failed }) 1 5 = false ∧
    carries (s m [] live) 1 5 = true ∧ bit (BitVec.ofNat 64 1 : Word) 63 = false ∧ mget (s m (at_ 1) live).cbind 1029 = some (BitVec.ofNat 64 1) ∧
    homeVm (s m (at_ (2 ^ 63 + 2)) live) 2 0x3FFF8 = none ∧ (Msg.ld 0xFFFFFFFF 1 1).access = some (0xFFFFFFFF, 1, 1) ∧
    (Msg.ld 0x140000000 1 1).access = some (0x140000000, 1, 1) ∧
    heldAtEdge { s m (at_ (2 ^ 63 + 1)) live with cores := [(0, { member 1 with exch := some phase0 })] } peerAgent 0 = true ∧
    badAt [0x7FFF] (localBase 0 + 0x3FFF8) 8 (fun _ => false) = some 0 := by decide

theorem witness_PreemptionKeepsContexts_division :
    (let k := dividing
     k.div.any (fun d => d.c == 0 && decide (5 < d.at_ + 20)) = true ∧ k.slip = none ∧ alive.div = none) ∧
    ((placedTask .placed alive).coreAt 0).div = none := by decide

theorem witness_TaskQueues_pool :
    (mget ({ w0 with pools := [(1, { w0 := 4 })] } : State).pools 1).any (fun p => decide (p.n ≠ 0)) = true := by decide

theorem witness_PeriodicControllers_free :
    (let t : Task := { task0 with st := .admitted, eligAt := some 0 }
     let s : State := { w0 with tasks := [(3, t)], rects := [(1, BitVec.ofNat 64 (2 ^ 63 + 64 * 2 ^ 16 + 64 * 2 ^ 24))], cyc := 1200000 }
     (partOf s 1).isSome = true ∧ 6000 * t.pdl ≤ s.cyc ∧ s.holds = [] ∧ (holdRegion s ⟨0, 0, 64, 64⟩ t.w t.h).isSome = true ∧
       s.tasks.all (fun e => !e.2.placed) = true) ∧
    candidates { w0 with sched := 0 } 1 = [] ∧
    (let p : PlugCall := ⟨0, [9]⟩
     let s := scheduling 1 {} 0 (some p)
     (s.coreAt 8192).level ≠ 2 ∧ s.plug = some p ∧ mget s.tasks 9 = none) := by decide

/-- A guard refuses an instruction: whatever else its words hold, and where an uncorrectable one stands among them. -/
theorem witness_IllegalInstructions_guard :
    (let s := fetching (fenced alive) 0 [0xA2, 0x06] []
     decodeBytes ⟨.worker, false⟩ (rdBs s.mem 0 10) = .ok (.add ⟨21, 2, none⟩) 1 0 0 0x06A2 ∧ guardOk (s.coreAt 0) .fetch 0 2 = false ∧
       badAt s.bad 0 2 (fun _ => false) = none ∧ unheld { s with cur := ⟨1, 0, 0, 0x06A2, none⟩ } (self s) (.add ⟨21, 2, none⟩) = true) ∧
    (let s := fetching (fenced alive) 0 [0xA2, 0x06] [0]
     guardOk (s.coreAt 0) .fetch 0 2 = false ∧ badAt s.bad 0 2 (fun _ => false) = some 0) := by decide

theorem witness_StepRunsDecoded_quiet : w0.sysOut = [] ∧ (asked0 []).sysOut ≠ [] := by decide

end Sys2Proof.Tests
end

section
/-!
PROOFS. Lanes of a vector register, what the vector instructions on registers give (spec/13 R219 to R237, R244), and the statements settled from them.
-/
namespace Sys2Proof.Machine

/-! ## Lanes of a register -/

/-- The number that `ofLanes` puts in a register: `n` fields of `wd` bits. -/
def packLanes (wd n : Nat) (f : Nat → Nat) : Nat := (List.range n).foldl (fun a l => a + f l % 2 ^ wd * 2 ^ (wd * l)) 0

theorem packLanes_succ (wd n : Nat) (f : Nat → Nat) :
    packLanes wd (n + 1) f = packLanes wd n f + f n % 2 ^ wd * 2 ^ (wd * n) := by
  simp [packLanes, List.range_succ]

theorem packLanes_lt (wd n : Nat) (f : Nat → Nat) : packLanes wd n f < 2 ^ (wd * n) := by
  induction n with
  | zero => simp [packLanes]
  | succ n ih =>
    have hd : f n % 2 ^ wd + 1 ≤ 2 ^ wd := Nat.mod_lt _ (Nat.two_pow_pos wd)
    calc packLanes wd (n + 1) f < (f n % 2 ^ wd + 1) * 2 ^ (wd * n) := by rw [packLanes_succ, Nat.succ_mul]; omega
      _ ≤ 2 ^ wd * 2 ^ (wd * n) := Nat.mul_le_mul_right _ hd
      _ = 2 ^ (wd * (n + 1)) := by rw [← Nat.pow_add, Nat.mul_succ, Nat.add_comm]

theorem packLanes_lt_of_le {wd n b : Nat} (f : Nat → Nat) (h : n * wd ≤ b) : packLanes wd n f < 2 ^ b :=
  Nat.lt_of_lt_of_le (packLanes_lt ..) (Nat.pow_le_pow_right (by decide) (by rwa [Nat.mul_comm]))

/-- A field is what was put there: the fields below it are less than its place, those above it a multiple of its end. -/
theorem packLanes_field {wd n l : Nat} (f : Nat → Nat) (hl : l < n) :
    packLanes wd n f / 2 ^ (wd * l) % 2 ^ wd = f l % 2 ^ wd := by
  induction n with
  | zero => omega
  | succ n ih =>
    rw [packLanes_succ]
    obtain rfl | hn : l = n ∨ l < n := by omega
    · rw [Nat.add_mul_div_right _ _ (Nat.two_pow_pos _), Nat.div_eq_of_lt (packLanes_lt ..), Nat.zero_add, Nat.mod_mod]
    · obtain ⟨d, rfl⟩ : ∃ d, n = l + 1 + d := ⟨n - (l + 1), by omega⟩
      have hp : 2 ^ (wd * (l + 1 + d)) = 2 ^ (wd * l) * (2 ^ wd * 2 ^ (wd * d)) := by
        rw [← Nat.pow_add, ← Nat.pow_add, Nat.mul_add, Nat.mul_succ, Nat.add_assoc]
      rw [hp, Nat.mul_left_comm, Nat.add_mul_div_left _ _ (Nat.two_pow_pos _), Nat.mul_left_comm, Nat.add_mul_mod_self_left, ih hn]

theorem toNat_ofLanes {wd n : Nat} (f : Nat → Nat) (h : n * wd ≤ 512) : (ofLanes wd n f).toNat = packLanes wd n f :=
  (BitVec.toNat_ofNat ..).trans (Nat.mod_eq_of_lt (packLanes_lt_of_le f h))

theorem lane_ofLanes {wd n l : Nat} (f : Nat → Nat) (h : n * wd ≤ 512) (hl : l < n) : lane (ofLanes wd n f) wd l = f l % 2 ^ wd := by
  rw [lane, toNat_ofLanes f h, packLanes_field f hl]

theorem getLsbD_ofLanes_above {wd n b : Nat} (f : Nat → Nat) (h : n * wd ≤ 512) (hb : n * wd ≤ b) :
    (ofLanes wd n f).getLsbD b = false := by
  rw [BitVec.getLsbD, toNat_ofLanes f h]
  exact Nat.testBit_lt_two_pow (packLanes_lt_of_le f hb)

theorem lane_lt (v : VWord) (wd l : Nat) : lane v wd l < 2 ^ wd := Nat.mod_lt _ (Nat.two_pow_pos wd)

theorem lane_setLanes {wd n l : Nat} (old : VWord) (m : Nat → Bool) (f : Nat → Nat) (h : n * wd ≤ 512) (hl : l < n) :
    lane (setLanes old wd n m f) wd l = if m l then f l % 2 ^ wd else lane old wd l := by
  rw [setLanes, lane_ofLanes _ h hl]
  split
  · rfl
  · exact Nat.mod_eq_of_lt (lane_lt ..)

/-- The lanes of every type lie in a register (spec/11 Table 11.1). -/
theorem laneN_mul_laneW_le (t : ETy) : laneN t * laneW t ≤ 512 := by cases t <;> decide

theorem laneW_int {t : ETy} {n : Nat} {sg : Bool} (h : fmtOf t = .int n sg) : laneW t = n := by rw [laneW, h]; rfl

/-- A floating-point format is no integer format. -/
theorem not_int_of_isFloat {f : NFmt} (h : f.isFloat = true) (n : Nat) (sg : Bool) : f ≠ .int n sg := by
  rintro rfl; cases h

/-! ## Operands in the control context: no stagger outside a `vrep` body (R221) -/

/-- Where an instruction with operands `o` runs at the context whose turn it is. -/
def ownArg (o : VOp) (s : State) : VArg := varg (self s) o.b (o.c.getD 0) s

@[simp] theorem stag_zero (r : Reg) (st : Bool) : stag r st 0 = r := by cases st <;> simp [stag]

@[simp] theorem ra_ownArg (o : VOp) (s : State) : o.ra (ownArg o s) = o.a := stag_zero ..
@[simp] theorem rb_ownArg (o : VOp) (s : State) : o.rb (ownArg o s) = o.b := stag_zero ..
@[simp] theorem rc_ownArg (o : VOp) (s : State) : o.rc (ownArg o s) = o.c.getD 0 := stag_zero ..
@[simp] theorem rx_ownArg (o : VOp) (s : State) : o.rx (ownArg o s) = if o.c.isSome then o.b else o.a := by simp [VOp.rx]
@[simp] theorem ry_ownArg (o : VOp) (s : State) : o.ry (ownArg o s) = o.c.getD o.b := by cases h : o.c <;> simp [VOp.ry, h]
@[simp] theorem w_ownArg (o : VOp) (s : State) : (ownArg o s).w = self s := rfl
@[simp] theorem gb_ownArg (o : VOp) (s : State) : (ownArg o s).gb = s.rd (self s) o.b := rfl
@[simp] theorem gc_ownArg (o : VOp) (s : State) : (ownArg o s).gc = s.rd (self s) (o.c.getD 0) := rfl

/-- Lane `l` of register `r`, of x and of y, of the type of `o` (R219). -/
def regLane (s : State) (o : VOp) (r : Reg) (l : Nat) : Nat := lane (s.vr (self s) r) (laneW o.ty) l
def xLane (s : State) (o : VOp) : Nat → Nat := regLane s o (if o.c.isSome then o.b else o.a)
def yLane (s : State) (o : VOp) : Nat → Nat := regLane s o (o.c.getD o.b)

/-! ## What an instruction gives -/

@[simp] theorem fall_setV (s : State) (w : Who) (r : Reg) (v : VWord) : (s.setV w r v).fall w = s.fall w := by
  have hcore : (s.setV w r v).coreAt w.i = { s.coreAt w.i with v := vput (s.coreAt w.i).v r.toNat v } := coreAt_modCore_same ..
  unfold State.fall State.pcOf State.ctxAt
  rw [hcore]; rfl

/-- A body that answers a next state at the context whose turn it is lets its instruction go on there. -/
theorem vExec_ok {s s1 : State} {o : VOp} {body : VBody} (hb : body (ownArg o s) s = .ok s1) : vExec o body (self s) s = .go s1 := by
  change Res.ofTry s .go (body (ownArg o s) s) = _
  rw [hb]; rfl

theorem givesState_of_body {s s1 : State} {i : Instr} {o : VOp} {body : VBody} (he : exec i s = issue i (vExec o body) s)
    (hb : body (ownArg o s) s = .ok s1) (hf : s1.fall (self s) = s.fall (self s)) : givesState s i s1 :=
  givesState_of_op he (vExec_ok hb) hf

/-- An instruction whose body sets lanes of register a. -/
theorem givesLanes_of_setLanes {s : State} {i : Instr} {o : VOp} {body : VBody} {t : ETy} {m : Nat → Bool} {f : Nat → Nat}
    (he : exec i s = issue i (vExec o body) s)
    (hb : body (ownArg o s) s = .ok (s.setV (self s) o.a (setLanes (s.vr (self s) o.a) (laneW t) (laneN t) m f))) :
    givesLanes s i s o.a t m f :=
  ⟨_, givesState_of_body he hb (fall_setV ..), fun _ hl => lane_setLanes _ m f (laneN_mul_laneW_le t) hl,
    fun _ hb => getLsbD_ofLanes_above _ (laneN_mul_laneW_le t) hb⟩

/-- Lanes of type `t` that the mask of `o` selects. -/
def ownMask (s : State) (o : VOp) (t : ETy) : Nat → Bool := maskBit ((s.coreAt (self s).i).kr o.k) (laneN t)

/-- An instruction whose body writes lanes of type `t` under its mask. -/
theorem givesLanes_of_vWrite {s : State} {i : Instr} {o : VOp} {body : VBody} {t : ETy} {f g : Nat → Nat}
    (he : exec i s = issue i (vExec o body) s) (hb : body (ownArg o s) s = .ok (vWrite o (ownArg o s) t f s)) (hg : ∀ l, f l = g l) :
    givesLanes s i s o.a t (ownMask s o t) g := by
  obtain rfl : f = g := funext hg
  exact givesLanes_of_setLanes he (by rw [hb, vWrite, ra_ownArg, w_ownArg]; rfl)

/-- An elementwise instruction of two operands. -/
theorem givesLanes_binary {s : State} {i : Instr} {o : VOp} {body : VBody} {f : Nat → Nat → Nat → Nat} {g : Nat → Nat}
    (he : exec i s = issue i (vExec o body) s) (hb : body (ownArg o s) s = vBin f o (ownArg o s) s)
    (hg : ∀ l, f l (xLane s o l) (yLane s o l) = g l) : givesLanes s i s o.a o.ty (ownMask s o o.ty) g :=
  givesLanes_of_vWrite he hb (fun l => by rw [rx_ownArg, ry_ownArg]; exact hg l)

/-- An elementwise instruction of one operand. -/
theorem givesLanes_unary {s : State} {i : Instr} {o : VOp} {body : VBody} {f : Nat → Nat → Nat} {g : Nat → Nat}
    (he : exec i s = issue i (vExec o body) s) (hb : body (ownArg o s) s = vUn f o (ownArg o s) s)
    (hg : ∀ l, f l (regLane s o o.b l) = g l) : givesLanes s i s o.a o.ty (ownMask s o o.ty) g :=
  givesLanes_of_vWrite he hb (fun l => by rw [rb_ownArg]; exact hg l)

/-! ## Lane functions (R223, Table 13.3) -/

theorem arith_float {o : VOp} (h : (fmtOf o.ty).isFloat = true) (e : VArg) (fv : Val → Val → Val) (fi : Int → Int → Int) (l x y : Nat) :
    arith o e fv fi l x y = (fmtOf o.ty).narrow (laneHow o e l) (fv ((fmtOf o.ty).val x) ((fmtOf o.ty).val y)) := by
  unfold arith
  split
  · next hi => exact absurd hi (not_int_of_isFloat h _ _)
  · rfl

theorem arith_int {o : VOp} {n : Nat} {sg : Bool} (h : fmtOf o.ty = .int n sg) (e : VArg) (fv : Val → Val → Val) (fi : Int → Int → Int)
    (l x y : Nat) : arith o e fv fi l x y = intResult n sg o.sat (fi (intOf n sg x) (intOf n sg y)) := by
  simp only [arith, h]

@[simp] theorem isNan_ofInt (a : Int) : (Val.ofInt a).isNan = false := rfl

theorem lt_ofInt (a b : Int) : (Val.ofInt a).lt (.ofInt b) = decide (a < b) := by
  have hl (n : Nat) : lift n 0 0 = n := Nat.mul_one n
  rw [Bool.eq_iff_iff]
  by_cases ha : a < 0 <;> by_cases hb : b < 0 <;> simp [Val.ofInt, Val.lt, hl, ha, hb] <;> omega

theorem below_ofInt (a b : Int) : (Val.ofInt a).below (.ofInt b) = decide (a < b) := by
  have hz : ((Val.ofInt a).isZero && (Val.ofInt a).neg?) = false := by
    simp only [Val.ofInt, Val.isZero, Val.neg?, Bool.and_eq_false_iff, beq_eq_false_iff_ne, decide_eq_false_iff_not]; omega
  rw [Val.below, lt_ofInt]
  revert hz
  cases (Val.ofInt a).isZero <;> simp +contextual

theorem minmax_int {t : ETy} {n : Nat} {sg : Bool} (h : fmtOf t = .int n sg) (mx : Bool) (l x y : Nat) :
    minmax t mx l x y = if mx then (if intOf n sg x < intOf n sg y then y else x) else (if intOf n sg y < intOf n sg x then y else x) := by
  simp [minmax, h, NFmt.val, below_ofInt]

/-- The value of a code lies within one modulus of 0. -/
theorem intOf_bounds {w x : Nat} (sg : Bool) (hx : x < 2 ^ w) : -2 ^ w ≤ intOf w sg x ∧ intOf w sg x < 2 ^ w := by
  have hx' : (x : Int) < 2 ^ w := by exact_mod_cast hx
  unfold intOf
  split <;> omega

theorem intOf_neg_iff {w x : Nat} (hx : x < 2 ^ w) : intOf w true x < 0 ↔ 2 ^ (w - 1) ≤ x := by
  have hx' : (x : Int) < 2 ^ w := by exact_mod_cast hx
  unfold intOf
  split
  · next h =>
    have hs : 2 ^ (w - 1) ≤ x := by simpa using h
    omega
  · next h =>
    have hs : ¬2 ^ (w - 1) ≤ x := by simpa using h
    omega

theorem intBits_neg_one (w : Nat) : intBits w (-1) = 2 ^ w - 1 := by
  have hp : (0 : Int) < 2 ^ w := Int.pow_pos (by decide)
  have hmod : (-1 : Int) % 2 ^ w = 2 ^ w - 1 := by
    rw [← Int.add_emod_right, Int.emod_eq_of_lt] <;> omega
  have hcast : ((2 ^ w - 1 : Nat) : Int) = 2 ^ w - 1 := by push_cast [Nat.one_le_two_pow]; rfl
  rw [intBits, hmod]; omega

/-- A shift by the width or more leaves copies of the sign bit. -/
theorem intBits_sra {w x : Nat} (c : Nat) (hx : x < 2 ^ w) :
    intBits w (intOf w true x / 2 ^ min c w) =
      if w ≤ c then (if 2 ^ (w - 1) ≤ x then 2 ^ w - 1 else 0) else intBits w (intOf w true x / 2 ^ c) := by
  split
  · next hc =>
    obtain ⟨hlo, hhi⟩ := intOf_bounds true hx
    rw [Nat.min_eq_right hc]
    split
    · next hs =>
      rw [Int.ediv_eq_neg_one_of_neg_of_le ((intOf_neg_iff hx).2 hs) (by omega), intBits_neg_one]
    · next hs =>
      have hpos : 0 ≤ intOf w true x := Int.not_lt.1 (mt (intOf_neg_iff hx).1 hs)
      rw [Int.ediv_eq_zero_of_lt hpos hhi]; rfl
  · next hc => rw [Nat.min_eq_left (by omega)]

section
variable (s : State) (o : VOp)

/-! ## Rules of the elementwise instructions -/

theorem givesLanes_vabs_float (h : (fmtOf o.ty).isFloat = true) :
    givesLanes s (.vabs o) s o.a o.ty (ownMask s o o.ty) (fun l => regLane s o o.b l % 2 ^ (laneW o.ty - 1)) :=
  givesLanes_unary rfl rfl fun l => by
    split
    · next hi => exact absurd hi (not_int_of_isFloat h _ _)
    · rfl

theorem givesLanes_vneg_float (h : (fmtOf o.ty).isFloat = true) :
    givesLanes s (.vneg o) s o.a o.ty (ownMask s o o.ty) (fun l => (regLane s o o.b l + 2 ^ (laneW o.ty - 1)) % 2 ^ laneW o.ty) :=
  givesLanes_unary rfl rfl fun l => by
    split
    · next hi => exact absurd hi (not_int_of_isFloat h _ _)
    · rfl

theorem givesLanes_vfused {i : Instr} {neg : Bool} {c : Reg} (he : exec i s = issue i (vExec o (vFused o neg)) s) (hc : o.c = some c) :
    givesLanes s i s o.a o.ty (ownMask s o o.ty) (fun l =>
      let p := ((fmtOf o.ty).val (regLane s o o.b l)).mul ((fmtOf o.ty).val (regLane s o c l))
      (fmtOf o.ty).narrow (laneHow o (ownArg o s) l) (((fmtOf o.ty).val (regLane s o o.a l)).add (if neg then p.negate else p))) :=
  givesLanes_of_vWrite he rfl fun l => by simp only [ra_ownArg, rb_ownArg, rc_ownArg, hc]; rfl

variable {n : Nat} {sg : Bool}

theorem givesLanes_vabs_int (h : fmtOf o.ty = .int n sg) :
    givesLanes s (.vabs o) s o.a o.ty (ownMask s o o.ty)
      (fun l => intResult n sg o.sat ((intOf n sg (regLane s o o.b l)).natAbs : Nat)) :=
  givesLanes_unary rfl rfl fun l => by simp only [h]

theorem givesLanes_vneg_int (h : fmtOf o.ty = .int n sg) :
    givesLanes s (.vneg o) s o.a o.ty (ownMask s o o.ty) (fun l => intResult n sg o.sat (-intOf n sg (regLane s o o.b l))) :=
  givesLanes_unary rfl rfl fun l => by simp only [h]

/-- R244: the products of the elements of a 32-bit lane, added to the accumulator. -/
def dotTotal (s : State) (o : VOp) (n : Nat) (sg : Bool) (c : Reg) (l : Nat) : Int :=
  (List.range (32 / n)).foldl (fun t k =>
    t + intOf n sg (regLane s o o.b (l * (32 / n) + k)) * intOf n sg (regLane s o c (l * (32 / n) + k)))
    (intOf 32 sg (lane (s.vr (self s) o.a) 32 l))

theorem givesLanes_vdot (h : fmtOf o.ty = .int n sg) {c : Reg} (hc : o.c = some c) :
    givesLanes s (.vdot o) s o.a .n32 (ownMask s o .n32) (fun l => intResult 32 sg o.sat (dotTotal s o n sg c l)) :=
  givesLanes_of_vWrite rfl rfl fun l => by
    simp only [h, hc, laneW_int h, dotTotal, regLane, ra_ownArg, rb_ownArg, rc_ownArg, w_ownArg, Option.getD_some]

end

/-- Settles O26: each instruction's body writes lanes under the mask by a function of the operands' lanes, and that function is the statement's,
on floating-point types (`arith_float`), on integers (`arith_int`, `minmax_int`) and at a shift by the width or more (`intBits_sra`). -/
theorem vectorArithmetic : Obligations.VectorArithmetic := by
  intro s o w fm ww m at_ x y ub how gives
  refine ⟨fun hf => ⟨?_, ?_, ?_, ?_, ?_, ?_, ?_, fun c hc => ⟨?_, ?_⟩⟩, fun n sg hi => ⟨?_, ?_, ?_, ?_, ?_, ?_, ?_, fun c hc _ => ?_⟩,
    ?_, ?_, ?_, ?_, ?_, ?_⟩
  · exact givesLanes_binary rfl rfl fun l => arith_float hf ..
  · exact givesLanes_binary rfl rfl fun l => arith_float hf ..
  · exact givesLanes_binary rfl rfl fun l => arith_float hf ..
  · exact givesLanes_binary rfl rfl fun l => rfl
  · exact givesLanes_binary rfl rfl fun l => rfl
  · exact givesLanes_vabs_float s o hf
  · exact givesLanes_vneg_float s o hf
  · exact givesLanes_vfused s o (neg := false) rfl hc
  · exact givesLanes_vfused s o (neg := true) rfl hc
  · exact givesLanes_binary rfl rfl fun l => arith_int hi ..
  · exact givesLanes_binary rfl rfl fun l => arith_int hi ..
  · exact givesLanes_binary rfl rfl fun l => arith_int hi ..
  · exact givesLanes_binary rfl rfl fun l => minmax_int hi false ..
  · exact givesLanes_binary rfl rfl fun l => minmax_int hi true ..
  · exact givesLanes_vabs_int s o hi
  · exact givesLanes_vneg_int s o hi
  · exact givesLanes_vdot s o hi hc
  · exact givesLanes_binary rfl rfl fun l => rfl
  · exact givesLanes_binary rfl rfl fun l => rfl
  · exact givesLanes_binary rfl rfl fun l => rfl
  · exact givesLanes_binary rfl rfl fun l => rfl
  · exact givesLanes_binary rfl rfl fun l => rfl
  · exact givesLanes_binary rfl rfl fun l => intBits_sra _ (lane_lt ..)

/-! ## Reductions, permutes, insertion and extraction (R233 to R237) -/

/-- The lane that `vext` and `vins` name: that of gC, or 0 without PFX.R (R235). -/
def namedLane (s : State) (o : VOp) : Nat := o.c.elim 0 (fun c => (s.rd (self s) c).toNat % laneN o.ty)

theorem namedLane_eq (s : State) (o : VOp) : (if o.c.isSome then (ownArg o s).gc.toNat % laneN o.ty else 0) = namedLane s o := by
  cases h : o.c <;> simp [namedLane, h]

/-- R235: the types whose lanes `vext` extends with their sign. -/
theorem extLane_eq {t : ETy} {v : Nat} (hv : v < 2 ^ laneW t) :
    extLane t v = if t ∈ [ETy.s4, .s8, .s16, .s32] ∧ 2 ^ (laneW t - 1) ≤ v
      then BitVec.ofNat 64 v - BitVec.ofNat 64 (2 ^ laneW t) else BitVec.ofNat 64 v := by
  have hs : sxt v (laneW t) = if 2 ^ (laneW t - 1) ≤ v then BitVec.ofNat 64 v - BitVec.ofNat 64 (2 ^ laneW t) else BitVec.ofNat 64 v := by
    simp only [sxt, Nat.mod_eq_of_lt hv, ← Nat.not_le, ite_not]; rfl
  cases t <;> simp [extLane, w64, hs]

theorem givesReg_vext (s : State) (o : VOp) : givesReg s (.vext o) o.a (extLane o.ty (regLane s o o.b (namedLane s o))) := by
  refine givesReg_of_op rfl (vExec_ok ?_)
  simp only [vExt, namedLane_eq, rb_ownArg, w_ownArg, regLane]

theorem givesLanes_vins (s : State) (o : VOp) :
    givesLanes s (.vins o) s o.a o.ty (fun l => l == namedLane s o) (fun _ => (s.rd (self s) o.b).toNat) :=
  givesLanes_of_setLanes rfl (by simp only [vIns, namedLane_eq, ra_ownArg, w_ownArg, gb_ownArg])

theorem givesState_vred_int {s : State} {o : VOp} {n : Nat} {sg : Bool} (h : fmtOf o.ty = .int n sg) (op : RedOp) :
    givesState s (.vred o op) (s.setV (self s) o.a (BitVec.ofNat 512
      (intBits 64 (redInt op n sg o.sat (laneN o.ty) (ownMask s o o.ty) (regLane s o o.b))))) :=
  givesState_of_body rfl (by simp only [vRed, h, ra_ownArg, rb_ownArg, w_ownArg]; rfl) (fall_setV ..)

theorem givesState_vred_float {s : State} {o : VOp} (h : (fmtOf o.ty).isFloat = true) (op : RedOp) :
    givesState s (.vred o op) (s.setV (self s) o.a (BitVec.ofNat 512
      (redFloat op (fmtOf o.ty) (laneN o.ty) (ownMask s o o.ty) (regLane s o o.b)))) :=
  givesState_of_body rfl (by
    simp only [vRed, ra_ownArg, rb_ownArg, w_ownArg]
    split
    · next hi => exact absurd hi (not_int_of_isFloat h _ _)
    · rfl) (fall_setV ..)

theorem redInt_add (w : Nat) (sg sat : Bool) (n : Nat) (m : Nat → Bool) (x : Nat → Nat) :
    redInt .add w sg sat n m x =
      let t := ((List.range n).filterMap (fun l => if m l then some (intOf w sg (x l)) else none)).sum
      if w = 64 ∧ sat = true then clampInt 64 true t else t := by
  rw [redInt, List.sum_eq_foldl]

/-- Settles O29: the permutes write lanes under the mask, `vins` the one lane that it names, `vext` a g register, and `vred` the
whole of register a. That `.sat` has no effect on a floating-point `vred` is the model's reading (log entry 10). -/
theorem vectorPermutes : Obligations.VectorPermutes := by
  intro s o w ww n mk at_ x y pos gives
  refine ⟨?_, ?_, fun c hc => ?_, ?_, ?_, ?_, fun bw sg hi => ⟨?_, ?_, ?_, ?_⟩, fun hf op => ?_⟩
  · exact givesLanes_of_vWrite rfl rfl fun l => by rw [rx_ownArg, ry_ownArg]; rfl
  · exact givesLanes_of_vWrite rfl rfl fun l => by rw [rx_ownArg, ry_ownArg]; rfl
  · exact givesLanes_of_vWrite rfl rfl fun l => by rw [rb_ownArg, gc_ownArg, hc]; rfl
  · exact givesLanes_of_vWrite rfl rfl fun l => by rw [rb_ownArg]; rfl
  · exact extLane_eq (lane_lt ..) ▸ givesReg_vext s o
  · exact givesLanes_vins s o
  · exact redInt_add .. ▸ givesState_vred_int hi .add
  · exact givesState_vred_int hi .min
  · exact givesState_vred_int hi .max
  · exact givesState_vred_int hi .amax
  · cases op <;> exact givesState_vred_float hf _

end Sys2Proof.Machine
end
